-- ==== Sys2Proof/Word.lean ====
section
/-! DEFINITION. The word types of the TH-240: the 16-bit cable and disk word, the 32-bit tick value and the byte. -/

namespace Sys2Proof

/-- A word of a port cable or of a sector (12, R171; 01, R2): 16 bits. -/
abbrev Word := BitVec 16

/-- A tick value (06, R93): 32 bits, one tick is 100 µs. -/
abbrev Tick := BitVec 32

/-- Half a word: a kind code or a tag (12, section 12.1). -/
abbrev Byte := BitVec 8

end Sys2Proof
end

