-- ==== Sys2Proof/Syntax.lean ====
section
/-! DEFINITION. The commands of the TH-240: one constructor of `Instr` for each row of spec/opcode_table.json, with
the operands the outside sends with it. -/

namespace Sys2Proof.Machine

/-- The two port cables (00, section 0.2). -/
inductive Port where
  | a | b
  deriving DecidableEq, Repr

/-- The input lines of the panel and of the drive cable (00, section 0.2). `true` is active, ON, or CHANGEOVER. -/
structure Lines where
  /-- plan-select line: `false` NORMAL, `true` CHANGEOVER (02, R23) -/
  select : Bool
  /-- changeover strobe line (02, R23) -/
  strobe : Bool
  /-- fixed-plan key line (02, R25) -/
  fixedKey : Bool
  /-- guard key line (03, R38) -/
  guardKey : Bool
  /-- alarm acknowledge line (11, R165) -/
  ack : Bool
  /-- cartridge present line (08, R129) -/
  cartridge : Bool
  /-- door closed line (08, R129) -/
  door : Bool
  /-- start switch line (08, R129) -/
  start : Bool
  /-- write supply good line (08, R134) -/
  supply : Bool
  /-- over-temperature line (08, R135) -/
  overTemp : Bool
  /-- on-cylinder line (06, R99, R103) -/
  onCylinder : Bool
  deriving DecidableEq, Repr

/-- One sector of the cartridge as it stands on the disk (01, section 1.2): three header words and their check
word, 256 data words and their check word. -/
structure Sector where
  hCyl : Word
  hHead : Word
  hSector : Word
  hCheck : Word
  data : List Word
  dCheck : Word
  deriving DecidableEq, Repr

/-- A cartridge's sectors by sector number, cylinder × 80 + head × 20 + sector (01, R1). -/
abbrev Cartridge := List (Nat × Sector)

/-- What the heads read as a sector's header: what the cartridge in the model holds there, or the words the drive's
read channel delivered instead (assumption 11). -/
inductive HeaderReading where
  | stored
  | read (cyl head sector check : Word)
  deriving DecidableEq, Repr

/-- What the heads read as a sector's data field, in the same way (assumption 11). -/
inductive DataReading where
  | stored
  | read (words : List Word) (check : Word)
  deriving DecidableEq, Repr

end Sys2Proof.Machine

namespace Sys2Proof

open Sys2Proof.Machine

/-- The commands: one constructor per row of spec/opcode_table.json. An order row carries the port, the packet's tag
byte and the packet's words after word 0; word 0 is the kind code of the row and the tag (12, section 12.1). -/
inductive Instr where
  /-- POWER_ON: the line levels as found, and another cartridge if the one in place was changed -/
  | powerOn (lines : Lines) (cart : Option Cartridge)
  | panelReset
  | orderOutOpening (p : Port) (w : Word)
  | dataOutOpening (p : Port) (w : Word)
  | replyIn (p : Port) (w : Word)
  | dataIn (p : Port) (w : Word)
  /-- STATUS_IN: `whole` says whether the host fetches the record whole; the table has no row for its completion -/
  | statusIn (p : Port) (w : Word) (whole : Bool)
  | openingWordNoKind (p : Port) (w : Word)
  | strayWord (p : Port) (w : Word)
  /-- DATA_OUT: the block header word and the data words that followed it -/
  | dataOut (p : Port) (header : Word) (words : List Word)
  | replyInComplete (p : Port)
  | dataInComplete (p : Port)
  | read (p : Port) (tag : Byte) (rest : List Word)
  | write (p : Port) (tag : Byte) (rest : List Word)
  | check (p : Port) (tag : Byte) (rest : List Word)
  | formatTrack (p : Port) (tag : Byte) (rest : List Word)
  | initializeLabel (p : Port) (tag : Byte) (rest : List Word)
  | assignSpare (p : Port) (tag : Byte) (rest : List Word)
  | testTrack (p : Port) (tag : Byte) (rest : List Word)
  | readPlan (p : Port) (tag : Byte) (rest : List Word)
  | writePlan (p : Port) (tag : Byte) (rest : List Word)
  | loadPlan (p : Port) (tag : Byte) (rest : List Word)
  | setMapMode (p : Port) (tag : Byte) (rest : List Word)
  | setGuard (p : Port) (tag : Byte) (rest : List Word)
  | setSupervision (p : Port) (tag : Byte) (rest : List Word)
  | setAlarmLine (p : Port) (tag : Byte) (rest : List Word)
  | clearAlarms (p : Port) (tag : Byte) (rest : List Word)
  | captureStatistics (p : Port) (tag : Byte) (rest : List Word)
  | readStatistics (p : Port) (tag : Byte) (rest : List Word)
  | readLabel (p : Port) (tag : Byte) (rest : List Word)
  | restartDrive (p : Port) (tag : Byte) (rest : List Word)
  | arm (p : Port) (tag : Byte) (rest : List Word)
  | clearPort (p : Port) (tag : Byte) (rest : List Word)
  /-- UNKNOWN_KIND: the packet's kind byte, its tag byte and its words after word 0 -/
  | unknownKind (p : Port) (code : Byte) (tag : Byte) (rest : List Word)
  | changeoverStrobe
  | planSelectLine (changeover : Bool)
  | fixedPlanKeyOn
  | fixedPlanKeyOff
  | guardKeyLine (on : Bool)
  | alarmAcknowledge
  | flashTimerExpiry
  | presenceTimerExpiry (p : Port)
  | dueTickExpiry (p : Port) (tag : Byte)
  | drainLimit (p : Port) (tag : Byte)
  | indexPulse (h : HeaderReading)
  | sectorPulse (h : HeaderReading)
  | sectorPassEnd (d : DataReading)
  | seekArrival
  | seekTimeout
  | recalibrationComplete
  | recalibrationLimit
  | indexLoss
  /-- RUN_CONDITION_HOLDS: all three lines are active; another cartridge if the one in place was changed, which it can
  be in EMPTY and SPINNING DOWN (assumption 20) -/
  | runConditionHolds (cart : Option Cartridge)
  /-- RUN_CONDITION_FAILS: the levels of the three lines, not all active -/
  | runConditionFails (cartridge door start : Bool)
  | writeSupplyLost
  | writeSupplyGood
  | overTemperature
  | spinUpTimeout
  | runDownTimeout
  | overTemperatureInactive
  | changeoverStrobeInactive
  | alarmAcknowledgeInactive
  deriving DecidableEq, Repr

end Sys2Proof
end

