-- ==== Sys2Proof/Decode.lean ====
section
/-! DEFINITION. The decoder of the block form. No row of spec/opcode_table.json gives bits, so no word spells a
command. -/

namespace Sys2Proof

/-- The command that the `nbits` bits of `w` spell by the table's bits: none, since no row of the table gives bits
(assumption 28). -/
def decodeTableWord (_nbits _w : Nat) : Option Instr := none

end Sys2Proof
end

