-- ==== Sys2Proof/Config.lean ====
section
/-! DEFINITION. What the manual leaves open: the free values of the model. Nothing in Lean can evaluate them. -/

namespace Sys2Proof

/-- Free value: word `i` of the data field left by the `n`-th cut sector write (01, R2 says only that the data
field is left with a data check word that fails). Assumption 4. -/
opaque Config.cutWord : Nat → Nat → Word

/-- Free value: the data check word left by the `n`-th cut sector write. R2 fixes only that it fails; where this
value would pass, the model takes its complement (Operands.lean, `cutField`). Assumption 4. -/
opaque Config.cutCheck : Nat → Word

end Sys2Proof
end

