-- ==== Sys2Proof/Machine/State.lean ====
section
/-! DEFINITION. The state of the TH-240 as plain data, and its value right after power-on. Each structure is one
block of the controller (00, section 0.3); each field's docstring names the rule that gives it. -/

namespace Sys2Proof.Machine

/-- One value for each port. -/
structure PerPort (α : Type) where
  a : α
  b : α
  deriving DecidableEq, Repr

/-! ## Region map unit (chapter 2) -/

/-- A port's right in a region (R15). -/
inductive Right where
  | none | read | write
  deriving DecidableEq, Repr

/-- One entry of a region plan (R15); its number is its place in the plan. -/
structure PlanEntry where
  inUse : Bool
  first : Nat
  last : Nat
  rightA : Right
  rightB : Right
  deriving DecidableEq, Repr

/-- A plan: 16 entries (R15). -/
abbrev Plan := Vector PlanEntry 16

/-- Where the active map came from (R16). -/
inductive Origin where
  | fixed | plan1 | plan2 | edited
  deriving DecidableEq, Repr

/-- The map mode (R19). -/
inductive MapMode where
  | direct | lineStrobe | orderStrobe
  deriving DecidableEq, Repr

/-- The region map unit (R16, R19). -/
structure MapUnit where
  active : Plan
  plan1 : Plan
  plan2 : Plan
  origin : Origin
  mode : MapMode
  auto : Bool
  deriving DecidableEq, Repr

/-- The entry of an emptied plan (R15). -/
def PlanEntry.empty : PlanEntry := ⟨false, 0, 0, .none, .none⟩

/-- An emptied plan (R15). -/
def Plan.empty : Plan := Vector.replicate 16 PlanEntry.empty

/-- The fixed plan (R15). -/
def Plan.fixed : Plan :=
  ((Vector.replicate 16 PlanEntry.empty).set 0 ⟨true, 0, 191, .write, .read⟩).set 1 ⟨true, 192, 383, .read, .write⟩

/-! ## Write guard (chapter 3) -/

/-- The span of the guarded range (R34, R35). -/
inductive Span where
  | none | sixteenth | eighth | quarter | half | all
  deriving DecidableEq, Repr

/-- The guard mode (R34). -/
inductive GuardMode where
  | opened | keyed | locked
  deriving DecidableEq, Repr

/-- The guard setting and mode (R34). `low` is the side: `false` HIGH, `true` LOW. -/
structure Guard where
  span : Span
  low : Bool
  complement : Bool
  freeze : Bool
  mode : GuardMode
  deriving DecidableEq, Repr

/-! ## Orders and slots (chapter 4) -/

/-- The 21 order kinds (R44). -/
inductive Kind where
  | read | write | check | formatTrack | initializeLabel | assignSpare | testTrack
  | readPlan | writePlan | loadPlan | setMapMode | setGuard | setSupervision | setAlarmLine | clearAlarms
  | captureStatistics | readStatistics | readLabel | restartDrive | arm | clearPort
  deriving DecidableEq, Repr

/-- The refusal codes of the acceptance checks (R51). -/
inductive Refuse where
  | malformed | unknownKind | queueFull | tagInUse | notArmed | notReady | noRegion | noAccess | outOfRegion
  | badCount | trackSpan | guarded | unlabelled | sparesExhausted | planConflict | keyHeld | guardLocked
  | wrongMode | badAddress | notFaulted
  deriving DecidableEq, Repr

/-- The outcomes a reply carries (R58). -/
inductive Ending where
  | done | expired | readFault | writeFault | verifyFault | guarded | mapChanged | portLost | stalled
  | writeInhibited | volumeGone | driveFault | sparesExhausted
  deriving DecidableEq, Repr

/-- The states of a live slot (R48); a FREE slot is an absent record. -/
inductive SlotState where
  | queued | inService | suspended | draining | done
  deriving DecidableEq, Repr

/-- A physical sector address (R1). -/
structure Addr where
  cyl : Nat
  head : Nat
  sector : Nat
  deriving DecidableEq, Repr

/-- The kind-specific parameters a maintenance order carries (R46, chapter 9). -/
inductive Params where
  | none
  | format (cyl head : Nat)
  | label (name : Vector Word 4) (serial : Word)
  | assign (target : Addr)
  | test (head : Nat) (seed : Word) (window : Nat) (stopFirst : Bool)
  deriving DecidableEq, Repr

/-- The five cases of ASSIGN SPARE (R147). -/
inductive AssignCase where
  | newEntry | reSpared | spareRetired | freeRetired | noChange
  deriving DecidableEq, Repr

/-- The write an ASSIGN SPARE has reached (R46, R148); of one that ends at its classification, assumption 41. -/
inductive AssignWrite where
  | zeroing | labelWrite
  deriving DecidableEq, Repr

/-- The maintenance progress of a slot (R46). -/
inductive Maint where
  | none
  | test (writeDone : Bool) (readRevs writeFails mismatched failing : Nat)
  | assign (case : AssignCase) (newSpare : Option Nat) (reached : AssignWrite)
  deriving DecidableEq, Repr

/-- The slot record of a live slot (R46). The buffers it holds are those whose owner it is. -/
structure Slot where
  tag : Byte
  kind : Kind
  /-- the urgency: `true` PROMPT, `false` ROUTINE (R45) -/
  prompt : Bool
  dropIfLate : Bool
  verify : Bool
  start : Option Addr
  count : Option Nat
  params : Params
  maint : Maint
  acceptTick : Tick
  dueTick : Option Tick
  state : SlotState
  sectorsDone : Nat
  verifyPhase : Bool
  retries : Nat
  slips : Nat
  consSlips : Nat
  endTick : Option Tick
  outcome : Option Ending
  faultAddr : Option Addr
  body : List Word
  withdrawn : Bool
  /-- the tick at which the drain timer of a DRAINING slot last started (R114) -/
  drainStart : Option Tick
  deriving DecidableEq, Repr

/-- A port's order queue: 8 slots, the order list and the reply list (R46, R47). -/
structure Queue where
  slots : Vector (Option Slot) 8
  order : List (Fin 8)
  replies : List (Fin 8)
  deriving DecidableEq, Repr

/-! ## Port interfaces (chapter 10) -/

/-- The kind of an open exchange, with the content an IN exchange fixed when it opened (R153, R156). -/
inductive ExchangeKind where
  | orderOut (count : Nat)
  | dataOut
  | replyIn (slot : Option (Fin 8))
  | dataIn (buffer : Option (Fin 4))
  | statusIn
  deriving DecidableEq, Repr

/-- An open exchange: its kind and the words moved so far (R153). -/
structure Exchange where
  kind : ExchangeKind
  moved : List Word
  deriving DecidableEq, Repr

/-- The presence states (R159). -/
inductive Presence where
  | unknown | present | lost
  deriving DecidableEq, Repr

/-- A port interface (R153 to R162). -/
structure PortIf where
  exchange : Option Exchange
  /-- the words the controller holds ready for the host's fetches (R154, R156) -/
  offered : List Word
  /-- how many of them a command has told that the host fetched (R154; assumption 38) -/
  fetched : Nat
  lastWord : Word
  armed : Bool
  presence : Presence
  interval : Nat
  /-- the expiry tick of a running presence timer (R159) -/
  timer : Option Tick
  deriving DecidableEq, Repr

/-! ## Scheduler and positioner (chapters 5 and 6) -/

/-- The scheduler's own items (R68). -/
structure Sched where
  last : Port
  bypass : PerPort Nat
  deriving DecidableEq, Repr

/-- The positioner's activity (R98). -/
inductive Activity where
  | idle | seeking | arrived | confirmed | recalibrating
  deriving DecidableEq, Repr

/-- The positioner (R94, R96, R98, R103, R105). -/
structure Positioner where
  sc : Nat
  t : Nat
  valid : Bool
  lastIndex : Option Tick
  revLength : Int
  outRun : Nat
  inRun : Nat
  /-- the speed verdict: `true` IN BAND -/
  inBand : Bool
  /-- an extra pulse has come in the revolution under way (R96) -/
  extra : Bool
  /-- the current cylinder; absent is UNKNOWN (R98, R104) -/
  cyl : Option Nat
  head : Nat
  activity : Activity
  target : Option Addr
  seekStart : Tick
  seekTime : Nat
  errors : Nat
  arrivalTick : Tick
  recalStart : Tick
  /-- a recalibration has run out its limit at the tick now (R103; assumption 37) -/
  limitTaken : Bool
  deriving DecidableEq, Repr

/-! ## Transfer engine (chapters 7 and 9) -/

/-- The states of a sector buffer (R107). -/
inductive BufState where
  | free | filling | fullForDisk | fullForHost
  deriving DecidableEq, Repr

/-- A sector buffer (R107). -/
structure Buffer where
  state : BufState
  owner : Option (Port × Fin 8)
  index : Nat
  data : List Word
  deriving DecidableEq, Repr

/-- The stage the in-service order has reached: a data order's sectors, a format, a test revolution (R151), the
zeroing of a spare, the label write and its read-back (R145, R148). -/
inductive Stage where
  | data | format | testWaiting | testWriting | testReading | zeroing | labelWrite | readBack
  deriving DecidableEq, Repr

/-- The progress record of the order IN SERVICE (R110). -/
structure Progress where
  next : Nat
  /-- the spare index at which the next sector is to be moved; absent is its own address -/
  dest : Option Nat
  failed : Nat
  stage : Stage
  deriving DecidableEq, Repr

/-- How a header compares with the expected address (R2). -/
inductive Verdict where
  | unreadable | mismatched | matching
  deriving DecidableEq, Repr

/-- What a sector pass does (R113, R118, R121, R122, R143, R145, R148, R151, R7). -/
inductive PassKind where
  | read (buf : Fin 4)
  | check
  | write (buf : Fin 4)
  | verify
  | slip
  | format
  | testWrite
  | testRead
  | zero
  | labelWrite
  | readBack
  | labelRead
  deriving DecidableEq, Repr

/-- The sector pass under way: what it does, at which sector, what its header gave, and the data words it writes. -/
structure Pass where
  kind : PassKind
  addr : Addr
  verdict : Verdict
  words : List Word
  deriving DecidableEq, Repr

/-! ## Drive supervisor (chapters 1 and 8) -/

/-- The drive state (R128). -/
inductive DriveState where
  | empty | spinningUp | calibrating | labelRead | ready | degraded | spinningDown | faulted
  deriving DecidableEq, Repr

/-- The fault reason (R128). -/
inductive FaultReason where
  | seek | indexLost | overtemp | spinUpTimeout | calibration
  deriving DecidableEq, Repr

/-- The drive supervisor's items (R128), and the failed passes of the label read in hand (R7). -/
structure Supervisor where
  state : DriveState
  speed : Bool
  supply : Bool
  fault : Option FaultReason
  stopPending : Bool
  /-- the expiry tick of a running spin-up timer (R130) -/
  spinUp : Option Tick
  attempts : Nat
  /-- the expiry tick of a running run-down timer (R140) -/
  runDown : Option Tick
  labelFails : Nat
  deriving DecidableEq, Repr

/-- The label state (R9). -/
inductive LabelState where
  | none | valid | absent | damaged
  deriving DecidableEq, Repr

/-- An entry of the substitution table (R10). -/
structure SubEntry where
  bad : Addr
  spare : Nat
  deriving DecidableEq, Repr

/-- The held label information (R6, R9): the table in ascending bad address, the retired list in ascending index. -/
structure Label where
  state : LabelState
  name : Vector Word 4
  serial : Word
  gen : Word
  table : List SubEntry
  retired : List Nat
  deriving DecidableEq, Repr

/-! ## Alarm and statistics units (chapter 11) -/

/-- The seven alarm sources (R163). -/
inductive Source where
  | portALost | portBLost | driveFaulted | driveDegraded | labelNotValid | planLoaded | sectorLost
  deriving DecidableEq, Repr

/-- One flag for each alarm source (R163). -/
structure SourceSet where
  portALost : Bool
  portBLost : Bool
  driveFaulted : Bool
  driveDegraded : Bool
  labelNotValid : Bool
  planLoaded : Bool
  sectorLost : Bool
  deriving DecidableEq, Repr

/-- The manners of the alarm line (R167). -/
inductive Manner where
  | inactive | steady | flashing
  deriving DecidableEq, Repr

/-- The alarm unit (R163, R167). `follow` is the line mode: `false` SUMMARY, `true` FOLLOW. -/
structure Alarms where
  latched : SourceSet
  acked : SourceSet
  masked : SourceSet
  follow : Bool
  source : Source
  /-- the expiry tick of a running flash timer -/
  flash : Option Tick
  manner : Manner
  level : Bool
  deriving DecidableEq, Repr

/-- The 26 counters of a bank in the order of the tables of R168. -/
inductive Counter where
  | accepted | refusedFull | refusedOther | sectorsRead | sectorsWritten
  | length1 | length2to4 | length5to16 | length17to64
  | early | close | late | veryLate | expired | slips | stalled | shortExchanges
  | seeks | seekErrors | recalibrations | reReads | sectorsLost | excursions | suspensions | planLoads | outOfBand
  deriving DecidableEq, Repr

/-- A statistics bank (R168). -/
structure Bank where
  live : Vector Nat 26
  snap : Vector Nat 26
  capture : Tick
  deriving DecidableEq, Repr

/-! ## The machine -/

/-- The whole state: the queue of waiting commands, the blocks of the controller, and the cartridge. -/
structure State where
  pending : List Instr
  tick : Tick
  lines : Lines
  map : MapUnit
  guard : Guard
  ports : PerPort PortIf
  queues : PerPort Queue
  sched : Sched
  pos : Positioner
  buffers : Vector Buffer 4
  progress : Option Progress
  pass : Option Pass
  drive : Supervisor
  label : Label
  alarms : Alarms
  banks : PerPort Bank
  /-- the cartridge's sectors, in canonical form (assumption 3) -/
  disk : Cartridge
  /-- the index of the next free value (assumption 4) -/
  free : Nat
  deriving DecidableEq, Repr

/-- Why the machine stops with a fault: it never does. Every command of the table has an effect in the manual, so
no meaning raises a fault. -/
inductive Fault where
  deriving DecidableEq, Repr

/-- Why a command is refused. -/
inductive Refusal where
  /-- A command that has no meaning yet. Raised only by the arms of `exec`; safe: the machine stops where the
  hardware goes on. No arm raises it. -/
  | notModelled (mnemonic : String)
  deriving DecidableEq, Repr

/-! ## Reset values -/

/-- The empty word (R173). -/
def emptyWord : Word := 0xFFFF

/-- A FREE buffer: no owner (R107). DESIGN CHOICE (assumption 40): R107 says that the sector index and the data of a
FREE buffer have no meaning; the model gives it index 0 and no data words, at reset and each time one is freed. -/
def Buffer.empty : Buffer := ⟨.free, none, 0, []⟩

/-- A port interface after a reset (R162). -/
def PortIf.reset : PortIf := ⟨none, [], 0, emptyWord, false, .unknown, 0, none⟩

/-- An order queue after a reset (R64). -/
def Queue.reset : Queue := ⟨Vector.replicate 8 none, [], []⟩

/-- The positioner after a reset (R105). -/
def Positioner.reset : Positioner :=
  { sc := 0, t := 0, valid := false, lastIndex := none, revLength := 0, outRun := 0, inRun := 0, inBand := false,
    extra := false, cyl := none, head := 0, activity := .idle, target := none, seekStart := 0, seekTime := 0,
    errors := 0, arrivalTick := 0, recalStart := 0, limitTaken := false }

/-- The supervisor after a reset, before it judges the run condition (R141). -/
def Supervisor.reset : Supervisor := ⟨.empty, false, false, none, false, none, 0, none, 0⟩

/-- Eight spaces (R9, R13). PRESUMED: a space is the character code 20h, as in ISO 646; the manual gives no code
(assumption 33). -/
def blankName : Vector Word 4 := Vector.replicate 4 0x2020

/-- The held label information of a label state that holds none (R9, R13). -/
def Label.blank (st : LabelState) : Label := ⟨st, blankName, 0, 0, [], []⟩

/-- No source (R163). -/
def SourceSet.empty : SourceSet := ⟨false, false, false, false, false, false, false⟩

/-- The alarm unit after a reset (R163). -/
def Alarms.reset : Alarms := ⟨.empty, .empty, .empty, false, .portALost, none, .inactive, false⟩

/-- A statistics bank after a reset (R168). -/
def Bank.reset : Bank := ⟨Vector.replicate 26 0, Vector.replicate 26 0, 0⟩

/-- The guard at power-on (R34). -/
def Guard.powerOn : Guard := ⟨.none, false, false, false, .opened⟩

/-- The region map unit at power-on with the fixed plan loaded (R16, R19, R27). -/
def MapUnit.powerOn : MapUnit := ⟨.fixed, .empty, .empty, .fixed, .lineStrobe, false⟩

/-- The line levels of the reset state: nothing in place, nothing ON (assumption 2). -/
def Lines.quiet : Lines := ⟨false, false, false, false, false, false, false, false, false, false, false⟩

/-- The machine right after power-on with every input line inactive: every block at its power-on value (R64), the
fixed plan active (R27), the drive EMPTY because the run condition does not hold (R141). -/
def State.reset : State :=
  { pending := [], tick := 0, lines := .quiet, map := .powerOn, guard := .powerOn,
    ports := ⟨.reset, .reset⟩, queues := ⟨.reset, .reset⟩, sched := ⟨.b, ⟨0, 0⟩⟩, pos := .reset,
    buffers := Vector.replicate 4 .empty, progress := none, pass := none, drive := .reset,
    label := .blank .none, alarms := .reset, banks := ⟨.reset, .reset⟩, disk := [], free := 0 }

end Sys2Proof.Machine
end

