-- ==== Sys2Proof/Machine/Operands.lean ====
section
/-! DEFINITION. The values commands and orders are made of: tick arithmetic (00, section 0.5), physical addresses and
the zones (chapter 1), check words, the test pattern, the seek and rotation model (chapter 5), plans and rights
(chapter 2), the guarded set (chapter 3), packet fields and record layouts (chapter 12), the label sector. -/

namespace Sys2Proof.Machine

/-! ## Ticks and bounded counts -/

/-- The signed difference of two tick values (R93). -/
def signedDiff (x y : Tick) : Int := (x - y).toInt

/-- A tick value is reached when its signed difference from the current tick count is zero or negative (R93). -/
def reached (due now : Tick) : Bool := decide (signedDiff due now ≤ 0)

/-- The tick `n` ticks after `t`. -/
def tickAfter (t : Tick) (n : Nat) : Tick := t + BitVec.ofNat 32 n

/-- Add 1 below 65,535 (R46, R151). -/
def sat16 (n k : Nat) : Nat := min (n + k) 65535

/-- A whole number sent as a word (R171). -/
def wordOf (n : Nat) : Word := BitVec.ofNat 16 n

/-- A flag as one bit of a word. -/
def bitOf (b : Bool) : Nat := if b then 1 else 0

/-- Bits `hi..lo` of a word as a number. -/
def field (w : Word) (hi lo : Nat) : Nat := (w.toNat >>> lo) % 2 ^ (hi - lo + 1)

/-- A 32-bit value as two words, the high half first (R171). -/
def twoWords (n : Nat) : List Word := [wordOf (n / 65536), wordOf n]

/-! ## Physical addresses and zones (R1, R4) -/

/-- Sectors in the order of R1: cylinder, then head, then sector. -/
def Addr.linear (x : Addr) : Nat := x.cyl * 80 + x.head * 20 + x.sector

/-- The address of the sector numbered `n` in the order of R1. -/
def Addr.ofLinear (n : Nat) : Addr := ⟨n / 80, n % 80 / 20, n % 20⟩

/-- Spare index i is the sector at cylinder 384, head i div 20, sector i mod 20 (R4). -/
def spareAddr (i : Nat) : Addr := ⟨384, i / 20, i % 20⟩

/-- The label sector (R6). -/
def labelAddr : Addr := ⟨386, 0, 0⟩

/-- Block `b` of a region whose first cylinder is `f` (R17). -/
def blockAddr (f b : Nat) : Addr := ⟨f + b / 80, b % 80 / 20, b % 20⟩

/-! ## Check words (R3) -/

/-- One bit passed through the check register (R3). -/
def crcBit (r : Word) (b : Bool) : Word :=
  if (r.msb ^^ b) then (r <<< 1) ^^^ 0x1021 else r <<< 1

/-- One word passed through the check register, most significant bit first (R3). -/
def crcWord (r w : Word) : Word :=
  [15, 14, 13, 12, 11, 10, 9, 8, 7, 6, 5, 4, 3, 2, 1, 0].foldl (fun r i => crcBit r (w.getLsbD i)) r

/-- The check word of a list of words (R3). -/
def crc (ws : List Word) : Word := ws.foldl crcWord 0xFFFF

/-! ## Sectors -/

/-- Exactly 256 words (01, section 1.2): a longer list is cut and a shorter one filled with zeros (assumption 29). -/
def fit256 (ws : List Word) : List Word := (ws ++ List.replicate 256 0).take 256

/-- 256 zero words (R143, R148). -/
def zeroData : List Word := List.replicate 256 0

/-- The sector an unlisted sector number reads as: unformatted, both check words failing (assumption 3). -/
def Sector.unformatted : Sector := ⟨0, 0, 0, 0, List.replicate 256 0, 0⟩

/-- A sector with a fresh header and data field for an address (R143). -/
def Sector.formatted (x : Addr) (data : List Word) : Sector :=
  let c := wordOf x.cyl; let h := wordOf x.head; let s := wordOf x.sector
  ⟨c, h, s, crc [c, h, s], data, crc data⟩

/-- A sector whose data field is replaced and whose header is left as it was (R2). -/
def Sector.withData (sec : Sector) (data : List Word) : Sector := { sec with data := data, dCheck := crc data }

/-- The data field of the `n`-th cut write: its words are free, and so is its check word but that it fails (R2). -/
def cutField (n : Nat) : List Word × Word :=
  let ws := (List.range 256).map (Config.cutWord n)
  (ws, if Config.cutCheck n = crc ws then ~~~ (Config.cutCheck n) else Config.cutCheck n)

/-- A sector whose data write was cut short: the header stays, the data check word fails (R2). -/
def Sector.cut (sec : Sector) (n : Nat) : Sector := { sec with data := (cutField n).1, dCheck := (cutField n).2 }

/-- The sector numbered `n` of a cartridge. -/
def Cartridge.get (d : Cartridge) (n : Nat) : Sector :=
  match d with
  | [] => .unformatted
  | (m, x) :: rest => if n = m then x else Cartridge.get rest n

/-- A cartridge with sector `n` replaced. The list stays in canonical form: numbers strictly rising and no sector
listed that equals an unlisted one. -/
def Cartridge.put (d : Cartridge) (n : Nat) (x : Sector) : Cartridge :=
  match d with
  | [] => if x = .unformatted then [] else [(n, x)]
  | (m, y) :: rest =>
    if n < m then (if x = .unformatted then (m, y) :: rest else (n, x) :: (m, y) :: rest)
    else if n = m then (if x = .unformatted then rest else (n, x) :: rest)
    else (m, y) :: Cartridge.put rest n x

/-- Every sector number in the list is above `lo`, they rise strictly, and no sector listed is unformatted. -/
def Cartridge.canonicalFrom (lo : Nat) : Cartridge → Bool
  | [] => true
  | (m, x) :: rest => decide (lo ≤ m) && !decide (x = .unformatted) && Cartridge.canonicalFrom (m + 1) rest

/-- The canonical form of the cartridge's list. -/
def Cartridge.wf (d : Cartridge) : Bool := Cartridge.canonicalFrom 0 d

/-- A cartridge from any listing of sectors: each data field of 256 words, later entries winning. -/
def Cartridge.ofList (l : Cartridge) : Cartridge :=
  l.foldl (fun d x => Cartridge.put d x.1 { x.2 with data := fit256 x.2.data }) []

/-- How a header as read compares with the expected address (R2). -/
def classify (c h s chk : Word) (x : Addr) : Verdict :=
  if chk ≠ crc [c, h, s] then .unreadable
  else if c = wordOf x.cyl ∧ h = wordOf x.head ∧ s = wordOf x.sector then .matching
  else .mismatched

/-- The verdict on the header the heads read at `x`. -/
def HeaderReading.verdict (r : HeaderReading) (d : Cartridge) (x : Addr) : Verdict :=
  match r with
  | .stored => let y := Cartridge.get d x.linear; classify y.hCyl y.hHead y.hSector y.hCheck x
  | .read c h s chk => classify c h s chk x

/-- The data words the heads read at `x`. -/
def DataReading.words (r : DataReading) (d : Cartridge) (x : Addr) : List Word :=
  match r with
  | .stored => (Cartridge.get d x.linear).data
  | .read ws _ => fit256 ws

/-- Whether the data check word the heads read at `x` passes (R3). -/
def DataReading.passes (r : DataReading) (d : Cartridge) (x : Addr) : Bool :=
  match r with
  | .stored => let y := Cartridge.get d x.linear; y.dCheck == crc y.data
  | .read ws chk => chk == crc (fit256 ws)

/-! ## The test pattern (R150) -/

/-- One step of the pattern register (R150). -/
def patternStep (r : Word) : Word :=
  (r <<< 1) ||| (if r.getLsbD 15 ^^ r.getLsbD 13 ^^ r.getLsbD 12 ^^ r.getLsbD 10 then 1 else 0)

/-- `n` steps of the pattern register. -/
def patternSteps : Nat → Word → Word
  | 0, r => r
  | n + 1, r => patternSteps n (patternStep r)

/-- `n` successive pattern words, each 16 steps on (R150). -/
def patternWords : Nat → Word → List Word
  | 0, _ => []
  | n + 1, r => let r' := patternSteps 16 r; r' :: patternWords n r'

/-- The seed used: 0 is taken as 1 (R150). -/
def seedUsed (seed : Word) : Word := if seed = 0 then 1 else seed

/-- The pattern words of sector `s` of the track: words 256·s to 256·s + 255 (R150). -/
def patternSector (seed : Word) (s : Nat) : List Word :=
  patternWords 256 (patternSteps (16 * 256 * s) (seedUsed seed))

/-- The number of words that differ, and the number of the first of them, counting from `i` (R151, R152). -/
def compareWords : Nat → List Word → List Word → Nat × Option Nat
  | i, x :: xs, y :: ys =>
    let r := compareWords (i + 1) xs ys
    if x = y then r else (r.1 + 1, some i)
  | _, _, _ => (0, none)

/-! ## The scheduler's timing model (R74 to R77) -/

/-- T_seek for a move of `d` cylinders (R74). -/
def seekTicks (d : Nat) : Nat := if d = 0 then 0 else if d ≤ 16 then 40 + 5 * d else 120 + (d - 16)

/-- The distance between two cylinders (R74). -/
def distance (x y : Nat) : Nat := max x y - min x y

/-- The wait to the start of sector `s` from arrival position `a` (R75). -/
def sectorWait (s a : Nat) : Nat := (((10 * (s : Int) - 1 - a) % 200) + 1).toNat

/-- T_seek + w for a target, from a cylinder and a rotational position (R75, R77). -/
def positionTicks (cyl p : Nat) (target : Addr) : Nat :=
  let ts := seekTicks (distance target.cyl cyl)
  ts + sectorWait target.sector ((p + ts) % 200)

/-- T_est of a PROMPT order (R77). -/
def estimate (cyl p : Nat) (start : Addr) (n : Nat) (verify : Bool) : Nat :=
  positionTicks cyl p start + (if verify then 200 else 0) + 10 * n

/-! ## Plans and rights (R15, R17, R18, R31) -/

/-- A port's right in an entry. -/
def PlanEntry.right (e : PlanEntry) (p : Port) : Right :=
  match p with
  | .a => e.rightA
  | .b => e.rightB

/-- The block count of a region (R17). -/
def PlanEntry.blocks (e : PlanEntry) : Nat := (e.last + 1 - e.first) * 80

/-- The entry is in use and covers the cylinder (R15). -/
def PlanEntry.covers (e : PlanEntry) (c : Nat) : Bool := e.inUse && decide (e.first ≤ c) && decide (c ≤ e.last)

/-- The right a port holds on a cylinder: that of the entry that covers it, NONE where no entry does (R31). -/
def Plan.rightOn (m : Plan) (p : Port) (c : Nat) : Right :=
  match m.toList.find? (·.covers c) with
  | some e => e.right p
  | none => .none

/-- A right covers an order that writes, or one that only reads: WRITE includes READ (R15, R18). -/
def Right.allows (r : Right) (writes : Bool) : Bool :=
  match r with
  | .none => false
  | .read => !writes
  | .write => true

/-- A plan in which no entry is in use is empty (R15). -/
def Plan.isEmpty (m : Plan) : Bool := m.toList.all fun e => !e.inUse

/-- Two in-use entries conflict when neither lies wholly below the other (R20). -/
def PlanEntry.conflicts (e f : PlanEntry) : Bool :=
  e.inUse && f.inUse && !(decide (e.last < f.first) || decide (f.last < e.first))

/-- No entry of the list conflicts with a later one (R20, R31). -/
def conflictFree : List PlanEntry → Bool
  | [] => true
  | e :: rest => (rest.all fun f => !e.conflicts f) && conflictFree rest

/-- No two in-use entries of the plan share a cylinder (R20, R31). -/
def Plan.conflictFree (m : Plan) : Bool := Machine.conflictFree m.toList

/-- The plan with the list's entries written to entry numbers k, k + 1, … (R20). -/
def Plan.putFrom (m : Plan) (k : Nat) : List PlanEntry → Plan
  | [] => m
  | e :: rest => Plan.putFrom (m.setIfInBounds k e) (k + 1) rest

/-- An entry's cylinders are in the data zone and in order (R20). -/
def PlanEntry.addressOk (e : PlanEntry) : Bool :=
  decide (e.first ≤ e.last) && decide (e.first ≤ 383) && decide (e.last ≤ 383)

/-! ## The guarded set (R35 to R37) -/

/-- The cylinder count of a span (R35). -/
def Span.cylinders : Span → Nat
  | .none => 0
  | .sixteenth => 24
  | .eighth => 48
  | .quarter => 96
  | .half => 192
  | .all => 384

/-- The cylinder lies in the guarded range (R35). -/
def Guard.inRange (g : Guard) (c : Nat) : Bool :=
  if g.low then decide (c < g.span.cylinders) else decide (384 - g.span.cylinders ≤ c) && decide (c ≤ 383)

/-- The cylinder is in the protected data set (R35). -/
def Guard.protectsData (g : Guard) (c : Nat) : Bool := decide (c ≤ 383) && (g.complement ^^ g.inRange c)

/-- The write of one sector by FORMAT TRACK on a cylinder is protected (R37). -/
def Guard.protectsFormat (g : Guard) (c : Nat) : Bool :=
  if c ≤ 383 then g.protectsData c else (decide (c = 384) || decide (c = 386)) && g.freeze

/-! ## Codes (chapter 12) -/

/-- The kind codes (12, section 12.1). -/
def Kind.code : Kind → Nat
  | .read => 1 | .write => 2 | .check => 3 | .formatTrack => 4 | .initializeLabel => 5 | .assignSpare => 6
  | .testTrack => 7 | .readPlan => 8 | .writePlan => 9 | .loadPlan => 10 | .setMapMode => 11 | .setGuard => 12
  | .setSupervision => 13 | .setAlarmLine => 14 | .clearAlarms => 15 | .captureStatistics => 16
  | .readStatistics => 17 | .readLabel => 18 | .restartDrive => 19 | .arm => 20 | .clearPort => 21

/-- The acceptance word codes of the refusals (12, section 12.4); 0 is ACCEPTED. -/
def Refuse.code : Refuse → Word
  | .malformed => 1 | .unknownKind => 2 | .queueFull => 3 | .tagInUse => 4 | .notArmed => 5 | .notReady => 6
  | .noRegion => 7 | .noAccess => 8 | .outOfRegion => 9 | .badCount => 10 | .trackSpan => 11 | .guarded => 12
  | .unlabelled => 13 | .sparesExhausted => 14 | .planConflict => 15 | .keyHeld => 16 | .guardLocked => 17
  | .wrongMode => 18 | .badAddress => 19 | .notFaulted => 20

/-- The outcome codes (12, section 12.5). -/
def Ending.code : Ending → Nat
  | .done => 0 | .expired => 1 | .readFault => 2 | .writeFault => 3 | .verifyFault => 4 | .guarded => 5
  | .mapChanged => 6 | .portLost => 7 | .stalled => 8 | .writeInhibited => 9 | .volumeGone => 10
  | .driveFault => 11 | .sparesExhausted => 12

/-- Label state codes (12, section 12.5). -/
def LabelState.code : LabelState → Nat
  | .none => 0 | .valid => 1 | .absent => 2 | .damaged => 3

/-- Drive state codes (12, section 12.7). -/
def DriveState.code : DriveState → Nat
  | .empty => 0 | .spinningUp => 1 | .calibrating => 2 | .labelRead => 3 | .ready => 4 | .degraded => 5
  | .spinningDown => 6 | .faulted => 7

/-- Fault reason codes (12, section 12.7); 0 is absent. -/
def FaultReason.code : FaultReason → Nat
  | .seek => 1 | .indexLost => 2 | .overtemp => 3 | .spinUpTimeout => 4 | .calibration => 5

/-- Right codes (12, section 12.3). -/
def Right.code : Right → Nat
  | .none => 0 | .read => 1 | .write => 2

/-- The right a code names (12, section 12.3). -/
def Right.ofCode : Nat → Option Right
  | 0 => some .none | 1 => some .read | 2 => some .write | _ => Option.none

/-- Map mode codes (12, section 12.1). -/
def MapMode.code : MapMode → Nat
  | .direct => 0 | .lineStrobe => 1 | .orderStrobe => 2

/-- The map mode a code names. -/
def MapMode.ofCode : Nat → Option MapMode
  | 0 => some .direct | 1 => some .lineStrobe | 2 => some .orderStrobe | _ => none

/-- Map origin codes (12, section 12.7). -/
def Origin.code : Origin → Nat
  | .fixed => 0 | .plan1 => 1 | .plan2 => 2 | .edited => 3

/-- Guard span codes (12, section 12.1). -/
def Span.code : Span → Nat
  | .none => 0 | .sixteenth => 1 | .eighth => 2 | .quarter => 3 | .half => 4 | .all => 5

/-- The guard span a code names. -/
def Span.ofCode : Nat → Option Span
  | 0 => some .none | 1 => some .sixteenth | 2 => some .eighth | 3 => some .quarter | 4 => some .half
  | 5 => some .all | _ => Option.none

/-- Guard mode codes (12, section 12.1). -/
def GuardMode.code : GuardMode → Nat
  | .opened => 0 | .keyed => 1 | .locked => 2

/-- The guard mode a code names. -/
def GuardMode.ofCode : Nat → Option GuardMode
  | 0 => some .opened | 1 => some .keyed | 2 => some .locked | _ => none

/-- Presence codes (12, section 12.7). -/
def Presence.code : Presence → Nat
  | .unknown => 0 | .present => 1 | .lost => 2

/-- ASSIGN SPARE case codes (12, section 12.5). -/
def AssignCase.code : AssignCase → Nat
  | .newEntry => 0 | .reSpared => 1 | .spareRetired => 2 | .freeRetired => 3 | .noChange => 4

/-- The alarm source a number names (12, section 12.1). -/
def Source.ofCode : Nat → Option Source
  | 0 => some .portALost | 1 => some .portBLost | 2 => some .driveFaulted | 3 => some .driveDegraded
  | 4 => some .labelNotValid | 5 => some .planLoaded | 6 => some .sectorLost | _ => none

/-- The flags of a source set as bits 6-0 of a word (12, sections 12.1 and 12.7). -/
def SourceSet.word (f : SourceSet) : Word :=
  wordOf (bitOf f.portALost + 2 * bitOf f.portBLost + 4 * bitOf f.driveFaulted + 8 * bitOf f.driveDegraded
    + 16 * bitOf f.labelNotValid + 32 * bitOf f.planLoaded + 64 * bitOf f.sectorLost)

/-- The source set that bits 6-0 of a word name (12, section 12.1). -/
def SourceSet.ofWord (w : Word) : SourceSet :=
  ⟨w.getLsbD 0, w.getLsbD 1, w.getLsbD 2, w.getLsbD 3, w.getLsbD 4, w.getLsbD 5, w.getLsbD 6⟩

/-- The index of a counter in the tables of R168. -/
def Counter.idx : Counter → Fin 26
  | .accepted => 0 | .refusedFull => 1 | .refusedOther => 2 | .sectorsRead => 3 | .sectorsWritten => 4
  | .length1 => 5 | .length2to4 => 6 | .length5to16 => 7 | .length17to64 => 8 | .early => 9 | .close => 10
  | .late => 11 | .veryLate => 12 | .expired => 13 | .slips => 14 | .stalled => 15 | .shortExchanges => 16
  | .seeks => 17 | .seekErrors => 18 | .recalibrations => 19 | .reReads => 20 | .sectorsLost => 21
  | .excursions => 22 | .suspensions => 23 | .planLoads => 24 | .outOfBand => 25

/-! ## Plan entries, substitution entries and the label sector (12, sections 12.3 and 12.6) -/

/-- The three words of a plan entry (12, section 12.3). -/
def PlanEntry.words (e : PlanEntry) : List Word :=
  [wordOf (32768 * bitOf e.inUse + 4 * e.rightA.code + e.rightB.code), wordOf e.first, wordOf e.last]

/-- The plan entry of three words; none where a right field holds no code (12, section 12.3). -/
def PlanEntry.ofWords (w0 w1 w2 : Word) : Option PlanEntry :=
  match Right.ofCode (field w0 3 2), Right.ofCode (field w0 1 0) with
  | some ra, some rb => some ⟨w0.getLsbD 15, w1.toNat, w2.toNat, ra, rb⟩
  | _, _ => none

/-- A list of `m` plan entries read from words (12, section 12.1); none where one of them is no entry. -/
def planEntriesOf : Nat → List Word → Option (List PlanEntry)
  | 0, _ => some []
  | m + 1, w0 :: w1 :: w2 :: rest =>
    match PlanEntry.ofWords w0 w1 w2, planEntriesOf m rest with
    | some e, some es => some (e :: es)
    | _, _ => none
  | _ + 1, _ => none

/-- The two words of a substitution entry (12, section 12.6). -/
def SubEntry.words (e : SubEntry) : List Word :=
  [wordOf e.bad.cyl, wordOf (4096 * e.bad.head + 128 * e.bad.sector + e.spare)]

/-- The substitution entry of two words (12, section 12.6). -/
def SubEntry.ofWords (w0 w1 : Word) : SubEntry :=
  ⟨⟨w0.toNat, field w1 15 12, field w1 11 7⟩, field w1 6 0⟩

/-- `n` substitution entries read from words. -/
def subEntriesOf : Nat → List Word → List SubEntry
  | 0, _ => []
  | n + 1, w0 :: w1 :: rest => SubEntry.ofWords w0 w1 :: subEntriesOf n rest
  | _ + 1, _ => []

/-- An entry placed in ascending order of bad address (R10). -/
def insertEntry (e : SubEntry) : List SubEntry → List SubEntry
  | [] => [e]
  | f :: rest => if e.bad.linear < f.bad.linear then e :: f :: rest else f :: insertEntry e rest

/-- A spare index added once to the retired list, kept in ascending order (R10). -/
def insertRetired (i : Nat) : List Nat → List Nat
  | [] => [i]
  | j :: rest => if i < j then i :: j :: rest else if i = j then j :: rest else j :: insertRetired i rest

/-- The substitution table's entry for a bad address, as its spare index (R12). -/
def lookupSpare (table : List SubEntry) (x : Addr) : Option Nat :=
  (table.find? fun e => decide (e.bad = x)).map (·.spare)

/-- A spare is free when no entry names it and it is not retired (R4). -/
def spareFree (table : List SubEntry) (retired : List Nat) (i : Nat) : Bool :=
  (table.all fun e => !decide (e.spare = i)) && !retired.contains i

/-- The lowest free spare (R4). -/
def lowestFree (table : List SubEntry) (retired : List Nat) : Option Nat :=
  (List.range 80).find? (spareFree table retired)

/-- The label mark (R6). -/
def labelMark : Word := 0x6B1D

/-- The 256 words of a label sector's data field (12, section 12.6). -/
def labelWords (l : Label) : List Word :=
  fit256 ([labelMark] ++ l.name.toList ++ [l.serial, l.gen, wordOf l.table.length, wordOf l.retired.length]
    ++ l.table.flatMap SubEntry.words ++ l.retired.map wordOf)

/-- Word `i` of a list, 0 beyond its end. -/
def wordAt (ws : List Word) (i : Nat) : Word := ws.getD i 0

/-- No number occurs twice. -/
def distinct : List Nat → Bool
  | [] => true
  | x :: rest => !rest.contains x && distinct rest

/-- The conditions of R8 on a label's entries, retired indices and generation. -/
def labelSound (gen : Word) (table : List SubEntry) (retired : List Nat) : Bool :=
  decide (gen ≠ 0)
    && table.all (fun e => decide (e.bad.cyl ≤ 383) && decide (e.bad.head ≤ 3) && decide (e.bad.sector ≤ 19))
    && table.all (fun e => decide (e.spare < 80)) && retired.all (fun i => decide (i < 80))
    && distinct (table.map (·.bad.linear)) && distinct (table.map (·.spare)) && distinct retired
    && table.all (fun e => !retired.contains e.spare)

/-- The verdict on a label's data field, with the held label information it gives (R7, R8, R9): ABSENT without the
mark, DAMAGED where a condition of R8 fails, else VALID with the label's contents. -/
def judgeLabel (ws : List Word) : Label :=
  let e := (wordAt ws 7).toNat
  let r := (wordAt ws 8).toNat
  if wordAt ws 0 ≠ labelMark then .blank .absent
  else if 80 < e + r then .blank .damaged
  else
    let table := subEntriesOf e (ws.drop 9)
    let retired := ((ws.drop (9 + 2 * e)).take r).map (·.toNat)
    if labelSound (wordAt ws 6) table retired then
      { state := .valid, name := #v[wordAt ws 1, wordAt ws 2, wordAt ws 3, wordAt ws 4], serial := wordAt ws 5,
        gen := wordAt ws 6, table := table.foldl (fun t x => insertEntry x t) [],
        retired := retired.foldl (fun t x => insertRetired x t) [] }
    else .blank .damaged

/-! ## Order packets (12, section 12.1) -/

/-- An order packet's header fields and the words after the header. -/
structure Packet where
  tag : Byte
  urgency : Nat
  drop : Nat
  due : Nat
  fields : List Word
  deriving DecidableEq, Repr

/-- Field word `i` of a packet as a number. -/
def Packet.num (k : Packet) (i : Nat) : Nat := (wordAt k.fields i).toNat

/-- The packet of a tag byte and the words after word 0; none where it is too short to hold the header (R172). -/
def Packet.parse (tag : Byte) : List Word → Option Packet
  | w1 :: w2 :: fields => some ⟨tag, field w1 15 8, field w1 7 0, w2.toNat, fields⟩
  | _ => none

/-- The urgency and drop-if-late encodings judged for every known kind (R172). -/
def Packet.headerOk (k : Packet) : Bool := decide (k.urgency ≤ 1) && decide (k.drop ≤ 1)

/-- The plan entries a WRITE PLAN carries, where its shape is sound (R20, R172). -/
def Packet.planEntries (k : Packet) : Option (List PlanEntry) := planEntriesOf (k.num 2) (k.fields.drop 3)

/-- A data block's header word: the tag and the sector index (12, section 12.2). -/
def blockHeader (tag : Byte) (index : Nat) : Word := wordOf (256 * tag.toNat + index)

end Sys2Proof.Machine
end

