-- ==== Sys2Proof/Machine/Ops.lean ====
section
/-! DEFINITION. The named operations over the state that every block shares: a port's item, counting, slots and their
two lists, buffers with the streams and request lists they form, endings, the data requests of the WRITE in service,
and the medium's writes. -/

namespace Sys2Proof.Machine

/-! ## One item per port -/

/-- The other port. -/
def Port.other : Port → Port
  | .a => .b
  | .b => .a

/-- A port's item. -/
def PerPort.get {α : Type} (x : PerPort α) (p : Port) : α :=
  match p with
  | .a => x.a
  | .b => x.b

/-- A port's item replaced. -/
def PerPort.modify {α : Type} (x : PerPort α) (p : Port) (f : α → α) : PerPort α :=
  match p with
  | .a => { x with a := f x.a }
  | .b => { x with b := f x.b }

/-- A port interface of the state changed. -/
def State.onPort (s : State) (p : Port) (f : PortIf → PortIf) : State := { s with ports := s.ports.modify p f }

/-- An order queue of the state changed. -/
def State.onQueue (s : State) (p : Port) (f : Queue → Queue) : State := { s with queues := s.queues.modify p f }

/-- The positioner of the state changed. -/
def State.onPos (s : State) (f : Positioner → Positioner) : State := { s with pos := f s.pos }

/-- The supervisor's items of the state changed. -/
def State.onDrive (s : State) (f : Supervisor → Supervisor) : State := { s with drive := f s.drive }

/-- The port is LOST (R159). -/
def State.lost (s : State) (p : Port) : Bool := decide ((s.ports.get p).presence = .lost)

/-! ## Statistics (R168) -/

/-- Counting adds 1 below the ceiling of 32 bits (R168). -/
def bump (n : Nat) : Nat := min (n + 1) 4294967295

/-- One event counted in a bank's live set. -/
def Bank.count (b : Bank) (c : Counter) : Bank := { b with live := b.live.set c.idx (bump b.live[c.idx]) }

/-- An own-port event counted in its port's bank (R168). -/
def State.count (s : State) (p : Port) (c : Counter) : State := { s with banks := s.banks.modify p (·.count c) }

/-- A drive-wide event counted in both banks (R168). -/
def State.countBoth (s : State) (c : Counter) : State := { s with banks := ⟨s.banks.a.count c, s.banks.b.count c⟩ }

/-- The counter of a transfer length (R168). -/
def lengthBucket (n : Nat) : Counter :=
  if n ≤ 1 then .length1 else if n ≤ 4 then .length2to4 else if n ≤ 16 then .length5to16 else .length17to64

/-- The counter of a margin (R83). -/
def marginBucket (m : Int) : Counter :=
  if 100 ≤ m then .early else if 0 ≤ m then .close else if -100 ≤ m then .late else .veryLate

/-! ## Slots (R46 to R48) -/

/-- The eight slot numbers. -/
def slotNumbers : List (Fin 8) := [0, 1, 2, 3, 4, 5, 6, 7]

/-- A slot's record; none when it is FREE. -/
def State.slot (s : State) (p : Port) (k : Fin 8) : Option Slot := (s.queues.get p).slots[k]

/-- A slot's record replaced. -/
def Queue.put (q : Queue) (k : Fin 8) (o : Option Slot) : Queue := { q with slots := q.slots.set k o }

/-- A live slot's record changed. -/
def State.modSlot (s : State) (p : Port) (k : Fin 8) (f : Slot → Slot) : State :=
  s.onQueue p fun q => q.put k (q.slots[k].map f)

/-- The first slot of a queue, by number, whose record has a property. -/
def Queue.find (q : Queue) (P : Slot → Bool) : Option (Fin 8 × Slot) :=
  slotNumbers.findSome? fun k => match q.slots[k] with
    | some sl => if P sl then some (k, sl) else none
    | none => none

/-- The first slot of the device whose record has a property, port A's before port B's. -/
def State.findSlot (s : State) (P : Slot → Bool) : Option (Port × Fin 8 × Slot) :=
  match s.queues.a.find P with
  | some (k, sl) => some (.a, k, sl)
  | none => (s.queues.b.find P).map fun x => (.b, x.1, x.2)

/-- The order IN SERVICE (R91). -/
def State.inService (s : State) : Option (Port × Fin 8 × Slot) := s.findSlot fun sl => decide (sl.state = .inService)

/-- The SUSPENDED order (R92). -/
def State.suspended (s : State) : Option (Port × Fin 8 × Slot) := s.findSlot fun sl => decide (sl.state = .suspended)

/-- The records of a queue's order list, oldest first (R47). -/
def Queue.ordered (q : Queue) : List (Fin 8 × Slot) := q.order.filterMap fun k => (q.slots[k]).map fun sl => (k, sl)

/-- The live slots of a queue: those that are not FREE (R48). -/
def Queue.live (q : Queue) : List Slot := slotNumbers.filterMap fun k => q.slots[k]

/-- A FREE slot, the lowest-numbered (assumption 6). -/
def Queue.freeSlot (q : Queue) : Option (Fin 8) := slotNumbers.find? fun k => (q.slots[k]).isNone

/-- The live slot that carries a tag (R66). -/
def Queue.tagged (q : Queue) (tag : Byte) : Option (Fin 8 × Slot) := q.find fun sl => decide (sl.tag = tag)

/-- A slot becomes FREE and leaves both lists (R47, R59). -/
def Queue.drop (q : Queue) (k : Fin 8) : Queue :=
  { slots := q.slots.set k none, order := q.order.erase k, replies := q.replies.erase k }

/-- A record enters a FREE slot at the end of the order list (R55). -/
def Queue.enter (q : Queue) (k : Fin 8) (sl : Slot) : Queue :=
  { q with slots := q.slots.set k (some sl), order := q.order ++ [k] }

/-- A slot that became DONE joins the end of the reply list (R47). -/
def Queue.answer (q : Queue) (k : Fin 8) : Queue := { q with replies := q.replies ++ [k] }

/-! ## The sectors an order touches (R60, R70) -/

/-- WRITE, FORMAT TRACK, ASSIGN SPARE, INITIALIZE LABEL and TEST TRACK are the write-class orders (R44). -/
def Kind.writeClass : Kind → Bool
  | .write | .formatTrack | .assignSpare | .initializeLabel | .testTrack => true
  | _ => false

/-- READ, WRITE and CHECK are the data orders (R44). -/
def Kind.isData : Kind → Bool
  | .read | .write | .check => true
  | _ => false

/-- The class of slotless orders (R44). -/
def Kind.slotless : Kind → Bool
  | .arm | .clearPort => true
  | _ => false

/-- The physical start of a slot, the origin where it has none. -/
def Slot.startAddr (sl : Slot) : Addr := sl.start.getD ⟨0, 0, 0⟩

/-- The number of sectors of a data order. -/
def Slot.n (sl : Slot) : Nat := sl.count.getD 0

/-- How many sectors an order touches from its physical start (R60). -/
def Slot.extent (sl : Slot) : Nat :=
  match sl.kind with
  | .read | .write | .check => sl.n
  | .formatTrack | .testTrack => 20
  | _ => 1

/-- Two orders share a sector where at least one of them writes (R60). -/
def Slot.clashes (x y : Slot) : Bool :=
  (x.kind.writeClass || y.kind.writeClass)
    && decide (x.startAddr.linear < y.startAddr.linear + y.extent)
    && decide (y.startAddr.linear < x.startAddr.linear + x.extent)

/-- The physical address of the i-th sector of a slot's span (R17). -/
def Slot.sectorAddr (sl : Slot) (i : Nat) : Addr := Addr.ofLinear (sl.startAddr.linear + i)

/-! ## Buffers, streams and requests (R107, R108, R116) -/

/-- The four buffer numbers. -/
def bufferNumbers : List (Fin 4) := [0, 1, 2, 3]

/-- A buffer replaced. -/
def State.putBuffer (s : State) (b : Fin 4) (x : Buffer) : State := { s with buffers := s.buffers.set b x }

/-- The lowest-numbered FREE buffer (R113, R116). -/
def State.freeBuffer (s : State) : Option (Fin 4) :=
  bufferNumbers.find? fun b => decide (s.buffers[b].state = .free)

/-- The buffers a slot owns, in number order. -/
def State.owned (s : State) (p : Port) (k : Fin 8) : List (Fin 4) :=
  bufferNumbers.filter fun b => decide (s.buffers[b].owner = some (p, k))

/-- The buffers a slot owns in one state. -/
def State.ownedIn (s : State) (p : Port) (k : Fin 8) (st : BufState) : List (Fin 4) :=
  (s.owned p k).filter fun b => decide (s.buffers[b].state = st)

/-- A buffer placed among others in order of sector index. -/
def insertByIndex (s : State) (b : Fin 4) : List (Fin 4) → List (Fin 4)
  | [] => [b]
  | c :: rest => if s.buffers[b].index < s.buffers[c].index then b :: c :: rest else c :: insertByIndex s b rest

/-- A port's buffers in one state, in order of owner and then of sector index (R108). -/
def State.listed (s : State) (p : Port) (st : BufState) : List (Fin 4) :=
  (s.queues.get p).order.flatMap fun k => (s.ownedIn p k st).foldl (fun l b => insertByIndex s b l) []

/-- The port's outgoing data stream (R108). -/
def State.stream (s : State) (p : Port) : List (Fin 4) := s.listed p .fullForHost

/-- The port's list of data requests, as the buffers that wait for them (R116). -/
def State.requests (s : State) (p : Port) : List (Fin 4) := s.listed p .filling

/-- The buffer that a port's open DATA IN is delivering (R109). -/
def State.delivering (s : State) (p : Port) : Option (Fin 4) :=
  match (s.ports.get p).exchange with
  | some ⟨.dataIn b, _⟩ => b
  | _ => none

/-- The slot lets go of those of its buffers that have a property: each becomes FREE, but a buffer being delivered by
an open DATA IN, which stays FULL FOR HOST without an owner (R109, R124). -/
def State.release (s : State) (p : Port) (k : Fin 8) (P : BufState → Bool) : State :=
  { s with buffers := Vector.ofFn fun b =>
      let x := s.buffers[b]
      if x.owner = some (p, k) ∧ P x.state = true then
        if s.delivering p = some b ∧ x.state = .fullForHost then { x with owner := none } else .empty
      else x }

/-- The buffer an ended order left in an open DATA IN becomes FREE when that exchange is over (R109). -/
def State.dropOrphan (s : State) (b : Fin 4) : State :=
  if s.buffers[b].owner = none then s.putBuffer b .empty else s

/-! ## The data requests of the WRITE in service (R116) -/

/-- The lowest sector index of a WRITE not yet requested: not yet written and in no buffer of its own (R116, R161). -/
def State.nextRequest (s : State) (p : Port) (k : Fin 8) (sl : Slot) : Option Nat :=
  ((List.range sl.n).filter fun i => decide (sl.sectorsDone ≤ i)).find? fun i =>
    (s.owned p k).all fun b => !decide (s.buffers[b].index = i)

/-- One data request issued where the conditions of R116 hold. The buffer that waits for its block holds no data
(assumption 40). -/
def State.issueRequest (s : State) : State :=
  match s.inService with
  | some (p, k, sl) =>
    if sl.kind = .write ∧ sl.verifyPhase = false ∧ sl.withdrawn = false ∧ s.lost p = false
        ∧ (s.owned p k).length < 3 then
      match s.nextRequest p k sl, s.freeBuffer with
      | some i, some b => s.putBuffer b ⟨.filling, some (p, k), i, []⟩
      | _, _ => s
    else s
  | none => s

/-- Requests are issued one after another until a condition fails (R116); an order owns at most three buffers. -/
def State.testRequests (s : State) : State := s.issueRequest.issueRequest.issueRequest

/-! ## Endings (R49, R50, R124) -/

/-- The order leaves IN SERVICE for the last time: its end tick is set, the margin of a PROMPT order is counted, the
progress record is dropped and the positioner is told that its positioning is no longer wanted (R46, R83, R98,
R124). A read still under way, as an index can find one of a TEST TRACK, is dropped (assumption 36). -/
def State.leaveActuator (s : State) (p : Port) (k : Fin 8) : State :=
  match s.slot p k with
  | none => s
  | some sl =>
    let s1 := s.modSlot p k fun x => { x with endTick := some s.tick }
    let s2 := match sl.prompt, sl.dueTick with
      | true, some due => s1.count p (marginBucket (signedDiff due s.tick))
      | _, _ => s1
    { s2 with progress := none, pass := none,
              pos := { s2.pos with activity := .idle, target := none, errors := 0 } }

/-- The counters an ending raises in its port's bank (R168). -/
def State.countEnding (s : State) (p : Port) (e : Ending) : State :=
  match e with
  | .expired => s.count p .expired
  | .stalled => s.count p .stalled
  | _ => s

/-- The slot's record takes its outcome and becomes DONE, and joins the reply list; a withdrawn slot becomes FREE
without a reply (R49). A fault address already kept stays where the ending gives none (R50). -/
def Queue.finish (q : Queue) (k : Fin 8) (e : Ending) (fa : Option Addr) : Queue :=
  match q.slots[k] with
  | none => q
  | some sl =>
    if sl.withdrawn then q.drop k
    else (q.put k (some { sl with outcome := some e, faultAddr := fa.or sl.faultAddr, state := .done,
                                  drainStart := none })).answer k

/-- An ending reaches a slot (R49): a slot that is FREE or DONE is passed over. -/
def State.endSlot (s : State) (p : Port) (k : Fin 8) (e : Ending) (fa : Option Addr) : State :=
  match s.slot p k with
  | none => s
  | some sl =>
    if sl.state = .done then s
    else
      let s1 := if sl.state = .inService then s.leaveActuator p k else s
      let s2 := (s1.release p k fun _ => true).countEnding p e
      (s2.onQueue p fun q => q.finish k e fa).testRequests

/-- A READ whose disk phase ends with buffers still FULL FOR HOST becomes DRAINING, keeping its outcome (R50). -/
def State.startDraining (s : State) (p : Port) (k : Fin 8) (e : Ending) (fa : Option Addr) : State :=
  (s.leaveActuator p k).modSlot p k fun sl =>
    { sl with state := .draining, outcome := some e, faultAddr := fa, drainStart := some s.tick }

/-- The end of an order's disk phase with its own result: a READ ended DONE or READ FAULT that still holds a FULL FOR
HOST buffer goes to DRAINING, every other slot to DONE (R50, R113, R115). -/
def State.endDiskPhase (s : State) (p : Port) (k : Fin 8) (sl : Slot) (e : Ending) (fa : Option Addr) : State :=
  if sl.kind = .read ∧ (e = .done ∨ e = .readFault) ∧ s.ownedIn p k .fullForHost ≠ [] then s.startDraining p k e fa
  else s.endSlot p k e fa

/-- A DRAINING slot whose last buffer was taken becomes DONE with the outcome it kept (R50). -/
def State.finishDraining (s : State) (p : Port) (k : Fin 8) : State :=
  (s.modSlot p k fun sl => { sl with state := .done, drainStart := none }).onQueue p (·.answer k)

/-- A withdrawn order stops: its end tick is set, its buffers are freed, and its slot becomes FREE without a reply
(R63). -/
def State.freeWithdrawn (s : State) (p : Port) (k : Fin 8) : State :=
  (((s.leaveActuator p k).release p k fun _ => true).onQueue p (·.drop k)).testRequests

/-- The endings one event brings to a port's slots that have a property, oldest first (assumption 7). -/
def State.endWhere (s : State) (p : Port) (P : Slot → Bool) (e : Ending) : State :=
  (s.queues.get p).order.foldl (fun s k => match s.slot p k with
    | some sl => if P sl then s.endSlot p k e none else s
    | none => s) s

/-- A slot waits for the actuator: QUEUED or SUSPENDED. -/
def Slot.waits (sl : Slot) : Bool := decide (sl.state = .queued ∨ sl.state = .suspended)

/-! ## The medium (R2) -/

/-- A sector of the cartridge replaced. -/
def State.putSector (s : State) (x : Addr) (sec : Sector) : State :=
  { s with disk := Cartridge.put s.disk x.linear sec }

/-- A data write: the data words and their check word of a sector, its header left as it was (R2). -/
def State.writeData (s : State) (x : Addr) (words : List Word) : State :=
  s.putSector x ((Cartridge.get s.disk x.linear).withData words)

/-- The pass writes the sector it is at. -/
def Pass.writes (q : Pass) : Bool :=
  match q.kind with
  | .write _ | .zero | .labelWrite | .testWrite => decide (q.verdict = .matching)
  | .format => true
  | _ => false

/-- A sector write under way is cut short: the data field is left with a check word that fails (R2, R126). -/
def State.cutPass (s : State) : State :=
  match s.pass with
  | some q =>
    if q.writes then
      { s.putSector q.addr ((Cartridge.get s.disk q.addr.linear).cut s.free) with pass := none, free := s.free + 1 }
    else { s with pass := none }
  | none => s

/-! ## What the outside sees without being stored (assumption 15) -/

/-- The rotational position (R94). -/
def Positioner.position (x : Positioner) : Nat := if x.valid then 10 * x.sc + min x.t 9 else 0

/-- The spindle start line: active in the five spinning states (R128). -/
def DriveState.spinning : DriveState → Bool
  | .spinningUp | .calibrating | .labelRead | .ready | .degraded => true
  | _ => false

/-- READY or DEGRADED. -/
def DriveState.serving : DriveState → Bool
  | .ready | .degraded => true
  | _ => false

/-- The states in which index loss is watched and out-of-band revolutions are counted (R96, R97, R128). -/
def DriveState.watched : DriveState → Bool
  | .calibrating | .labelRead | .ready | .degraded => true
  | _ => false

/-- The run condition: cartridge present, door closed and start switch ON (R129). -/
def Lines.run (l : Lines) : Bool := l.cartridge && l.door && l.start

end Sys2Proof.Machine
end

