-- ==== Sys2Proof/Machine/Flags.lean ====
section
/-! DEFINITION. The alarm flags, the conditions of their sources, the annunciator line, and the attention reasons
(chapter 11; 10, R157). -/

namespace Sys2Proof.Machine

/-- The flag of a source. -/
def SourceSet.get (f : SourceSet) : Source → Bool
  | .portALost => f.portALost
  | .portBLost => f.portBLost
  | .driveFaulted => f.driveFaulted
  | .driveDegraded => f.driveDegraded
  | .labelNotValid => f.labelNotValid
  | .planLoaded => f.planLoaded
  | .sectorLost => f.sectorLost

/-- The flag of a source replaced. -/
def SourceSet.put (f : SourceSet) (x : Source) (v : Bool) : SourceSet :=
  match x with
  | .portALost => { f with portALost := v }
  | .portBLost => { f with portBLost := v }
  | .driveFaulted => { f with driveFaulted := v }
  | .driveDegraded => { f with driveDegraded := v }
  | .labelNotValid => { f with labelNotValid := v }
  | .planLoaded => { f with planLoaded := v }
  | .sectorLost => { f with sectorLost := v }

/-- A source set made flag by flag. -/
def SourceSet.of (f : Source → Bool) : SourceSet :=
  ⟨f .portALost, f .portBLost, f .driveFaulted, f .driveDegraded, f .labelNotValid, f .planLoaded, f .sectorLost⟩

/-- The seven sources (R163). -/
def sources : List Source :=
  [.portALost, .portBLost, .driveFaulted, .driveDegraded, .labelNotValid, .planLoaded, .sectorLost]

/-- A source's real-time condition; PLAN LOADED and SECTOR LOST have none (R163). -/
def State.condition (s : State) : Source → Bool
  | .portALost => decide (s.ports.a.presence = .lost)
  | .portBLost => decide (s.ports.b.presence = .lost)
  | .driveFaulted => decide (s.drive.state = .faulted)
  | .driveDegraded => decide (s.drive.state = .degraded)
  | .labelNotValid => s.drive.state.serving && !decide (s.label.state = .valid)
  | .planLoaded => false
  | .sectorLost => false

/-- The sources fed by events alone (R163). -/
def Source.isEvent : Source → Bool
  | .planLoaded | .sectorLost => true
  | _ => false

/-- The source of a port's loss. -/
def lostSource : Port → Source
  | .a => .portALost
  | .b => .portBLost

/-- A flag latches: latched yes, acknowledged no (R164). -/
def State.latch (s : State) (x : Source) : State :=
  { s with alarms := { s.alarms with latched := s.alarms.latched.put x true, acked := s.alarms.acked.put x false } }

/-- Every latched flag becomes acknowledged (R165). -/
def Alarms.acknowledge (x : Alarms) : Alarms :=
  { x with acked := .of fun i => x.acked.get i || x.latched.get i }

/-- Each source of the clear set whose condition is absent has its flags set to no (R165). -/
def State.clearFlags (s : State) (clear : SourceSet) : State :=
  { s with alarms := { s.alarms with
      latched := .of fun i => s.alarms.latched.get i && !(clear.get i && !s.condition i)
      acked := .of fun i => s.alarms.acked.get i && !(clear.get i && !s.condition i) } }

/-- The manner the alarm line is judged to have (R167). -/
def State.manner (s : State) : Manner :=
  let x := s.alarms
  if x.follow then
    if (if x.source.isEvent then x.latched.get x.source else s.condition x.source) then .steady else .inactive
  else
    if sources.any fun i => x.latched.get i && !x.masked.get i && !x.acked.get i then .flashing
    else if sources.any fun i => x.latched.get i && !x.masked.get i then .steady
    else .inactive

/-- The alarm line is judged: entering flashing makes it active and starts the flash timer for 2,500 ticks; any other
manner stops the timer and sets the level at once (R167). -/
def State.judgeAlarm (s : State) : State :=
  let m := s.manner
  { s with alarms :=
      if m = .flashing then
        if s.alarms.manner = .flashing then s.alarms
        else { s.alarms with manner := .flashing, level := true, flash := some (tickAfter s.tick 2500) }
      else { s.alarms with manner := m, level := decide (m = .steady), flash := none } }

/-- The attention reasons of a port (R157). -/
structure Attention where
  replyWaiting : Bool
  dataWaiting : Bool
  dataWanted : Bool
  alarm : Bool
  deriving DecidableEq, Repr

/-- The attention reasons present at a port (R157). -/
def State.attention (s : State) (p : Port) : Attention :=
  { replyWaiting := !(s.queues.get p).replies.isEmpty
    dataWaiting := !(s.stream p).isEmpty
    dataWanted := !(s.requests p).isEmpty
    alarm := sources.any fun i => s.alarms.latched.get i && !s.alarms.masked.get i && !s.alarms.acked.get i }

/-- The port's attention line: active while it has a reason (R157). -/
def State.attentionLine (s : State) (p : Port) : Bool :=
  let x := s.attention p
  x.replyWaiting || x.dataWaiting || x.dataWanted || x.alarm

end Sys2Proof.Machine
end

