-- ==== Sys2Proof/Machine/MapUnit.lean ====
section
/-! DEFINITION. The region map unit's loads and the re-check of live orders (chapter 2, R27 to R30). -/

namespace Sys2Proof.Machine

/-- The active map grants a port what an order needs on a cylinder (R29, R31, R111). -/
def State.grants (s : State) (p : Port) (writes : Bool) (c : Nat) : Bool := (s.map.active.rightOn p c).allows writes

/-- The first sector from `i` on, among `n` sectors of a slot's span, that lies on a cylinder the map does not grant
(R29). -/
def State.failingSector (s : State) (p : Port) (sl : Slot) (i : Nat) : Nat → Option Addr
  | 0 => none
  | n + 1 =>
    if s.grants p (decide (sl.kind = .write)) (sl.sectorAddr i).cyl then s.failingSector p sl (i + 1) n
    else some (sl.sectorAddr i)

/-- The fault address of an order that fails the re-check; none for one that passes or is not re-checked (R29). -/
def State.recheckFails (s : State) (p : Port) (sl : Slot) : Option Addr :=
  match sl.state with
  | .queued =>
    if sl.kind.isData then s.failingSector p sl 0 sl.n
    else if sl.kind = .formatTrack then
      let x := sl.startAddr
      if x.cyl ≤ 383 ∧ s.grants p true x.cyl = false then some x else none
    else none
  | .suspended =>
    if sl.kind.isData then s.failingSector p sl sl.sectorsDone (sl.n - sl.sectorsDone) else none
  | _ => none

/-- The re-check of one port's orders, oldest first: those that fail end MAP CHANGED (R29). -/
def State.recheckPort (s : State) (p : Port) : State :=
  (s.queues.get p).order.foldl (fun s k => match s.slot p k with
    | some sl => match s.recheckFails p sl with
      | some x => s.endSlot p k .mapChanged (some x)
      | none => s
    | none => s) s

/-- The re-check of the orders of both ports (R29). -/
def State.recheck (s : State) : State := (s.recheckPort .a).recheckPort .b

/-- The active map is replaced whole and the origin set (R28). -/
def State.setActive (s : State) (m : Plan) (o : Origin) : State :=
  { s with map := { s.map with active := m, origin := o } }

/-- A map load and its re-check (R28). -/
def State.loadMap (s : State) (m : Plan) (o : Origin) : State := (s.setActive m o).recheck

/-- A map load of a cause that latches PLAN LOADED and counts a plan load (R28). -/
def State.loadMapLatched (s : State) (m : Plan) (o : Origin) : State :=
  ((s.loadMap m o).latch .planLoaded).countBoth .planLoads

/-- The staged plan named by the plan-select line, with its origin (R23). -/
def State.selectedPlan (s : State) : Plan × Origin :=
  if s.lines.select then (s.map.plan2, .plan2) else (s.map.plan1, .plan1)

/-- The reset load: the key and plan-select lines as found, no alarm and no count (R27). -/
def State.resetLoad (s : State) : State :=
  if s.lines.fixedKey ∨ s.selectedPlan.1.isEmpty = true then s.setActive .fixed .fixed
  else s.setActive s.selectedPlan.1 s.selectedPlan.2

/-- Auto-changeover: plan 2 is loaded when its conditions hold (R26). -/
def State.autoChangeover (s : State) : State :=
  if s.map.auto = true ∧ s.lines.fixedKey = false ∧ s.map.mode ≠ .direct ∧ s.map.plan2.isEmpty = false then
    s.loadMapLatched s.map.plan2 .plan2
  else s

end Sys2Proof.Machine
end

