-- ==== Sys2Proof/Machine/Supervisor.lean ====
section
/-! DEFINITION. The positioner's moves and the drive supervisor's states (chapters 6 and 8): positionings, seeks,
recalibrations and seek errors; entry into each drive state; the degraded reasons; the held label's changes. -/

namespace Sys2Proof.Machine

/-! ## Positionings (R98 to R103) -/

/-- The positioner abandons what it has in hand; the current cylinder is UNKNOWN (R104). -/
def State.abandonPositioning (s : State) : State :=
  s.onPos fun x => { x with activity := .idle, target := none, errors := 0, cyl := none }

/-- A seek is issued with the target head: its start tick and T_seek are taken, it is counted in both banks, and the
drive drops on-cylinder (R99, R100; assumption 13). -/
def State.issueSeek (s : State) (x : Addr) : State :=
  let s1 := s.onPos fun y =>
    { y with activity := .seeking, target := some x, head := x.head, seekStart := s.tick,
             seekTime := seekTicks (distance x.cyl (y.cyl.getD 0)) }
  { s1 with lines := { s1.lines with onCylinder := false } }.countBoth .seeks

/-- Arrival: the current cylinder is the target's and the confirming header is awaited (R98). -/
def State.arrive (s : State) (x : Addr) : State :=
  s.onPos fun y => { y with activity := .arrived, target := some x, cyl := some x.cyl, head := x.head,
                            arrivalTick := s.tick }

/-- The heads stand at the cylinder, so that a positioning to it needs no seek (R98). -/
def State.atCylinder (s : State) (c : Nat) : Bool := decide (s.pos.cyl = some c)

/-- A request for a positioning: the error count returns to 0, and a seek is issued or arrival is taken at once
(R98). -/
def State.requestPositioning (s : State) (x : Addr) : State :=
  let s1 := s.onPos fun y => { y with errors := 0 }
  if s.atCylinder x.cyl then s1.arrive x else s1.issueSeek x

/-- A recalibration is begun: head 0, cylinder UNKNOWN, counted in both banks; the drive drops on-cylinder (R103). -/
def State.recalibrate (s : State) : State :=
  let s1 := s.onPos fun y => { y with activity := .recalibrating, cyl := none, head := 0, recalStart := s.tick }
  { s1 with lines := { s1.lines with onCylinder := false } }.countBoth .recalibrations

/-! ## The held label (R9, R13, R145) -/

/-- The held label information replaced. -/
def State.setLabel (s : State) (l : Label) : State := { s with label := l }

/-- A label that could not be confirmed, or was formatted over, is no longer held; LABEL NOT VALID rises when it was
VALID in READY or DEGRADED (R14, R145, R163). -/
def State.loseLabel (s : State) (st : LabelState) : State :=
  let s1 := s.setLabel (.blank st)
  if s.label.state = .valid ∧ s.drive.state.serving = true then s1.latch .labelNotValid else s1

/-- The label write has started and its read-back has not been judged (R145). -/
def State.labelOpen (s : State) : Bool :=
  (match s.progress with
    | some g => decide (g.stage = .readBack)
    | none => false)
  || (match s.pass with
    | some q => decide (q.kind = .labelWrite ∧ q.verdict = .matching)
    | none => false)

/-! ## Entry into the drive states -/

/-- Entry into SPINNING DOWN (R139). -/
def State.enterSpinningDown (s : State) : State :=
  let s1 := s.abandonPositioning.onDrive fun d =>
    { d with state := .spinningDown, speed := false, supply := false, fault := none, stopPending := false,
             spinUp := none, runDown := some (tickAfter s.tick 400), labelFails := 0 }
  let s2 := ({ s1 with pass := none }.endWhere .a Slot.waits .volumeGone).endWhere .b Slot.waits .volumeGone
  s2.setLabel (.blank .none)

/-- The in-service order ends DRIVE FAULT at once; a label write it had not confirmed leaves the label DAMAGED
(R126, R136, R145). -/
def State.faultInService (s : State) : State :=
  let s1 := if s.labelOpen then s.setLabel (.blank .damaged) else s
  match s1.inService with
  | some (p, k, _) => s1.cutPass.endSlot p k .driveFault none
  | none => s1.cutPass

/-- Entry into FAULTED with its reason; a pending stop is carried out after it (R136). -/
def State.enterFaulted (s : State) (why : FaultReason) : State :=
  let s1 := s.faultInService
  let s2 := (s1.endWhere .a Slot.waits .driveFault).endWhere .b Slot.waits .driveFault
  let s3 := s2.abandonPositioning.onDrive fun d =>
    { d with state := .faulted, speed := false, supply := false, fault := some why, spinUp := none, labelFails := 0 }
  let s4 := s3.latch .driveFaulted
  if s4.drive.stopPending then s4.enterSpinningDown else s4

/-- The speed monitor starts a new measurement (R96). -/
def State.newMeasurement (s : State) : State :=
  s.onPos fun x => { x with inBand := false, outRun := 0, inRun := 0, lastIndex := none, extra := false }

/-- Entry into SPINNING UP; an active over-temperature line faults the drive at once (R130). -/
def State.enterSpinningUp (s : State) : State :=
  let s1 := s.newMeasurement.onDrive fun d =>
    { d with state := .spinningUp, spinUp := some (tickAfter s.tick 600000), attempts := 0, stopPending := false,
             fault := none, runDown := none }
  if s1.lines.overTemp then s1.enterFaulted .overtemp else s1

/-- The run condition is judged in EMPTY (R129, R140, R141). -/
def State.judgeRun (s : State) : State := if s.lines.run then s.enterSpinningUp else s

/-- Entry into EMPTY (R140). -/
def State.enterEmpty (s : State) : State :=
  (s.onDrive fun d => { d with state := .empty, runDown := none }).judgeRun

/-- Entry into CALIBRATING: the first calibration attempt (R131, R132). -/
def State.enterCalibrating (s : State) : State :=
  (s.onDrive fun d => { d with state := .calibrating, spinUp := none, attempts := 1 }).recalibrate

/-- Entry into LABEL READ: the held label is emptied and the heads go to the label track (R133). -/
def State.enterLabelRead (s : State) : State :=
  ((s.onDrive fun d => { d with state := .labelRead, labelFails := 0 }).setLabel (.blank .none)).requestPositioning
    labelAddr

/-- Entry into READY or DEGRADED by the reasons held; DRIVE DEGRADED rises at entry into DEGRADED from another state
(R134, R163). -/
def State.weighReasons (s : State) : State :=
  if s.drive.speed || s.drive.supply then
    if s.drive.state = .degraded then s
    else (s.onDrive fun d => { d with state := .degraded }).latch .driveDegraded
  else s.onDrive fun d => { d with state := .ready }

/-- The label read has finished with a verdict: the held label is set, the reasons are formed from the speed verdict
and the supply line, and the drive enters READY or DEGRADED (R9, R133). -/
def State.finishLabelRead (s : State) (l : Label) : State :=
  let s1 := (s.setLabel l).onPos fun x => { x with activity := .idle, target := none, errors := 0 }
  let s2 := s1.onDrive fun d => { d with speed := !s.pos.inBand, supply := !s.lines.supply, labelFails := 0 }
  let s3 := s2.weighReasons
  if l.state = .valid then s3 else s3.latch .labelNotValid

/-- The degraded reasons are kept up to date in READY and DEGRADED (R134). -/
def State.setReasons (s : State) (speed supply : Bool) : State :=
  if s.drive.state.serving then (s.onDrive fun d => { d with speed := speed, supply := supply }).weighReasons else s

/-! ## Seek errors (R102) -/

/-- A seek error: counted, the cylinder UNKNOWN; the first two of a positioning are followed by a recalibration, the
third hands the seek-error limit to the supervisor (R102, R135). -/
def State.seekError (s : State) : State :=
  let s1 := (s.countBoth .seekErrors).onPos fun y => { y with cyl := none }
  if s.pos.errors < 2 then (s1.onPos fun y => { y with errors := s.pos.errors + 1 }).recalibrate
  else s1.enterFaulted .seek

/-- A mismatched header: a seek error of the positioning in hand, or, once confirmed, the first error of a new
positioning to the expected sector (R101). -/
def State.headerMismatch (s : State) (x : Addr) : State :=
  (s.onPos fun y => { y with target := some x, errors := if y.activity = .confirmed then 0 else y.errors }).seekError

/-- A recalibration that ran out its limit: a seek error of its positioning, or a failed attempt of the supervisor in
CALIBRATING (R103, R132). It is kept for the rest of the tick, for the rise of the line that arrived with the limit is
disregarded. -/
def State.recalibrationFailed (s : State) : State :=
  let s1 := s.onPos fun y => { y with limitTaken := true }
  if s.drive.state = .calibrating then
    if s.drive.attempts < 3 then (s1.onDrive fun d => { d with attempts := d.attempts + 1 }).recalibrate
    else s1.enterFaulted .calibration
  else s1.seekError

end Sys2Proof.Machine
end

