-- ==== Sys2Proof/Machine/Scheduler.lean ====
section
/-! DEFINITION. The actuator scheduler (chapter 5): candidates, slack, the three steps of a selection, what handing the
actuator on does, ASSIGN SPARE's classification (R147), and the suspension check. -/

namespace Sys2Proof.Machine

/-- What remains to be done in the same step: nothing; a test for a selection (R69); the end of the in-service order's
time on the actuator, which carries out a pending stop or tests for a selection (R69, R138); or the boundary of an
arrival taken at once (R84, R98). -/
inductive Agenda where
  | idle | select | released | arrived
  deriving DecidableEq, Repr

/-! ## Candidates (R60, R71 to R73) -/

/-- The state of an order that an older order's hazard is judged on (R60). -/
def Slot.holdsBack (sl : Slot) : Bool :=
  decide (sl.state = .queued ∨ sl.state = .inService ∨ sl.state = .suspended)

/-- The orders of a list that have a property, each with the orders older than it. -/
def withOlder (older : List (Fin 8 × Slot)) : List (Fin 8 × Slot) → List ((Fin 8 × Slot) × List (Fin 8 × Slot))
  | [] => []
  | x :: rest => (x, older) :: withOlder (older ++ [x]) rest

/-- A QUEUED PROMPT order is hazard-free when no older live order of its port clashes with it (R60). -/
def hazardFree (sl : Slot) (older : List (Fin 8 × Slot)) : Bool :=
  older.all fun y => !(y.2.holdsBack && y.2.clashes sl)

/-- The PROMPT orders a port offers to a selection: QUEUED, hazard-free, and no WRITE while DEGRADED (R60, R71,
R73). -/
def State.promptOffers (s : State) (p : Port) : List (Fin 8 × Slot) :=
  ((withOlder [] (s.queues.get p).ordered).filter fun x =>
    decide (x.1.2.state = .queued) && x.1.2.prompt && hazardFree x.1.2 x.2
      && !(decide (s.drive.state = .degraded) && x.1.2.kind.writeClass)).map (·.1)

/-- The due tick of a PROMPT order. -/
def Slot.due (sl : Slot) : Tick := sl.dueTick.getD 0

/-- The order with the earliest due tick by signed difference, the older where they are the same (R71). -/
def earliestDue : List (Fin 8 × Slot) → Option (Fin 8 × Slot)
  | [] => none
  | x :: rest => some (rest.foldl (fun best y => if signedDiff y.2.due best.2.due < 0 then y else best) x)

/-- A port's PROMPT candidate (R71). -/
def State.promptCandidate (s : State) (p : Port) : Option (Fin 8 × Slot) := earliestDue (s.promptOffers p)

/-- The oldest QUEUED ROUTINE order of a port with the orders older than it (R60, R72). -/
def State.oldestRoutine (s : State) (p : Port) : Option ((Fin 8 × Slot) × List (Fin 8 × Slot)) :=
  (withOlder [] (s.queues.get p).ordered).find? fun x => decide (x.1.2.state = .queued) && !x.1.2.prompt

/-- The port has the SUSPENDED order. -/
def State.suspendedOn (s : State) (p : Port) : Bool :=
  match s.suspended with
  | some (q, _, _) => decide (q = p)
  | none => false

/-- A port's ROUTINE head when it is a candidate: not behind an older QUEUED PROMPT order it clashes with, not while
its port has a SUSPENDED order, no write-class order while DEGRADED (R60, R72, R73). -/
def State.routineHead (s : State) (p : Port) : Option (Fin 8 × Slot) :=
  match s.oldestRoutine p with
  | none => none
  | some (x, older) =>
    if (older.any fun y => decide (y.2.state = .queued) && y.2.prompt && y.2.clashes x.2) = true then none
    else if s.suspendedOn p = true then none
    else if s.drive.state = .degraded ∧ x.2.kind.writeClass = true then none
    else some x

/-- The suspended candidate: not a WRITE or TEST TRACK while DEGRADED (R72, R73). -/
def State.suspendedCandidate (s : State) : Option (Port × Fin 8 × Slot) :=
  match s.suspended with
  | some x => if s.drive.state = .degraded ∧ x.2.2.kind.writeClass = true then none else some x
  | none => none

/-! ## Choosing (R77 to R81) -/

/-- The slack of a PROMPT order from a cylinder and a position (R78). -/
def State.slack (s : State) (cyl pos : Nat) (sl : Slot) : Int :=
  signedDiff sl.due (tickAfter s.tick (estimate cyl pos sl.startAddr sl.n sl.verify))

/-- Step 1: the PROMPT candidate with the least slack; at equal slack that of the port other than the last-granted
(R79). -/
def State.stepOne (s : State) (cyl pos : Nat) : Option (Port × Fin 8 × Slot) :=
  match s.promptCandidate .a, s.promptCandidate .b with
  | none, none => none
  | some x, none => some (.a, x)
  | none, some y => some (.b, y)
  | some x, some y =>
    let sx := s.slack cyl pos x.2
    let sy := s.slack cyl pos y.2
    if sx < sy then some (.a, x)
    else if sy < sx then some (.b, y)
    else if s.sched.last = .a then some (.b, y) else some (.a, x)

/-- The first target of an order for its positioning estimate (R70, R77). -/
def Slot.estimateTarget (sl : Slot) : Addr :=
  if sl.kind = .assignSpare then ⟨384, 0, 0⟩ else sl.startAddr

/-- Step 3: the choice among the ROUTINE heads (R81). -/
def State.stepThree (s : State) (cyl pos : Nat) : Option (Port × Fin 8 × Slot) :=
  match s.routineHead .a, s.routineHead .b with
  | none, none => none
  | some x, none => some (.a, x)
  | none, some y => some (.b, y)
  | some x, some y =>
    let tx := positionTicks cyl pos x.2.estimateTarget
    let ty := positionTicks cyl pos y.2.estimateTarget
    if s.sched.bypass.a = 4 then some (.a, x)
    else if s.sched.bypass.b = 4 then some (.b, y)
    else if tx < ty then some (.a, x)
    else if ty < tx then some (.b, y)
    else if s.sched.last = .a then some (.b, y) else some (.a, x)

/-- The bypass counts after a step-3 selection of a port's head (R81). -/
def State.bypassAfter (s : State) (p : Port) : PerPort Nat :=
  let raised := fun (q : Port) (n : Nat) => if (s.routineHead q).isSome then min (n + 1) 4 else n
  match p with
  | .a => ⟨0, raised .b s.sched.bypass.b⟩
  | .b => ⟨raised .a s.sched.bypass.a, 0⟩

/-! ## Handing the actuator on (R70, R88, R90, R110, R147) -/

/-- The case of an ASSIGN SPARE's target against the held label (R147). -/
def classifyTarget (l : Label) (x : Addr) : AssignCase :=
  if x.cyl = 384 then
    let j := x.head * 20 + x.sector
    if l.retired.contains j then .noChange
    else if l.table.any (fun e => decide (e.spare = j)) then .spareRetired
    else .freeRetired
  else if (lookupSpare l.table x).isSome then .reSpared
  else .newEntry

/-- The case takes a new spare (R147). -/
def AssignCase.takesSpare : AssignCase → Bool
  | .newEntry | .reSpared | .spareRetired => true
  | _ => false

/-- The table and retired list after an assignment's change (R147, R148). -/
def assignChange (l : Label) (x : Addr) (c : AssignCase) (i : Nat) : List SubEntry × List Nat :=
  let j := x.head * 20 + x.sector
  match c with
  | .newEntry => (insertEntry ⟨x, i⟩ l.table, l.retired)
  | .reSpared =>
    (l.table.map fun e => if e.bad = x then { e with spare := i } else e,
      insertRetired ((lookupSpare l.table x).getD 0) l.retired)
  | .spareRetired => (l.table.map fun e => if e.spare = j then { e with spare := i } else e, insertRetired j l.retired)
  | .freeRetired => (l.table, insertRetired j l.retired)
  | .noChange => (l.table, l.retired)

/-- The two words of an ASSIGN SPARE reply body (12, section 12.5). -/
def assignBody (c : AssignCase) (spare : Option Nat) : List Word :=
  [wordOf c.code, match spare with
    | some i => wordOf i
    | none => emptyWord]

/-- The classification is written into the slot with its reply body (R46, R147). -/
def Slot.classified (sl : Slot) (c : AssignCase) (spare : Option Nat) (reached : AssignWrite) : Slot :=
  { sl with maint := .assign c spare reached, body := assignBody c spare }

/-- The progress record as an order becomes IN SERVICE (R110). -/
def State.setProgress (s : State) (next : Nat) (dest : Option Nat) (st : Stage) : State :=
  { s with progress := some ⟨next, dest, 0, st⟩ }

/-- What follows a positioning request: the boundary of an arrival taken at once, or waiting (R98). -/
def State.afterRequest (s : State) : Agenda := if s.pos.activity = .arrived then .arrived else .idle

/-- A request for a positioning with what follows it. -/
def State.goTo (s : State) (x : Addr) : State × Agenda :=
  let s1 := s.requestPositioning x
  (s1, s1.afterRequest)

/-- The next logical sector is looked up; a listed one is gone to by an excursion, which is counted, any other at its
own address (R12, R70, R110, R123). -/
def State.beginData (s : State) (sl : Slot) : State × Agenda :=
  match lookupSpare s.label.table (sl.sectorAddr sl.sectorsDone) with
  | some i => (((s.setProgress sl.sectorsDone (some i) .data).testRequests).countBoth .excursions).goTo (spareAddr i)
  | none => ((s.setProgress sl.sectorsDone none .data).testRequests).goTo (sl.sectorAddr sl.sectorsDone)

/-- An ASSIGN SPARE is classified as it becomes IN SERVICE, and goes to its first write or ends at once (R147,
R148). DESIGN CHOICE: where it ends at its classification as NO CHANGE or SPARES EXHAUSTED it has reached no write, and
the spec gives the write reached of R46 no value; the model records zeroing (assumption 41). -/
def State.beginAssign (s : State) (p : Port) (k : Fin 8) (x : Addr) : State × Agenda :=
  if s.label.state ≠ .valid then (s.endSlot p k .writeFault (some labelAddr), .released)
  else
    let c := classifyTarget s.label x
    if c.takesSpare then
      match lowestFree s.label.table s.label.retired with
      | none =>
        ((s.modSlot p k (·.classified c none .zeroing)).endSlot p k .sparesExhausted none, .released)
      | some i =>
        ((s.modSlot p k (·.classified c (some i) .zeroing)).setProgress 0 none .zeroing).goTo (spareAddr i)
    else if c = .noChange then
      ((s.modSlot p k (·.classified c none .zeroing)).endSlot p k .done none, .released)
    else
      ((s.modSlot p k (·.classified c none .labelWrite)).setProgress 0 none .labelWrite).goTo labelAddr

/-- The actuator is handed to an order: its slot becomes IN SERVICE, the last-granted port is set, the progress record
is formed and positioning for its first target begins (R70, R90, R110, R116). -/
def State.handTo (s : State) (p : Port) (k : Fin 8) : State × Agenda :=
  let s1 := { s.modSlot p k (fun x => { x with state := .inService }) with sched := { s.sched with last := p } }
  match s1.slot p k with
  | none => (s1, .idle)
  | some sl =>
    match sl.kind with
    | .formatTrack => (s1.setProgress 0 none .format).goTo sl.startAddr
    | .testTrack => (s1.setProgress 0 none .testWaiting).goTo sl.startAddr
    | .initializeLabel => (s1.setProgress 0 none .labelWrite).goTo labelAddr
    | .assignSpare => s1.beginAssign p k sl.startAddr
    | _ => s1.beginData sl

/-- The conditions of a selection other than a candidate (R69). -/
def State.maySelect (s : State) : Bool :=
  s.inService.isNone && s.drive.state.serving && !s.drive.stopPending && s.pos.cyl.isSome

/-- A selection: step 1, step 2 or step 3, and the actuator is handed to the order chosen (R69, R70, R79 to R81). -/
def State.select (s : State) : State × Agenda :=
  if s.maySelect then
    let cyl := s.pos.cyl.getD 0
    let pos := s.pos.position
    match s.stepOne cyl pos with
    | some (p, k, _) => s.handTo p k
    | none =>
      match s.suspendedCandidate with
      | some (p, k, _) => s.handTo p k
      | none =>
        match s.stepThree cyl pos with
        | some (p, k, _) => { s with sched := { s.sched with bypass := s.bypassAfter p } }.handTo p k
        | none => (s, .idle)
  else (s, .idle)

/-! ## The suspension check (R85 to R88) -/

/-- The revolutions a TEST TRACK has still to make (R86, R151). -/
def Slot.revolutionsLeft (sl : Slot) : Nat :=
  match sl.params, sl.maint with
  | .test _ _ window _, .test done revs _ _ _ => (if done then 0 else 1) + (window - revs)
  | _, _ => 0

/-- The in-service order's remaining time in the model, with its end cylinder and end position (R86). -/
def Slot.remaining (sl : Slot) : Nat × Nat × Nat :=
  if sl.kind = .testTrack then (200 * sl.revolutionsLeft, 385, 0)
  else
    let first := sl.sectorAddr sl.sectorsDone
    let last := sl.sectorAddr (sl.n - 1)
    (10 * (sl.n - sl.sectorsDone) + 200 * (last.linear / 20 - first.linear / 20), last.cyl,
      10 * (last.sector + 1) % 200)

/-- The in-service order has work remaining (R85). -/
def Slot.hasWork (sl : Slot) : Bool :=
  if sl.kind = .testTrack then decide (0 < sl.revolutionsLeft) else decide (sl.sectorsDone < sl.n)

/-- The kinds that may be suspended (R85). -/
def Slot.suspendable (sl : Slot) : Bool :=
  match sl.kind with
  | .read | .check | .testTrack => true
  | .write => !sl.verify
  | _ => false

/-- F_wait and F_susp of a PROMPT order against the in-service order at a boundary (R87). -/
def State.finishTimes (s : State) (cur : Slot) (cyl pos : Nat) (x : Slot) : Tick × Tick :=
  let r := cur.remaining
  (tickAfter s.tick (r.1 + estimate r.2.1 r.2.2 x.startAddr x.n x.verify),
   tickAfter s.tick (estimate cyl pos x.startAddr x.n x.verify))

/-- The order for which the in-service order is suspended at a boundary reached at a cylinder and a position; none
where a condition of R85 fails. -/
def State.suspensionFor (s : State) (cur : Slot) (cyl pos : Nat) : Option (Port × Fin 8) :=
  if cur.prompt = false ∧ cur.suspendable = true ∧ cur.withdrawn = false ∧ s.suspended = none
      ∧ s.drive.stopPending = false ∧ cur.hasWork = true then
    match s.stepOne cyl pos with
    | none => none
    | some (p, k, x) =>
      let f := s.finishTimes cur cyl pos x
      if 0 < signedDiff f.1 x.due ∧ signedDiff f.2 x.due ≤ 0 then some (p, k) else none
  else none

/-- The in-service order is suspended with its progress intact, one suspension is counted in both banks, and the
actuator is handed to the PROMPT order (R88). A read still under way, as an index can find one of a TEST TRACK, is
dropped (assumption 36). -/
def State.suspend (s : State) (p : Port) (k : Fin 8) (q : Port) (j : Fin 8) : State × Agenda :=
  let s1 := s.modSlot p k fun x => { x with state := .suspended }
  ({ s1 with progress := none, pass := none }.countBoth .suspensions).handTo q j

/-- The suspension check of a boundary at which the in-service order goes on: none where it is not suspended. -/
def State.checkSuspension (s : State) (p : Port) (k : Fin 8) (pos : Nat) : Option (State × Agenda) :=
  match s.slot p k with
  | none => none
  | some cur =>
    match s.suspensionFor cur (s.pos.cyl.getD 0) pos with
    | some (q, j) => some (s.suspend p k q j)
    | none => none

end Sys2Proof.Machine
end

