-- ==== Sys2Proof/Machine/Engine.lean ====
section
/-! DEFINITION. The transfer engine (chapters 7 and 9) and the label read (R7): boundaries, sector starts, the ends of
sector passes, the arrival of a positioning, and the loop that carries one step to its end. -/

namespace Sys2Proof.Machine

/-- The result with which an order's own work ends at a boundary: the outcome, the fault address, and where they are
set by the ending, the sectors done and the reply body. -/
structure Result where
  ending : Ending
  fault : Option Addr := none
  sectors : Option Nat := none
  body : Option (List Word) := none
  deriving DecidableEq, Repr

/-! ## Boundaries -/

/-- The physical address at which the next sector of a data order is to be moved (R110, R112). -/
def Slot.moveAddr (sl : Slot) (g : Progress) : Addr :=
  match g.dest with
  | some i => spareAddr i
  | none => sl.sectorAddr g.next

/-- The disk phase ends with a result; a READ or CHECK ended READ FAULT latches SECTOR LOST and is counted as a sector
lost in both banks (R111, R115). -/
def State.endWith (s : State) (p : Port) (k : Fin 8) (r : Result) : State × Agenda :=
  let s1 := s.modSlot p k fun x =>
    { x with sectorsDone := r.sectors.getD x.sectorsDone, body := r.body.getD x.body }
  let s2 := if r.ending = .readFault then (s1.latch .sectorLost).countBoth .sectorsLost else s1
  match s2.slot p k with
  | some sl => (s2.endDiskPhase p k sl r.ending r.fault, .released)
  | none => (s2, .released)

/-- The positioner's heads stand on the track of an address. -/
def State.onTrack (s : State) (x : Addr) : Bool := decide (s.pos.cyl = some x.cyl ∧ s.pos.head = x.head)

/-- The next sector of a data order has changed: it is looked up; a listed one is gone to by an excursion, one on
another track by a positioning, one on this track follows (R110, R123). -/
def State.nextSector (s : State) (sl : Slot) (g : Progress) : State × Agenda :=
  match lookupSpare s.label.table (sl.sectorAddr g.next) with
  | some i => ((s.setProgress g.next (some i) .data).countBoth .excursions).goTo (spareAddr i)
  | none =>
    let s1 := s.setProgress g.next none .data
    if s.onTrack (sl.sectorAddr g.next) then (s1, .idle) else s1.goTo (sl.sectorAddr g.next)

/-- The order needs WRITE on the cylinders it touches (R111). -/
def Slot.needsWrite (sl : Slot) : Bool := decide (sl.kind = .write)

/-- A boundary of a READ, WRITE or CHECK order: the checks of R111 in turn, then the suspension check (R85). DESIGN
CHOICE: the fault address of MAP CHANGED is the next sector's own address, also where the sector is listed; R111 names
that of the logical sector, R12 the spare's for a sector moved by an excursion (assumption 39). -/
def State.dataBoundary (s : State) (p : Port) (k : Fin 8) (pos : Nat) (r : Option Result) (changed : Bool) :
    State × Agenda :=
  match s.slot p k, s.progress with
  | some sl, some g =>
    if sl.withdrawn then (s.freeWithdrawn p k, .released)
    else if s.lost p then s.endWith p k { ending := .portLost }
    else match r with
      | some r => s.endWith p k r
      | none =>
        if sl.n ≤ g.next then s.endWith p k { ending := .done }
        else if s.grants p sl.needsWrite (sl.sectorAddr g.next).cyl = false then
          s.endWith p k { ending := .mapChanged, fault := some (sl.sectorAddr g.next) }
        else match s.checkSuspension p k pos with
          | some r => r
          | none => if changed then s.nextSector sl g else (s, .idle)
  | _, _ => (s, .idle)

/-- A FORMAT TRACK on a data cylinder has lost its port's WRITE right on it (R142). -/
def State.formatBarred (s : State) (p : Port) (sl : Slot) : Bool :=
  decide (sl.kind = .formatTrack) && decide (sl.startAddr.cyl ≤ 383) && !s.grants p true sl.startAddr.cyl

/-- A boundary of a maintenance order: the checks of R142 in turn. From the start of a label write to the verdict of
its read-back, withdrawal and port loss are not looked at (R145). None where the order goes on. -/
def State.maintBoundary (s : State) (p : Port) (k : Fin 8) (r : Option Result) : Option (State × Agenda) :=
  match s.slot p k with
  | none => none
  | some sl =>
    if sl.withdrawn = true ∧ s.labelOpen = false then some (s.freeWithdrawn p k, .released)
    else if s.lost p = true ∧ s.labelOpen = false then some (s.endWith p k { ending := .portLost })
    else match r with
      | some r => some (s.endWith p k r)
      | none =>
        if s.formatBarred p sl then
          some (s.endWith p k { ending := .mapChanged, fault := some { sl.startAddr with sector := sl.sectorsDone } })
        else none

/-- A boundary of a maintenance order at which it may be suspended (TEST TRACK, R85), and otherwise goes on as
given. -/
def State.maintThen (s : State) (p : Port) (k : Fin 8) (pos : Nat) (r : Option Result) (go : State × Agenda) :
    State × Agenda :=
  match s.maintBoundary p k r with
  | some x => x
  | none => match s.checkSuspension p k pos with
    | some x => x
    | none => go

/-! ## Sector starts (R95, R112, R142) -/

/-- A pass over a sector is under way. -/
def State.setPass (s : State) (x : PassKind) (a : Addr) (v : Verdict) (ws : List Word) : State :=
  { s with pass := some ⟨x, a, v, ws⟩ }

/-- A pass that confirms its positioning by its header is taken: a re-read pass is counted, consecutive slips return
to 0, a mismatched header is a seek error, a matching one confirms the positioning (R101, R115, R119, R122). -/
def State.takePass (s : State) (p : Port) (k : Fin 8) (g : Progress) (x : PassKind) (a : Addr) (ws : List Word)
    (h : HeaderReading) : State × Agenda :=
  let s1 := if 0 < g.failed then
      (s.modSlot p k fun y => { y with retries := sat16 y.retries 1 }).countBoth .reReads else s
  let s2 := s1.modSlot p k fun y => { y with consSlips := 0 }
  match h.verdict s.disk a with
  | .mismatched => (s2.headerMismatch a, .idle)
  | .unreadable => (s2.setPass x a .unreadable ws, .idle)
  | .matching => ((s2.onPos fun y => { y with activity := .confirmed }).setPass x a .matching ws, .idle)

/-- A slip: the sector passes untaken and is counted (R122). -/
def State.slip (s : State) (p : Port) (k : Fin 8) (a : Addr) : State × Agenda :=
  let s1 := s.modSlot p k fun y => { y with slips := sat16 y.slips 1, consSlips := min (y.consSlips + 1) 8 }
  ((s1.count p .slips).setPass .slip a .unreadable [], .idle)

/-- An order ends at a sector start with the address at which the sector was to be moved (R112, R142). -/
def State.endAtStart (s : State) (p : Port) (k : Fin 8) (e : Ending) (a : Addr) : State × Agenda :=
  s.endWith p k { ending := e, fault := some a }

/-- The buffer of a WRITE that is FULL FOR DISK with a sector index (R112). -/
def State.diskBuffer (s : State) (p : Port) (k : Fin 8) (i : Nat) : Option (Fin 4) :=
  (s.ownedIn p k .fullForDisk).find? fun b => decide (s.buffers[b].index = i)

/-- The start of the next sector of a data order: the checks of R112 for its kind. -/
def State.startData (s : State) (p : Port) (k : Fin 8) (sl : Slot) (g : Progress) (h : HeaderReading) :
    State × Agenda :=
  let a := sl.moveAddr g
  let c := (sl.sectorAddr g.next).cyl
  match sl.kind with
  | .read =>
    match s.freeBuffer with
    | none => s.slip p k a
    | some b =>
      if 3 ≤ (s.owned p k).length then s.slip p k a
      else if s.grants p false c = false then s.endAtStart p k .mapChanged a
      else s.takePass p k g (.read b) a [] h
  | .check =>
    if s.grants p false c = false then s.endAtStart p k .mapChanged a else s.takePass p k g .check a [] h
  | .write =>
    if sl.verifyPhase then
      if s.grants p true c = false then s.endAtStart p k .mapChanged a else s.takePass p k g .verify a [] h
    else
      match s.diskBuffer p k g.next with
      | none => s.slip p k a
      | some b =>
        if s.guard.protectsData c then s.endAtStart p k .guarded a
        else if s.grants p true c = false then s.endAtStart p k .mapChanged a
        else if s.lines.supply = false then s.endAtStart p k .writeInhibited a
        else s.takePass p k g (.write b) a s.buffers[b].data h
  | _ => (s, .idle)

/-- The next generation of a label: 65535 is followed by 1 (R6). -/
def nextGen (g : Word) : Word := if g = 65535 then 1 else g + 1

/-- The held label information an order will have made when its label write is confirmed (R145, R146, R148). -/
def Slot.labelToBe (sl : Slot) (l : Label) : Label :=
  match sl.params, sl.maint with
  | .label name serial, _ => { Label.blank .valid with name := name, serial := serial, gen := 1 }
  | .assign x, .assign c i _ =>
    let t := assignChange l x c (i.getD 0)
    { l with state := .valid, gen := nextGen l.gen, table := t.1, retired := t.2 }
  | _, _ => l

/-- The start of a sector that FORMAT TRACK writes (R142, R143); its sector 0 write on cylinder 386, head 0, makes the
label ABSENT (R14). -/
def State.startFormat (s : State) (p : Port) (k : Fin 8) (sl : Slot) : State × Agenda :=
  let a : Addr := { sl.startAddr with sector := sl.sectorsDone }
  if s.guard.protectsFormat a.cyl then s.endAtStart p k .guarded a
  else if s.formatBarred p sl then s.endAtStart p k .mapChanged a
  else if s.lines.supply = false then s.endAtStart p k .writeInhibited a
  else
    let s1 := if a = labelAddr then s.loseLabel .absent else s
    (s1.setPass .format a .matching zeroData, .idle)

/-- The start of a sector write on a frozen cylinder: guard, then write supply (R42, R142). -/
def State.startFrozen (s : State) (p : Port) (k : Fin 8) (g : Progress) (x : PassKind) (a : Addr) (ws : List Word)
    (h : HeaderReading) : State × Agenda :=
  if s.guard.freeze then s.endAtStart p k .guarded a
  else if s.lines.supply = false then s.endAtStart p k .writeInhibited a
  else s.takePass p k g x a ws h

/-- The start of sector `sec` in a revolution of TEST TRACK (R151). -/
def State.startTest (s : State) (p : Port) (k : Fin 8) (sl : Slot) (sec : Nat) (writing : Bool) (h : HeaderReading) :
    State × Agenda :=
  let a : Addr := { sl.startAddr with sector := sec }
  let v := h.verdict s.disk a
  match sl.params with
  | .test _ seed _ _ =>
    if writing then
      if s.lines.supply = false then s.endAtStart p k .writeInhibited a
      else (s.setPass .testWrite a v (patternSector seed sec), .idle)
    else (s.setPass .testRead a v [], .idle)
  | _ => (s, .idle)

/-- The new spare an ASSIGN SPARE is zeroing (R148). -/
def Slot.newSpare (sl : Slot) : Nat :=
  match sl.maint with
  | .assign _ (some i) _ => i
  | _ => 0

/-- The start of sector `sec` for the order IN SERVICE: the sector it takes next, by its stage. -/
def State.startInService (s : State) (p : Port) (k : Fin 8) (sl : Slot) (g : Progress) (sec : Nat)
    (h : HeaderReading) : State × Agenda :=
  match g.stage with
  | .data => if (sl.moveAddr g).sector = sec then s.startData p k sl g h else (s, .idle)
  | .format => if sl.sectorsDone = sec then s.startFormat p k sl else (s, .idle)
  | .testWaiting => (s, .idle)
  | .testWriting => s.startTest p k sl sec true h
  | .testReading => s.startTest p k sl sec false h
  | .zeroing =>
    if (spareAddr sl.newSpare).sector = sec then s.startFrozen p k g .zero (spareAddr sl.newSpare) zeroData h
    else (s, .idle)
  | .labelWrite =>
    if sec = 0 then s.startFrozen p k g .labelWrite labelAddr (labelWords (sl.labelToBe s.label)) h else (s, .idle)
  | .readBack => if sec = 0 then s.takePass p k g .readBack labelAddr [] h else (s, .idle)

/-- A pass of the label read is taken; each after a failed one is a re-read pass (R7). -/
def State.startLabelRead (s : State) (h : HeaderReading) : State × Agenda :=
  let s1 := if 0 < s.drive.labelFails then s.countBoth .reReads else s
  match h.verdict s.disk labelAddr with
  | .mismatched => (s1.headerMismatch labelAddr, .idle)
  | .unreadable => (s1.setPass .labelRead labelAddr .unreadable [], .idle)
  | .matching =>
    ((s1.onPos fun y => { y with activity := .confirmed }).setPass .labelRead labelAddr .matching [], .idle)

/-- The heads are on track for a sector whose pulse comes now: a positioning has arrived at an earlier tick and no
pass is under way (R95). -/
def State.mayTake (s : State) : Bool :=
  s.pass.isNone && decide (s.pos.activity = .arrived ∨ s.pos.activity = .confirmed)
    && decide (0 < signedDiff s.tick s.pos.arrivalTick)

/-- The start of sector `sec` under the heads (R95). -/
def State.sectorStart (s : State) (sec : Nat) (h : HeaderReading) : State × Agenda :=
  if s.mayTake = false then (s, .idle)
  else if s.drive.state = .labelRead then
    if sec = 0 then s.startLabelRead h else (s, .idle)
  else match s.inService, s.progress with
    | some (p, k, sl), some g => s.startInService p k sl g sec h
    | _, _ => (s, .idle)

/-! ## Ends of passes (R111, R113, R115, R118, R121, R122, R142 to R151) -/

/-- The rotational position at the end of a sector (R84). -/
def endPosition (sec : Nat) : Nat := 10 * (sec + 1) % 200

/-- A failed pass: the sector's failed passes are raised, and the fifth gives the result (R115, R119). -/
def State.failPass (s : State) (g : Progress) (e : Ending) (a : Addr) : State × Option Result :=
  ({ s with progress := some { g with failed := g.failed + 1 } },
    if 5 ≤ g.failed + 1 then some { ending := e, fault := some a } else none)

/-- A sector of a data order is done: sectors done and the next sector rise, failed passes and consecutive slips return
to 0 (R113, R118). -/
def State.sectorDone (s : State) (p : Port) (k : Fin 8) (g : Progress) : State :=
  let s1 := s.modSlot p k fun x => { x with sectorsDone := x.sectorsDone + 1, consSlips := 0 }
  { s1 with progress := some { g with next := g.next + 1, failed := 0 } }

/-- The verify pass of a WRITE begins when its last sector has been written (R121). -/
def State.beginVerify (s : State) (p : Port) (k : Fin 8) : State :=
  match s.slot p k, s.progress with
  | some sl, some g =>
    if sl.verify = true ∧ sl.n ≤ g.next then
      { s.modSlot p k (fun x => { x with verifyPhase := true }) with progress := some { g with next := 0 } }
    else s
  | _, _ => s

/-- The end of a pass over a sector of a data order (R113, R118, R121, R122), and its boundary. -/
def State.endDataPass (s : State) (p : Port) (k : Fin 8) (sl : Slot) (g : Progress) (q : Pass) (d : DataReading) :
    State × Agenda :=
  let pos := endPosition q.addr.sector
  let good := decide (q.verdict = .matching) && d.passes s.disk q.addr
  match q.kind with
  | .slip =>
    s.dataBoundary p k pos (if 8 ≤ sl.consSlips then some { ending := .stalled } else none) false
  | .read b =>
    if good then
      let s1 := if sl.withdrawn then s
        else s.putBuffer b ⟨.fullForHost, some (p, k), g.next, d.words s.disk q.addr⟩
      ((s1.sectorDone p k g).count p .sectorsRead).dataBoundary p k pos none true
    else
      let r := s.failPass g .readFault q.addr
      r.1.dataBoundary p k pos r.2 false
  | .check =>
    if good then ((s.sectorDone p k g).count p .sectorsRead).dataBoundary p k pos none true
    else
      let r := s.failPass g .readFault q.addr
      r.1.dataBoundary p k pos r.2 false
  | .write b =>
    if q.verdict = .matching then
      let s1 := ((s.writeData q.addr q.words).putBuffer b .empty).sectorDone p k g
      ((((s1.count p .sectorsWritten).testRequests).beginVerify p k)).dataBoundary p k pos none true
    else
      let r := s.failPass g .writeFault q.addr
      r.1.dataBoundary p k pos r.2 false
  | .verify =>
    if good then
      { s with progress := some { g with next := g.next + 1 } }.dataBoundary p k pos none true
    else s.dataBoundary p k pos (some { ending := .verifyFault, fault := some q.addr }) false
  | _ => (s, .idle)

/-- The end of a sector written by FORMAT TRACK (R143), and its boundary. -/
def State.endFormatPass (s : State) (p : Port) (k : Fin 8) (sl : Slot) (q : Pass) : State × Agenda :=
  let s1 := (s.putSector q.addr (.formatted q.addr q.words)).modSlot p k fun x =>
    { x with sectorsDone := x.sectorsDone + 1 }
  s1.maintThen p k (endPosition q.addr.sector)
    (if 20 ≤ sl.sectorsDone + 1 then some { ending := .done } else none) (s1, .idle)

/-- The stage of the progress record moves on, with its failed passes at 0. -/
def State.toStage (s : State) (st : Stage) : State :=
  { s with progress := s.progress.map fun g => { g with stage := st, failed := 0 } }

/-- The end of a pass that zeroes the new spare of an ASSIGN SPARE; at its boundary the label write begins (R148). -/
def State.endZeroPass (s : State) (p : Port) (k : Fin 8) (g : Progress) (q : Pass) : State × Agenda :=
  let pos := endPosition q.addr.sector
  if q.verdict = .matching then
    let s1 := s.writeData q.addr q.words
    let s2 := (s1.toStage .labelWrite).modSlot p k fun x => match x.maint with
      | .assign c i _ => { x with maint := .assign c i .labelWrite }
      | _ => x
    s1.maintThen p k pos none (s2.goTo labelAddr)
  else
    let r := s.failPass g .writeFault q.addr
    r.1.maintThen p k pos r.2 (r.1, .idle)

/-- The end of a pass that writes the label; a written label waits for its read-back (R145). -/
def State.endLabelWritePass (s : State) (p : Port) (k : Fin 8) (g : Progress) (q : Pass) : State × Agenda :=
  let pos := endPosition q.addr.sector
  if q.verdict = .matching then
    let s1 := (s.writeData q.addr q.words).toStage .readBack
    s1.maintThen p k pos none (s1, .idle)
  else
    let r := s.failPass g .writeFault q.addr
    r.1.maintThen p k pos r.2 (r.1, .idle)

/-- The end of the read-back of a label write: the order's change is made, or the label becomes DAMAGED (R145). -/
def State.endReadBack (s : State) (p : Port) (k : Fin 8) (sl : Slot) (q : Pass) (d : DataReading) : State × Agenda :=
  let s1 := s.toStage .labelWrite
  let pos := endPosition q.addr.sector
  if q.verdict = .matching ∧ d.passes s.disk q.addr = true then
    let s2 := s1.setLabel (sl.labelToBe s.label)
    s2.maintThen p k pos (some { ending := .done, sectors := some 1 }) (s2, .idle)
  else
    let s2 := s1.loseLabel .damaged
    s2.maintThen p k pos (some { ending := .writeFault, fault := some labelAddr }) (s2, .idle)

/-- The words of a stop record: read revolution, sector, cause, first differing word (R152; 12, section 12.5). -/
def stopWords (rev sec cause : Nat) (first : Option Nat) : List Word :=
  [wordOf rev, wordOf sec, wordOf cause, match first with
    | some i => wordOf i
    | none => emptyWord]

/-- The reply body of a completed TEST TRACK (R152; 12, section 12.5). -/
def Slot.testBody (sl : Slot) (stop : List Word) : List Word :=
  match sl.params, sl.maint with
  | .test _ seed window stopFirst, .test _ revs fails mism failing =>
    [wordOf (bitOf stopFirst), seedUsed seed, wordOf window, wordOf revs, wordOf fails, wordOf mism, wordOf failing]
      ++ stop
  | _, _ => []

/-- The end of a sector in TEST TRACK's write revolution (R151). -/
def State.endTestWrite (s : State) (p : Port) (k : Fin 8) (q : Pass) : State :=
  if q.verdict = .matching then
    (s.writeData q.addr q.words).modSlot p k fun x => { x with sectorsDone := x.sectorsDone + 1 }
  else
    s.modSlot p k fun x => match x.maint with
      | .test w r f m e => { x with maint := .test w r (f + 1) m e }
      | _ => x

/-- The counts of a sector in a read revolution, and the words of the stop record where it showed a failure (R151,
R152). -/
def Slot.testReadSector (sl : Slot) (q : Pass) (ws : List Word) (passes : Bool) : Slot × Option (List Word) :=
  match sl.params, sl.maint with
  | .test _ seed _ _, .test w revs f m e =>
    if q.verdict ≠ .matching then
      ({ sl with maint := .test w revs f m (sat16 e 1) }, some (stopWords (revs + 1) q.addr.sector 0 none))
    else
      let c := compareWords 0 ws (patternSector seed q.addr.sector)
      let sl' := { sl with maint := .test w revs f (sat16 m c.1) (if passes then e else sat16 e 1) }
      if passes = false then (sl', some (stopWords (revs + 1) q.addr.sector 1 c.2))
      else if 0 < c.1 then (sl', some (stopWords (revs + 1) q.addr.sector 2 c.2))
      else (sl', none)
  | _, _ => (sl, none)

/-- The order was sent in STOP AT FIRST mode (R151). -/
def Slot.stopsFirst (sl : Slot) : Bool :=
  match sl.params with
  | .test _ _ _ x => x
  | _ => false

/-- The end of a sector in a read revolution of TEST TRACK; in STOP AT FIRST mode a failure ends the order there
(R151). -/
def State.endTestRead (s : State) (p : Port) (k : Fin 8) (sl : Slot) (q : Pass) (d : DataReading) : State × Agenda :=
  let r := sl.testReadSector q (d.words s.disk q.addr) (d.passes s.disk q.addr)
  let s1 := s.modSlot p k fun _ => r.1
  match r.2 with
  | some stop =>
    if sl.stopsFirst then
      s1.maintThen p k (endPosition q.addr.sector) (some { ending := .done, body := some (r.1.testBody stop) })
        (s1, .idle)
    else (s1, .idle)
  | none => (s1, .idle)

/-- The end of a pass of the label read: the first good pass is judged, the fifth failed pass makes the label DAMAGED
(R7). -/
def State.endLabelRead (s : State) (q : Pass) (d : DataReading) : State × Agenda :=
  if q.verdict = .matching ∧ d.passes s.disk q.addr = true then
    (s.finishLabelRead (judgeLabel (d.words s.disk q.addr)), .select)
  else if 5 ≤ s.drive.labelFails + 1 then (s.finishLabelRead (.blank .damaged), .select)
  else (s.onDrive fun x => { x with labelFails := x.labelFails + 1 }, .idle)

/-- The end of the pass under way (R84, R111). -/
def State.passEnd (s : State) (d : DataReading) : State × Agenda :=
  match s.pass with
  | none => (s, .idle)
  | some q =>
    let s1 := { s with pass := none }
    match q.kind with
    | .labelRead => s1.endLabelRead q d
    | _ =>
      match s1.inService, s1.progress with
      | some (p, k, sl), some g =>
        match q.kind with
        | .format => s1.endFormatPass p k sl q
        | .zero => s1.endZeroPass p k g q
        | .labelWrite => s1.endLabelWritePass p k g q
        | .readBack => s1.endReadBack p k sl q d
        | .testWrite => (s1.endTestWrite p k q, .idle)
        | .testRead => s1.endTestRead p k sl q d
        | _ => s1.endDataPass p k sl g q d
      | _, _ => (s1, .idle)

/-! ## Index boundaries of TEST TRACK (R84, R151) -/

/-- The revolution an index closes, in the progress of a TEST TRACK (R151). -/
def Slot.closeRevolution (sl : Slot) (st : Stage) : Slot :=
  match sl.maint, st with
  | .test _ r f m e, .testWriting => { sl with maint := .test true r f m e }
  | .test w r f m e, .testReading => { sl with maint := .test w (r + 1) f m e }
  | _, _ => sl

/-- The revolution a TEST TRACK begins at an index: its write revolution if that is still to come, else a read
revolution (R90, R151). -/
def Slot.nextRevolution (sl : Slot) : Stage :=
  match sl.maint with
  | .test true _ _ _ _ => .testReading
  | _ => .testWriting

/-- The stage is one of TEST TRACK's. -/
def Stage.isTest : Stage → Bool
  | .testWaiting | .testWriting | .testReading => true
  | _ => false

/-- A pattern write of TEST TRACK that an index finds under way is complete at that index, which ends the revolution it
belongs to (R142, R151). DESIGN CHOICE: its end is the index, and a later SECTOR_PASS_END finds no pass (assumption
36). -/
def State.completeTestWrite (s : State) (p : Port) (k : Fin 8) : State :=
  match s.pass with
  | some q => if q.kind = .testWrite then ({ s with pass := none } : State).endTestWrite p k q else s
  | none => s

/-- The boundary of a TEST TRACK at an index: the revolution under way is closed, the order is judged, and the next
revolution begins (R84, R151). -/
def State.testBoundary (s : State) (p : Port) (k : Fin 8) (st : Stage) : State × Agenda :=
  match s.slot p k with
  | none => (s, .idle)
  | some sl =>
    let sl' := sl.closeRevolution st
    let s1 := s.modSlot p k fun _ => sl'
    s1.maintThen p k 0
      (if sl'.revolutionsLeft = 0 then some { ending := .done, body := some (sl'.testBody []) } else none)
      (s1.toStage sl'.nextRevolution, .idle)

/-- An index while a TEST TRACK is in service and on its track is its boundary, at which a pattern write under way is
complete (R84, R142, R151). DESIGN CHOICE: an index that comes before the arrival of a resumed TEST TRACK, or at the
arrival's own tick, is no boundary (assumption 35); a read still under way at the index goes on with the order, and is
dropped where the order leaves the actuator there (assumption 36). -/
def State.testIndex (s : State) : State × Agenda :=
  match s.inService, s.progress with
  | some (p, k, _), some g =>
    if g.stage.isTest = true ∧ s.pos.activity = .confirmed ∧ 0 < signedDiff s.tick s.pos.arrivalTick then
      (s.completeTestWrite p k).testBoundary p k g.stage
    else (s, .idle)
  | _, _ => (s, .idle)

/-! ## Arrivals and the end of a step -/

/-- The boundary of an arrival (R84, R98); FORMAT TRACK and TEST TRACK are confirmed by it (R101). -/
def State.arrivalBoundary (s : State) : State × Agenda :=
  match s.inService with
  | none => (s, .idle)
  | some (p, k, sl) =>
    if sl.kind.isData then s.dataBoundary p k s.pos.position none false
    else
      let s1 := if sl.kind = .formatTrack ∨ sl.kind = .testTrack then
          s.onPos fun y => { y with activity := .confirmed } else s
      s1.maintThen p k s1.pos.position none (s1, .idle)

/-- The end of the in-service order's time on the actuator: a pending stop is carried out (R138). -/
def State.stopOrSelect (s : State) : State × Agenda :=
  if s.drive.stopPending = true ∧ s.inService = none then (s.enterSpinningDown, .idle) else s.select

/-- One item of what remains to be done in a step. -/
def State.advance (s : State) : Agenda → State × Agenda
  | .idle => (s, .idle)
  | .select => s.select
  | .released => s.stopOrSelect
  | .arrived => s.arrivalBoundary

/-- A step is carried on until nothing remains to be done in it, at most `n` items (assumption 21). -/
def settle : Nat → State × Agenda → State
  | 0, x => x.1
  | _ + 1, (s, .idle) => s
  | n + 1, (s, a) => settle n (s.advance a)

/-- More items than one step can hold: two for each of the 16 slots' orders, and some (assumption 21). -/
def settleLimit : Nat := 64

/-- The state in which a step leaves the controller. -/
def State.settled (x : State × Agenda) : State := settle settleLimit x

/-- A test for a selection as part of an event (R69). -/
def State.schedule (s : State) : State := State.settled (s, .select)

end Sys2Proof.Machine
end

