-- ==== Sys2Proof/Machine/Panel.lean ====
section
/-! DEFINITION. The meanings of the panel's lines: changeover strobe, plan select, fixed-plan key, guard key and alarm
acknowledge (R23, R25, R38, R165). -/

namespace Sys2Proof.Machine

/-- The input lines of the state changed. -/
def State.onLines (s : State) (f : Lines → Lines) : State := { s with lines := f s.lines }

/-- The strobe's edge loads the selected staged plan: in LINE STROBE mode, with the key OFF and the plan not empty
(R23). -/
def State.strobeEdge (s : State) : State :=
  if s.map.mode = .lineStrobe ∧ s.lines.fixedKey = false ∧ s.selectedPlan.1.isEmpty = false then
    (s.loadMapLatched s.selectedPlan.1 s.selectedPlan.2).schedule.judgeAlarm
  else s

/-- CHANGEOVER_STROBE (R23): the line becomes active; only its inactive-to-active edge acts. -/
def execChangeoverStrobe (s : State) : Host.Outcome State Fault Refusal :=
  .next (if s.lines.strobe then s else (s.onLines fun l => { l with strobe := true }).strobeEdge)

/-- CHANGEOVER_STROBE_INACTIVE (R23): the line becomes inactive, and nothing else happens. -/
def execChangeoverStrobeInactive (s : State) : Host.Outcome State Fault Refusal :=
  .next (s.onLines fun l => { l with strobe := false })

/-- PLAN_SELECT_LINE (R23): the line's level alone loads nothing. -/
def execPlanSelectLine (changeover : Bool) (s : State) : Host.Outcome State Fault Refusal :=
  .next (s.onLines fun l => { l with select := changeover })

/-- FIXED_PLAN_KEY_ON (R25): turned ON, the key makes a map load of the fixed plan. -/
def execFixedPlanKeyOn (s : State) : Host.Outcome State Fault Refusal :=
  .next (if s.lines.fixedKey then s
    else ((s.onLines fun l => { l with fixedKey := true }).loadMapLatched .fixed .fixed).schedule.judgeAlarm)

/-- FIXED_PLAN_KEY_OFF (R25): the active map and origin stay as they are. -/
def execFixedPlanKeyOff (s : State) : Host.Outcome State Fault Refusal :=
  .next (s.onLines fun l => { l with fixedKey := false })

/-- GUARD_KEY_LINE (R38): a change of its level changes neither the setting nor the mode. -/
def execGuardKeyLine (on : Bool) (s : State) : Host.Outcome State Fault Refusal :=
  .next (s.onLines fun l => { l with guardKey := on })

/-- ALARM_ACKNOWLEDGE (R165): at the line's inactive-to-active edge every latched flag becomes acknowledged. -/
def execAlarmAcknowledge (s : State) : Host.Outcome State Fault Refusal :=
  .next (if s.lines.ack then s
    else { s.onLines (fun l => { l with ack := true }) with alarms := s.alarms.acknowledge }.judgeAlarm)

/-- ALARM_ACKNOWLEDGE_INACTIVE (R165): the line becomes inactive, and nothing else happens. -/
def execAlarmAcknowledgeInactive (s : State) : Host.Outcome State Fault Refusal :=
  .next (s.onLines fun l => { l with ack := false })

end Sys2Proof.Machine
end

