-- ==== Sys2Proof/Machine/Acceptance.lean ====
section
/-! DEFINITION. What the exchanges and the order rows share: the open exchange and its abandonment, presence reloads,
the acceptance checks of an order packet in their order, refusals, acceptance into a slot, and immediate answers
(chapters 4 and 10). -/

namespace Sys2Proof.Machine

/-! ## Exchanges and presence (R153, R154, R159) -/

/-- A reload of the presence timer: running to 10 × interval ticks from now, or stopped where the interval is 0
(R159). -/
def PortIf.reload (x : PortIf) (now : Tick) : PortIf :=
  { x with timer := if x.interval = 0 then none else some (tickAfter now (10 * x.interval)) }

/-- The open exchange of a port is abandoned as short: it is counted, and a buffer it was delivering for an order that
has ended becomes FREE (R109, R153, R154). -/
def State.abandon (s : State) (p : Port) : State :=
  match (s.ports.get p).exchange with
  | none => s
  | some e =>
    let s1 := (s.onPort p fun x => { x with exchange := none, offered := [], fetched := 0 }).count p .shortExchanges
    match e.kind with
    | .dataIn (some b) => (s1.dropOrphan b).testRequests
    | _ => s1

/-- What every opening word does before it opens an exchange: the open exchange is abandoned, the port becomes
PRESENT and its timer is reloaded; a port that was LOST has the requests of its in-service WRITE tested (R153, R161). -/
def State.openWord (s : State) (p : Port) : State :=
  let s1 := s.abandon p
  let s2 := s1.onPort p fun x => { x.reload s.tick with presence := .present, offered := [], fetched := 0 }
  if s.lost p then s2.testRequests.judgeAlarm else s2

/-- An exchange becomes open with its first word, and the words the controller holds ready for it (R153, R156). -/
def State.openExchange (s : State) (p : Port) (kind : ExchangeKind) (w : Word) (ready : List Word) : State :=
  s.onPort p fun x => { x with exchange := some ⟨kind, [w]⟩, offered := ready, fetched := 0 }

/-- An exchange is over: none is open and nothing is held ready (R154). -/
def State.closeExchange (s : State) (p : Port) : State :=
  s.onPort p fun x => { x with exchange := none, offered := [], fetched := 0 }

/-- The acceptance word closes an OUT exchange and is kept as the port's last (R155). -/
def State.answer (s : State) (p : Port) (code : Word) : State :=
  s.onPort p fun x => { x with exchange := none, lastWord := code, offered := [code], fetched := 0 }

/-- The port's open exchange is an ORDER OUT whose word count is `n` (R154). -/
def State.completes (s : State) (p : Port) (n : Nat) : Bool :=
  match (s.ports.get p).exchange with
  | some ⟨.orderOut m, _⟩ => decide (m = n)
  | _ => false

/-! ## Refusal and acceptance (R51, R55, R56) -/

/-- The arm latch is cleared (R56). -/
def State.disarm (s : State) (p : Port) : State := s.onPort p fun x => { x with armed := false }

/-- The counter of a refusal (R168). -/
def Refuse.counter (r : Refuse) : Counter := if r = .queueFull then .refusedFull else .refusedOther

/-- An order is refused: the latch is cleared, the refusal is counted and its code is the acceptance word (R51,
R56). -/
def State.refuse (s : State) (p : Port) (r : Refuse) : State := ((s.disarm p).count p r.counter).answer p r.code

/-- An order has been accepted: it is counted in its port's bank and answered ACCEPTED (R55, R168). -/
def State.accepted (s : State) (p : Port) : State := (s.count p .accepted).answer p 0

/-- The general checks 1 and 3 to 5 of R51 in their order, then the kind's own: the first that fails. -/
def State.judgeOrder (s : State) (p : Port) (kind : Kind) (k : Packet) (shape needsArm : Bool) (own : Option Refuse) :
    Option Refuse :=
  if (k.headerOk && shape) = false then some .malformed
  else if kind.slotless = false ∧ (s.queues.get p).freeSlot.isNone = true then some .queueFull
  else if kind.slotless = false ∧ ((s.queues.get p).tagged k.tag).isSome = true then some .tagInUse
  else if needsArm = true ∧ (s.ports.get p).armed = false then some .notArmed
  else own

/-- How a kind's packets are judged and what its acceptance does. -/
structure OrderRule where
  kind : Kind
  /-- the length and encodings of the kind's fields are sound (R172) -/
  shape : Packet → Bool
  /-- the order needs the arm latch (R44) -/
  needsArm : Packet → Bool
  /-- the kind-specific checks -/
  own : State → Port → Packet → Option Refuse
  /-- the effect of acceptance, the latch already cleared -/
  accept : State → Port → Packet → State

/-- A completed ORDER OUT exchange of a known kind: the packet is judged, and refused or accepted (R51, R55, R56). A
packet that completes no open ORDER OUT is stray words, which are discarded (R153; assumption 8). -/
def State.orderPacket (s : State) (p : Port) (o : OrderRule) (tag : Byte) (rest : List Word) : State :=
  if s.completes p (rest.length + 1) then
    match Packet.parse tag rest with
    | none => s.refuse p .malformed
    | some k =>
      match s.judgeOrder p o.kind k (o.shape k) (o.needsArm k) (o.own s p k) with
      | some r => s.refuse p r
      | none => (o.accept (s.disarm p) p k).accepted p
  else s

/-! ## Slots at acceptance (R45, R46, R55, R57) -/

/-- The record of a ROUTINE order at its acceptance, with nothing of its kind's own (R46). -/
def Slot.fresh (kind : Kind) (tag : Byte) (now : Tick) : Slot :=
  { tag := tag, kind := kind, prompt := false, dropIfLate := false, verify := false, start := none, count := none,
    params := .none, maint := .none, acceptTick := now, dueTick := none, state := .queued, sectorsDone := 0,
    verifyPhase := false, retries := 0, slips := 0, consSlips := 0, endTick := none, outcome := none,
    faultAddr := none, body := [], withdrawn := false, drainStart := none }

/-- The due of a PROMPT order, clamped to 1-2000 ms (R45). -/
def dueClamp (ms : Nat) : Nat := min (max ms 1) 2000

/-- The record of a data order at its acceptance, its urgency and due settled from the header (R45, R46). -/
def Slot.ofData (kind : Kind) (k : Packet) (verify : Bool) (start : Addr) (n : Nat) (now : Tick) : Slot :=
  let prompt := decide (k.urgency = 1)
  { Slot.fresh kind k.tag now with
      prompt := prompt, dropIfLate := prompt && decide (k.drop = 1), verify := verify, start := some start,
      count := some n, dueTick := if prompt then some (tickAfter now (10 * dueClamp k.due)) else none }

/-- A record takes a FREE slot and joins the order list (R55). -/
def State.enterSlot (s : State) (p : Port) (sl : Slot) : State :=
  match (s.queues.get p).freeSlot with
  | some k => s.onQueue p fun q => q.enter k sl
  | none => s

/-- A disk order enters as QUEUED, and the scheduler is told of the arrival (R55, R69). -/
def State.enqueue (s : State) (p : Port) (sl : Slot) : State := (s.enterSlot p sl).schedule.judgeAlarm

/-- The record of an immediate order: DONE at its acceptance with outcome DONE and its reply body (R46, R57). -/
def Slot.immediate (kind : Kind) (tag : Byte) (now : Tick) (body : List Word) : Slot :=
  { Slot.fresh kind tag now with state := .done, outcome := some .done, body := body }

/-- An immediate order that has been carried out takes a slot, which joins the order list and the reply list (R57). -/
def State.answerNow (s : State) (p : Port) (kind : Kind) (tag : Byte) (body : List Word) : State :=
  match (s.queues.get p).freeSlot with
  | some k => s.onQueue p fun q => (q.enter k (Slot.immediate kind tag s.tick body)).answer k
  | none => s

end Sys2Proof.Machine
end

