-- ==== Sys2Proof/Machine/Timers.lean ====
section
/-! DEFINITION. The meanings of the expiries of the flash timer, the presence timers, the due ticks and the drain timers
(R82, R114, R160, R167), each judged on the tick count: an expiry whose tick is not reached, or whose timer does not
run, changes nothing (assumption 26). -/

namespace Sys2Proof.Machine

/-- A timer is running and its expiry tick is reached (R93). -/
def State.ranOut (s : State) (timer : Option Tick) : Bool :=
  match timer with
  | some t => reached t s.tick
  | none => false

/-- The flash timer starts again and the line changes level (R167). -/
def Alarms.flashed (x : Alarms) (now : Tick) : Alarms :=
  { x with level := !x.level, flash := some (tickAfter now 2500) }

/-- FLASH_TIMER_EXPIRY (R167): the flashing line changes level, and the timer starts again. -/
def execFlashTimerExpiry (s : State) : Host.Outcome State Fault Refusal :=
  .next (if s.alarms.manner = .flashing ∧ s.ranOut s.alarms.flash = true then
      { s with alarms := s.alarms.flashed s.tick }
    else s)

/-- Every data request of a port is withdrawn: its FILLING FROM HOST buffers become FREE (R116, R160 step 3). -/
def State.withdrawRequests (s : State) (p : Port) : State :=
  slotNumbers.foldl (fun s k => s.release p k fun st => decide (st = .filling)) s

/-- A port's slots that its loss ends: QUEUED, SUSPENDED and DRAINING (R160 step 4). -/
def Slot.endsAtLoss (sl : Slot) : Bool :=
  decide (sl.state = .queued ∨ sl.state = .suspended ∨ sl.state = .draining)

/-- The loss of a port, in the order of the steps of R160, and the scheduler's test after them. -/
def State.losePort (s : State) (p : Port) : State :=
  let s1 := s.abandon p
  let s2 := s1.onPort p fun x => { x with presence := .lost, timer := none, armed := false }
  let s3 := (s2.withdrawRequests p).endWhere p Slot.endsAtLoss .portLost
  (((s3.latch (lostSource p)).autoChangeover).testRequests).schedule.judgeAlarm

/-- PRESENCE_TIMER_EXPIRY (R160): a PRESENT port whose timer has run out becomes LOST. -/
def execPresenceTimerExpiry (p : Port) (s : State) : Host.Outcome State Fault Refusal :=
  .next (if (s.ports.get p).presence = .present ∧ s.ranOut (s.ports.get p).timer = true then s.losePort p else s)

/-- The due tick of an order is reached (R82). -/
def Slot.isDue (sl : Slot) (now : Tick) : Bool :=
  match sl.dueTick with
  | some t => reached t now
  | none => false

/-- DUE_TICK_EXPIRY (R82): a QUEUED PROMPT order with drop-if-late ends EXPIRED at its due tick, and the scheduler
tests for a selection; an order in any other condition is left as it is. -/
def execDueTickExpiry (p : Port) (tag : Byte) (s : State) : Host.Outcome State Fault Refusal :=
  .next (match (s.queues.get p).tagged tag with
    | some (k, sl) =>
      if sl.state = .queued ∧ sl.prompt = true ∧ sl.dropIfLate = true ∧ sl.isDue s.tick = true then
        (s.endSlot p k .expired none).schedule.judgeAlarm
      else s
    | none => s)

/-- The drain limit of a slot is reached: 1,000 ticks since its timer last started (R114). -/
def Slot.drainOver (sl : Slot) (now : Tick) : Bool :=
  match sl.drainStart with
  | some t => reached (tickAfter t 1000) now
  | none => false

/-- DRAIN_LIMIT (R114): a DRAINING READ at its drain limit ends STALLED. -/
def execDrainLimit (p : Port) (tag : Byte) (s : State) : Host.Outcome State Fault Refusal :=
  .next (match (s.queues.get p).tagged tag with
    | some (k, sl) => if sl.state = .draining ∧ sl.drainOver s.tick = true then s.endSlot p k .stalled none else s
    | none => s)

end Sys2Proof.Machine
end

