-- ==== Sys2Proof/Machine/Drive.lean ====
section
/-! DEFINITION. The meanings of the drive's pulses, of the ends of sector passes, seeks and recalibrations, of the
supervisor's timers, and of the drive cable's lines (chapters 6 and 8). -/

namespace Sys2Proof.Machine

/-- What a step leaves to be done in the same step is done, and the alarm line is judged (R69, R167). -/
def State.close (x : State × Agenda) : State := (State.settled x).judgeAlarm

/-! ## Revolutions (R94, R96) -/

/-- The index sets the sector count to 0 and makes the position valid (R94). -/
def Positioner.atIndex (x : Positioner) : Positioner := { x with sc := 0, t := 0, valid := true }

/-- The length of the revolution an index at tick `now` closes; none where it opens one (R96). -/
def Positioner.closes (x : Positioner) (now : Tick) : Option Int := x.lastIndex.map (signedDiff now)

/-- A revolution is out of band below 196 ticks, above 204, or with an extra pulse in it (R96). -/
def outOfBand (len : Int) (extra : Bool) : Bool := decide (len < 196) || decide (204 < len) || extra

/-- The speed monitor after an index that closes a revolution in band or out of band (R96). -/
def Positioner.judgeRevolution (x : Positioner) (out : Bool) : Positioner :=
  if out then
    let run := min (x.outRun + 1) 3
    { x with outRun := run, inRun := 0, inBand := if run = 3 then false else x.inBand }
  else
    let run := min (x.inRun + 1) 8
    { x with inRun := run, outRun := 0, inBand := if run = 8 then true else x.inBand }

/-- The speed monitor after an index at tick `now`: a revolution is closed if one is open, and the next one opens
(R96). -/
def Positioner.measure (x : Positioner) (now : Tick) : Positioner :=
  let y := match x.closes now with
    | some len => { x.judgeRevolution (outOfBand len x.extra) with revLength := len }
    | none => x
  { y with lastIndex := some now, extra := false }

/-- The revolution an index closes is out of band by its length alone, in a state where such revolutions are counted
(R96). -/
def State.countsRevolution (s : State) : Bool :=
  s.drive.state.watched && !s.pos.extra && (match s.pos.closes s.tick with
    | some len => outOfBand len false
    | none => false)

/-- The scheduler tests for a selection where the drive has entered READY or DEGRADED from another state (R69). -/
def State.scheduleOnEntry (s : State) (before : DriveState) : State :=
  if s.drive.state = before then s else s.schedule

/-- A change of the speed verdict is handed to the supervisor (R96, R131, R134). -/
def State.verdictChanged (s : State) : State :=
  if s.drive.state = .spinningUp ∧ s.pos.inBand = true then s.enterCalibrating
  else (s.setReasons (!s.pos.inBand) s.drive.supply).scheduleOnEntry s.drive.state

/-- What an index does to the position, the speed monitor, the supervisor and the run-down watch (R94, R96, R131,
R134, R140). -/
def State.indexWatch (s : State) : State :=
  let s1 := if s.countsRevolution then s.countBoth .outOfBand else s
  let s2 := s1.onPos fun x => (x.measure s.tick).atIndex
  let s3 := if s2.pos.inBand = s.pos.inBand then s2 else s2.verdictChanged
  if s3.drive.state = .spinningDown then s3.onDrive fun d => { d with runDown := some (tickAfter s.tick 400) } else s3

/-- INDEX_PULSE (R94): the index watch, the boundary of a TEST TRACK (R84), and the start of sector 0 (R95). -/
def execIndexPulse (h : HeaderReading) (s : State) : Host.Outcome State Fault Refusal :=
  let s1 := State.settled s.indexWatch.testIndex
  .next (State.close (s1.sectorStart 0 h))

/-- An extra pulse: it makes the revolution out of band, and the first of a revolution counts it (R94, R96). -/
def State.extraPulse (s : State) : State :=
  let s1 := s.onPos fun x => { x with t := 0, extra := true }
  if s.pos.extra = false ∧ s.drive.state.watched = true then s1.countBoth .outOfBand else s1

/-- SECTOR_PULSE (R94): ignored before the position is valid; below sector 19 it begins the next sector; at sector 19
it is an extra pulse, which begins none (R95). -/
def execSectorPulse (h : HeaderReading) (s : State) : Host.Outcome State Fault Refusal :=
  .next (if s.pos.valid = false then s
    else if s.pos.sc < 19 then
      State.close ((s.onPos fun x => { x with sc := x.sc + 1, t := 0 }).sectorStart (s.pos.sc + 1) h)
    else s.extraPulse)

/-- SECTOR_PASS_END (R111): the end of the pass under way is judged. -/
def execSectorPassEnd (d : DataReading) (s : State) : Host.Outcome State Fault Refusal :=
  .next (State.close (s.passEnd d))

/-! ## Seeks and recalibrations (R99, R102, R103) -/

/-- The seek in hand has lasted its T_seek and `more` ticks (R99). -/
def State.seekLasted (s : State) (more : Nat) : Bool := reached (tickAfter s.pos.seekStart (s.pos.seekTime + more)) s.tick

/-- SEEK_ARRIVAL (R99): the on-cylinder line is active while a seek's arrival is awaited; the arrival is taken once
T_seek has passed, and is a boundary of the in-service order (R84, R98). -/
def execSeekArrival (s : State) : Host.Outcome State Fault Refusal :=
  .next (match s.pos.activity, s.pos.target with
    | .seeking, some x =>
      let s1 := s.onLines fun l => { l with onCylinder := true }
      if s.seekLasted 0 then State.close (s1.arrive x).arrivalBoundary else s1
    | _, _ => s)

/-- SEEK_TIMEOUT (R99): a seek not arrived 200 ticks after its T_seek is a seek error. -/
def execSeekTimeout (s : State) : Host.Outcome State Fault Refusal :=
  .next (if s.pos.activity = .seeking ∧ s.seekLasted 200 = true then s.seekError.judgeAlarm else s)

/-- The reseek that follows a recalibration made for a positioning, from cylinder 0 (R102; assumption 14). -/
def State.reseek (s : State) : State :=
  match s.pos.target with
  | some x => s.issueSeek x
  | none => s.onPos fun y => { y with activity := .idle }

/-- RECALIBRATION_COMPLETE (R103): the current cylinder is 0; the supervisor in CALIBRATING enters LABEL READ (R132),
any other recalibration is followed by its reseek (R102). A rise that arrived with the limit of the recalibration before
is disregarded where the limit was taken first (R103; assumption 37). -/
def execRecalibrationComplete (s : State) : Host.Outcome State Fault Refusal :=
  .next (if s.pos.activity = .recalibrating ∧ s.lines.onCylinder = false ∧ s.pos.limitTaken = false then
      let s1 := (s.onLines fun l => { l with onCylinder := true }).onPos fun y => { y with cyl := some 0, head := 0 }
      (if s.drive.state = .calibrating then s1.enterLabelRead else s1.reseek).schedule.judgeAlarm
    else s)

/-- RECALIBRATION_LIMIT (R103): a recalibration that has not completed 1,000 ticks after its command has failed. -/
def execRecalibrationLimit (s : State) : Host.Outcome State Fault Refusal :=
  .next (if s.pos.activity = .recalibrating ∧ reached (tickAfter s.pos.recalStart 1000) s.tick = true then
      s.recalibrationFailed.judgeAlarm
    else s)

/-! ## The supervisor's timers (R97, R131, R140) -/

/-- 400 ticks have passed since the last index (R97). -/
def State.indexOverdue (s : State) : Bool := s.ranOut (s.pos.lastIndex.map (tickAfter · 400))

/-- INDEX_LOSS (R97): in the watched states the drive enters FAULTED with reason index lost. -/
def execIndexLoss (s : State) : Host.Outcome State Fault Refusal :=
  .next (if s.drive.state.watched = true ∧ s.indexOverdue = true then (s.enterFaulted .indexLost).judgeAlarm else s)

/-- SPIN_UP_TIMEOUT (R131): in SPINNING UP the drive enters FAULTED with reason spin-up timeout. -/
def execSpinUpTimeout (s : State) : Host.Outcome State Fault Refusal :=
  .next (if s.drive.state = .spinningUp ∧ s.ranOut s.drive.spinUp = true then
      (s.enterFaulted .spinUpTimeout).judgeAlarm
    else s)

/-- RUN_DOWN_TIMEOUT (R140): in SPINNING DOWN the drive enters EMPTY, and the run condition is judged. -/
def execRunDownTimeout (s : State) : Host.Outcome State Fault Refusal :=
  .next (if s.drive.state = .spinningDown ∧ s.ranOut s.drive.runDown = true then s.enterEmpty.judgeAlarm else s)

/-! ## The drive's lines (R129, R134, R135, R137, R138) -/

/-- Another cartridge, where one was put in place. DESIGN CHOICE: it can be while no label is held of the one before, in
EMPTY and in SPINNING DOWN alone; elsewhere the cartridge in place stays, so that a VALID label remains that of the disk
(R14, R139, R140; assumption 20). -/
def State.exchange (s : State) : Option Cartridge → State
  | none => s
  | some c =>
    if s.drive.state = .empty ∨ s.drive.state = .spinningDown then { s with disk := Cartridge.ofList c } else s

/-- What the run condition's coming to hold does: EMPTY spins up, and a pending stop is withdrawn (R129, R138). -/
def State.runHolds (s : State) : State :=
  if s.drive.state = .empty then s.enterSpinningUp else s.onDrive fun d => { d with stopPending := false }

/-- RUN_CONDITION_HOLDS (R129): all three lines are active; it acts where the condition did not hold before. -/
def execRunConditionHolds (cart : Option Cartridge) (s : State) : Host.Outcome State Fault Refusal :=
  .next (if s.lines.run then s
    else ((s.exchange cart).onLines fun l =>
        { l with cartridge := true, door := true, start := true }).runHolds.judgeAlarm)

/-- What the run condition's coming to fail does, by the state (R138). -/
def State.runFails (s : State) : State :=
  match s.drive.state with
  | .empty | .spinningDown => s
  | .spinningUp | .calibrating | .labelRead | .faulted => s.enterSpinningDown
  | .ready | .degraded =>
    if s.inService = none then s.enterSpinningDown else s.onDrive fun d => { d with stopPending := true }

/-- RUN_CONDITION_FAILS (R138): the three lines take their levels; it acts where the condition held before and fails
now. -/
def execRunConditionFails (cartridge door start : Bool) (s : State) : Host.Outcome State Fault Refusal :=
  let s1 := s.onLines fun l => { l with cartridge := cartridge, door := door, start := start }
  .next (if s.lines.run = true ∧ s1.lines.run = false then s1.runFails.judgeAlarm else s1)

/-- WRITE_SUPPLY_LOST (R134): the supply reason is added. -/
def execWriteSupplyLost (s : State) : Host.Outcome State Fault Refusal :=
  .next (((s.onLines fun l => { l with supply := false }).setReasons s.drive.speed true).scheduleOnEntry
    s.drive.state).judgeAlarm

/-- WRITE_SUPPLY_GOOD (R134): the supply reason is removed. -/
def execWriteSupplyGood (s : State) : Host.Outcome State Fault Refusal :=
  .next (((s.onLines fun l => { l with supply := true }).setReasons s.drive.speed false).scheduleOnEntry
    s.drive.state).judgeAlarm

/-- OVER_TEMPERATURE (R135): the line becomes active; in a spinning state the drive enters FAULTED. -/
def execOverTemperature (s : State) : Host.Outcome State Fault Refusal :=
  .next (if s.lines.overTemp then s
    else
      let s1 := s.onLines fun l => { l with overTemp := true }
      if s.drive.state.spinning then (s1.enterFaulted .overtemp).judgeAlarm else s1)

/-- OVER_TEMPERATURE_INACTIVE (R137): the line becomes inactive, and nothing else happens. -/
def execOverTemperatureInactive (s : State) : Host.Outcome State Fault Refusal :=
  .next (s.onLines fun l => { l with overTemp := false })

end Sys2Proof.Machine
end

