-- ==== Sys2Proof/Machine/Resets.lean ====
section
/-! DEFINITION. The meanings of POWER_ON and PANEL_RESET (R64, R13, R16, R19, R27, R34, R56, R68, R93, R105, R126, R141,
R162, R163, R168). -/

namespace Sys2Proof.Machine

/-- Every block at its reset value, with the given lines, medium, staged plans and guard; then the reset load, and the
run condition is judged at once (R27, R141). The queue of waiting commands is not the block's and stays. -/
def State.resetTo (s : State) (lines : Lines) (disk : Cartridge) (map : MapUnit) (guard : Guard) : State :=
  { State.reset with
      pending := s.pending, lines := lines, disk := disk, free := s.cutPass.free, map := map,
      guard := guard }.resetLoad.judgeRun.judgeAlarm

/-- POWER_ON (R64): every block takes its power-on value, plans and guard included. A sector write that the loss of
power cut is left as R2 states; another cartridge may have been put in place (assumption 20). -/
def execPowerOn (lines : Lines) (cart : Option Cartridge) (s : State) : Host.Outcome State Fault Refusal :=
  .next (s.resetTo lines ((cart.map Cartridge.ofList).getD s.cutPass.disk) .powerOn .powerOn)

/-- PANEL_RESET (R64): every block is reset; the staged plans (R16) and the guard (R34) are kept, and a sector write
under way is cut (R2). -/
def execPanelReset (s : State) : Host.Outcome State Fault Refusal :=
  .next (s.resetTo s.lines s.cutPass.disk { MapUnit.powerOn with plan1 := s.map.plan1, plan2 := s.map.plan2 } s.guard)

end Sys2Proof.Machine
end

