-- ==== Sys2Proof/Machine/Clock.lean ====
section
/-! DEFINITION. One tick of the timebase (R93, R94), and the timer events that fall at a tick (assumption 1). -/

namespace Sys2Proof.Machine

/-- A condition's command, where the condition holds. -/
def whenever (c : Bool) (i : Instr) : List Instr := if c then [i] else []

/-- A running timer whose expiry tick is the tick now. -/
def State.fallsNow (s : State) (timer : Option Tick) : Bool := decide (timer = some s.tick)

/-- The expiries of a port's PROMPT orders and drain timers that fall now (R82, R114). -/
def State.slotEvents (s : State) (p : Port) : List Instr :=
  (s.queues.get p).live.flatMap fun sl =>
    whenever (decide (sl.state = .queued) && sl.prompt && s.fallsNow sl.dueTick) (.dueTickExpiry p sl.tag)
      ++ whenever (decide (sl.state = .draining) && s.fallsNow (sl.drainStart.map (tickAfter · 1000)))
        (.drainLimit p sl.tag)

/-- The positioner's events that fall now: the arrival of a seek whose on-cylinder line was active early, the seek
timeout and the recalibration limit (R99, R103). -/
def State.positionEvents (s : State) : List Instr :=
  whenever (decide (s.pos.activity = .seeking) && s.lines.onCylinder
      && s.fallsNow (some (tickAfter s.pos.seekStart s.pos.seekTime))) .seekArrival
    ++ whenever (decide (s.pos.activity = .seeking)
      && s.fallsNow (some (tickAfter s.pos.seekStart (s.pos.seekTime + 200)))) .seekTimeout
    ++ whenever (decide (s.pos.activity = .recalibrating)
      && s.fallsNow (some (tickAfter s.pos.recalStart 1000))) .recalibrationLimit

/-- The supervisor's events that fall now: index loss, the spin-up limit and the end of the run-down (R97, R131,
R140). -/
def State.driveEvents (s : State) : List Instr :=
  whenever (s.drive.state.watched && s.fallsNow (s.pos.lastIndex.map (tickAfter · 400))) .indexLoss
    ++ whenever (decide (s.drive.state = .spinningUp) && s.fallsNow s.drive.spinUp) .spinUpTimeout
    ++ whenever (decide (s.drive.state = .spinningDown) && s.fallsNow s.drive.runDown) .runDownTimeout

/-- The presence timer of a PRESENT port that runs out now (R160). -/
def State.presenceEvents (s : State) (p : Port) : List Instr :=
  whenever (decide ((s.ports.get p).presence = .present) && s.fallsNow (s.ports.get p).timer) (.presenceTimerExpiry p)

/-- Every timer event that falls at the tick now, in the model's order (assumption 1). -/
def State.eventsNow (s : State) : List Instr :=
  s.positionEvents ++ s.driveEvents ++ s.presenceEvents .a ++ s.presenceEvents .b ++ s.slotEvents .a ++ s.slotEvents .b
    ++ whenever (decide (s.alarms.manner = .flashing) && s.fallsNow s.alarms.flash) .flashTimerExpiry

/-- The tick count and the count since the last pulse advance by one (R93, R94); a recalibration limit taken at the tick
before is past (R103; assumption 37). -/
def State.advanceTick (s : State) : State :=
  { s with tick := s.tick + 1, pos := { s.pos with t := min (s.pos.t + 1) 255, limitTaken := false } }

/-- One tick of 100 µs passes, and the timer events that fall at the new tick join the queue. -/
def State.clockTick (s : State) : State :=
  let s1 := s.advanceTick
  { s1 with pending := s1.pending ++ s1.eventsNow }

/-- The command that waits at the front is the one given. -/
def State.withFront (s : State) (c : Instr) : State := { s with pending := c :: s.pending }

end Sys2Proof.Machine
end

