-- ==== Sys2Proof/Machine/DiskOrders.lean ====
section
/-! DEFINITION. The meanings of the rows of completed disk order packets: READ, WRITE, CHECK and the four maintenance
orders: the shapes of their packets (R172), their own checks (R52, R53) and their slots at acceptance (R46, R55). -/

namespace Sys2Proof.Machine

/-- Disk orders are accepted in READY and DEGRADED alone (R52, R53). -/
def State.notReady (s : State) : Bool := !s.drive.state.serving

/-- The first check of a list that applies. -/
def firstOf : List (Bool × Refuse) → Option Refuse
  | [] => none
  | (c, r) :: rest => if c then some r else firstOf rest

/-! ## Data orders (R17, R18, R52) -/

/-- The region a data order names, when it is an in-use entry of the active map (R18). -/
def State.region (s : State) (k : Packet) : Option PlanEntry :=
  match s.map.active.toList[k.num 0]? with
  | some e => if e.inUse then some e else none
  | none => none

/-- The physical start of a data order, translated through the active map (R17). -/
def State.dataStart (s : State) (k : Packet) : Addr :=
  match s.region k with
  | some e => blockAddr e.first (k.num 1)
  | none => ⟨0, 0, 0⟩

/-- The cylinders of a span of `n` sectors (R17, R40). -/
def spanCylinders (start : Addr) (n : Nat) : List Nat :=
  (List.range n).map fun i => (Addr.ofLinear (start.linear + i)).cyl

/-- The map checks of a data order in their order (R18). -/
def State.mapChecks (s : State) (p : Port) (writes : Bool) (k : Packet) : Option Refuse :=
  match s.region k with
  | none => some .noRegion
  | some e =>
    if (e.right p).allows writes = false then some .noAccess
    else if e.blocks < k.num 1 + k.num 2 then some .outOfRegion
    else none

/-- The checks that READ, WRITE and CHECK share, in order: NOT READY, BAD COUNT, the map checks, TRACK SPAN for a
PROMPT order or a verified WRITE (R52). -/
def State.dataChecks (s : State) (p : Port) (writes verify : Bool) (k : Packet) : Option Refuse :=
  if s.notReady then some .notReady
  else if k.num 2 = 0 ∨ 64 < k.num 2 then some .badCount
  else match s.mapChecks p writes k with
    | some r => some r
    | none =>
      if (k.urgency = 1 ∨ verify = true) ∧ 20 < (s.dataStart k).sector + k.num 2 then some .trackSpan else none

/-- A data order is accepted: its slot, its length bucket, and the scheduler's test (R46, R55, R168). -/
def State.acceptData (s : State) (p : Port) (kind : Kind) (verify : Bool) (k : Packet) : State :=
  (s.count p (lengthBucket (k.num 2))).enqueue p (Slot.ofData kind k verify (s.dataStart k) (k.num 2) s.tick)

/-- READ's packet and checks (R52, R172). -/
def readRule : OrderRule where
  kind := .read
  shape k := decide (k.fields.length = 3)
  needsArm _ := false
  own s p k := s.dataChecks p false false k
  accept s p k := s.acceptData p .read false k

/-- READ (R52): refused, or queued in a slot with its translated span. -/
def execRead (p : Port) (tag : Byte) (rest : List Word) (s : State) : Host.Outcome State Fault Refusal :=
  .next (s.orderPacket p readRule tag rest)

/-- The verify flag of a WRITE packet. -/
def Packet.verify (k : Packet) : Bool := decide (k.num 3 = 1)

/-- WRITE's packet and checks; GUARDED and UNLABELLED come last (R40, R52, R172). -/
def writeRule : OrderRule where
  kind := .write
  shape k := decide (k.fields.length = 4) && decide (k.num 3 ≤ 1)
  needsArm _ := false
  own s p k :=
    match s.dataChecks p true k.verify k with
    | some r => some r
    | none =>
      if (spanCylinders (s.dataStart k) (k.num 2)).any s.guard.protectsData then some .guarded
      else if s.label.state ≠ .valid then some .unlabelled
      else none
  accept s p k := s.acceptData p .write k.verify k

/-- WRITE (R52): refused, or queued in a slot with its translated span. -/
def execWrite (p : Port) (tag : Byte) (rest : List Word) (s : State) : Host.Outcome State Fault Refusal :=
  .next (s.orderPacket p writeRule tag rest)

/-- CHECK's packet and checks (R52, R172). -/
def checkRule : OrderRule where
  kind := .check
  shape k := decide (k.fields.length = 3)
  needsArm _ := false
  own s p k := s.dataChecks p false false k
  accept s p k := s.acceptData p .check false k

/-- CHECK (R52): refused, or queued in a slot with its translated span. -/
def execCheck (p : Port) (tag : Byte) (rest : List Word) (s : State) : Host.Outcome State Fault Refusal :=
  .next (s.orderPacket p checkRule tag rest)

/-! ## Maintenance orders (R40, R53) -/

/-- The map checks of FORMAT TRACK on a data cylinder (R18). -/
def State.formatMapChecks (s : State) (p : Port) (c : Nat) : Option Refuse :=
  match s.map.active.toList.find? (·.covers c) with
  | none => some .noRegion
  | some e => if (e.right p).allows true then none else some .noAccess

/-- FORMAT TRACK's packet and checks; its parameters are cylinder and head (R53, R172). -/
def formatTrackRule : OrderRule where
  kind := .formatTrack
  shape k := decide (k.fields.length = 2)
  needsArm _ := true
  own s p k :=
    if s.notReady then some .notReady
    else if 386 < k.num 0 ∨ 3 < k.num 1 then some .badAddress
    else match (if k.num 0 ≤ 383 then s.formatMapChecks p (k.num 0) else none) with
      | some r => some r
      | none => if s.guard.protectsFormat (k.num 0) then some .guarded else none
  accept s p k := s.enqueue p
    { Slot.fresh .formatTrack k.tag s.tick with
        start := some ⟨k.num 0, k.num 1, 0⟩, params := .format (k.num 0) (k.num 1) }

/-- FORMAT_TRACK (R53): refused, or queued in a slot. -/
def execFormatTrack (p : Port) (tag : Byte) (rest : List Word) (s : State) : Host.Outcome State Fault Refusal :=
  .next (s.orderPacket p formatTrackRule tag rest)

/-- INITIALIZE LABEL's packet and checks; its parameters are the volume name and serial (R53, R172). -/
def initializeLabelRule : OrderRule where
  kind := .initializeLabel
  shape k := decide (k.fields.length = 5)
  needsArm _ := true
  own s _ _ := firstOf [(s.notReady, .notReady), (s.guard.freeze, .guarded)]
  accept s p k := s.enqueue p
    { Slot.fresh .initializeLabel k.tag s.tick with
        start := some labelAddr,
        params := .label #v[wordAt k.fields 0, wordAt k.fields 1, wordAt k.fields 2, wordAt k.fields 3]
          (wordAt k.fields 4) }

/-- INITIALIZE_LABEL (R53): refused, or queued in a slot. -/
def execInitializeLabel (p : Port) (tag : Byte) (rest : List Word) (s : State) : Host.Outcome State Fault Refusal :=
  .next (s.orderPacket p initializeLabelRule tag rest)

/-- ASSIGN SPARE's packet and checks; its parameter is the sector it names (R53, R172). -/
def assignSpareRule : OrderRule where
  kind := .assignSpare
  shape k := decide (k.fields.length = 3)
  needsArm _ := true
  own s _ k := firstOf
    [(s.notReady, .notReady),
     (decide (384 < k.num 0) || decide (3 < k.num 1) || decide (19 < k.num 2), .badAddress),
     (s.guard.freeze, .guarded),
     (!decide (s.label.state = .valid), .unlabelled),
     (decide (80 ≤ s.label.table.length + s.label.retired.length), .sparesExhausted)]
  accept s p k := s.enqueue p
    { Slot.fresh .assignSpare k.tag s.tick with
        start := some ⟨k.num 0, k.num 1, k.num 2⟩, params := .assign ⟨k.num 0, k.num 1, k.num 2⟩ }

/-- ASSIGN_SPARE (R53): refused, or queued in a slot. -/
def execAssignSpare (p : Port) (tag : Byte) (rest : List Word) (s : State) : Host.Outcome State Fault Refusal :=
  .next (s.orderPacket p assignSpareRule tag rest)

/-- TEST TRACK's packet and checks; its parameters are head, seed, window and mode (R53, R172). -/
def testTrackRule : OrderRule where
  kind := .testTrack
  shape k := decide (k.fields.length = 4) && decide (k.num 3 ≤ 1)
  needsArm _ := false
  own s _ k := firstOf
    [(s.notReady, .notReady), (decide (3 < k.num 0), .badAddress),
     (decide (k.num 2 = 0) || decide (255 < k.num 2), .badCount)]
  accept s p k := s.enqueue p
    { Slot.fresh .testTrack k.tag s.tick with
        start := some ⟨385, k.num 0, 0⟩,
        params := .test (k.num 0) (wordAt k.fields 1) (k.num 2) (decide (k.num 3 = 1)),
        maint := .test false 0 0 0 0 }

/-- TEST_TRACK (R53): refused, or queued in a slot. -/
def execTestTrack (p : Port) (tag : Byte) (rest : List Word) (s : State) : Host.Outcome State Fault Refusal :=
  .next (s.orderPacket p testTrackRule tag rest)

end Sys2Proof.Machine
end

