-- ==== Sys2Proof/Machine/Exchanges.lean ====
section
/-! DEFINITION. The meanings of the exchange rows: opening words, stray words, and the completions of DATA OUT, REPLY
IN and DATA IN (chapter 10; 7, R108, R109, R117), with the reply, the data block and the status record word by word
(chapter 12). -/

namespace Sys2Proof.Machine

/-! ## Records the host fetches (12, sections 12.2, 12.5 and 12.7) -/

/-- The margin of a PROMPT order with an end tick (R58, R83). -/
def Slot.margin (sl : Slot) : Option Int :=
  match sl.prompt, sl.dueTick, sl.endTick with
  | true, some due, some e => some (signedDiff due e)
  | _, _, _ => none

/-- The margin as a reply carries it, clamped to 16 bits (R58). -/
def clampMargin (m : Int) : Int := max (-32768) (min m 32767)

/-- The nine fixed words of a reply and its body (12, section 12.5). -/
def Slot.replyWords (sl : Slot) : List Word :=
  let x := sl.faultAddr.getD ⟨0, 0, 0⟩
  [wordOf (256 * sl.tag.toNat + sl.kind.code),
   wordOf ((sl.outcome.getD .done).code),
   wordOf sl.sectorsDone, wordOf sl.retries, wordOf sl.slips,
   wordOf (32768 * bitOf sl.margin.isSome + 16384 * bitOf sl.faultAddr.isSome + sl.body.length),
   match sl.margin with
    | some m => BitVec.ofInt 16 (clampMargin m)
    | none => 0,
   wordOf x.cyl, wordOf (4096 * x.head + 128 * x.sector)] ++ sl.body

/-- The block header of a buffer: its owner's tag and the sector index (12, section 12.2). -/
def State.bufferHeader (s : State) (b : Fin 4) : Word :=
  match s.buffers[b].owner with
  | some (p, k) => match s.slot p k with
    | some sl => blockHeader sl.tag s.buffers[b].index
    | none => blockHeader 0 s.buffers[b].index
  | none => blockHeader 0 s.buffers[b].index

/-- The attention reasons as bits 3-0 of a word (12, section 12.7). -/
def Attention.bits (x : Attention) : Nat :=
  8 * bitOf x.replyWaiting + 4 * bitOf x.dataWaiting + 2 * bitOf x.dataWanted + bitOf x.alarm

/-- A port as one bit: 0 A, 1 B (12, section 12.7). -/
def Port.bit : Port → Nat
  | .a => 0
  | .b => 1

/-- The count of a port's QUEUED PROMPT orders (R158). -/
def Queue.promptCount (q : Queue) : Nat := (q.live.filter fun sl => decide (sl.state = .queued) && sl.prompt).length

/-- The first data request of a port in block-header form, or the empty word (R116, R173). -/
def State.firstRequest (s : State) (p : Port) : Word :=
  match s.requests p with
  | b :: _ => s.bufferHeader b
  | [] => emptyWord

/-- The 16 words of a port's status record (R158; 12, section 12.7). -/
def State.statusWords (s : State) (p : Port) : List Word :=
  let d := s.drive
  let m := s.map
  let g := s.guard
  [wordOf (4096 * d.state.code + 512 * bitOf d.speed + 256 * bitOf d.supply
      + 16 * (d.fault.map FaultReason.code).getD 0 + s.label.state.code)]
  ++ s.label.name.toList
  ++ [s.label.serial,
   wordOf (16384 * m.mode.code + 4096 * m.origin.code + 2048 * bitOf m.auto + 1024 * bitOf s.lines.fixedKey
      + 512 * bitOf s.lines.select),
   wordOf (8192 * g.span.code + 4096 * bitOf g.low + 2048 * bitOf g.complement + 1024 * bitOf g.freeze
      + 256 * g.mode.code + 128 * bitOf s.lines.guardKey),
   wordOf (16384 * s.ports.a.presence.code + 4096 * s.ports.b.presence.code),
   wordOf (s.ports.get p).interval,
   wordOf (4096 * (s.queues.get p).live.length + 256 * (s.queues.get p).promptCount
      + 128 * bitOf s.suspended.isSome + 64 * ((s.suspended.map fun x => x.1.bit).getD 0)
      + (s.attention p).bits),
   s.firstRequest p,
   (s.ports.get p).lastWord,
   s.alarms.latched.word, s.alarms.acked.word, s.alarms.masked.word]

/-- The word that the host's next fetch but `i` returns, with no opening word before it: the words held ready that it
has not fetched yet, in turn, and the empty word for every further fetch (R154, R173). A fetch changes nothing
(assumption 38). -/
def State.fetch (s : State) (p : Port) (i : Nat) : Word :=
  ((s.ports.get p).offered.drop (s.ports.get p).fetched).getD i emptyWord

/-! ## Opening words (R153, R156, R161) -/

/-- ORDER_OUT_OPENING (R153): an ORDER OUT becomes open with its word count, bits 7-0. A word count of 0 completes the
exchange at once, with a packet too short to hold its header (R154, R172). -/
def execOrderOutOpening (p : Port) (w : Word) (s : State) : Host.Outcome State Fault Refusal :=
  let s1 := s.openWord p
  let n := field w 7 0
  .next (if n = 0 then s1.refuse p .malformed else s1.openExchange p (.orderOut n) w [])

/-- DATA_OUT_OPENING (R153): a DATA OUT becomes open. -/
def execDataOutOpening (p : Port) (w : Word) (s : State) : Host.Outcome State Fault Refusal :=
  .next ((s.openWord p).openExchange p .dataOut w [])

/-- What a REPLY IN opened now delivers: the first slot of the reply list with its reply, or the empty word (R156). -/
def State.replyContent (s : State) (p : Port) : Option (Fin 8) × List Word :=
  match (s.queues.get p).replies with
  | k :: _ => match s.slot p k with
    | some sl => (some k, sl.replyWords)
    | none => (none, [emptyWord])
  | [] => (none, [emptyWord])

/-- REPLY_IN (R156): a REPLY IN becomes open with its content fixed. -/
def execReplyIn (p : Port) (w : Word) (s : State) : Host.Outcome State Fault Refusal :=
  let s1 := s.openWord p
  let c := s1.replyContent p
  .next (s1.openExchange p (.replyIn c.1) w c.2)

/-- What a DATA IN opened now delivers: the first buffer of the port's stream with its block, or the empty word
(R156). -/
def State.dataContent (s : State) (p : Port) : Option (Fin 4) × List Word :=
  match s.stream p with
  | b :: _ => (some b, s.bufferHeader b :: s.buffers[b].data)
  | [] => (none, [emptyWord])

/-- DATA_IN (R156): a DATA IN becomes open with its content fixed. -/
def execDataIn (p : Port) (w : Word) (s : State) : Host.Outcome State Fault Refusal :=
  let s1 := s.openWord p
  let c := s1.dataContent p
  .next (s1.openExchange p (.dataIn c.1) w c.2)

/-- STATUS_IN (R156, R158): a copy of the status record is held ready. The table has no row for a STATUS IN's
completion, so the row says whether the host fetches the record whole, which ends the exchange without any other
effect, or leaves the exchange open (assumption 9). The words of a record fetched whole are behind the host, so that a
further fetch returns the empty word (R154). -/
def execStatusIn (p : Port) (w : Word) (whole : Bool) (s : State) : Host.Outcome State Fault Refusal :=
  let s1 := s.openWord p
  let s2 := s1.openExchange p .statusIn w (s1.statusWords p)
  .next (if whole then s2.onPort p fun x => { x with exchange := none, fetched := x.offered.length } else s2)

/-- OPENING_WORD_NO_KIND (R153): no exchange is opened, and one short exchange is counted. -/
def execOpeningWordNoKind (p : Port) (_w : Word) (s : State) : Host.Outcome State Fault Refusal :=
  .next ((s.openWord p).count p .shortExchanges)

/-- STRAY_WORD (R153): a word without the open strobe while no exchange is open is discarded and not counted. While
an exchange is open it is one of that exchange's words (assumption 10). -/
def execStrayWord (p : Port) (w : Word) (s : State) : Host.Outcome State Fault Refusal :=
  .next (match (s.ports.get p).exchange with
    | none => s
    | some e => s.onPort p fun x => { x with exchange := some { e with moved := e.moved ++ [w] } })

/-! ## Completions (R59, R108, R109, R117) -/

/-- The lowest requested index of an order still FILLING FROM HOST, as the buffer that waits for it (R117). -/
def State.lowestRequest (s : State) (p : Port) (k : Fin 8) : Option (Fin 4) :=
  ((s.ownedIn p k .filling).foldl (fun l b => insertByIndex s b l) []).head?

/-- The buffer that a data block with a header answers: the tag's order has an outstanding request, and the index is
its lowest requested (R117). Bits 7-6 of the header are ignored (R173). -/
def State.wantedBuffer (s : State) (p : Port) (header : Word) : Option (Fin 4) :=
  match (s.queues.get p).tagged (BitVec.ofNat 8 (field header 15 8)) with
  | some (k, _) => (s.lowestRequest p k).filter fun b => decide (s.buffers[b].index = field header 5 0)
  | none => none

/-- A block accepted: its words fill the buffer that waited for them (R117). -/
def State.fillBuffer (s : State) (b : Fin 4) (words : List Word) : State :=
  s.putBuffer b { s.buffers[b] with state := .fullForDisk, data := fit256 words }

/-- DATA_OUT (R117): the completed block is judged against the port's requests as they stand. -/
def execDataOut (p : Port) (header : Word) (words : List Word) (s : State) : Host.Outcome State Fault Refusal :=
  .next (match (s.ports.get p).exchange with
    | some ⟨.dataOut, _⟩ =>
      if s.requests p = [] then s.answer p 21
      else match s.wantedBuffer p header with
        | some b => (s.fillBuffer b words).answer p 0
        | none => s.answer p 22
    | _ => s)

/-- REPLY_IN_COMPLETE (R59): the delivered slot becomes FREE and leaves both lists; an empty word consumes nothing. -/
def execReplyInComplete (p : Port) (s : State) : Host.Outcome State Fault Refusal :=
  .next (match (s.ports.get p).exchange with
    | some ⟨.replyIn (some k), _⟩ => (s.onQueue p (·.drop k)).closeExchange p
    | some ⟨.replyIn none, _⟩ => s.closeExchange p
    | _ => s)

/-- A buffer delivered whole becomes FREE; a DRAINING owner has its drain timer restarted, or is DONE when it was its
last (R50, R108, R109, R114). -/
def State.deliver (s : State) (b : Fin 4) : State :=
  let s1 := s.putBuffer b .empty
  match s.buffers[b].owner with
  | none => s1
  | some (q, k) =>
    match s.slot q k with
    | some sl =>
      if sl.state = .draining then
        if s1.owned q k = [] then s1.finishDraining q k
        else s1.modSlot q k fun x => { x with drainStart := some s.tick }
      else s1
    | none => s1

/-- DATA_IN_COMPLETE (R108, R109): the delivered buffer becomes FREE, an event at which the in-service WRITE tests its
requests (R116). -/
def execDataInComplete (p : Port) (s : State) : Host.Outcome State Fault Refusal :=
  .next (match (s.ports.get p).exchange with
    | some ⟨.dataIn (some b), _⟩ => ((s.deliver b).testRequests).closeExchange p
    | some ⟨.dataIn none, _⟩ => s.closeExchange p
    | _ => s)

end Sys2Proof.Machine
end

