-- ==== Sys2Proof/Machine/ImmediateOrders.lean ====
section
/-! DEFINITION. The meanings of the rows of completed immediate and slotless order packets, and of packets that name an
unknown kind (R19 to R24, R39, R54, R56, R57, R62, R137, R159, R165, R166, R169; 12, section 12.1). -/

namespace Sys2Proof.Machine

/-! ## Map orders (R19 to R24, R33) -/

/-- The plan a READ PLAN names (12, section 12.1). -/
def MapUnit.named (m : MapUnit) : Nat → Plan
  | 0 => m.active
  | 1 => m.plan1
  | 2 => m.plan2
  | _ => .fixed

/-- READ PLAN: a plan name of 0-3, and no checks of its own (R22). -/
def readPlanRule : OrderRule where
  kind := .readPlan
  shape k := decide (k.fields.length = 1) && decide (k.num 0 ≤ 3)
  needsArm _ := false
  own _ _ _ := none
  accept s p k := s.answerNow p .readPlan k.tag ((s.map.named (k.num 0)).toList.flatMap PlanEntry.words)

/-- READ_PLAN (R22): the reply body is the 16 entries of the named plan. -/
def execReadPlan (p : Port) (tag : Byte) (rest : List Word) (s : State) : Host.Outcome State Fault Refusal :=
  .next (s.orderPacket p readPlanRule tag rest)

/-- The list of plan entries of a WRITE PLAN of sound shape. -/
def Packet.entries (k : Packet) : List PlanEntry := k.planEntries.getD []

/-- The result a WRITE PLAN forms: the whole list applied to a copy of the target plan (R20). -/
def State.planResult (s : State) (k : Packet) : Plan := (s.map.named (k.num 0)).putFrom (k.num 1) k.entries

/-- The staged plan, or by a map load the active map, is replaced by a WRITE PLAN's result (R20, R21). -/
def State.writePlan (s : State) (target : Nat) (m : Plan) : State :=
  match target with
  | 0 => s.loadMap m .edited
  | 1 => { s with map := { s.map with plan1 := m } }
  | _ => { s with map := { s.map with plan2 := m } }

/-- WRITE PLAN: its shape, the arming of a direct edit, and its checks (R20, R21, R172). -/
def writePlanRule : OrderRule where
  kind := .writePlan
  shape k := decide (k.num 0 ≤ 2) && decide (1 ≤ k.num 2) && decide (k.num 2 ≤ 16)
    && decide (k.num 1 + k.num 2 ≤ 16) && decide (k.fields.length = 3 + 3 * k.num 2) && k.planEntries.isSome
  needsArm k := decide (k.num 0 = 0)
  own s _ k :=
    if k.num 0 = 0 ∧ s.map.mode ≠ .direct then some .wrongMode
    else if k.num 0 = 0 ∧ s.lines.fixedKey = true then some .keyHeld
    else if k.entries.all PlanEntry.addressOk = false then some .badAddress
    else if (s.planResult k).conflictFree = false then some .planConflict
    else none
  accept s p k :=
    let s1 := (s.writePlan (k.num 0) (s.planResult k)).answerNow p .writePlan k.tag []
    if k.num 0 = 0 then s1.schedule.judgeAlarm else s1

/-- WRITE_PLAN (R20, R21): the target is replaced by the result in one step; a direct edit is a map load. -/
def execWritePlan (p : Port) (tag : Byte) (rest : List Word) (s : State) : Host.Outcome State Fault Refusal :=
  .next (s.orderPacket p writePlanRule tag rest)

/-- The staged plan a LOAD PLAN names, with its origin (R24). -/
def MapUnit.staged (m : MapUnit) (n : Nat) : Plan × Origin := if n = 1 then (m.plan1, .plan1) else (m.plan2, .plan2)

/-- LOAD PLAN: WRONG MODE, KEY HELD, then PLAN CONFLICT for an empty plan (R24). -/
def loadPlanRule : OrderRule where
  kind := .loadPlan
  shape k := decide (k.fields.length = 1) && (decide (k.num 0 = 1) || decide (k.num 0 = 2))
  needsArm _ := true
  own s _ k :=
    if s.map.mode ≠ .orderStrobe then some .wrongMode
    else if s.lines.fixedKey then some .keyHeld
    else if (s.map.staged (k.num 0)).1.isEmpty then some .planConflict
    else none
  accept s p k :=
    let x := s.map.staged (k.num 0)
    ((((s.loadMapLatched x.1 x.2).answerNow p .loadPlan k.tag []).schedule).judgeAlarm)

/-- LOAD_PLAN (R24): a map load of the named staged plan. -/
def execLoadPlan (p : Port) (tag : Byte) (rest : List Word) (s : State) : Host.Outcome State Fault Refusal :=
  .next (s.orderPacket p loadPlanRule tag rest)

/-- SET MAP MODE: a known mode and setting, and no checks of its own (R19). -/
def setMapModeRule : OrderRule where
  kind := .setMapMode
  shape k := decide (k.fields.length = 2) && (MapMode.ofCode (k.num 0)).isSome && decide (k.num 1 ≤ 1)
  needsArm _ := true
  own _ _ _ := none
  accept s p k :=
    { s with map := { s.map with mode := (MapMode.ofCode (k.num 0)).getD s.map.mode, auto := decide (k.num 1 = 1) } }.answerNow
      p .setMapMode k.tag []

/-- SET_MAP_MODE (R19): the mode and the auto-changeover setting are set. -/
def execSetMapMode (p : Port) (tag : Byte) (rest : List Word) (s : State) : Host.Outcome State Fault Refusal :=
  .next (s.orderPacket p setMapModeRule tag rest)

/-! ## SET GUARD (R38, R39) -/

/-- The guard setting and mode a SET GUARD carries; none where a field holds no code (R39). -/
def Packet.guard (k : Packet) : Option Guard :=
  match Span.ofCode (k.num 0), GuardMode.ofCode (k.num 4) with
  | some span, some mode =>
    if k.num 1 ≤ 1 ∧ k.num 2 ≤ 1 ∧ k.num 3 ≤ 1 then
      some ⟨span, decide (k.num 1 = 1), decide (k.num 2 = 1), decide (k.num 3 = 1), mode⟩
    else none
  | _, _ => none

/-- SET GUARD: GUARD LOCKED, then KEY HELD in KEYED with the guard key ON (R38, R39). -/
def setGuardRule : OrderRule where
  kind := .setGuard
  shape k := decide (k.fields.length = 5) && k.guard.isSome
  needsArm _ := true
  own s _ _ :=
    if s.guard.mode = .locked then some .guardLocked
    else if s.guard.mode = .keyed ∧ s.lines.guardKey = true then some .keyHeld
    else none
  accept s p k := { s with guard := k.guard.getD s.guard }.answerNow p .setGuard k.tag []

/-- SET_GUARD (R39): the whole setting and the mode are replaced. -/
def execSetGuard (p : Port) (tag : Byte) (rest : List Word) (s : State) : Host.Outcome State Fault Refusal :=
  .next (s.orderPacket p setGuardRule tag rest)

/-! ## Supervision, alarms and statistics (R159, R165, R166, R169) -/

/-- The interval of a SET SUPERVISION, clamped (R159). -/
def clampInterval (ms : Nat) : Nat :=
  if ms = 0 then 0 else if ms < 50 then 50 else if 5000 < ms then 5000 else ms / 50 * 50

/-- SET SUPERVISION: no checks of its own (R54). -/
def setSupervisionRule : OrderRule where
  kind := .setSupervision
  shape k := decide (k.fields.length = 1)
  needsArm _ := false
  own _ _ _ := none
  accept s p k :=
    (s.onPort p fun x => { x with interval := clampInterval (k.num 0) }.reload s.tick).answerNow
      p .setSupervision k.tag []

/-- SET_SUPERVISION (R159): the port's own interval is set and its timer reloaded. -/
def execSetSupervision (p : Port) (tag : Byte) (rest : List Word) (s : State) : Host.Outcome State Fault Refusal :=
  .next (s.orderPacket p setSupervisionRule tag rest)

/-- SET ALARM LINE: a line mode and a follow source of the encoding (R54, R166). -/
def setAlarmLineRule : OrderRule where
  kind := .setAlarmLine
  shape k := decide (k.fields.length = 3) && decide (k.num 1 ≤ 1) && (Source.ofCode (k.num 2)).isSome
  needsArm _ := false
  own _ _ _ := none
  accept s p k :=
    ({ s with alarms := { s.alarms with
        masked := SourceSet.ofWord (wordAt k.fields 0), follow := decide (k.num 1 = 1),
        source := (Source.ofCode (k.num 2)).getD s.alarms.source } }.answerNow p .setAlarmLine k.tag []).judgeAlarm

/-- SET_ALARM_LINE (R166): the masks, the line mode and the follow source are replaced. -/
def execSetAlarmLine (p : Port) (tag : Byte) (rest : List Word) (s : State) : Host.Outcome State Fault Refusal :=
  .next (s.orderPacket p setAlarmLineRule tag rest)

/-- Every flag still latched becomes acknowledged where the choice is yes (R165). -/
def State.acknowledgeIf (s : State) (yes : Bool) : State :=
  if yes then { s with alarms := s.alarms.acknowledge } else s

/-- CLEAR ALARMS: an acknowledge choice of the encoding (R165). -/
def clearAlarmsRule : OrderRule where
  kind := .clearAlarms
  shape k := decide (k.fields.length = 2) && decide (k.num 1 ≤ 1)
  needsArm _ := false
  own _ _ _ := none
  accept s p k :=
    (((s.clearFlags (SourceSet.ofWord (wordAt k.fields 0))).acknowledgeIf (decide (k.num 1 = 1))).answerNow
      p .clearAlarms k.tag []).judgeAlarm

/-- CLEAR_ALARMS (R165): flags are cleared, then acknowledged, as the order carries. -/
def execClearAlarms (p : Port) (tag : Byte) (rest : List Word) (s : State) : Host.Outcome State Fault Refusal :=
  .next (s.orderPacket p clearAlarmsRule tag rest)

/-- A bank's live counters become its snapshot and are zeroed (R169). -/
def Bank.captured (x : Bank) (now : Tick) : Bank := ⟨Vector.replicate 26 0, x.live, now⟩

/-- CAPTURE STATISTICS: no checks of its own; its acceptance is counted in the fresh live set (R169). -/
def captureStatisticsRule : OrderRule where
  kind := .captureStatistics
  shape k := decide (k.fields.length = 0)
  needsArm _ := false
  own _ _ _ := none
  accept s p k :=
    { s with banks := s.banks.modify p (·.captured s.tick) }.answerNow p .captureStatistics k.tag []

/-- CAPTURE_STATISTICS (R169): the own bank's live counters are copied to its snapshot and zeroed. -/
def execCaptureStatistics (p : Port) (tag : Byte) (rest : List Word) (s : State) : Host.Outcome State Fault Refusal :=
  .next (s.orderPacket p captureStatisticsRule tag rest)

/-- The reply body of READ STATISTICS (12, section 12.5). -/
def Bank.words (x : Bank) : List Word := twoWords x.capture.toNat ++ x.snap.toList.flatMap twoWords

/-- READ STATISTICS: no checks of its own (R169). -/
def readStatisticsRule : OrderRule where
  kind := .readStatistics
  shape k := decide (k.fields.length = 0)
  needsArm _ := false
  own _ _ _ := none
  accept s p k := s.answerNow p .readStatistics k.tag (s.banks.get p).words

/-- READ_STATISTICS (R169): the reply body is the own bank's snapshot. -/
def execReadStatistics (p : Port) (tag : Byte) (rest : List Word) (s : State) : Host.Outcome State Fault Refusal :=
  .next (s.orderPacket p readStatisticsRule tag rest)

/-! ## The label and the drive (R9, R137) -/

/-- The reply body of READ LABEL (12, section 12.5). -/
def Label.bodyWords (l : Label) : List Word :=
  [wordOf l.state.code] ++ l.name.toList ++ [l.serial, l.gen, wordOf l.table.length, wordOf l.retired.length]
    ++ l.table.flatMap SubEntry.words ++ l.retired.map wordOf

/-- READ LABEL: no checks of its own (R54). -/
def readLabelRule : OrderRule where
  kind := .readLabel
  shape k := decide (k.fields.length = 0)
  needsArm _ := false
  own _ _ _ := none
  accept s p k := s.answerNow p .readLabel k.tag s.label.bodyWords

/-- READ_LABEL (R9): the reply body is the held label information. -/
def execReadLabel (p : Port) (tag : Byte) (rest : List Word) (s : State) : Host.Outcome State Fault Refusal :=
  .next (s.orderPacket p readLabelRule tag rest)

/-- RESTART DRIVE: NOT FAULTED, then NOT READY with over-temperature active (R137). -/
def restartDriveRule : OrderRule where
  kind := .restartDrive
  shape k := decide (k.fields.length = 0)
  needsArm _ := true
  own s _ _ :=
    if s.drive.state ≠ .faulted then some .notFaulted
    else if s.lines.overTemp then some .notReady
    else none
  accept s p k := (s.enterSpinningUp.answerNow p .restartDrive k.tag []).judgeAlarm

/-- RESTART_DRIVE (R137): the drive enters SPINNING UP. -/
def execRestartDrive (p : Port) (tag : Byte) (rest : List Word) (s : State) : Host.Outcome State Fault Refusal :=
  .next (s.orderPacket p restartDriveRule tag rest)

/-! ## Slotless orders and unknown kinds (R51, R56, R62) -/

/-- ARM: no checks beyond the first two (R56). -/
def armRule : OrderRule where
  kind := .arm
  shape k := decide (k.fields.length = 0)
  needsArm _ := false
  own _ _ _ := none
  accept s p _ := s.onPort p fun x => { x with armed := true }

/-- ARM (R56): the port's arm latch is set. -/
def execArm (p : Port) (tag : Byte) (rest : List Word) (s : State) : Host.Outcome State Fault Refusal :=
  .next (s.orderPacket p armRule tag rest)

/-- One slot of a cleared port: an IN SERVICE order is withdrawn and gives up its FULL FOR HOST and FILLING FROM HOST
buffers; any other slot becomes FREE with all its buffers (R62, R125). -/
def State.clearSlot (s : State) (p : Port) (k : Fin 8) : State :=
  match s.slot p k with
  | none => s
  | some sl =>
    if sl.state = .inService then
      (s.modSlot p k fun x => { x with withdrawn := true }).release p k fun st =>
        decide (st = .fullForHost ∨ st = .filling)
    else (s.release p k fun _ => true).onQueue p (·.drop k)

/-- The effect of CLEAR PORT on the port's slots, buffers and presence (R62). -/
def State.clearPort (s : State) (p : Port) : State :=
  let s1 := slotNumbers.foldl (fun s k => s.clearSlot p k) s
  ((s1.onPort p fun x => { x.reload s.tick with presence := .present }).testRequests).schedule.judgeAlarm

/-- CLEAR PORT: no checks of its own (R62). -/
def clearPortRule : OrderRule where
  kind := .clearPort
  shape k := decide (k.fields.length = 0)
  needsArm _ := true
  own _ _ _ := none
  accept s p _ := s.clearPort p

/-- CLEAR_PORT (R62): the port's slots are freed, and its order IN SERVICE is withdrawn. -/
def execClearPort (p : Port) (tag : Byte) (rest : List Word) (s : State) : Host.Outcome State Fault Refusal :=
  .next (s.orderPacket p clearPortRule tag rest)

/-- UNKNOWN_KIND (R51, R172): a packet that holds its header is refused UNKNOWN KIND, a shorter one MALFORMED. DEDUCED:
so is one of more than 54 words, since R172 makes the excess words of R153 a test of the known kinds (assumption 34). -/
def execUnknownKind (p : Port) (_code : Byte) (tag : Byte) (rest : List Word) (s : State) :
    Host.Outcome State Fault Refusal :=
  .next (if s.completes p (rest.length + 1) then
      match Packet.parse tag rest with
      | none => s.refuse p .malformed
      | some _ => s.refuse p .unknownKind
    else s)

end Sys2Proof.Machine
end

