-- ==== Sys2Proof/Machine/Dispatch.lean ====
section
/-! DEFINITION. The dispatch: every command of the table to its meaning. -/

namespace Sys2Proof.Machine

def exec (i : Instr) (s : State) : Host.Outcome State Fault Refusal :=
  match i with
  | .powerOn lines cart => Sys2Proof.Machine.execPowerOn lines cart s
  | .panelReset => Sys2Proof.Machine.execPanelReset s
  | .orderOutOpening p w => Sys2Proof.Machine.execOrderOutOpening p w s
  | .dataOutOpening p w => Sys2Proof.Machine.execDataOutOpening p w s
  | .replyIn p w => Sys2Proof.Machine.execReplyIn p w s
  | .dataIn p w => Sys2Proof.Machine.execDataIn p w s
  | .statusIn p w whole => Sys2Proof.Machine.execStatusIn p w whole s
  | .openingWordNoKind p w => Sys2Proof.Machine.execOpeningWordNoKind p w s
  | .strayWord p w => Sys2Proof.Machine.execStrayWord p w s
  | .dataOut p header words => Sys2Proof.Machine.execDataOut p header words s
  | .replyInComplete p => Sys2Proof.Machine.execReplyInComplete p s
  | .dataInComplete p => Sys2Proof.Machine.execDataInComplete p s
  | .read p tag rest => Sys2Proof.Machine.execRead p tag rest s
  | .write p tag rest => Sys2Proof.Machine.execWrite p tag rest s
  | .check p tag rest => Sys2Proof.Machine.execCheck p tag rest s
  | .formatTrack p tag rest => Sys2Proof.Machine.execFormatTrack p tag rest s
  | .initializeLabel p tag rest => Sys2Proof.Machine.execInitializeLabel p tag rest s
  | .assignSpare p tag rest => Sys2Proof.Machine.execAssignSpare p tag rest s
  | .testTrack p tag rest => Sys2Proof.Machine.execTestTrack p tag rest s
  | .readPlan p tag rest => Sys2Proof.Machine.execReadPlan p tag rest s
  | .writePlan p tag rest => Sys2Proof.Machine.execWritePlan p tag rest s
  | .loadPlan p tag rest => Sys2Proof.Machine.execLoadPlan p tag rest s
  | .setMapMode p tag rest => Sys2Proof.Machine.execSetMapMode p tag rest s
  | .setGuard p tag rest => Sys2Proof.Machine.execSetGuard p tag rest s
  | .setSupervision p tag rest => Sys2Proof.Machine.execSetSupervision p tag rest s
  | .setAlarmLine p tag rest => Sys2Proof.Machine.execSetAlarmLine p tag rest s
  | .clearAlarms p tag rest => Sys2Proof.Machine.execClearAlarms p tag rest s
  | .captureStatistics p tag rest => Sys2Proof.Machine.execCaptureStatistics p tag rest s
  | .readStatistics p tag rest => Sys2Proof.Machine.execReadStatistics p tag rest s
  | .readLabel p tag rest => Sys2Proof.Machine.execReadLabel p tag rest s
  | .restartDrive p tag rest => Sys2Proof.Machine.execRestartDrive p tag rest s
  | .arm p tag rest => Sys2Proof.Machine.execArm p tag rest s
  | .clearPort p tag rest => Sys2Proof.Machine.execClearPort p tag rest s
  | .unknownKind p code tag rest => Sys2Proof.Machine.execUnknownKind p code tag rest s
  | .changeoverStrobe => Sys2Proof.Machine.execChangeoverStrobe s
  | .planSelectLine changeover => Sys2Proof.Machine.execPlanSelectLine changeover s
  | .fixedPlanKeyOn => Sys2Proof.Machine.execFixedPlanKeyOn s
  | .fixedPlanKeyOff => Sys2Proof.Machine.execFixedPlanKeyOff s
  | .guardKeyLine on => Sys2Proof.Machine.execGuardKeyLine on s
  | .alarmAcknowledge => Sys2Proof.Machine.execAlarmAcknowledge s
  | .flashTimerExpiry => Sys2Proof.Machine.execFlashTimerExpiry s
  | .presenceTimerExpiry p => Sys2Proof.Machine.execPresenceTimerExpiry p s
  | .dueTickExpiry p tag => Sys2Proof.Machine.execDueTickExpiry p tag s
  | .drainLimit p tag => Sys2Proof.Machine.execDrainLimit p tag s
  | .indexPulse h => Sys2Proof.Machine.execIndexPulse h s
  | .sectorPulse h => Sys2Proof.Machine.execSectorPulse h s
  | .sectorPassEnd d => Sys2Proof.Machine.execSectorPassEnd d s
  | .seekArrival => Sys2Proof.Machine.execSeekArrival s
  | .seekTimeout => Sys2Proof.Machine.execSeekTimeout s
  | .recalibrationComplete => Sys2Proof.Machine.execRecalibrationComplete s
  | .recalibrationLimit => Sys2Proof.Machine.execRecalibrationLimit s
  | .indexLoss => Sys2Proof.Machine.execIndexLoss s
  | .runConditionHolds cart => Sys2Proof.Machine.execRunConditionHolds cart s
  | .runConditionFails cartridge door start => Sys2Proof.Machine.execRunConditionFails cartridge door start s
  | .writeSupplyLost => Sys2Proof.Machine.execWriteSupplyLost s
  | .writeSupplyGood => Sys2Proof.Machine.execWriteSupplyGood s
  | .overTemperature => Sys2Proof.Machine.execOverTemperature s
  | .spinUpTimeout => Sys2Proof.Machine.execSpinUpTimeout s
  | .runDownTimeout => Sys2Proof.Machine.execRunDownTimeout s
  | .overTemperatureInactive => Sys2Proof.Machine.execOverTemperatureInactive s
  | .changeoverStrobeInactive => Sys2Proof.Machine.execChangeoverStrobeInactive s
  | .alarmAcknowledgeInactive => Sys2Proof.Machine.execAlarmAcknowledgeInactive s

end Sys2Proof.Machine
end

