-- ==== Sys2Proof/Safety.lean ====
section
/-! DEFINITION. What a safe condition of the controller is, in the terms the statements use: the laws of the map, the
queues, the scheduler, the rotation, the alarm flags, the annunciator line, the counters and the cartridge that the
spec states of every moment; the groups of commands that statements speak of; and what a reset leaves. -/

namespace Sys2Proof.Machine

/-- No two in-use entries of the active map, or of a staged plan, share a cylinder (R31). -/
def State.mapLaw (s : State) : Prop :=
  s.map.active.conflictFree = true ∧ s.map.plan1.conflictFree = true ∧ s.map.plan2.conflictFree = true

/-- The slot numbers of a port whose record is in a state. -/
def State.numbered (s : State) (p : Port) (st : SlotState) : List (Fin 8) :=
  slotNumbers.filter fun k => match s.slot p k with
    | some sl => decide (sl.state = st)
    | none => false

/-- At most one slot in the device is IN SERVICE (R91). -/
def State.serviceLaw (s : State) : Prop :=
  (s.numbered .a .inService).length + (s.numbered .b .inService).length ≤ 1

/-- At most one slot in the device is SUSPENDED, and a SUSPENDED slot is never PROMPT (R92). -/
def State.suspensionLaw (s : State) : Prop :=
  (s.numbered .a .suspended).length + (s.numbered .b .suspended).length ≤ 1
    ∧ ∀ p k sl, s.slot p k = some sl → sl.state = .suspended → sl.prompt = false

/-- The sector count lies in 0-19, the count since the last pulse in 0-255, and the position in 0-199 (R94, R106). -/
def State.rotationLaw (s : State) : Prop := s.pos.sc ≤ 19 ∧ s.pos.t ≤ 255 ∧ s.pos.position ≤ 199

/-- No bypass count exceeds 4, and the two are never both 4 (R81). -/
def State.bypassLaw (s : State) : Prop :=
  s.sched.bypass.a ≤ 4 ∧ s.sched.bypass.b ≤ 4 ∧ ¬(s.sched.bypass.a = 4 ∧ s.sched.bypass.b = 4)

/-- A flag is acknowledged only while it is latched (R163). -/
def State.alarmLaw (s : State) : Prop :=
  ∀ x : Source, s.alarms.acked.get x = true → s.alarms.latched.get x = true

/-- Every counter of both sets of both banks is a 32-bit value (R168). -/
def State.counterLaw (s : State) : Prop :=
  ∀ (p : Port) (i : Fin 26),
    ((s.banks.get p).live[i] ≤ 4294967295) ∧ ((s.banks.get p).snap[i] ≤ 4294967295)

/-- The cartridge's list is in its canonical form. -/
def State.diskLaw (s : State) : Prop := Cartridge.wf s.disk = true

/-- A port's presence interval is 0 or 50-5000 ms in steps of 50 (R159). -/
def State.intervalLaw (s : State) : Prop :=
  ∀ p : Port, (s.ports.get p).interval = 0 ∨
    (50 ≤ (s.ports.get p).interval ∧ (s.ports.get p).interval ≤ 5000 ∧ (s.ports.get p).interval % 50 = 0)

/-- A FREE buffer is owned by no order (R107). -/
def State.bufferLaw (s : State) : Prop := ∀ b : Fin 4, s.buffers[b].state = .free → s.buffers[b].owner = none

/-- Each port's order list names its live slots and its reply list its DONE slots, once each, and no two live slots
carry one tag (R47, R65, R66). -/
def State.queueLaw (s : State) : Prop :=
  ∀ p : Port,
    (s.queues.get p).order.Nodup ∧ (∀ k, k ∈ (s.queues.get p).order ↔ (s.slot p k).isSome = true)
      ∧ (s.queues.get p).replies.Nodup
      ∧ (∀ k, k ∈ (s.queues.get p).replies ↔ ∃ sl, s.slot p k = some sl ∧ sl.state = .done)
      ∧ (∀ j k x y, s.slot p j = some x → s.slot p k = some y → x.tag = y.tag → j = k)

/-- The alarm line has the manner it is judged to have, its level follows a manner that does not flash, and the flash
timer runs exactly while it flashes (R167). -/
def State.annunciatorLaw (s : State) : Prop :=
  s.alarms.manner = s.manner
    ∧ (s.alarms.manner ≠ .flashing → s.alarms.flash = none ∧ s.alarms.level = decide (s.alarms.manner = .steady))
    ∧ (s.alarms.manner = .flashing → s.alarms.flash ≠ none)

/-- What the held label keeps: a VALID one has a generation, any other no entries; the entries stand in ascending bad
address, so that no two share one, and no two share a spare; no entry's spare is retired; the entries name data sectors
and spares of the disk, the retired list, in ascending order (assumption 23), spares; and the entries and the retired
spares are 80 at most (R6, R8, R9, R10, R11). -/
def Label.law (l : Label) : Prop :=
  (l.state = .valid → l.gen ≠ 0) ∧ (l.state ≠ .valid → l.table = [] ∧ l.retired = [])
    ∧ l.table.Pairwise (fun e f => e.bad.linear < f.bad.linear) ∧ l.retired.Pairwise (· < ·)
    ∧ (l.table.map (·.spare)).Nodup ∧ (∀ e ∈ l.table, e.spare ∉ l.retired)
    ∧ (∀ e ∈ l.table, e.bad.cyl ≤ 383 ∧ e.bad.head ≤ 3 ∧ e.bad.sector ≤ 19 ∧ e.spare ≤ 79)
    ∧ (∀ i ∈ l.retired, i ≤ 79) ∧ l.table.length + l.retired.length ≤ 80

/-- The held label meets its law. -/
def State.labelLaw (s : State) : Prop := s.label.law

/-- What the record of an ASSIGN SPARE keeps: it names a data sector or a spare, at which it starts; it is classified
only once it is IN SERVICE, with a spare of the disk, and as a new entry only for a data sector (R46, R53, R147). -/
def Slot.assignLaw (sl : Slot) : Prop :=
  (∀ x, sl.params = .assign x → sl.start = some x ∧ x.cyl ≤ 384 ∧ x.head ≤ 3 ∧ x.sector ≤ 19)
    ∧ ∀ c i w, sl.maint = .assign c i w → sl.kind = .assignSpare ∧ sl.state ≠ .queued ∧ sl.state ≠ .suspended
      ∧ (∀ n, i = some n → n ≤ 79) ∧ (c = .newEntry → ∀ x, sl.params = .assign x → x.cyl ≤ 383)

/-- What a label that an order IN SERVICE would write rests on: the records keep their law, an order is IN SERVICE only
in READY or DEGRADED, what it would write meets the label's law, and the label is read only in LABEL READ (R7, R69,
R136, R138, R147, R148). -/
def State.assignLaw (s : State) : Prop :=
  (∀ p k sl, s.slot p k = some sl → sl.assignLaw)
    ∧ (∀ p k sl, s.slot p k = some sl → sl.state = .inService →
        (s.drive.state = .ready ∨ s.drive.state = .degraded) ∧ (sl.labelToBe s.label).law)
    ∧ ∀ q, s.pass = some q → q.kind = .labelRead → s.drive.state = .labelRead

/-! ## Groups of commands -/

/-- The two resets, which set every block to its reset values. -/
def isReset : Instr → Bool
  | .powerOn _ _ => true
  | .panelReset => true
  | _ => false

/-- The commands that put another cartridge in place. -/
def putsCartridge : Instr → Bool
  | .powerOn _ (some _) => true
  | .runConditionHolds (some _) => true
  | _ => false

/-- The port whose cable brings an opening word. -/
def opens : Instr → Option Port
  | .orderOutOpening p _ => some p
  | .dataOutOpening p _ => some p
  | .replyIn p _ => some p
  | .dataIn p _ => some p
  | .statusIn p _ _ => some p
  | .openingWordNoKind p _ => some p
  | _ => none

/-- A completed order packet of a kind (12, section 12.1). -/
def Kind.packet (k : Kind) (p : Port) (tag : Byte) (rest : List Word) : Instr :=
  match k with
  | .read => .read p tag rest
  | .write => .write p tag rest
  | .check => .check p tag rest
  | .formatTrack => .formatTrack p tag rest
  | .initializeLabel => .initializeLabel p tag rest
  | .assignSpare => .assignSpare p tag rest
  | .testTrack => .testTrack p tag rest
  | .readPlan => .readPlan p tag rest
  | .writePlan => .writePlan p tag rest
  | .loadPlan => .loadPlan p tag rest
  | .setMapMode => .setMapMode p tag rest
  | .setGuard => .setGuard p tag rest
  | .setSupervision => .setSupervision p tag rest
  | .setAlarmLine => .setAlarmLine p tag rest
  | .clearAlarms => .clearAlarms p tag rest
  | .captureStatistics => .captureStatistics p tag rest
  | .readStatistics => .readStatistics p tag rest
  | .readLabel => .readLabel p tag rest
  | .restartDrive => .restartDrive p tag rest
  | .arm => .arm p tag rest
  | .clearPort => .clearPort p tag rest

/-- The words after the header of a packet of a kind are of its length and encodings (12, section 12.1; R172). -/
def Kind.sound (k : Kind) (f : List Word) : Bool :=
  let n (i : Nat) : Nat := (wordAt f i).toNat
  match k with
  | .read | .check | .assignSpare => decide (f.length = 3)
  | .write | .testTrack => decide (f.length = 4 ∧ n 3 ≤ 1)
  | .formatTrack => decide (f.length = 2)
  | .initializeLabel => decide (f.length = 5)
  | .readPlan => decide (f.length = 1 ∧ n 0 ≤ 3)
  | .writePlan => decide (f.length = 3 + 3 * n 2 ∧ n 0 ≤ 2 ∧ 1 ≤ n 2 ∧ n 1 + n 2 ≤ 16
      ∧ ∀ i < n 2, field (wordAt f (3 + 3 * i)) 3 2 ≤ 2 ∧ field (wordAt f (3 + 3 * i)) 1 0 ≤ 2)
  | .loadPlan => decide (f.length = 1 ∧ (n 0 = 1 ∨ n 0 = 2))
  | .setMapMode => decide (f.length = 2 ∧ n 0 ≤ 2 ∧ n 1 ≤ 1)
  | .setGuard => decide (f.length = 5 ∧ n 0 ≤ 5 ∧ n 1 ≤ 1 ∧ n 2 ≤ 1 ∧ n 3 ≤ 1 ∧ n 4 ≤ 2)
  | .setSupervision => decide (f.length = 1)
  | .setAlarmLine => decide (f.length = 3 ∧ n 1 ≤ 1 ∧ n 2 ≤ 6)
  | .clearAlarms => decide (f.length = 2 ∧ n 1 ≤ 1)
  | .captureStatistics | .readStatistics | .readLabel | .restartDrive | .arm | .clearPort => decide (f.length = 0)

/-- The kind needs the arm latch; WRITE PLAN does as a direct edit alone (R44). -/
def Kind.arms (k : Kind) (f : List Word) : Bool :=
  match k with
  | .formatTrack | .initializeLabel | .assignSpare | .loadPlan | .setMapMode | .setGuard | .restartDrive
  | .clearPort => true
  | .writePlan => decide (wordAt f 0 = 0)
  | _ => false

/-! ## What a command leaves -/

/-- A port whose opening word has been taken: PRESENT, its timer reloaded, an exchange open or none, and the words held
ready (R153, R159). -/
def State.portOpened (s : State) (p : Port) (e : Option Exchange) (ready : List Word) : State :=
  s.onPort p fun x =>
    { x with exchange := e, offered := ready, fetched := 0, presence := .present,
             timer := if x.interval = 0 then none else some (tickAfter s.tick (10 * x.interval)) }

/-- A record enters slot `k` of a port at the end of the order list (R55). -/
def State.slotTaken (s : State) (p : Port) (k : Fin 8) (sl : Slot) : State :=
  s.onQueue p fun q => { q with slots := q.slots.set k (some sl), order := q.order ++ [k] }

/-- A record that is DONE at its acceptance enters slot `k` at the end of both lists (R57). -/
def State.slotAnswered (s : State) (p : Port) (k : Fin 8) (sl : Slot) : State :=
  s.onQueue p fun q =>
    { slots := q.slots.set k (some sl), order := q.order ++ [k], replies := q.replies ++ [k] }

/-- A slot that a packet's order may take: the lowest-numbered FREE one [assumption 6], its tag on no live slot. -/
def State.slotFor (s : State) (p : Port) (tag : Byte) (k : Fin 8) : Prop :=
  s.slot p k = none ∧ (∀ j, j < k → s.slot p j ≠ none) ∧ ∀ j sl, s.slot p j = some sl → sl.tag ≠ tag

/-- A port that has refused an order: the latch is cleared, the refusal is counted, and its code is the acceptance word
that closes the exchange (R51, R56, R155). -/
def State.refusedWith (s : State) (p : Port) (r : Refuse) : State :=
  (s.onPort p fun x => { x with armed := false, exchange := none, lastWord := r.code, offered := [r.code], fetched := 0 }).count p
    (if r = .queueFull then .refusedFull else .refusedOther)

/-- A port that has accepted an order: the acceptance is counted, and ACCEPTED, code 0, is the acceptance word that
closes the exchange (R55, R155, R168; 12, section 12.4). -/
def State.acceptedWith (s : State) (p : Port) : State :=
  (s.onPort p fun x => { x with exchange := none, lastWord := 0, offered := [0], fetched := 0 }).count p .accepted

/-- The record of an order of a kind accepted with a tag at a tick: the first values of every field that neither its
header nor its fields carry, ROUTINE and QUEUED (R46). -/
def Slot.entered (kind : Kind) (tag : Byte) (now : Tick) : Slot :=
  { tag := tag, kind := kind, prompt := false, dropIfLate := false, verify := false, start := none, count := none,
    params := .none, maint := .none, acceptTick := now, dueTick := none, state := .queued, sectorsDone := 0,
    verifyPhase := false, retries := 0, slips := 0, consSlips := 0, endTick := none, outcome := none,
    faultAddr := none, body := [], withdrawn := false, drainStart := none }

/-- A slot that an ending has reached: DONE with its outcome, FREE if it was withdrawn (R49). -/
def Slot.ended (sl : Slot) (e : Ending) (fault : Option Addr) : Option Slot :=
  if sl.withdrawn then none
  else some { sl with state := .done, outcome := some e, faultAddr := fault.or sl.faultAddr, drainStart := none }

/-- The slot that a tag names on a port, and no other live slot of the port has the tag (R66). -/
def State.names (s : State) (p : Port) (tag : Byte) (k : Fin 8) (sl : Slot) : Prop :=
  s.slot p k = some sl ∧ sl.tag = tag ∧ ∀ j x, s.slot p j = some x → x.tag = tag → j = k

/-- The margin of a PROMPT order that leaves the actuator is counted in its port's bank (R83). -/
def State.marginCounted (s : State) (p : Port) (sl : Slot) : State :=
  match sl.prompt, sl.dueTick with
  | true, some due => s.count p (marginBucket (signedDiff due s.tick))
  | _, _ => s

/-- `t` is what is left of `s` when its order IN SERVICE, whose record is then `sl`, has ended with an outcome and
become DONE at the end of the reply list, or FREE if it was withdrawn: the end tick is set, the margin of a PROMPT
order and the ending are counted, its buffers are let go, and the progress record, a pass under way and the
positioning are dropped (R46, R47, R49, R83, R98, R109, R124; assumption 36). -/
def State.endsService (s t : State) (p : Port) (k : Fin 8) (sl : Slot) (e : Ending) (fault : Option Addr) : Prop :=
  t = { s.onQueue p (fun q =>
          if sl.withdrawn then ⟨q.slots.set k none, q.order.erase k, q.replies.erase k⟩
          else { q with
            slots := q.slots.set k ({ sl with endTick := some s.tick }.ended e fault), replies := q.replies ++ [k] }) with
          buffers := t.buffers, progress := none, pass := none,
          pos := { s.pos with activity := .idle, target := none, errors := 0 },
          banks := ((s.marginCounted p sl).countEnding p e).banks }
  ∧ ∀ b : Fin 4, t.buffers[b] = if s.buffers[b].owner = some (p, k) then
      if s.delivering p = some b ∧ s.buffers[b].state = .fullForHost then { s.buffers[b] with owner := none }
      else ⟨.free, none, 0, []⟩
    else s.buffers[b]

/-- `t` is what is left of `s` when its order IN SERVICE, whose record is then `sl`, stops at a boundary because it is
withdrawn, or because its port is LOST (R63, R111, R125, R142). -/
def State.stopsService (s t : State) (p : Port) (k : Fin 8) (sl : Slot) : Prop :=
  (sl.withdrawn = true → s.endsService t p k sl .done none)
    ∧ (sl.withdrawn = false → s.endsService t p k sl .portLost none)

/-- `t` is what is left of `s` when its READ IN SERVICE, whose record is then `sl`, has ended its disk phase with blocks
still to be taken: it is DRAINING, its outcome kept and its drain timer started (R50, R114). -/
def State.beginsDraining (s t : State) (p : Port) (k : Fin 8) (sl : Slot) (e : Ending) (fault : Option Addr) : Prop :=
  t = { s.modSlot p k (fun _ => { sl with
          endTick := some s.tick, state := .draining, outcome := some e, faultAddr := fault,
          drainStart := some s.tick }) with
          progress := none, pass := none,
          pos := { s.pos with activity := .idle, target := none, errors := 0 },
          banks := (s.marginCounted p sl).banks }

/-- Buffer `b` of `s` once every slot that `t` holds otherwise has let go of what it owned: FREE, but without an owner
where an open DATA IN is delivering it (R109, R124; assumption 40). -/
def State.bufferLeft (s t : State) (b : Fin 4) : Buffer :=
  match s.buffers[b].owner with
  | some (p, k) =>
    if t.slot p k = s.slot p k then s.buffers[b]
    else if s.delivering p = some b ∧ s.buffers[b].state = .fullForHost then { s.buffers[b] with owner := none }
    else ⟨.free, none, 0, []⟩
  | none => s.buffers[b]

/-- The lists of `t` are those of `s` once the slots that differ have ended: one that is FREE has left the order list,
one that is DONE has joined the reply list, where those that join stand in an order left open [assumption 7] (R47,
R49). -/
def State.listsFollow (s t : State) : Prop :=
  ∀ p : Port, (t.queues.get p).order = (s.queues.get p).order.filter (fun k => (t.slot p k).isSome)
    ∧ ∃ l : List (Fin 8), (t.queues.get p).replies = (s.queues.get p).replies ++ l ∧ l.Nodup
      ∧ ∀ k, k ∈ l ↔ t.slot p k ≠ s.slot p k ∧ t.slot p k ≠ none

/-- A WRITE may issue requests: it is IN SERVICE, neither verifying nor withdrawn, and its port is not LOST (R116). -/
def State.mayAsk (s : State) (p : Port) (k : Fin 8) (sl : Slot) : Prop :=
  s.inService = some (p, k, sl) ∧ sl.kind = .write ∧ sl.verifyPhase = false ∧ sl.withdrawn = false
    ∧ (s.ports.get p).presence ≠ .lost

/-- The buffers of `t` are those of `s` once the slots that differ have let go of theirs: without a WRITE that may issue
requests exactly so; with one, a buffer so left FREE may hold one of its requests, for the lowest sectors not yet done
and in none of its buffers, and after an ending none is left to be issued (R109, R116, R124). -/
def State.buffersFollow (s t : State) : Prop :=
  (∀ b : Fin 4, (s.bufferLeft t b).state ≠ .free → t.buffers[b] = s.bufferLeft t b)
    ∧ ((∀ q j, t.slot q j = s.slot q j) → t.buffers = s.buffers)
    ∧ ((∃ q j, t.slot q j ≠ s.slot q j) → t.testRequests = t)
    ∧ ((∀ p k sl, ¬t.mayAsk p k sl) → ∀ b : Fin 4, t.buffers[b] = s.bufferLeft t b)
    ∧ ∀ p k sl, s.bufferLaw → t.mayAsk p k sl → ∀ b : Fin 4, (s.bufferLeft t b).state = .free →
        t.buffers[b] = s.bufferLeft t b ∨ ∃ i, t.buffers[b] = ⟨.filling, some (p, k), i, []⟩
          ∧ sl.sectorsDone ≤ i ∧ i < sl.n
          ∧ (∀ b' : Fin 4, t.buffers[b'].owner = some (p, k) → t.buffers[b'].index = i → b' = b)
          ∧ ∀ j, sl.sectorsDone ≤ j → j < i → ∃ b' : Fin 4, t.buffers[b'].owner = some (p, k) ∧ t.buffers[b'].index = j

/-- `t` is what entry into SPINNING DOWN leaves of `s`: waiting orders end VOLUME GONE and let go of their buffers, the
label is held no longer, the current cylinder is UNKNOWN and the run-down timer runs (R104, R124, R139). -/
def State.spinsDown (s t : State) : Prop :=
  t = { s with
          queues := t.queues, buffers := t.buffers, pass := none, label := .blank .none,
          pos := { s.pos with activity := .idle, target := none, errors := 0, cyl := none },
          drive := { s.drive with
            state := .spinningDown, speed := false, supply := false, fault := none, stopPending := false, spinUp := none,
            runDown := some (tickAfter s.tick 400), labelFails := 0 } }
  ∧ (∀ p k, t.slot p k = match s.slot p k with
      | some sl => if sl.state = .queued ∨ sl.state = .suspended then sl.ended .volumeGone none else some sl
      | none => none)
  ∧ s.listsFollow t ∧ s.buffersFollow t

/-- `t` is what entry into FAULTED leaves of `s`: waiting orders and the order in service end DRIVE FAULT, its margin
counted if it is PROMPT, and let go of their buffers, a label write not yet confirmed leaves the label DAMAGED, a
sector write under way is cut, the current cylinder is UNKNOWN, and DRIVE FAULTED latches (R83, R104, R124, R126, R135,
R136, R145). -/
def State.faults (s t : State) (why : FaultReason) : Prop :=
  t = { s with
          queues := t.queues, buffers := t.buffers, pass := none,
          progress := if s.inService = none then s.progress else none,
          banks := match s.inService with
            | some (p, _, sl) => (s.marginCounted p sl).banks
            | none => s.banks
          disk := s.cutPass.disk, free := s.cutPass.free,
          label := if s.labelOpen then .blank .damaged else s.label,
          pos := { s.pos with activity := .idle, target := none, errors := 0, cyl := none },
          drive := { s.drive with
            state := .faulted, speed := false, supply := false, fault := some why, spinUp := none, labelFails := 0 },
          alarms := (s.latch .driveFaulted).alarms }
  ∧ (∀ p k, t.slot p k = match s.slot p k with
      | some sl =>
        if sl.state = .inService then { sl with endTick := some s.tick }.ended .driveFault none
        else if sl.state = .queued ∨ sl.state = .suspended then sl.ended .driveFault none
        else some sl
      | none => none)
  ∧ s.listsFollow t ∧ ∀ b : Fin 4, t.buffers[b] = s.bufferLeft t b

/-- A command faults the drive: it enters FAULTED, from which a pending stop takes it to SPINNING DOWN at once, and the
alarm line is judged (R136, R138, R167). -/
def State.faultsThen (s : State) (why : FaultReason) (x : Host.Outcome State Fault Refusal) : Prop :=
  ∃ t, s.faults t why ∧ (s.drive.stopPending = false → x = .next t.judgeAlarm)
    ∧ (s.drive.stopPending = true → ∃ u, t.spinsDown u ∧ x = .next u.judgeAlarm)

/-! ## Positionings, suspensions and sector starts -/

/-- A positioning to `x` is requested: at its own cylinder its head is selected and arrival is taken at once;
elsewhere a seek is issued and counted, and the drive drops on-cylinder [assumptions 13, 24] (R74, R98, R99, R100). -/
def State.positioned (s : State) (x : Addr) : State :=
  let c := s.pos.cyl.getD 0
  if s.pos.cyl = some x.cyl then
    { s with pos := { s.pos with
        activity := .arrived, target := some x, head := x.head, arrivalTick := s.tick, errors := 0 } }
  else
    { s with
        lines := { s.lines with onCylinder := false }
        pos := { s.pos with
          activity := .seeking, target := some x, head := x.head, seekStart := s.tick,
          seekTime := seekTicks (x.cyl - c + (c - x.cyl)), errors := 0 } }.countBoth .seeks

/-- What follows a request for a positioning to a cylinder: the boundary of an arrival taken at once, or waiting
(R98). -/
def State.follows (s : State) (cyl : Nat) : Agenda := if s.pos.cyl = some cyl then .arrived else .idle

/-- The next logical sector of a data order, number `n`, is turned to: a listed one is gone to by an excursion, which is
counted, and one on another track by a positioning; one on the track of the heads follows (R12, R110, R123). -/
def State.turnsTo (s : State) (sl : Slot) (n : Nat) : State × Agenda :=
  let x := sl.sectorAddr n
  match lookupSpare s.label.table x with
  | some i => (({ s with progress := some ⟨n, some i, 0, .data⟩ }.countBoth .excursions).positioned ⟨384, i / 20, i % 20⟩,
      s.follows 384)
  | none =>
    let y : State := { s with progress := some ⟨n, none, 0, .data⟩ }
    if s.pos.cyl = some x.cyl ∧ s.pos.head = x.head then (y, .idle) else (y.positioned x, s.follows x.cyl)

/-- The PROMPT order that step 1 would take from a cylinder and a position is `x` in slot `j` of port `q`: of the two
ports' candidates the one with less slack, at equal slack that of the port not last granted (R78, R79). -/
def State.firstPrompt (s : State) (cyl pos : Nat) (q : Port) (j : Fin 8) (x : Slot) : Prop :=
  let slack (y : Slot) : Int := signedDiff y.due (tickAfter s.tick (estimate cyl pos y.startAddr y.n y.verify))
  s.promptCandidate q = some (j, x)
    ∧ ∀ i y, s.promptCandidate q.other = some (i, y) → slack x ≤ slack y ∧ (slack x = slack y → q ≠ s.sched.last)

/-- The model's time that the order IN SERVICE still needs is `rem`, and it would end at cylinder `cyl` and position
`pos` (R86, R151). -/
def Slot.needs (sl : Slot) (rem cyl pos : Nat) : Prop :=
  (sl.kind.isData = true ∧ sl.sectorsDone < sl.n
    ∧ rem = 10 * (sl.n - sl.sectorsDone)
        + 200 * ((sl.sectorAddr (sl.n - 1)).linear / 20 - (sl.sectorAddr sl.sectorsDone).linear / 20)
    ∧ cyl = (sl.sectorAddr (sl.n - 1)).cyl ∧ pos = 10 * ((sl.sectorAddr (sl.n - 1)).sector + 1) % 200)
  ∨ (sl.kind = .testTrack ∧ ∃ hd seed window first done revs fails words sectors,
      sl.params = .test hd seed window first ∧ sl.maint = .test done revs fails words sectors
      ∧ (done = false ∨ revs < window) ∧ rem = 200 * ((if done then 0 else 1) + (window - revs)) ∧ cyl = 385 ∧ pos = 0)

/-- At a boundary reached at a cylinder and a position, the order IN SERVICE, whose record is then `sl`, is set aside
for the PROMPT order in slot `j` of port `q`: F_wait exceeds its due tick and F_susp does not (R85, R86, R87). -/
def State.yields (s : State) (sl : Slot) (cyl pos : Nat) (q : Port) (j : Fin 8) : Prop :=
  sl.prompt = false ∧ (sl.kind = .read ∨ sl.kind = .check ∨ (sl.kind = .write ∧ sl.verify = false)
    ∨ sl.kind = .testTrack)
    ∧ sl.withdrawn = false ∧ s.suspended = none ∧ s.drive.stopPending = false
    ∧ ∃ rem endCyl endPos x, sl.needs rem endCyl endPos ∧ s.firstPrompt cyl pos q j x
      ∧ 0 < signedDiff (tickAfter s.tick (rem + estimate endCyl endPos x.startAddr x.n x.verify)) x.due
      ∧ signedDiff (tickAfter s.tick (estimate cyl pos x.startAddr x.n x.verify)) x.due ≤ 0

/-- No PROMPT order sets the order IN SERVICE aside at a boundary reached at a cylinder and a position (R85). -/
def State.keeps (s : State) (sl : Slot) (cyl pos : Nat) : Prop := ∀ q j, ¬s.yields sl cyl pos q j

/-- The order in slot `k` of a port is set aside: SUSPENDED with its counts and buffers, its progress record dropped,
and one suspension counted in both banks (R88). -/
def State.setAside (s : State) (p : Port) (k : Fin 8) : State :=
  { s.modSlot p k (fun y => { y with state := .suspended }) with progress := none, pass := none }.countBoth .suspensions

/-- What a step answers once `x` is all that is left to be done in it, in at most `m` items [assumption 21] (R69,
R167). -/
def State.answersIn (m : Nat) (x : State × Agenda) : Host.Outcome State Fault Refusal := .next (settle m x).judgeAlarm

/-- What a step answers once `x` is all that is left to be done in it (R69, R167). -/
def State.answers (x : State × Agenda) : Host.Outcome State Fault Refusal := State.answersIn settleLimit x

/-- What a step answers at a boundary in the state `s`, the record being `sl`, where the order is withdrawn or its
port LOST (R63, R111, R142). -/
def State.stops (s : State) (p : Port) (k : Fin 8) (sl : Slot) (o : Host.Outcome State Fault Refusal) : Prop :=
  sl.withdrawn = true ∨ (s.ports.get p).presence = .lost → ∃ t, s.stopsService t p k sl
    ∧ o = State.answers (t, .released)

/-- What a step answers in which the order IN SERVICE, whose record is then `sl`, ends (R49, R69, R138). -/
def State.ends (s : State) (p : Port) (k : Fin 8) (sl : Slot) (e : Ending) (fault : Option Addr)
    (o : Host.Outcome State Fault Refusal) : Prop :=
  ∃ t, s.endsService t p k sl e fault ∧ o = State.answers (t, .released)

/-- What a step answers where a boundary reached at the position `pos`, `m` items before the step's limit [assumption
21], sets the order aside, or lets it go on as `goes` says (R84, R85, R88). -/
def State.mayYield (m : Nat) (s : State) (p : Port) (k : Fin 8) (sl : Slot) (pos : Nat)
    (o : Host.Outcome State Fault Refusal) (goes : Prop) : Prop :=
  ∀ c, s.pos.cyl = some c →
    (∀ q j, s.yields sl c pos q j → o = State.answersIn m ((s.setAside p k).handTo q j)) ∧ (s.keeps sl c pos → goes)

/-- What a step answers at a boundary of a data order in the state `s`, where the record is `sl`, the next sector `n`
and the position `pos`: the order stops withdrawn or PORT LOST, ends MAP CHANGED, is set aside, or goes on as `goes`
says (R63, R84, R85, R88, R111). -/
def State.atBoundary (s : State) (p : Port) (k : Fin 8) (sl : Slot) (pos n : Nat) (o : Host.Outcome State Fault Refusal)
    (goes : Prop) : Prop :=
  let granted : Prop := (s.map.active.rightOn p (sl.sectorAddr n).cyl).allows (decide (sl.kind = .write)) = true
  s.stops p k sl o
    ∧ (sl.withdrawn = false → (s.ports.get p).presence ≠ .lost → n < sl.n →
      (¬granted → s.ends p k sl .mapChanged (some (sl.sectorAddr n)) o) ∧ (granted
        → State.mayYield settleLimit s p k sl pos o goes))

/-- What a step answers in which a data order turns to its next sector `n`: on the track of the heads, or in a seek to
it, nothing more; where the positioning arrives at once, its boundary (R84, R98, R110, R123). -/
def State.goesOn (s : State) (p : Port) (k : Fin 8) (sl : Slot) (n : Nat) (o : Host.Outcome State Fault Refusal) : Prop :=
  let x := s.turnsTo sl n
  (x.2 = .idle → o = .next x.1.judgeAlarm)
    ∧ (x.2 = .arrived → State.mayYield (settleLimit - 1) x.1 p k sl x.1.pos.position o (o = .next x.1.judgeAlarm))

/-- What a step answers at a boundary of a maintenance order that holds no unjudged label write, where the record is
`sl` and the position `pos`: the order stops withdrawn or PORT LOST, a FORMAT TRACK no longer granted ends MAP
CHANGED, a TEST TRACK is set aside, or the order goes on as `goes` says (R63, R84, R85, R88, R142, R145). -/
def State.atMaintenance (s : State) (p : Port) (k : Fin 8) (sl : Slot) (pos : Nat) (o : Host.Outcome State Fault Refusal)
    (goes : Prop) : Prop :=
  let barred : Prop := sl.kind = .formatTrack ∧ sl.startAddr.cyl ≤ 383
    ∧ s.map.active.rightOn p sl.startAddr.cyl ≠ .write
  s.stops p k sl o
    ∧ (sl.withdrawn = false → (s.ports.get p).presence ≠ .lost →
      (barred → s.ends p k sl .mapChanged (some { sl.startAddr with sector := sl.sectorsDone }) o)
      ∧ (¬barred → State.mayYield settleLimit s p k sl pos o goes))

/-- The command `c` is the pulse at which sector `n` begins under the heads, with `h` read as its header, and `u` what
the pulse makes of `s` before the sector is looked at (R94, R95, R96). -/
def State.begins (s u : State) (n : Nat) (h : HeaderReading) (c : Instr) : Prop :=
  (c = .indexPulse h ∧ n = 0 ∧ s.drive.state ≠ .spinningUp ∧ u = s.indexWatch)
  ∨ (c = .sectorPulse h ∧ n = s.pos.sc + 1 ∧ s.pos.valid = true ∧ s.pos.sc < 19
      ∧ u = { s with pos := { s.pos with sc := s.pos.sc + 1, t := 0 } })

/-- A positioning has arrived at an earlier tick and no pass is under way, so that a sector may be taken (R95). -/
def State.onTarget (s : State) : Prop :=
  s.pass = none ∧ (s.pos.activity = .arrived ∨ s.pos.activity = .confirmed) ∧ 0 < (s.tick - s.pos.arrivalTick).toInt

/-- What a pulse answers that takes a pass `x` over the sector at `a` with the words `ws` to write, `v` being the
state with its counts taken: a matching header confirms the positioning, an unreadable one leaves it as it is, and a
mismatched one is a seek error of it, or of a new positioning where it was confirmed, the third of which faults the
drive (R95, R101, R102, R103; assumption 13). -/
def State.reads (v : State) (x : PassKind) (a : Addr) (ws : List Word) (h : HeaderReading)
    (o : Host.Outcome State Fault Refusal) : Prop :=
  let lost : State := { v with pos := { v.pos with target := some a, cyl := none } }.countBoth .seekErrors
  (h.verdict v.disk a = .matching →
    o = .next { v with pass := some ⟨x, a, .matching, ws⟩, pos := { v.pos with activity := .confirmed } }.judgeAlarm)
  ∧ (h.verdict v.disk a = .unreadable → o = .next { v with pass := some ⟨x, a, .unreadable, ws⟩ }.judgeAlarm)
  ∧ (h.verdict v.disk a = .mismatched → v.pos.activity = .confirmed ∨ v.pos.errors < 2 →
      o = .next ({ lost with
        lines := { v.lines with onCylinder := false }
        pos := { lost.pos with
          activity := .recalibrating, head := 0, recalStart := v.tick,
          errors := if v.pos.activity = Activity.confirmed then 1 else v.pos.errors + 1 } }.countBoth
            .recalibrations).judgeAlarm)
  ∧ (h.verdict v.disk a = .mismatched → v.pos.activity ≠ .confirmed → 2 ≤ v.pos.errors → lost.faultsThen .seek o)

/-- What a pulse answers that takes a pass for the order IN SERVICE, `u` being the state at the pulse: a pass after a
failed one is a re-read [assumption 12], and the row of slips ends (R115, R122). -/
def State.takes (u : State) (p : Port) (k : Fin 8) (g : Progress) (x : PassKind) (a : Addr) (ws : List Word)
    (h : HeaderReading) (o : Host.Outcome State Fault Refusal) : Prop :=
  State.reads ((if 0 < g.failed then u.countBoth .reReads else u).modSlot p k fun y =>
    { y with retries := if 0 < g.failed then min (y.retries + 1) 65535 else y.retries, consSlips := 0 }) x a ws h o

/-! ## Records the host fetches (chapter 12) -/

/-- The order kinds by code, from 1 (12, section 12.1). -/
def kindsByCode : List Kind :=
  [.read, .write, .check, .formatTrack, .initializeLabel, .assignSpare, .testTrack, .readPlan, .writePlan, .loadPlan,
   .setMapMode, .setGuard, .setSupervision, .setAlarmLine, .clearAlarms, .captureStatistics, .readStatistics, .readLabel,
   .restartDrive, .arm, .clearPort]

/-- The outcomes by code (12, section 12.5). -/
def endingsByCode : List Ending :=
  [.done, .expired, .readFault, .writeFault, .verifyFault, .guarded, .mapChanged, .portLost, .stalled, .writeInhibited,
   .volumeGone, .driveFault, .sparesExhausted]

/-- The drive states by code (12, section 12.7). -/
def driveStatesByCode : List DriveState :=
  [.empty, .spinningUp, .calibrating, .labelRead, .ready, .degraded, .spinningDown, .faulted]

/-- The fault reasons by code (12, section 12.7). -/
def faultsByCode : List (Option FaultReason) :=
  [none, some .seek, some .indexLost, some .overtemp, some .spinUpTimeout, some .calibration]

/-- The label states by code (12, section 12.5). -/
def labelStatesByCode : List LabelState := [.none, .valid, .absent, .damaged]

/-- The refusals by code, from 1 (12, section 12.4). -/
def refusalsByCode : List Refuse :=
  [.malformed, .unknownKind, .queueFull, .tagInUse, .notArmed, .notReady, .noRegion, .noAccess, .outOfRegion, .badCount,
   .trackSpan, .guarded, .unlabelled, .sparesExhausted, .planConflict, .keyHeld, .guardLocked, .wrongMode, .badAddress,
   .notFaulted]

/-- The counters of a bank in the order of the tables of R168 (R169). -/
def countersInOrder : List Counter :=
  [.accepted, .refusedFull, .refusedOther, .sectorsRead, .sectorsWritten, .length1, .length2to4, .length5to16,
   .length17to64, .early, .close, .late, .veryLate, .expired, .slips, .stalled, .shortExchanges, .seeks, .seekErrors,
   .recalibrations, .reReads, .sectorsLost, .excursions, .suspensions, .planLoads, .outOfBand]

/-- Three words hold a plan entry: in use in bit 15 of the first, the right of port A in its bits 3-2 and that of port B
in its bits 1-0, as 0 NONE, 1 READ and 2 WRITE; then the first and the last cylinder (12, section 12.3). -/
def PlanEntry.inWords (e : PlanEntry) (w0 w1 w2 : Word) : Prop :=
  let rights : List Right := [.none, .read, .write]
  w0.getLsbD 15 = e.inUse ∧ rights[field w0 3 2]? = some e.rightA ∧ rights[field w0 1 0]? = some e.rightB
    ∧ w1.toNat = e.first ∧ w2.toNat = e.last

/-- The alarm sources by number (12, section 12.1). -/
def sourcesByNumber : List Source :=
  [.portALost, .portBLost, .driveFaulted, .driveDegraded, .labelNotValid, .planLoaded, .sectorLost]

/-- The words are the reply of a slot that is DONE with an outcome (R58, R171; 12, section 12.5). -/
def Slot.repliedBy (sl : Slot) (w : List Word) : Prop :=
  let x (i : Nat) : Word := wordAt w i
  w.length = 9 + sl.body.length ∧ w.drop 9 = sl.body
    ∧ field (x 0) 15 8 = sl.tag.toNat ∧ (∃ n, field (x 0) 7 0 = n + 1 ∧ kindsByCode[n]? = some sl.kind)
    ∧ endingsByCode[(x 1).toNat]? = sl.outcome
    ∧ (sl.sectorsDone ≤ 64 → (x 2).toNat = sl.sectorsDone) ∧ (sl.retries ≤ 65535 → (x 3).toNat = sl.retries)
    ∧ (sl.slips ≤ 65535 → (x 4).toNat = sl.slips)
    ∧ (sl.body.length ≤ 250 → field (x 5) 13 0 = sl.body.length
      ∧ ((x 5).getLsbD 15 = true ↔ sl.prompt = true ∧ sl.dueTick ≠ none ∧ sl.endTick ≠ none)
      ∧ ((x 5).getLsbD 14 = true ↔ sl.faultAddr ≠ none))
    ∧ (∀ d e, sl.prompt = true → sl.dueTick = some d → sl.endTick = some e →
        (x 6).toInt = max (-32768) (min (d - e).toInt 32767))
    ∧ (sl.prompt = false ∨ sl.dueTick = none ∨ sl.endTick = none → x 6 = 0)
    ∧ (∀ a, sl.faultAddr = some a → a.cyl ≤ 386 → a.head ≤ 3 → a.sector ≤ 19 →
        (x 7).toNat = a.cyl ∧ field (x 8) 15 12 = a.head ∧ field (x 8) 11 7 = a.sector ∧ field (x 8) 6 0 = 0)
    ∧ (sl.faultAddr = none → x 7 = 0 ∧ x 8 = 0)

/-- The words are the READ LABEL body of held label information whose entries and indices are sound (R9, R10; 12,
sections 12.5 and 12.6). -/
def Label.toldBy (l : Label) (w : List Word) : Prop :=
  let x (i : Nat) : Word := wordAt w i
  w.length = 9 + 2 * l.table.length + l.retired.length ∧ labelStatesByCode[(x 0).toNat]? = some l.state
    ∧ (∀ i : Fin 4, x (i + 1) = l.name[i]) ∧ x 5 = l.serial ∧ x 6 = l.gen
    ∧ (x 7).toNat = l.table.length ∧ (x 8).toNat = l.retired.length
    ∧ (∀ i e, l.table[i]? = some e →
        (x (9 + 2 * i)).toNat = e.bad.cyl ∧ field (x (10 + 2 * i)) 15 12 = e.bad.head
          ∧ field (x (10 + 2 * i)) 11 7 = e.bad.sector ∧ field (x (10 + 2 * i)) 6 0 = e.spare)
    ∧ ∀ i r, l.retired[i]? = some r → (x (9 + 2 * l.table.length + i)).toNat = r

/-- The bits 6-0 of a word are the flags of a source set, and its other bits are zero (R171; 12, section 12.7). -/
def SourceSet.sentAs (f : SourceSet) (w : Word) : Prop :=
  field w 15 7 = 0 ∧ ∀ i x, sourcesByNumber[i]? = some x → w.getLsbD i = f.get x

/-- The words are the status record of a port (R157, R158, R171; 12, section 12.7). -/
def State.recordedBy (s : State) (p : Port) (w : List Word) : Prop :=
  let x (i : Nat) : Word := wordAt w i
  let count (c : Slot → Bool) : Nat := (slotNumbers.filter fun k => (s.slot p k).any c).length
  w.length = 16
    ∧ driveStatesByCode[field (x 0) 15 12]? = some s.drive.state ∧ field (x 0) 11 10 = 0
    ∧ (x 0).getLsbD 9 = s.drive.speed ∧ (x 0).getLsbD 8 = s.drive.supply
    ∧ faultsByCode[field (x 0) 7 4]? = some s.drive.fault ∧ field (x 0) 3 2 = 0
    ∧ labelStatesByCode[field (x 0) 1 0]? = some s.label.state
    ∧ (∀ i : Fin 4, x (i + 1) = s.label.name[i]) ∧ x 5 = s.label.serial
    ∧ [MapMode.direct, .lineStrobe, .orderStrobe][field (x 6) 15 14]? = some s.map.mode
    ∧ [Origin.fixed, .plan1, .plan2, .edited][field (x 6) 13 12]? = some s.map.origin
    ∧ (x 6).getLsbD 11 = s.map.auto ∧ (x 6).getLsbD 10 = s.lines.fixedKey ∧ (x 6).getLsbD 9 = s.lines.select
    ∧ field (x 6) 8 0 = 0
    ∧ [Span.none, .sixteenth, .eighth, .quarter, .half, .all][field (x 7) 15 13]? = some s.guard.span
    ∧ (x 7).getLsbD 12 = s.guard.low ∧ (x 7).getLsbD 11 = s.guard.complement ∧ (x 7).getLsbD 10 = s.guard.freeze
    ∧ [GuardMode.opened, .keyed, .locked][field (x 7) 9 8]? = some s.guard.mode
    ∧ (x 7).getLsbD 7 = s.lines.guardKey ∧ field (x 7) 6 0 = 0
    ∧ [Presence.unknown, .present, .lost][field (x 8) 15 14]? = some s.ports.a.presence
    ∧ [Presence.unknown, .present, .lost][field (x 8) 13 12]? = some s.ports.b.presence ∧ field (x 8) 11 0 = 0
    ∧ ((s.ports.get p).interval ≤ 5000 → (x 9).toNat = (s.ports.get p).interval)
    ∧ field (x 10) 15 12 = count (fun _ => true)
    ∧ field (x 10) 11 8 = count (fun y => decide (y.state = .queued) && y.prompt)
    ∧ ((x 10).getLsbD 7 = true ↔ ∃ q k y, s.slot q k = some y ∧ y.state = .suspended)
    ∧ ((x 10).getLsbD 6 = true ↔ ∃ k y, s.suspended = some (.b, k, y)) ∧ field (x 10) 5 4 = 0
    ∧ ((x 10).getLsbD 3 = true ↔ (s.queues.get p).replies ≠ []) ∧ ((x 10).getLsbD 2 = true ↔ s.stream p ≠ [])
    ∧ ((x 10).getLsbD 1 = true ↔ s.requests p ≠ [])
    ∧ ((x 10).getLsbD 0 = true ↔ ∃ y, s.alarms.latched.get y = true ∧ s.alarms.masked.get y = false
        ∧ s.alarms.acked.get y = false)
    ∧ (s.requests p = [] → x 11 = 0xFFFF) ∧ (∀ b l, s.requests p = b :: l → x 11 = s.bufferHeader b)
    ∧ x 12 = (s.ports.get p).lastWord
    ∧ s.alarms.latched.sentAs (x 13) ∧ s.alarms.acked.sentAs (x 14) ∧ s.alarms.masked.sentAs (x 15)

/-- The buffers are the first of a port's buffers in a state, none where it has none: of the oldest order that has
one, its lowest sector index first (R108, R116). -/
def State.leads (s : State) (p : Port) (st : BufState) (l : List (Fin 4)) : Prop :=
  let held (k : Fin 8) (b : Fin 4) : Prop := s.buffers[b].owner = some (p, k) ∧ s.buffers[b].state = st
  (l = [] ↔ ∀ k ∈ (s.queues.get p).order, ∀ b, ¬held k b)
    ∧ ∀ b rest, l = b :: rest → ∃ k older newer, (s.queues.get p).order = older ++ k :: newer ∧ held k b
      ∧ (∀ b', held k b' → s.buffers[b].index ≤ s.buffers[b'].index) ∧ ∀ j ∈ older, ∀ b', ¬held j b'

/-! ## What a reset leaves -/

/-- The drive supervisor after a reset, by the lines as found (R130, R135, R141). -/
def Lines.resetDrive (l : Lines) : Supervisor :=
  if l.run then
    if l.overTemp then { Supervisor.reset with state := .faulted, fault := some .overtemp }
    else { Supervisor.reset with state := .spinningUp, spinUp := some 600000 }
  else .reset

/-- The alarm unit after a reset, by the lines as found: DRIVE FAULTED latches where the drive faults at once, and the
line flashes (R163, R164, R167). -/
def Lines.resetAlarms (l : Lines) : Alarms :=
  if l.run && l.overTemp then
    { Alarms.reset with latched := { SourceSet.empty with driveFaulted := true }, manner := .flashing, level := true,
                        flash := some 2500 }
  else .reset

end Sys2Proof.Machine
end

