-- ==== Sys2Proof/Certificates/Slice0/Obligations.lean ====
section
/-! DEFINITION. The statements about the model, one `def Obligations.<Name> : Prop` each; OBLIGATIONS.json lists them
with the rules they rest on. -/

open Sys2Proof Sys2Proof.Machine

/-! ## The step, the tick and the resets -/

/-- A step runs the command at the front of the queue with the queue's rest. That all commands wait in one queue,
first in, first out, is the model's choice, assumptions 19 and 28; the spec has commands arrive, and no queue. -/
def Obligations.StepRunsTheFrontCommand : Prop :=
  ∀ (c : Instr) (rest : List Instr) (s : State),
    step { s with pending := c :: rest } = exec c { s with pending := rest }

/-- On an empty queue one tick passes: the tick count and the count since the last pulse advance, nothing else
changes, and the timer events whose expiry tick is the new tick join the queue (R82, R93, R94, R97, R99, R103, R114,
R131, R140, R159, R167). That a tick passes on an empty queue and that the events then join it is the model's choice,
assumption 1; that a recalibration limit taken at the tick before is past at the new one is assumption 37. -/
def Obligations.AnEmptyQueueStepIsOneTick : Prop :=
  ∀ s : State, s.pending = [] → ∃ t : State, step s = .next t
    ∧ t = { s with
              pending := t.pending, tick := s.tick + 1,
              pos := { s.pos with t := if s.pos.t < 255 then s.pos.t + 1 else 255, limitTaken := false } }
    ∧ (∀ p, .presenceTimerExpiry p ∈ t.pending ↔
        (s.ports.get p).presence = .present ∧ (s.ports.get p).timer = some t.tick)
    ∧ (∀ p tag, .dueTickExpiry p tag ∈ t.pending ↔ ∃ k sl, s.slot p k = some sl ∧ sl.tag = tag ∧ sl.state = .queued
        ∧ sl.prompt = true ∧ sl.dueTick = some t.tick)
    ∧ (∀ p tag, .drainLimit p tag ∈ t.pending ↔ ∃ k sl d, s.slot p k = some sl ∧ sl.tag = tag ∧ sl.state = .draining
        ∧ sl.drainStart = some d ∧ tickAfter d 1000 = t.tick)
    ∧ (.seekArrival ∈ t.pending ↔ s.pos.activity = .seeking ∧ s.lines.onCylinder = true
        ∧ tickAfter s.pos.seekStart s.pos.seekTime = t.tick)
    ∧ (.seekTimeout ∈ t.pending ↔ s.pos.activity = .seeking
        ∧ tickAfter s.pos.seekStart (s.pos.seekTime + 200) = t.tick)
    ∧ (.recalibrationLimit ∈ t.pending ↔ s.pos.activity = .recalibrating ∧ tickAfter s.pos.recalStart 1000 = t.tick)
    ∧ (.indexLoss ∈ t.pending ↔ s.drive.state.watched = true ∧ ∃ i, s.pos.lastIndex = some i ∧ tickAfter i 400 = t.tick)
    ∧ (.spinUpTimeout ∈ t.pending ↔ s.drive.state = .spinningUp ∧ s.drive.spinUp = some t.tick)
    ∧ (.runDownTimeout ∈ t.pending ↔ s.drive.state = .spinningDown ∧ s.drive.runDown = some t.tick)
    ∧ (.flashTimerExpiry ∈ t.pending ↔ s.alarms.manner = .flashing ∧ s.alarms.flash = some t.tick)

/-- The two resets set every block to its reset value: POWER_ON the staged plans and the guard too, PANEL_RESET keeps
them; the map is that of the reset load (R27), the drive is EMPTY, SPINNING UP or FAULTED by the lines as found, and a
sector write under way is cut (R2). Five things rest on the model's own choices: the queue and the free values are kept
(assumptions 19, 5), POWER_ON may put another cartridge in place (20), the fields whose reset value the spec does not
give hold 0 or nothing (17), and a space of the volume name is the code 20h (33). What a FREE buffer and one waiting for
its data hold is assumption 40. -/
def Obligations.ResetsSetEveryBlock : Prop :=
  ∀ s : State,
    (∀ (l : Lines) (c : Option Cartridge), exec (.powerOn l c) s = .next
      { State.reset with
          pending := s.pending, lines := l, drive := l.resetDrive, alarms := l.resetAlarms, free := s.cutPass.free,
          disk := match c with
            | some d => Cartridge.ofList d
            | none => s.cutPass.disk })
    ∧ ∃ m : MapUnit,
        m.plan1 = s.map.plan1 ∧ m.plan2 = s.map.plan2 ∧ m.mode = .lineStrobe ∧ m.auto = false
        ∧ (s.lines.fixedKey = true → m.active = .fixed ∧ m.origin = .fixed)
        ∧ (s.lines.fixedKey = false → s.lines.select = false →
            if s.map.plan1.isEmpty then m.active = .fixed ∧ m.origin = .fixed
            else m.active = s.map.plan1 ∧ m.origin = .plan1)
        ∧ (s.lines.fixedKey = false → s.lines.select = true →
            if s.map.plan2.isEmpty then m.active = .fixed ∧ m.origin = .fixed
            else m.active = s.map.plan2 ∧ m.origin = .plan2)
        ∧ exec .panelReset s = .next
            { State.reset with
                pending := s.pending, lines := s.lines, map := m, guard := s.guard, drive := s.lines.resetDrive,
                alarms := s.lines.resetAlarms, disk := s.cutPass.disk, free := s.cutPass.free }

/-- A reset that meets a sector write under way leaves that sector's header as it was and its data check word failing,
and every other sector as it was; with no write under way it leaves every sector (R2, R126). -/
def Obligations.AResetCutsASectorWrite : Prop :=
  ∀ (s : State) (c : Instr), s.diskLaw → (c = .panelReset ∨ ∃ l, c = .powerOn l none) →
    ∃ t, exec c s = .next t ∧
      (∀ q, s.pass = some q → q.writes = true →
        (let y := Cartridge.get t.disk q.addr.linear
         let x := Cartridge.get s.disk q.addr.linear
         y.hCyl = x.hCyl ∧ y.hHead = x.hHead ∧ y.hSector = x.hSector ∧ y.hCheck = x.hCheck ∧ y.dCheck ≠ crc y.data)
        ∧ ∀ n, n ≠ q.addr.linear → Cartridge.get t.disk n = Cartridge.get s.disk n)
      ∧ ((∀ q, s.pass = some q → q.writes = false) → t.disk = s.disk)

/-- The reset state meets every law of the model. -/
def Obligations.TheResetStateMeetsTheLaws : Prop :=
  State.reset.mapLaw ∧ State.reset.queueLaw ∧ State.reset.serviceLaw ∧ State.reset.suspensionLaw
    ∧ State.reset.rotationLaw ∧ State.reset.bypassLaw ∧ State.reset.alarmLaw ∧ State.reset.annunciatorLaw
    ∧ State.reset.counterLaw ∧ State.reset.diskLaw ∧ State.reset.intervalLaw
    ∧ State.reset.bufferLaw ∧ State.reset.labelLaw ∧ State.reset.assignLaw

/-! ## Whole-machine rules -/

/-- Every command answers a next state and leaves the queue's rest, and no command but a reset changes the tick count
(R93). That the queue's rest is left, by a reset too, is the model's choice, assumption 19. -/
def Obligations.EveryCommandAnswersNext : Prop :=
  ∀ (c : Instr) (s : State), ∃ t, exec c s = .next t ∧ t.pending = s.pending ∧ (isReset c = false → t.tick = s.tick)

/-- Only POWER_ON and an armed, completed SET GUARD, taken in OPEN or in KEYED with the guard key OFF, change the
guard's setting or mode (R38, R39). -/
def Obligations.OnlySetGuardAndPowerOnChangeTheGuard : Prop :=
  ∀ (c : Instr) (s t : State), exec c s = .next t → t.guard ≠ s.guard →
    (∃ l x, c = .powerOn l x) ∨
    (∃ p tag rest, c = .setGuard p tag rest ∧ s.completes p (rest.length + 1) = true ∧ (s.ports.get p).armed = true)
      ∧ s.guard.mode ≠ .locked ∧ ¬(s.guard.mode = .keyed ∧ s.lines.guardKey = true)

/-- No two in-use entries of the active map, or of a staged plan, share a cylinder: every step keeps it (R31). -/
def Obligations.TheMapStaysConflictFree : Prop :=
  ∀ s t : State, s.mapLaw → step s = .next t → t.mapLaw

/-- Each port's lists name its live and its DONE slots once each, and no two live slots of a port carry one tag: every
step keeps it (R47, R65, R66). -/
def Obligations.TheOrderListsStayTrue : Prop :=
  ∀ s t : State, s.queueLaw → step s = .next t → t.queueLaw

/-- At most one slot in the device is IN SERVICE (R91), and at most one is SUSPENDED, which is never PROMPT (R92): every
step keeps both laws. -/
def Obligations.AtMostOneOrderIsServedAndOneSuspended : Prop :=
  ∀ s t : State, step s = .next t → (s.serviceLaw → t.serviceLaw) ∧ (s.suspensionLaw → t.suspensionLaw)

/-- The sector count, the count since the last pulse and the rotational position stay in their ranges (R94, R106), no
bypass count exceeds 4 and the two are never both 4 (R81), a presence interval is 0 or 50-5000 ms in steps of 50
(R159), a FREE buffer has no owner (R107), and the cartridge keeps its canonical form (the model's own, assumption 3).
The held label's entries stand in ascending bad address and name different spares, none of them retired, all fields in
range, entries and retired spares 80 at most, and so does the label that an ASSIGN SPARE in service would write (R6,
R8, R9, R10, R11, R147, R148; that the retired list ascends is assumption 23). Every step keeps these laws. -/
def Obligations.CountsAndFormsStayInRange : Prop :=
  ∀ s t : State, step s = .next t → (s.rotationLaw → t.rotationLaw) ∧ (s.bypassLaw → t.bypassLaw)
    ∧ (s.intervalLaw → t.intervalLaw) ∧ (s.bufferLaw → t.bufferLaw) ∧ (s.diskLaw → t.diskLaw)
    ∧ (s.serviceLaw → s.labelLaw → s.assignLaw → t.labelLaw ∧ t.assignLaw)

/-- A flag is acknowledged only while it is latched (R163), and the alarm line has at every moment the manner R167
judges, with its level and flash timer: every step keeps both laws. The manner is that of R167's table. In SUMMARY mode
the line is inactive with no flag latched and unmasked, flashing with one that is not acknowledged, and else steady; in
FOLLOW mode it follows the flag of PLAN LOADED and SECTOR LOST, and the condition of any other source. The conditions
are those of R163. -/
def Obligations.TheAlarmUnitKeepsItsLaws : Prop :=
  (∀ s t : State, step s = .next t → (s.alarmLaw → t.alarmLaw) ∧ (s.annunciatorLaw → t.annunciatorLaw))
  ∧ ∀ s : State,
    let shown (x : Source) : Prop := s.alarms.latched.get x = true ∧ s.alarms.masked.get x = false
    let waiting (x : Source) : Prop := shown x ∧ s.alarms.acked.get x = false
    let event (x : Source) : Prop := x = .planLoaded ∨ x = .sectorLost
    (s.alarms.follow = false → (s.manner = .inactive ↔ ∀ x, ¬shown x) ∧ (s.manner = .flashing ↔ ∃ x, waiting x)
      ∧ (s.manner = .steady ↔ (∃ x, shown x) ∧ ∀ x, ¬waiting x))
    ∧ (s.alarms.follow = true → s.manner ≠ .flashing
      ∧ (event s.alarms.source → (s.manner = .steady ↔ s.alarms.latched.get s.alarms.source = true))
      ∧ (¬event s.alarms.source → (s.manner = .steady ↔ s.condition s.alarms.source = true)))
    ∧ (∀ p, s.condition (lostSource p) = true ↔ (s.ports.get p).presence = .lost)
    ∧ (lostSource .a = .portALost ∧ lostSource .b = .portBLost)
    ∧ (s.condition .driveFaulted = true ↔ s.drive.state = .faulted)
    ∧ (s.condition .driveDegraded = true ↔ s.drive.state = .degraded)
    ∧ (s.condition .labelNotValid = true ↔
        (s.drive.state = .ready ∨ s.drive.state = .degraded) ∧ s.label.state ≠ .valid)
    ∧ s.condition .planLoaded = false ∧ s.condition .sectorLost = false

/-- Every counter stays a 32-bit value; a live counter decreases only at a reset or at a capture of its own bank, and a
snapshot counter changes only there. Counting adds 1 below 4,294,967,295 to the one live counter it names, of the
port's bank or of both, and changes nothing else; the 26 counters stand in the order of the tables of R168. A transfer
is counted by its length, and the margin of a PROMPT order, its due tick minus its end tick, by the buckets of R83
(R83, R168, R169, R170). -/
def Obligations.CountersNeverDecrease : Prop :=
  (∀ s t : State, s.counterLaw → step s = .next t → t.counterLaw)
  ∧ (∀ (c : Instr) (s t : State), s.counterLaw → exec c s = .next t → isReset c = false →
      ∀ p : Port, (∀ tag rest, c ≠ .captureStatistics p tag rest) → ∀ i : Fin 26,
        (s.banks.get p).live[i] ≤ (t.banks.get p).live[i] ∧ (t.banks.get p).snap[i] = (s.banks.get p).snap[i])
  ∧ (∀ (s : State) (p q : Port) (c : Counter) (i : Fin 26),
      let raised (n : Nat) : Nat := if n < 4294967295 then n + 1 else 4294967295
      let x : Nat := (s.banks.get q).live[i]
      (s.count p c).banks.get q = { s.banks.get q with live := ((s.count p c).banks.get q).live }
      ∧ ((s.count p c).banks.get q).live[i] = (if q = p ∧ countersInOrder[i.val]? = some c then raised x else x)
      ∧ (s.countBoth c).banks.get q = { s.banks.get q with live := ((s.countBoth c).banks.get q).live }
      ∧ ((s.countBoth c).banks.get q).live[i] = (if countersInOrder[i.val]? = some c then raised x else x)
      ∧ s.count p c = { s with banks := (s.count p c).banks }
      ∧ s.countBoth c = { s with banks := (s.countBoth c).banks })
  ∧ (∀ n, (n = 1 → lengthBucket n = .length1) ∧ (2 ≤ n → n ≤ 4 → lengthBucket n = .length2to4)
      ∧ (5 ≤ n → n ≤ 16 → lengthBucket n = .length5to16) ∧ (17 ≤ n → n ≤ 64 → lengthBucket n = .length17to64))
  ∧ ∀ m : Int, (100 ≤ m → marginBucket m = .early) ∧ (0 ≤ m → m ≤ 99 → marginBucket m = .close)
      ∧ (-100 ≤ m → m ≤ -1 → marginBucket m = .late) ∧ (m < -100 → marginBucket m = .veryLate)

/-- A sector changes only by a sector write: where a command that puts no other cartridge in place leaves a sector
different, that sector was being written by the pass under way (R2, R118, R143). -/
def Obligations.OnlyTheSectorBeingWrittenChanges : Prop :=
  ∀ (c : Instr) (s t : State) (n : Nat), exec c s = .next t → putsCartridge c = false →
    Cartridge.get t.disk n ≠ Cartridge.get s.disk n →
    ∃ q, s.pass = some q ∧ q.writes = true ∧ n = q.addr.linear

/-- No sector write begins on a cylinder the guard protects, nor without the write supply: where a command leaves a
writing pass under way that was not under way before, the guard as it stands lets it begin, a WRITE judged by its
logical cylinder, FORMAT TRACK by its own, the writes of cylinders 384 and 386 by the freeze; and the port of a WRITE
holds the right WRITE in the active map on that logical cylinder (R12, R37, R43, R112). -/
def Obligations.NoProtectedWriteBegins : Prop :=
  ∀ (c : Instr) (s t : State) (q : Pass), exec c s = .next t → s.pass = none → t.pass = some q → q.writes = true →
    t.lines.supply = true
    ∧ (q.kind = .format → t.guard.protectsFormat q.addr.cyl = false)
    ∧ (q.kind = .zero ∨ q.kind = .labelWrite → t.guard.freeze = false)
    ∧ ∀ b, q.kind = .write b → ∃ p k sl g, t.inService = some (p, k, sl) ∧ t.progress = some g
        ∧ t.guard.protectsData (sl.sectorAddr g.next).cyl = false ∧ t.grants p true (sl.sectorAddr g.next).cyl = true

/-! ## Exchanges -/

/-- The opening word of an ORDER OUT or a DATA OUT, taken while no exchange is open and the port is not LOST: the
exchange is open with its first word, the port is PRESENT and its timer reloaded, and nothing else changes. An ORDER OUT
with word count 0 completes at once and is refused MALFORMED (R153, R154, R159, R172). -/
def Obligations.AnOutExchangeOpens : Prop :=
  ∀ (s : State) (p : Port) (w : Word), (s.ports.get p).exchange = none → (s.ports.get p).presence ≠ .lost →
    (field w 7 0 ≠ 0 →
      exec (.orderOutOpening p w) s = .next (s.portOpened p (some ⟨.orderOut (field w 7 0), [w]⟩) []))
    ∧ (field w 7 0 = 0 →
      exec (.orderOutOpening p w) s = .next (((s.portOpened p none [1]).onPort p fun x =>
        { x with armed := false, lastWord := 1 }).count p .refusedOther))
    ∧ exec (.dataOutOpening p w) s = .next (s.portOpened p (some ⟨.dataOut, [w]⟩) [])

/-- The opening word of an IN exchange, taken while no exchange is open and the port is not LOST, fixes what the host
will fetch: the first reply of the reply list, the first block of the outgoing stream, the empty word where there is
none, or the status record as it then stands. The fetches return those words in turn and then the empty word; a STATUS
IN fetched whole ends with no other effect, and every further fetch returns the empty word. The reply, the block
header and the status record hold the fields of their tables (R108, R116, R154, R156, R157, R158, R171, R173; 12,
sections 12.2, 12.5 and 12.7). That the table's row tells whether a STATUS IN is fetched whole is assumption 9, and
how fetches are counted assumption 38. -/
def Obligations.AnInExchangeFixesItsContent : Prop :=
  (∀ (s : State) (p : Port) (w : Word), (s.ports.get p).exchange = none → (s.ports.get p).presence ≠ .lost →
    ((s.queues.get p).replies = [] →
      exec (.replyIn p w) s = .next (s.portOpened p (some ⟨.replyIn none, [w]⟩) [0xFFFF]))
    ∧ (∀ k l sl, (s.queues.get p).replies = k :: l → s.slot p k = some sl →
      exec (.replyIn p w) s = .next (s.portOpened p (some ⟨.replyIn (some k), [w]⟩) sl.replyWords))
    ∧ (s.stream p = [] → exec (.dataIn p w) s = .next (s.portOpened p (some ⟨.dataIn none, [w]⟩) [0xFFFF]))
    ∧ (∀ b l, s.stream p = b :: l → exec (.dataIn p w) s =
        .next (s.portOpened p (some ⟨.dataIn (some b), [w]⟩) (s.bufferHeader b :: s.buffers[b].data)))
    ∧ exec (.statusIn p w false) s =
        .next (s.portOpened p (some ⟨.statusIn, [w]⟩) ((s.portOpened p none []).statusWords p))
    ∧ ∃ t, t = ((s.portOpened p none ((s.portOpened p none []).statusWords p)).onPort p fun x => { x with fetched := 16 })
        ∧ exec (.statusIn p w true) s = .next t ∧ ∀ i, t.fetch p i = 0xFFFF)
  ∧ (∀ (s : State) (p : Port) (e : Exchange) (ws : List Word) (i : Nat),
      (s.portOpened p (some e) ws).fetch p i = ws.getD i 0xFFFF)
  ∧ (∀ sl : Slot, sl.outcome ≠ none → sl.repliedBy sl.replyWords)
  ∧ (∀ (s : State) (p : Port), s.recordedBy p (s.statusWords p))
  ∧ (∀ (s : State) (p q : Port) (k : Fin 8) (sl : Slot) (b : Fin 4),
      s.buffers[b].owner = some (q, k) → s.slot q k = some sl → s.buffers[b].index ≤ 63 →
      field (s.bufferHeader b) 15 8 = sl.tag.toNat ∧ field (s.bufferHeader b) 7 6 = 0
        ∧ field (s.bufferHeader b) 5 0 = s.buffers[b].index)
  ∧ ∀ (s : State) (p : Port), s.leads p .fullForHost (s.stream p) ∧ s.leads p .filling (s.requests p)

/-- An opening word that names no exchange kind opens none and counts one short exchange; a word without the open
strobe changes nothing while no exchange is open, and is one more word moved while one is (assumption 10) (R153). -/
def Obligations.WordsThatOpenNothing : Prop :=
  ∀ (s : State) (p : Port) (w : Word),
    ((s.ports.get p).exchange = none → (s.ports.get p).presence ≠ .lost →
      exec (.openingWordNoKind p w) s = .next ((s.portOpened p none []).count p .shortExchanges))
    ∧ ((s.ports.get p).exchange = none → exec (.strayWord p w) s = .next s)
    ∧ ∀ k l, (s.ports.get p).exchange = some ⟨k, l⟩ →
      exec (.strayWord p w) s = .next (s.onPort p fun x => { x with exchange := some ⟨k, l ++ [w]⟩ })

/-- An opening word, or the loss of the port, that finds an exchange open does what it would do had that exchange been
abandoned before it: one short exchange is counted; a buffer that the exchange was delivering stays first in its stream,
but becomes FREE where its order has ended. The opening word of a LOST port makes it PRESENT, lets its WRITE in service
issue its requests again, and has the alarm line judged; beyond that it does what it does at a PRESENT port (R109, R153,
R154, R160, R161, R167). What a FREE buffer and one waiting for its data hold is assumption 40. -/
def Obligations.AnOpeningWordSettlesThePort : Prop :=
  (∀ (c : Instr) (s u : State) (p : Port) (e : Exchange), (s.ports.get p).exchange = some e →
    opens c = some p ∨ (c = .presenceTimerExpiry p ∧ (s.ports.get p).presence = .present
      ∧ ∃ d, (s.ports.get p).timer = some d ∧ (d - s.tick).toInt ≤ 0) →
    u = (s.onPort p fun x => { x with exchange := none, offered := [], fetched := 0 }).count p .shortExchanges →
    ((∀ b, e.kind ≠ .dataIn (some b)) → exec c s = exec c u)
    ∧ (∀ b, e.kind = .dataIn (some b) → s.buffers[b].owner ≠ none → exec c s = exec c u.testRequests)
    ∧ (∀ b, e.kind = .dataIn (some b) → s.buffers[b].owner = none →
        exec c s = exec c { u with buffers := u.buffers.set b ⟨.free, none, 0, []⟩ }.testRequests))
  ∧ ∀ (c : Instr) (s : State) (p : Port), opens c = some p → (s.ports.get p).exchange = none →
    (s.ports.get p).presence = .lost →
    exec c s = exec c (s.onPort p fun x => { x with presence := .present }).testRequests.judgeAlarm

/-- A completed DATA OUT is answered NOT WANTED where its port has no request, ACCEPTED where its header names an
order's lowest requested index, whose buffer it then fills, and OUT OF SEQUENCE otherwise; the acceptance word closes
the exchange and is kept, and nothing else changes. The host's next fetch returns the acceptance word, every further
one the empty word (R117, R154, R173). -/
def Obligations.ADataBlockIsJudged : Prop :=
  ∀ (s : State) (p : Port) (h : Word) (ws l : List Word), ws.length = 256 →
    (s.ports.get p).exchange = some ⟨.dataOut, l⟩ →
    let answered (t : State) (code : Word) : State :=
      t.onPort p fun x => { x with exchange := none, lastWord := code, offered := [code], fetched := 0 }
    let requested (k : Fin 8) (b : Fin 4) : Prop := s.buffers[b].owner = some (p, k) ∧ s.buffers[b].state = .filling
    (∀ t code i, (answered t code).fetch p i = if i = 0 then code else 0xFFFF)
    ∧ (s.requests p = [] → exec (.dataOut p h ws) s = .next (answered s 21))
    ∧ (∀ k sl b, s.queueLaw → s.slot p k = some sl → sl.tag.toNat = field h 15 8 → requested k b →
        s.buffers[b].index = field h 5 0 → (∀ b', requested k b' → b' ≠ b → s.buffers[b].index < s.buffers[b'].index) →
        exec (.dataOut p h ws) s = .next (answered
          { s with buffers := s.buffers.set b { s.buffers[b] with state := .fullForDisk, data := ws } } 0))
    ∧ (s.requests p ≠ [] →
        (∀ k sl b, s.slot p k = some sl → sl.tag.toNat = field h 15 8 → requested k b →
          s.buffers[b].index = field h 5 0 → ∃ b', requested k b' ∧ s.buffers[b'].index < s.buffers[b].index) →
        exec (.dataOut p h ws) s = .next (answered s 22))

/-- A completed REPLY IN frees the slot whose reply it delivered, which leaves both lists. A completed DATA IN frees the
buffer it delivered and lets the WRITE in service issue requests; a DRAINING order becomes DONE with its last buffer,
and its drain timer restarts with any other. After an empty word nothing changes but that the exchange is over. Every
further fetch returns the empty word (R50, R59, R108, R109, R114, R116, R154, R173). What a FREE buffer and one waiting
for its data hold is assumption 40. -/
def Obligations.WhatIsFetchedBecomesFree : Prop :=
  ∀ (s t : State) (p : Port) (l : List Word) (b : Fin 4),
    let closed (t : State) : State := t.onPort p fun x => { x with exchange := none, offered := [], fetched := 0 }
    (∀ u i, (closed u).fetch p i = 0xFFFF) ∧ (t = { s with buffers := s.buffers.set b ⟨.free, none, 0, []⟩ } →
    (∀ k, (s.ports.get p).exchange = some ⟨.replyIn (some k), l⟩ →
      exec (.replyInComplete p) s = .next (closed (s.onQueue p fun q =>
        { slots := q.slots.set k none, order := q.order.erase k, replies := q.replies.erase k })))
    ∧ ((s.ports.get p).exchange = some ⟨.replyIn none, l⟩ → exec (.replyInComplete p) s = .next (closed s))
    ∧ ((s.ports.get p).exchange = some ⟨.dataIn none, l⟩ → exec (.dataInComplete p) s = .next (closed s))
    ∧ ((s.ports.get p).exchange = some ⟨.dataIn (some b), l⟩ →
      (s.buffers[b].owner = none → exec (.dataInComplete p) s = .next (closed t.testRequests))
      ∧ ∀ q k sl, s.buffers[b].owner = some (q, k) → s.slot q k = some sl →
        (sl.state ≠ .draining → exec (.dataInComplete p) s = .next (closed t.testRequests))
        ∧ (sl.state = .draining → (∃ b', b' ≠ b ∧ s.buffers[b'].owner = some (q, k)) →
            exec (.dataInComplete p) s =
              .next (closed (t.modSlot q k fun x => { x with drainStart := some s.tick }).testRequests))
        ∧ (sl.state = .draining → (∀ b', b' ≠ b → s.buffers[b'].owner ≠ some (q, k)) →
            exec (.dataInComplete p) s =
              .next (closed ((t.modSlot q k fun x => { x with state := .done, drainStart := none }).onQueue q fun x =>
                { x with replies := x.replies ++ [k] }).testRequests))))

/-- Requests are issued for the WRITE in service alone, while its port is not LOST and it is neither verifying nor
withdrawn: in FREE buffers, for the lowest sectors not yet done and in none of its buffers, until it holds three, none
is FREE, or no sector is left; nothing else changes (R116, R161). That a buffer waiting for its data holds none is
assumption 40. -/
def Obligations.RequestsRunThreeSectorsAhead : Prop :=
  ∀ s t : State, t = s.testRequests →
    t = { s with buffers := t.buffers }
    ∧ (∀ b : Fin 4, s.buffers[b].state ≠ .free → t.buffers[b] = s.buffers[b])
    ∧ ((∀ p k sl, s.inService = some (p, k, sl) →
        sl.kind ≠ .write ∨ sl.verifyPhase = true ∨ sl.withdrawn = true ∨ (s.ports.get p).presence = .lost) → t = s)
    ∧ ∀ p k sl, s.bufferLaw → s.inService = some (p, k, sl) → sl.kind = .write → sl.verifyPhase = false →
      sl.withdrawn = false → (s.ports.get p).presence ≠ .lost →
      (∀ b : Fin 4, s.buffers[b].state = .free → t.buffers[b] = s.buffers[b] ∨ ∃ i,
        t.buffers[b] = ⟨.filling, some (p, k), i, []⟩ ∧ sl.sectorsDone ≤ i ∧ i < sl.n
        ∧ (∀ b' : Fin 4, t.buffers[b'].owner = some (p, k) → t.buffers[b'].index = i → b' = b)
        ∧ ∀ j, sl.sectorsDone ≤ j → j < i → ∃ b' : Fin 4, t.buffers[b'].owner = some (p, k) ∧ t.buffers[b'].index = j)
      ∧ ((t.owned p k).length ≤ 3 ∨ t = s)
      ∧ (3 ≤ (t.owned p k).length ∨ (∀ b : Fin 4, t.buffers[b].state ≠ .free)
        ∨ ∀ j, sl.sectorsDone ≤ j → j < sl.n → ∃ b : Fin 4, t.buffers[b].owner = some (p, k) ∧ t.buffers[b].index = j)

/-! ## Orders: acceptance -/

/-- A sound READ or CHECK of a region on which its port holds READ or WRITE is accepted: it enters a FREE slot as
QUEUED with its translated start and its settled due, its length bucket and its acceptance are counted, the scheduler
tests for a selection, and the answer is ACCEPTED. Its sectors follow one another from its start, by sector, head and
cylinder (R17, R18, R45, R46, R52, R55, R168). That the slot taken is the
lowest-numbered FREE one is the model's choice, assumption 6. -/
def Obligations.AReadOrCheckIsAccepted : Prop :=
  ∀ (s : State) (p : Port) (tag : Byte) (w1 w2 r b n : Word) (k : Fin 8) (e : PlanEntry),
    s.completes p 6 = true → s.slotFor p tag k → field w1 15 8 ≤ 1 → field w1 7 0 ≤ 1 →
    (s.drive.state = .ready ∨ s.drive.state = .degraded) → s.map.active.toList[r.toNat]? = some e → e.inUse = true →
    e.right p ≠ .none → 1 ≤ n.toNat → n.toNat ≤ 64 → b.toNat + n.toNat ≤ (e.last + 1 - e.first) * 80 →
    (field w1 15 8 = 1 → b.toNat % 20 + n.toNat ≤ 20) →
    ∀ kind : Kind, kind = .read ∨ kind = .check →
      let prompt := decide (field w1 15 8 = 1)
      let sl : Slot := { Slot.entered kind tag s.tick with
                           prompt := prompt, dropIfLate := prompt && decide (field w1 7 0 = 1),
                           start := some ⟨e.first + b.toNat / 80, b.toNat % 80 / 20, b.toNat % 20⟩,
                           count := some n.toNat,
                           dueTick := if prompt then some (tickAfter s.tick (10 * min (max w2.toNat 1) 2000)) else none }
      let u := (s.onPort p fun x => { x with armed := false }).count p (lengthBucket n.toNat)
      exec (kind.packet p tag [w1, w2, r, b, n]) s = .next ((u.slotTaken p k sl).schedule.judgeAlarm.acceptedWith p)
      ∧ ∀ i, let x := sl.sectorAddr i
        x.cyl * 80 + x.head * 20 + x.sector = e.first * 80 + b.toNat + i ∧ x.head ≤ 3 ∧ x.sector ≤ 19

/-- A sound WRITE of a region on which its port holds WRITE, on no protected cylinder and with the label VALID, is
accepted in the same way (R17, R18, R40, R45, R46, R52, R55, R168). That the slot taken is the lowest-numbered FREE
one is the model's choice, assumption 6. -/
def Obligations.AWriteIsAccepted : Prop :=
  ∀ (s : State) (p : Port) (tag : Byte) (w1 w2 r b n v : Word) (k : Fin 8) (e : PlanEntry),
    s.completes p 7 = true → s.slotFor p tag k → field w1 15 8 ≤ 1 → field w1 7 0 ≤ 1 → v.toNat ≤ 1 →
    (s.drive.state = .ready ∨ s.drive.state = .degraded) → s.map.active.toList[r.toNat]? = some e → e.inUse = true →
    e.right p = .write → 1 ≤ n.toNat → n.toNat ≤ 64 → b.toNat + n.toNat ≤ (e.last + 1 - e.first) * 80 →
    (field w1 15 8 = 1 ∨ v = 1 → b.toNat % 20 + n.toNat ≤ 20) →
    (∀ i, i < n.toNat → s.guard.protectsData (e.first + (b.toNat + i) / 80) = false) → s.label.state = .valid →
      let prompt := decide (field w1 15 8 = 1)
      let sl : Slot := { Slot.entered .write tag s.tick with
                           prompt := prompt, dropIfLate := prompt && decide (field w1 7 0 = 1), verify := decide (v = 1),
                           start := some ⟨e.first + b.toNat / 80, b.toNat % 80 / 20, b.toNat % 20⟩,
                           count := some n.toNat,
                           dueTick := if prompt then some (tickAfter s.tick (10 * min (max w2.toNat 1) 2000)) else none }
      let u := (s.onPort p fun x => { x with armed := false }).count p (lengthBucket n.toNat)
      exec (.write p tag [w1, w2, r, b, n, v]) s = .next ((u.slotTaken p k sl).schedule.judgeAlarm.acceptedWith p)

/-- Sound FORMAT TRACK, INITIALIZE LABEL, ASSIGN SPARE and TEST TRACK packets are accepted: each enters a FREE slot as
QUEUED and ROUTINE with its parameters, and the scheduler tests for a selection (R40, R45, R46, R53, R55). That each
takes the lowest-numbered FREE slot is the model's choice, assumption 6. -/
def Obligations.MaintenanceOrdersAreAccepted : Prop :=
  ∀ (s : State) (p : Port) (tag : Byte) (w1 w2 a b c d e : Word) (k : Fin 8), s.slotFor p tag k →
    field w1 15 8 ≤ 1 → field w1 7 0 ≤ 1 → (s.drive.state = .ready ∨ s.drive.state = .degraded) →
    let u := s.onPort p fun x => { x with armed := false }
    let queued (sl : Slot) : Host.Outcome State Fault Refusal :=
      .next ((u.slotTaken p k sl).schedule.judgeAlarm.acceptedWith p)
    (s.completes p 5 = true → (s.ports.get p).armed = true → a.toNat ≤ 386 → b.toNat ≤ 3 →
      (a.toNat ≤ 383 → s.map.active.rightOn p a.toNat = .write) → s.guard.protectsFormat a.toNat = false →
      exec (.formatTrack p tag [w1, w2, a, b]) s = queued { Slot.entered .formatTrack tag s.tick with
        start := some ⟨a.toNat, b.toNat, 0⟩, params := .format a.toNat b.toNat })
    ∧ (s.completes p 8 = true → (s.ports.get p).armed = true → s.guard.freeze = false →
      exec (.initializeLabel p tag [w1, w2, a, b, c, d, e]) s = queued { Slot.entered .initializeLabel tag s.tick with
        start := some ⟨386, 0, 0⟩, params := .label #v[a, b, c, d] e })
    ∧ (s.completes p 6 = true → (s.ports.get p).armed = true → a.toNat ≤ 384 → b.toNat ≤ 3 → c.toNat ≤ 19 →
      s.guard.freeze = false → s.label.state = .valid → s.label.table.length + s.label.retired.length < 80 →
      exec (.assignSpare p tag [w1, w2, a, b, c]) s = queued { Slot.entered .assignSpare tag s.tick with
        start := some ⟨a.toNat, b.toNat, c.toNat⟩, params := .assign ⟨a.toNat, b.toNat, c.toNat⟩ })
    ∧ (s.completes p 7 = true → a.toNat ≤ 3 → 1 ≤ c.toNat → c.toNat ≤ 255 → d.toNat ≤ 1 →
      exec (.testTrack p tag [w1, w2, a, b, c, d]) s = queued { Slot.entered .testTrack tag s.tick with
        start := some ⟨385, a.toNat, 0⟩, params := .test a.toNat b c.toNat (decide (d = 1)),
        maint := .test false 0 0 0 0 })

/-- Sound packets of the immediate orders that only read or set items of the controller are carried out at once: the
slot taken is DONE with outcome DONE and its reply body, and the items the order carries are set. The body of READ PLAN
holds the sixteen entries in the words of 12, section 12.3, and a source set is read from the bits of its word (R9, R19,
R22, R57, R159, R165, R166, R169). That each takes the lowest-numbered FREE slot is the model's choice, assumption 6. -/
def Obligations.ImmediateOrdersAreAnswered : Prop :=
  ∀ (s : State) (p : Port) (tag : Byte) (w1 w2 a b c : Word) (k : Fin 8), s.slotFor p tag k →
    field w1 15 8 ≤ 1 → field w1 7 0 ≤ 1 →
    let u := s.onPort p fun x => { x with armed := false }
    (∀ i x, sourcesByNumber[i]? = some x → (SourceSet.ofWord a).get x = a.getLsbD i) ∧
    let done (t : State) (kind : Kind) (body : List Word) : State :=
      t.slotAnswered p k { Slot.entered kind tag s.tick with state := .done, outcome := some .done, body := body }
    (s.completes p 4 = true → a.toNat ≤ 3 →
      let m : Plan := if a = 0 then s.map.active else if a = 1 then s.map.plan1 else if a = 2 then s.map.plan2 else .fixed
      let body := m.toList.flatMap PlanEntry.words
      exec (.readPlan p tag [w1, w2, a]) s = .next ((done u .readPlan body).acceptedWith p)
      ∧ body.length = 48 ∧ ∀ i e, m.toList[i]? = some e → e.first ≤ 65535 → e.last ≤ 65535 →
          e.inWords (wordAt body (3 * i)) (wordAt body (3 * i + 1)) (wordAt body (3 * i + 2))
            ∧ field (wordAt body (3 * i)) 14 4 = 0)
    ∧ (∀ mode, s.completes p 5 = true → (s.ports.get p).armed = true →
      [MapMode.direct, .lineStrobe, .orderStrobe][a.toNat]? = some mode → b.toNat ≤ 1 →
      exec (.setMapMode p tag [w1, w2, a, b]) s =
        .next ((done { u with map := { s.map with mode := mode, auto := decide (b = 1) } }
          .setMapMode []).acceptedWith p))
    ∧ (s.completes p 4 = true →
      let i := if a.toNat = 0 then 0 else if a.toNat < 50 then 50 else if 5000 < a.toNat then 5000
        else a.toNat - a.toNat % 50
      exec (.setSupervision p tag [w1, w2, a]) s = .next ((done (u.onPort p fun x =>
        { x with interval := i, timer := if i = 0 then none else some (tickAfter s.tick (10 * i)) })
          .setSupervision []).acceptedWith p))
    ∧ (∀ src, s.completes p 6 = true → b.toNat ≤ 1 → sourcesByNumber[c.toNat]? = some src →
      exec (.setAlarmLine p tag [w1, w2, a, b, c]) s = .next (((done { u with alarms := { s.alarms with
        masked := SourceSet.ofWord a, follow := decide (b = 1), source := src } }
          .setAlarmLine []).judgeAlarm).acceptedWith p))
    ∧ (s.completes p 5 = true → b.toNat ≤ 1 →
      ∃ x : Alarms, (∀ i, x.latched.get i = (s.alarms.latched.get i && !((SourceSet.ofWord a).get i && !s.condition i)))
        ∧ (∀ i, x.acked.get i = (if b = 1 then x.latched.get i || (s.alarms.acked.get i && !((SourceSet.ofWord a).get i
            && !s.condition i)) else s.alarms.acked.get i && !((SourceSet.ofWord a).get i && !s.condition i)))
        ∧ x = { s.alarms with latched := x.latched, acked := x.acked }
        ∧ exec (.clearAlarms p tag [w1, w2, a, b]) s =
            .next (((done { u with alarms := x } .clearAlarms []).judgeAlarm).acceptedWith p))
    ∧ (s.completes p 3 = true →
      exec (.captureStatistics p tag [w1, w2]) s = .next ((done { u with banks := s.banks.modify p fun x =>
        ⟨Vector.replicate 26 0, x.live, s.tick⟩ } .captureStatistics []).acceptedWith p)
      ∧ exec (.readStatistics p tag [w1, w2]) s = .next ((done u .readStatistics
          (twoWords (s.banks.get p).capture.toNat ++ (s.banks.get p).snap.toList.flatMap twoWords)).acceptedWith p)
      ∧ exec (.readLabel p tag [w1, w2]) s = .next ((done u .readLabel s.label.bodyWords).acceptedWith p)
      ∧ ((∀ e ∈ s.label.table, e.bad.cyl ≤ 383 ∧ e.bad.head ≤ 3 ∧ e.bad.sector ≤ 19 ∧ e.spare < 80) →
          (∀ i ∈ s.label.retired, i < 80) → s.label.table.length + s.label.retired.length ≤ 80 →
          s.label.toldBy s.label.bodyWords))

/-- SET GUARD, armed and sound, by the guard mode and the guard key line: accepted in OPEN, and in KEYED with the key
OFF, where it replaces the whole setting and mode; refused KEY HELD in KEYED with the key ON, and GUARD LOCKED in
LOCKED, with setting and mode as they were (R38, R39). That the slot taken is the lowest-numbered FREE one is the
model's choice, assumption 6. -/
def Obligations.SetGuardFollowsTheModeAndTheKey : Prop :=
  ∀ (s : State) (p : Port) (tag : Byte) (w1 w2 a b c d e : Word) (k : Fin 8) (span : Span) (mode : GuardMode),
    s.completes p 8 = true → s.slotFor p tag k → (s.ports.get p).armed = true → field w1 15 8 ≤ 1 → field w1 7 0 ≤ 1 →
    [Span.none, .sixteenth, .eighth, .quarter, .half, .all][a.toNat]? = some span →
    [GuardMode.opened, .keyed, .locked][e.toNat]? = some mode → b.toNat ≤ 1 → c.toNat ≤ 1 → d.toNat ≤ 1 →
    let i := Instr.setGuard p tag [w1, w2, a, b, c, d, e]
    let set : Guard := ⟨span, decide (b = 1), decide (c = 1), decide (d = 1), mode⟩
    let done : Slot := { Slot.entered .setGuard tag s.tick with state := .done, outcome := some .done }
    let u := s.onPort p fun x => { x with armed := false }
    (s.guard.mode = .opened ∨ (s.guard.mode = .keyed ∧ s.lines.guardKey = false) →
      exec i s = .next (({ u with guard := set }.slotAnswered p k done).acceptedWith p))
    ∧ (s.guard.mode = .keyed → s.lines.guardKey = true → exec i s = .next (s.refusedWith p .keyHeld))
    ∧ (s.guard.mode = .locked → exec i s = .next (s.refusedWith p .guardLocked))

/-- A sound WRITE PLAN of a staged plan replaces that plan by the result; a sound, armed direct edit in DIRECT mode
with the fixed-plan key OFF makes a map load of the result, with origin EDITED and no alarm, whose re-check runs
before the scheduler's test. Its entries are read from their words as 12, section 12.3, lays them out, and none is read
where a right is 3; the result holds them from their number on and every other entry as before, and is free of conflict
where no two in-use entries share a cylinder, which for such entries gives each cylinder the right of the one that
covers it (R20, R21, R28, R29, R31). That the slot taken is the lowest-numbered FREE one is the model's
choice, assumption 6, and that it is DONE before the scheduler tests is assumption 22. -/
def Obligations.APlanIsWritten : Prop :=
  (∀ (m : Nat) (ws : List Word), 3 * m ≤ ws.length →
    ((∃ i < m, field (wordAt ws (3 * i)) 3 2 = 3 ∨ field (wordAt ws (3 * i)) 1 0 = 3) → planEntriesOf m ws = none)
    ∧ ((∀ i < m, field (wordAt ws (3 * i)) 3 2 ≠ 3 ∧ field (wordAt ws (3 * i)) 1 0 ≠ 3) →
        ∃ es, planEntriesOf m ws = some es ∧ es.length = m ∧ ∀ i (e : PlanEntry), es[i]? = some e →
          e.inWords (wordAt ws (3 * i)) (wordAt ws (3 * i + 1)) (wordAt ws (3 * i + 2))))
  ∧ (∀ (x : Plan) (f : Nat) (es : List PlanEntry), f + es.length ≤ 16 → ∀ i : Fin 16,
      (∀ e, f ≤ i.val → es[i.val - f]? = some e → (x.putFrom f es)[i] = e)
      ∧ (i.val < f ∨ f + es.length ≤ i.val → (x.putFrom f es)[i] = x[i]))
  ∧ (∀ x : Plan, (∀ i : Fin 16, x[i].first ≤ x[i].last) →
      let covers (i : Fin 16) (c : Nat) : Prop := x[i].inUse = true ∧ x[i].first ≤ c ∧ c ≤ x[i].last
      (x.conflictFree = true ↔ ∀ i j c, covers i c → covers j c → i = j)
      ∧ ∀ p c, (x.conflictFree = true → ∀ i, covers i c → x.rightOn p c = x[i].right p)
        ∧ ((∀ i, ¬covers i c) → x.rightOn p c = .none))
  ∧ ∀ (s : State) (p : Port) (tag : Byte) (w1 w2 a f m : Word) (ws : List Word) (es : List PlanEntry) (k : Fin 8),
    s.completes p (ws.length + 6) = true → field w1 15 8 ≤ 1 → field w1 7 0 ≤ 1 → 1 ≤ m.toNat → m.toNat ≤ 16 →
    f.toNat + m.toNat ≤ 16 → ws.length = 3 * m.toNat → planEntriesOf m.toNat ws = some es →
    (∀ e ∈ es, e.first ≤ e.last ∧ e.last ≤ 383) → s.slotFor p tag k →
    let i := Instr.writePlan p tag (w1 :: w2 :: a :: f :: m :: ws)
    let done : Slot := { Slot.entered .writePlan tag s.tick with state := .done, outcome := some .done }
    let u := s.onPort p fun x => { x with armed := false }
    (a = 1 → (s.map.plan1.putFrom f.toNat es).conflictFree = true →
      exec i s = .next (({ u with map := { s.map with plan1 := s.map.plan1.putFrom f.toNat es } }.slotAnswered
        p k done).acceptedWith p))
    ∧ (a = 2 → (s.map.plan2.putFrom f.toNat es).conflictFree = true →
      exec i s = .next (({ u with map := { s.map with plan2 := s.map.plan2.putFrom f.toNat es } }.slotAnswered
        p k done).acceptedWith p))
    ∧ (a = 0 → (s.map.active.putFrom f.toNat es).conflictFree = true → (s.ports.get p).armed = true →
      s.map.mode = .direct → s.lines.fixedKey = false →
      ∀ v, v = (u.setActive (s.map.active.putFrom f.toNat es) .edited).recheck → ∀ j, v.slotFor p tag j →
        exec i s = .next ((v.slotAnswered p j done).schedule.judgeAlarm.acceptedWith p))

/-- A sound, armed LOAD PLAN in ORDER STROBE mode with the fixed-plan key OFF loads the named staged plan, unless it
is empty: a map load with its re-check, PLAN LOADED latched and one plan load counted in both banks (R24, R28, R29).
That the slot taken is the lowest-numbered FREE one is the model's choice, assumption 6, and that it is DONE before
the scheduler tests is assumption 22. -/
def Obligations.AStagedPlanIsLoaded : Prop :=
  ∀ (s : State) (p : Port) (tag : Byte) (w1 w2 a : Word) (m : Plan) (o : Origin),
    s.completes p 4 = true → (s.ports.get p).armed = true → field w1 15 8 ≤ 1 → field w1 7 0 ≤ 1 →
    s.map.mode = .orderStrobe → s.lines.fixedKey = false → m.isEmpty = false →
    (a = 1 ∧ m = s.map.plan1 ∧ o = .plan1) ∨ (a = 2 ∧ m = s.map.plan2 ∧ o = .plan2) →
    (∃ k, s.slotFor p tag k) →
    ∀ v, v = (((s.onPort p fun x => { x with armed := false }).setActive m o).recheck.latch .planLoaded).countBoth
        .planLoads → ∀ j, v.slotFor p tag j →
      exec (.loadPlan p tag [w1, w2, a]) s = .next ((v.slotAnswered p j
        { Slot.entered .loadPlan tag s.tick with state := .done, outcome := some .done }).schedule.judgeAlarm.acceptedWith
          p)

/-- RESTART DRIVE, armed and sound, in FAULTED with the over-temperature line inactive, enters SPINNING UP: the
spin-up timer starts, the speed measurement begins anew, and the fault reason is dropped (R130, R137). That the slot
taken is the lowest-numbered FREE one is the model's choice, assumption 6. -/
def Obligations.ARestartSpinsUp : Prop :=
  ∀ (s : State) (p : Port) (tag : Byte) (w1 w2 : Word) (k : Fin 8),
    s.completes p 3 = true → s.slotFor p tag k → (s.ports.get p).armed = true → field w1 15 8 ≤ 1 → field w1 7 0 ≤ 1 →
    s.drive.state = .faulted → s.lines.overTemp = false →
    let u : State := { s.onPort p (fun x => { x with armed := false }) with
                         pos := { s.pos with inBand := false, outRun := 0, inRun := 0, lastIndex := none, extra := false }
                         drive := { s.drive with state := .spinningUp, spinUp := some (tickAfter s.tick 600000),
                                                 attempts := 0, stopPending := false, fault := none, runDown := none } }
    exec (.restartDrive p tag [w1, w2]) s = .next ((u.slotAnswered p k
      { Slot.entered .restartDrive tag s.tick with state := .done, outcome := some .done }).judgeAlarm.acceptedWith p)

/-- A sound ARM sets its port's arm latch and takes no slot. A packet of an unknown kind is refused UNKNOWN KIND,
whatever its urgency and drop-if-late, or MALFORMED where it is too short for its header (R51, R56, R172). That one of
more than 54 words is refused UNKNOWN KIND too is deduced from R51 and R172, assumption 34. -/
def Obligations.ArmSetsTheLatchAndUnknownKindsAreRefused : Prop :=
  ∀ (s : State) (p : Port) (tag code : Byte) (w1 w2 : Word) (l : List Word),
    (field w1 15 8 ≤ 1 → field w1 7 0 ≤ 1 → s.completes p 3 = true →
      exec (.arm p tag [w1, w2]) s = .next ((s.onPort p fun x => { x with armed := true }).acceptedWith p))
    ∧ (s.completes p (l.length + 3) = true →
      exec (.unknownKind p code tag (w1 :: w2 :: l)) s = .next (s.refusedWith p .unknownKind))
    ∧ (l.length ≤ 1 → s.completes p (l.length + 1) = true →
      exec (.unknownKind p code tag l) s = .next (s.refusedWith p .malformed))

/-- A sound, armed CLEAR PORT frees every slot of its port but one IN SERVICE, which it withdraws; the freed slots'
buffers become FREE, a block being delivered excepted, as do the withdrawn order's but those holding a write's data; the
port is PRESENT with its timer reloaded; then requests and a selection are tested (R62, R109, R125). What a FREE buffer
and one waiting for its data hold is assumption 40. -/
def Obligations.ClearPortFreesThePort : Prop :=
  ∀ (s : State) (p : Port) (tag : Byte) (w1 w2 : Word), s.queueLaw → s.completes p 3 = true →
    (s.ports.get p).armed = true → field w1 15 8 ≤ 1 → field w1 7 0 ≤ 1 →
    ∃ u : State,
      exec (.clearPort p tag [w1, w2]) s = .next (u.testRequests.schedule.judgeAlarm.acceptedWith p)
      ∧ u = { s.onPort p (fun x => { x with
                armed := false, presence := .present,
                timer := if x.interval = 0 then none else some (tickAfter s.tick (10 * x.interval)) }) with
                queues := u.queues, buffers := u.buffers }
      ∧ u.queues.get p.other = s.queues.get p.other
      ∧ (u.queues.get p).replies = []
      ∧ (∀ k, u.slot p k = match s.slot p k with
          | some sl => if sl.state = .inService then some { sl with withdrawn := true } else none
          | none => none)
      ∧ (u.queues.get p).order = (s.queues.get p).order.filter (fun k => (u.slot p k).isSome)
      ∧ ∀ b : Fin 4, u.buffers[b] = match s.buffers[b].owner with
          | some (q, k) => match s.slot q k with
            | some sl =>
              if q = p ∧ (sl.state ≠ .inService ∨ s.buffers[b].state = .fullForHost
                ∨ s.buffers[b].state = .filling) then
                if s.delivering p = some b ∧ s.buffers[b].state = .fullForHost then
                  { s.buffers[b] with owner := none }
                else ⟨.free, none, 0, []⟩
              else s.buffers[b]
            | none => s.buffers[b]
          | none => s.buffers[b]

/-! ## Orders: refusal -/

/-- The general checks in their order. A packet too short for its header, with an urgency or a drop-if-late above 1, or
whose fields are not sound for its kind is refused MALFORMED; then QUEUE FULL without a FREE slot, TAG IN USE with its
tag on a live slot of its port, NOT ARMED where its kind needs the latch and it is clear. A refusal clears the latch, is
counted, is the acceptance word, by the codes of 12, section 12.4, and changes nothing else (R44, R51, R56, R155, R168,
R172). -/
def Obligations.TheGeneralChecksRefuseInOrder : Prop :=
  (∀ n r, refusalsByCode[n]? = some r → r.code.toNat = n + 1) ∧ (∀ r : Refuse, r ∈ refusalsByCode) ∧
  ∀ (s : State) (p : Port) (tag : Byte) (rest : List Word) (kind : Kind), s.completes p (rest.length + 1) = true →
    (rest.length ≤ 1 → exec (kind.packet p tag rest) s = .next (s.refusedWith p .malformed))
    ∧ ∀ w1 w2 fields, rest = w1 :: w2 :: fields →
      (1 < field w1 15 8 ∨ 1 < field w1 7 0 ∨ kind.sound fields = false →
        exec (kind.packet p tag rest) s = .next (s.refusedWith p .malformed))
      ∧ (field w1 15 8 ≤ 1 → field w1 7 0 ≤ 1 → kind.sound fields = true →
        (kind.slotless = false → (∀ k, s.slot p k ≠ none) →
          exec (kind.packet p tag rest) s = .next (s.refusedWith p .queueFull))
        ∧ (kind.slotless = false → (∃ k, s.slot p k = none) → (∃ k sl, s.slot p k = some sl ∧ sl.tag = tag) →
          exec (kind.packet p tag rest) s = .next (s.refusedWith p .tagInUse))
        ∧ (kind.slotless = true ∨ (∃ k, s.slotFor p tag k) → kind.arms fields = true → (s.ports.get p).armed = false →
          exec (kind.packet p tag rest) s = .next (s.refusedWith p .notArmed)))

/-- The own checks of READ, WRITE and CHECK in their order: NOT READY, BAD COUNT, NO REGION, NO ACCESS, OUT OF REGION,
TRACK SPAN for a PROMPT order or a verified WRITE, and for a WRITE then GUARDED and UNLABELLED (R17, R18, R40, R52). -/
def Obligations.DataOrdersAreRefusedInOrder : Prop :=
  ∀ (s : State) (p : Port) (tag : Byte) (w1 w2 r b n v : Word) (kind : Kind),
    kind = .read ∨ kind = .write ∨ kind = .check → (∃ k, s.slotFor p tag k) → field w1 15 8 ≤ 1 → field w1 7 0 ≤ 1 →
    v.toNat ≤ 1 → ∀ fields, fields = [r, b, n] ++ (if kind = .write then [v] else []) →
    s.completes p (fields.length + 3) = true →
    let refused (x : Refuse) : Prop :=
      exec (kind.packet p tag (w1 :: w2 :: fields)) s = .next (s.refusedWith p x)
    let ready : Prop := s.drive.state = .ready ∨ s.drive.state = .degraded
    let counted : Prop := 1 ≤ n.toNat ∧ n.toNat ≤ 64
    (¬ready → refused .notReady)
    ∧ (ready → ¬counted → refused .badCount)
    ∧ (ready → counted → (∀ e, s.map.active.toList[r.toNat]? = some e → e.inUse = false) → refused .noRegion)
    ∧ ∀ e, ready → counted → s.map.active.toList[r.toNat]? = some e → e.inUse = true →
      let held : Prop := if kind = .write then e.right p = .write else e.right p ≠ .none
      let fits : Prop := b.toNat + n.toNat ≤ (e.last + 1 - e.first) * 80
      let onTrack : Prop := field w1 15 8 = 1 ∨ (kind = .write ∧ v = 1) → b.toNat % 20 + n.toNat ≤ 20
      (¬held → refused .noAccess)
      ∧ (held → ¬fits → refused .outOfRegion)
      ∧ (held → fits → ¬onTrack → refused .trackSpan)
      ∧ (kind = .write → held → fits → onTrack →
          (∃ i, i < n.toNat ∧ s.guard.protectsData (e.first + (b.toNat + i) / 80) = true) → refused .guarded)
      ∧ (kind = .write → held → fits → onTrack →
          (∀ i, i < n.toNat → s.guard.protectsData (e.first + (b.toNat + i) / 80) = false) → s.label.state ≠ .valid →
          refused .unlabelled)

/-- The own checks of the maintenance orders, of WRITE PLAN and LOAD PLAN, and of RESTART DRIVE, each in its order (R18,
R20, R21, R24, R40, R53, R137). -/
def Obligations.OtherOrdersAreRefusedInOrder : Prop :=
  ∀ (s : State) (p : Port) (tag : Byte) (w1 w2 : Word) (fields : List Word), (∃ k, s.slotFor p tag k) →
    field w1 15 8 ≤ 1 → field w1 7 0 ≤ 1 → s.completes p (fields.length + 3) = true →
    let refused (kind : Kind) (x : Refuse) : Prop := kind.sound fields = true →
      (kind.arms fields = true → (s.ports.get p).armed = true) →
      exec (kind.packet p tag (w1 :: w2 :: fields)) s = .next (s.refusedWith p x)
    let n (i : Nat) : Nat := (wordAt fields i).toNat
    let ready : Prop := s.drive.state = .ready ∨ s.drive.state = .degraded
    (¬ready → refused .formatTrack .notReady ∧ refused .initializeLabel .notReady ∧ refused .assignSpare .notReady
      ∧ refused .testTrack .notReady)
    ∧ (ready → (386 < n 0 ∨ 3 < n 1 → refused .formatTrack .badAddress)
      ∧ (n 0 ≤ 383 → n 1 ≤ 3 → (s.map.active.toList.find? (·.covers (n 0))) = none → refused .formatTrack .noRegion)
      ∧ (∀ e, n 0 ≤ 383 → n 1 ≤ 3 → (s.map.active.toList.find? (·.covers (n 0))) = some e → e.right p ≠ .write →
          refused .formatTrack .noAccess)
      ∧ (n 0 ≤ 386 → n 1 ≤ 3 → (n 0 ≤ 383 → s.map.active.rightOn p (n 0) = .write) →
          s.guard.protectsFormat (n 0) = true → refused .formatTrack .guarded)
      ∧ (s.guard.freeze = true → refused .initializeLabel .guarded)
      ∧ (384 < n 0 ∨ 3 < n 1 ∨ 19 < n 2 → refused .assignSpare .badAddress)
      ∧ (n 0 ≤ 384 → n 1 ≤ 3 → n 2 ≤ 19 → (s.guard.freeze = true → refused .assignSpare .guarded)
        ∧ (s.guard.freeze = false → s.label.state ≠ .valid → refused .assignSpare .unlabelled)
        ∧ (s.guard.freeze = false → s.label.state = .valid → 80 ≤ s.label.table.length + s.label.retired.length →
            refused .assignSpare .sparesExhausted))
      ∧ (3 < n 0 → refused .testTrack .badAddress)
      ∧ (n 0 ≤ 3 → n 2 = 0 ∨ 255 < n 2 → refused .testTrack .badCount))
    ∧ (n 0 = 0 → s.map.mode ≠ .direct → refused .writePlan .wrongMode)
    ∧ (n 0 = 0 → s.map.mode = .direct → s.lines.fixedKey = true → refused .writePlan .keyHeld)
    ∧ (∀ es, (n 0 = 0 → s.map.mode = .direct ∧ s.lines.fixedKey = false) →
        planEntriesOf (n 2) (fields.drop 3) = some es →
        ((∃ e ∈ es, e.last < e.first ∨ 383 < e.last) → refused .writePlan .badAddress)
        ∧ ((∀ e ∈ es, e.first ≤ e.last ∧ e.last ≤ 383) →
            ((if n 0 = 0 then s.map.active else if n 0 = 1 then s.map.plan1 else s.map.plan2).putFrom (n 1)
              es).conflictFree = false → refused .writePlan .planConflict))
    ∧ (s.map.mode ≠ .orderStrobe → refused .loadPlan .wrongMode)
    ∧ (s.map.mode = .orderStrobe → s.lines.fixedKey = true → refused .loadPlan .keyHeld)
    ∧ (s.map.mode = .orderStrobe → s.lines.fixedKey = false →
        (if n 0 = 1 then s.map.plan1 else s.map.plan2).isEmpty = true → refused .loadPlan .planConflict)
    ∧ (s.drive.state ≠ .faulted → refused .restartDrive .notFaulted)
    ∧ (s.drive.state = .faulted → s.lines.overTemp = true → refused .restartDrive .notReady)

/-! ## The panel and the map -/

/-- Lines whose level alone counts take their level; a line that acts at its edge does nothing where it is active
already. The strobe's edge loads the plan that the select line names, in LINE STROBE mode with the fixed-plan key OFF
and the plan not empty; the key turned ON loads the fixed plan. Both are map loads with their re-check, latch PLAN
LOADED, count a plan load in both banks, and have the scheduler test and the line judged (R23, R25, R28, R38, R165).
That a command for a line that has its level already changes nothing is assumption 8. -/
def Obligations.ThePanelLinesActAtTheirEdges : Prop :=
  ∀ (s : State) (on : Bool),
    let loaded (u : State) (m : Plan) (o : Origin) : Host.Outcome State Fault Refusal :=
      .next (((u.setActive m o).recheck.latch .planLoaded).countBoth .planLoads).schedule.judgeAlarm
    let u : State := { s with lines := { s.lines with strobe := true } }
    exec (.planSelectLine on) s = .next { s with lines := { s.lines with select := on } }
    ∧ exec .fixedPlanKeyOff s = .next { s with lines := { s.lines with fixedKey := false } }
    ∧ exec (.guardKeyLine on) s = .next { s with lines := { s.lines with guardKey := on } }
    ∧ exec .changeoverStrobeInactive s = .next { s with lines := { s.lines with strobe := false } }
    ∧ exec .alarmAcknowledgeInactive s = .next { s with lines := { s.lines with ack := false } }
    ∧ (s.lines.strobe = true → exec .changeoverStrobe s = .next s)
    ∧ (s.lines.strobe = false → s.map.mode ≠ .lineStrobe ∨ s.lines.fixedKey = true → exec .changeoverStrobe s = .next u)
    ∧ (∀ m o, s.lines.strobe = false → s.map.mode = .lineStrobe → s.lines.fixedKey = false →
        (s.lines.select = false ∧ m = s.map.plan1 ∧ o = .plan1) ∨ (s.lines.select = true ∧ m = s.map.plan2
          ∧ o = .plan2) →
        exec .changeoverStrobe s = if m.isEmpty then .next u else loaded u m o)
    ∧ (s.lines.fixedKey = true → exec .fixedPlanKeyOn s = .next s)
    ∧ (s.lines.fixedKey = false →
        exec .fixedPlanKeyOn s = loaded { s with lines := { s.lines with fixedKey := true } } .fixed .fixed)

/-- The re-check of a map load ends MAP CHANGED, with the first failing sector as fault address, each QUEUED data order,
each SUSPENDED data order by its sectors still to do, and each QUEUED FORMAT TRACK of a data cylinder that the
active map does not grant its port; every other slot stays as it was, and nothing but queues and buffers changes. An
ended order joins its reply list, or leaves the order list where it was withdrawn, and lets go of its buffers, after
which the WRITE in service issues requests in them; every other buffer stays (R29, R49, R109, R116, R124). The order
of the replies of one re-check is left open by assumption 7, and what a FREE buffer and one waiting for its data hold
is assumption 40. -/
def Obligations.TheRecheckEndsTheOrdersThatFail : Prop :=
  ∀ s : State, s.queueLaw → ∀ v, v = s.recheck →
    v = { s with queues := v.queues, buffers := v.buffers } ∧ s.listsFollow v ∧ s.buffersFollow v
    ∧ ∀ p k, (s.slot p k = none → v.slot p k = none)
      ∧ ∀ sl, s.slot p k = some sl →
        let lo := if sl.state = .suspended then sl.sectorsDone else 0
        let granted (i : Nat) : Prop :=
          (s.map.active.rightOn p (sl.sectorAddr i).cyl).allows (decide (sl.kind = .write)) = true
        let judged : Prop := (sl.state = .queued ∨ sl.state = .suspended) ∧ sl.kind.isData = true
        let format : Prop := sl.state = .queued ∧ sl.kind = .formatTrack
        (judged → ∀ i, lo ≤ i → i < sl.n → ¬granted i → (∀ j, lo ≤ j → j < i → granted j) →
          v.slot p k = sl.ended .mapChanged (some (sl.sectorAddr i)))
        ∧ (judged → (∀ j, lo ≤ j → j < sl.n → granted j) → v.slot p k = some sl)
        ∧ (format → v.slot p k =
            if sl.startAddr.cyl ≤ 383 ∧ s.map.active.rightOn p sl.startAddr.cyl ≠ .write then
              sl.ended .mapChanged (some sl.startAddr)
            else some sl)
        ∧ (¬judged → ¬format → v.slot p k = some sl)

/-- The acknowledge line's edge makes every latched flag acknowledged, so that the line of SUMMARY mode no longer
flashes; the flash timer's expiry changes the flashing line's level and starts the timer for 2,500 ticks (R165, R167).
An expiry that is not due, and an acknowledge line that is active already, change nothing (assumptions 26, 8). -/
def Obligations.AcknowledgingStopsTheFlashing : Prop :=
  ∀ s : State,
    (s.lines.ack = true → exec .alarmAcknowledge s = .next s)
    ∧ (s.lines.ack = false → ∃ x : Alarms,
        exec .alarmAcknowledge s = .next { s with lines := { s.lines with ack := true }, alarms := x }
        ∧ x.latched = s.alarms.latched ∧ x.masked = s.alarms.masked ∧ x.follow = s.alarms.follow
        ∧ x.source = s.alarms.source ∧ (∀ i, x.acked.get i = (s.alarms.acked.get i || s.alarms.latched.get i))
        ∧ x.manner ≠ .flashing ∧ x.flash = none ∧ x.level = decide (x.manner = .steady)
        ∧ (s.alarms.follow = false →
            (x.manner = .steady ↔ ∃ i, s.alarms.latched.get i = true ∧ s.alarms.masked.get i = false)))
    ∧ ∀ d, s.alarms.flash = some d →
      (s.alarms.manner = .flashing → (d - s.tick).toInt ≤ 0 → exec .flashTimerExpiry s = .next
        { s with alarms := { s.alarms with level := !s.alarms.level, flash := some (tickAfter s.tick 2500) } })
      ∧ (s.alarms.manner ≠ .flashing ∨ 0 < (d - s.tick).toInt → exec .flashTimerExpiry s = .next s)

/-! ## Timers of ports and orders -/

/-- A PRESENT port whose timer has run out becomes LOST: its latch is cleared and its timer stopped, its requests are
withdrawn, and their buffers FREE; its QUEUED, SUSPENDED and DRAINING orders end PORT LOST, join its reply list and let
go of their buffers, every other buffer stays, its alarm latches, and auto-changeover loads plan 2 where its conditions
hold; then requests and a selection are tested and the line judged (R26, R116, R124, R125, R160). An expiry that is not
due changes nothing (assumption 26); the order of the replies is left open by assumption 7, and what a FREE buffer and
one waiting for its data hold is assumption 40. -/
def Obligations.ASilentPortIsLost : Prop :=
  ∀ (s : State) (p : Port), s.queueLaw →
    ((s.ports.get p).presence ≠ .present → exec (.presenceTimerExpiry p) s = .next s)
    ∧ (∀ d, (s.ports.get p).timer = some d → 0 < (d - s.tick).toInt → exec (.presenceTimerExpiry p) s = .next s)
    ∧ ∀ d, (s.ports.get p).presence = .present → (s.ports.get p).timer = some d → (d - s.tick).toInt ≤ 0 →
      (s.ports.get p).exchange = none →
      ∃ u v : State,
        u = { s.onPort p (fun x => { x with presence := .lost, timer := none, armed := false }) with
                buffers := u.buffers }
        ∧ (∀ b : Fin 4, u.buffers[b] = if s.buffers[b].owner.map (·.1) = some p ∧ s.buffers[b].state = .filling then
            ⟨.free, none, 0, []⟩
          else s.buffers[b])
        ∧ v = { u with queues := v.queues, buffers := v.buffers, alarms := (s.latch (lostSource p)).alarms }
        ∧ u.listsFollow v ∧ u.buffersFollow v
        ∧ (∀ q k, v.slot q k = match s.slot q k with
            | some sl =>
              if q = p ∧ (sl.state = .queued ∨ sl.state = .suspended
                ∨ sl.state = .draining) then sl.ended .portLost none
              else some sl
            | none => none)
        ∧ (∀ (b : Fin 4) k sl, s.slot p k = some sl → v.buffers[b].owner = some (p, k) →
            v.buffers[b].state ≠ .filling ∧ (sl.state = .inService ∨ sl.state = .done))
        ∧ exec (.presenceTimerExpiry p) s = .next
          (if s.map.auto = true ∧ s.lines.fixedKey = false ∧ s.map.mode ≠ .direct ∧ s.map.plan2.isEmpty = false then
              (((v.setActive s.map.plan2 .plan2).recheck.latch .planLoaded).countBoth .planLoads)
            else v).testRequests.schedule.judgeAlarm

/-- A QUEUED PROMPT order with drop-if-late ends EXPIRED at its due tick, and the scheduler tests; a DRAINING READ ends
STALLED 1,000 ticks after its drain timer last started. Both are counted, and the buffers of the slot become FREE. An
expiry at which no such order stands changes nothing (R49, R82, R114, R124; assumption 26). What a FREE buffer and one
waiting for its data hold is assumption 40. -/
def Obligations.LateOrdersExpireAndFullDrainsStall : Prop :=
  ∀ (s : State) (p : Port) (tag : Byte),
    ((∀ k sl, s.slot p k = some sl → sl.tag ≠ tag) →
      exec (.dueTickExpiry p tag) s = .next s ∧ exec (.drainLimit p tag) s = .next s)
    ∧ ∀ k sl, s.names p tag k sl →
      let late : Prop := sl.state = .queued ∧ sl.prompt = true ∧ sl.dropIfLate = true
        ∧ ∃ d, sl.dueTick = some d ∧ (d - s.tick).toInt ≤ 0
      let full : Prop := sl.state = .draining ∧ ∃ d, sl.drainStart = some d ∧ (tickAfter d 1000 - s.tick).toInt ≤ 0
      let given (u : State) (e : Ending) : Prop :=
        (∀ b : Fin 4, u.buffers[b] = if s.buffers[b].owner = some (p, k) then
            if s.delivering p = some b ∧ s.buffers[b].state = .fullForHost then { s.buffers[b] with owner := none }
            else ⟨.free, none, 0, []⟩
          else s.buffers[b])
        ∧ u = ({ s with buffers := u.buffers }.count p
            (if e = Ending.expired then Counter.expired else Counter.stalled)).onQueue p fun x =>
              if sl.withdrawn then ⟨x.slots.set k none, x.order.erase k, x.replies.erase k⟩
              else { x with slots := x.slots.set k (sl.ended e none), replies := x.replies ++ [k] }
      (late → ∃ u, given u .expired ∧ exec (.dueTickExpiry p tag) s = .next (u.testRequests.schedule.judgeAlarm))
      ∧ (¬late → exec (.dueTickExpiry p tag) s = .next s)
      ∧ (full → ∃ u, given u .stalled ∧ exec (.drainLimit p tag) s = .next u.testRequests)
      ∧ (¬full → exec (.drainLimit p tag) s = .next s)

/-! ## Pulses and sector passes -/

/-- An index sets the sector count and the count since the pulse to 0, makes the position valid and opens a revolution.
It closes the revolution that was open by its length: out of band below 196 ticks, above 204 or with an extra pulse, and
counted in the watched states where no extra pulse was. Three such in a row take the verdict to OUT OF BAND, eight
others in a row to IN BAND. A verdict that becomes IN BAND in SPINNING UP begins the first calibration attempt; one that
changes in READY or DEGRADED raises or clears the speed reason; an index in SPINNING DOWN restarts the run-down watch.
An index on the track of a TEST TRACK in service closes its revolution and is its boundary: the order stops, ends DONE
after its last read revolution with its seven-word body, is set aside, or begins its next revolution with sector 0 (R84,
R94, R95, R96, R131, R134, R140, R142, R151, R152). An index before the arrival, or at its tick, is no boundary
(assumption 35). A write under way at that boundary is complete, in the revolution it closes; a read under way goes on
with the order, and sector 0 is not begun (assumption 36); during any other pass an index begins no sector 0 (assumption
11). That the verdict is handed on before that boundary is assumption 7; a recalibration drops on-cylinder at its
command (assumption 13). What a FREE buffer and one waiting for its data hold is assumption 40. -/
def Obligations.AnIndexClosesARevolution : Prop :=
  ∀ (s : State) (h : HeaderReading), ∃ (t u w : State) (r : Positioner), exec (.indexPulse h) s = .next t
    ∧ t.pos.sc = 0 ∧ t.pos.t = 0 ∧ t.pos.valid = true ∧ t.pos.lastIndex = some s.tick ∧ t.pos.extra = false
    ∧ t.pos.revLength = r.revLength ∧ t.pos.outRun = r.outRun ∧ t.pos.inRun = r.inRun ∧ t.pos.inBand = r.inBand
    ∧ r = { s.pos with
              sc := 0, t := 0, valid := true, lastIndex := some s.tick, extra := false,
              revLength := r.revLength, outRun := r.outRun, inRun := r.inRun, inBand := r.inBand }
    ∧ (s.pos.lastIndex = none → r.revLength = s.pos.revLength ∧ r.outRun = s.pos.outRun ∧ r.inRun = s.pos.inRun
        ∧ r.inBand = s.pos.inBand)
    ∧ (∀ i, s.pos.lastIndex = some i →
        let len : Int := (s.tick - i).toInt
        let out : Prop := len < 196 ∨ 204 < len ∨ s.pos.extra = true
        r.revLength = len
        ∧ (out → r.outRun = min (s.pos.outRun + 1) 3 ∧ r.inRun = 0
            ∧ (r.inBand = true ↔ s.pos.inBand = true ∧ s.pos.outRun < 2))
        ∧ (¬out → r.outRun = 0 ∧ r.inRun = min (s.pos.inRun + 1) 8
            ∧ (r.inBand = true ↔ s.pos.inBand = true ∨ 7 ≤ s.pos.inRun)))
    ∧ (s.drive.state = .spinningUp → s.pos.inBand = false → t.pos.inBand = true →
        t.drive.state = .calibrating ∧ t.drive.attempts = 1 ∧ t.drive.spinUp = none ∧ t.pos.activity = .recalibrating
          ∧ t.pos.recalStart = s.tick ∧ t.pos.cyl = none)
    ∧ (s.drive.state = .spinningDown → s.inService = none → t.drive.runDown = some (tickAfter s.tick 400))
    -- what the index makes of the state before a sector begins
    ∧ (let serving : Prop := s.drive.state = .ready ∨ s.drive.state = .degraded
       let counted : Prop := (serving ∨ s.drive.state = .calibrating ∨ s.drive.state = .labelRead) ∧ s.pos.extra = false
         ∧ ∃ i, s.pos.lastIndex = some i ∧ ((s.tick - i).toInt < 196 ∨ 204 < (s.tick - i).toInt)
       (counted → u = { s.countBoth .outOfBand with pos := r }) ∧ (¬counted → u = { s with pos := r })
       ∧ (s.drive.state = .spinningDown
         → w = { u with drive := { s.drive with runDown := some (tickAfter s.tick 400) } })
       ∧ (s.drive.state = .spinningUp → s.pos.inBand = false → r.inBand = true → w = { u with
            lines := { s.lines with onCylinder := false }
            drive := { s.drive with state := .calibrating, spinUp := none, attempts := 1 }
            pos := { r with activity := .recalibrating, cyl := none, head := 0, recalStart := s.tick } }.countBoth
              .recalibrations)
       ∧ (serving → r.inBand ≠ s.pos.inBand →
            let v : State := { u with drive := { s.drive with
              speed := !r.inBand, state := if !r.inBand || s.drive.supply then .degraded else .ready } }
            let x := if s.drive.state = .ready ∧ v.drive.state = .degraded then v.latch .driveDegraded else v
            w = if v.drive.state = s.drive.state then x else x.schedule)
       ∧ (s.drive.state ≠ .spinningDown → r.inBand = s.pos.inBand
            ∨ (¬serving ∧ (s.drive.state ≠ .spinningUp ∨ r.inBand = false)) → w = u))
    ∧ w = s.indexWatch
    ∧ ((w.inService = none ∧ w.drive.state ≠ .labelRead) ∨ (w.pos.activity ≠ .arrived ∧ w.pos.activity ≠ .confirmed)
        ∨ (w.tick - w.pos.arrivalTick).toInt ≤ 0
        ∨ (w.pass ≠ none ∧ ∀ g, w.progress = some g → g.stage.isTest = false) → t = w.judgeAlarm)
    -- the boundary of a TEST TRACK
    ∧ ∀ p k sl g hd seed window first done revs fails mism failing, s.serviceLaw → s.inService = some (p, k, sl) →
      s.progress = some g → s.drive.state = .ready ∨ s.drive.state = .degraded → s.pos.activity = .confirmed →
      0 < (s.tick - s.pos.arrivalTick).toInt → g.stage = .testWaiting ∨ g.stage = .testWriting
        ∨ g.stage = .testReading →
      sl.kind = .testTrack → sl.params = .test hd seed window first → sl.maint = .test done revs fails mism failing →
      (∀ q, s.pass = some q → q.kind = .testWrite ∨ q.kind = .testRead) →
      let writing (q : Pass) : Prop := s.pass = some q ∧ q.kind = .testWrite
      -- `v`, `n` and `m`: the state, the sectors done and the write failures once a write under way is complete
      ∀ (v : State) (n m : Nat),
      ((∀ q, ¬writing q) → v = w ∧ n = sl.sectorsDone ∧ m = fails) →
      (∀ q, writing q → q.verdict ≠ .matching → v = { w with pass := none } ∧ n = sl.sectorsDone ∧ m = fails + 1) →
      (∀ q, writing q → q.verdict = .matching → n = sl.sectorsDone + 1 ∧ m = fails ∧ v = { w with
        pass := none
        disk := Cartridge.put s.disk q.addr.linear { Cartridge.get s.disk q.addr.linear with
          data := q.words, dCheck := crc q.words } }) →
      let written : Bool := done || decide (g.stage = .testWriting)
      let read : Nat := if g.stage = .testReading then revs + 1 else revs
      let sl' : Slot := { sl with sectorsDone := n, maint := .test written read m mism failing }
      let x : State := v.modSlot p k fun _ => sl'
      let o := exec (.indexPulse h) s
      x.stops p k sl' o
      ∧ (sl.withdrawn = false → (s.ports.get p).presence ≠ .lost →
        (written = true → window ≤ read → x.ends p k { sl' with
          body := [if first then 1 else 0, if seed = 0 then 1 else seed, BitVec.ofNat 16 window, BitVec.ofNat 16 read,
                   BitVec.ofNat 16 m, BitVec.ofNat 16 mism, BitVec.ofNat 16 failing] } .done none o)
        ∧ (written = false ∨ read < window → State.mayYield settleLimit x p k sl' 0 o
          (let y : State := { x with
             progress := some { g with stage := if written then .testReading else .testWriting, failed := 0 } }
           let a : Addr := { sl.startAddr with sector := 0 }
           let begins (q : PassKind) (ws : List Word) : Prop :=
             o = .next { y with pass := some ⟨q, a, h.verdict v.disk a, ws⟩ }.judgeAlarm
           (v.pass ≠ none → o = .next y.judgeAlarm)
           ∧ (v.pass = none → written = true → begins .testRead [])
           ∧ (v.pass = none → written = false → s.lines.supply = true → begins .testWrite (patternSector seed 0))
           ∧ (v.pass = none → written = false → s.lines.supply = false → y.ends p k sl' .writeInhibited (some a) o))))

/-- A sector pulse is ignored before the position is valid. Below sector 19 it raises the sector count, and that is all
where no sector can be taken; at sector 19 it is an extra pulse, counted in both banks when it is the first of its
revolution in a watched drive state (R94, R95, R96). That a pulse during a pass counts and begins no sector is the
model's choice, assumption 11. -/
def Obligations.ASectorPulseCounts : Prop :=
  ∀ (s : State) (h : HeaderReading),
    (s.pos.valid = false → exec (.sectorPulse h) s = .next s)
    ∧ (s.pos.valid = true → 19 ≤ s.pos.sc →
        let u : State := { s with pos := { s.pos with t := 0, extra := true } }
        exec (.sectorPulse h) s = .next (if s.pos.extra = false ∧ (s.drive.state = .calibrating
          ∨ s.drive.state = .labelRead ∨ s.drive.state = .ready ∨ s.drive.state = .degraded) then u.countBoth .outOfBand
          else u))
    ∧ (s.pos.valid = true → s.pos.sc < 19 →
        (∃ t, exec (.sectorPulse h) s = .next t ∧ t.pos.sc = s.pos.sc + 1 ∧ t.pos.t = 0)
        ∧ (s.pass ≠ none ∨ (s.pos.activity ≠ .arrived ∧ s.pos.activity ≠ .confirmed)
            ∨ (s.tick - s.pos.arrivalTick).toInt ≤ 0 ∨ (s.inService = none ∧ s.drive.state ≠ .labelRead) →
          exec (.sectorPulse h) s = .next { s with pos := { s.pos with sc := s.pos.sc + 1, t := 0 } }.judgeAlarm))

/-- The pulse at which a sector begins while a data order is in service on its target: an index for sector 0, a sector
pulse for the others. A sector that is not the next one is let by. At the next one a READ takes it into the lowest FREE
buffer, or slips with no FREE buffer or three of its own; a CHECK and a verify read take it; a WRITE takes it from the
buffer that holds it, or slips without one. Protected, ungranted or without the write supply, the order ends there. A
pass taken ends the row of slips; a matching header confirms the positioning, a mismatched one is a seek error, the
third of which faults the drive SEEK (R95, R96, R101, R102, R103, R110, R112, R115, R122, R136). That a pass taken while
failed passes stand above 0 is a re-read, also after a seek error, is assumption 12, and that a recalibration drops
on-cylinder at its command assumption 13. What a FREE buffer and one waiting for its data hold is assumption 40. -/
def Obligations.ASectorOfADataOrderBegins : Prop :=
  ∀ (s u : State) (p : Port) (k : Fin 8) (sl : Slot) (g : Progress) (a : Addr) (n : Nat) (h : HeaderReading) (c : Instr),
    s.serviceLaw → s.queueLaw → s.onTarget → s.drive.state ≠ .labelRead → s.inService = some (p, k, sl) →
    s.progress = some g → g.stage = .data → sl.kind = .read ∨ sl.kind = .write ∨ sl.kind = .check →
    a = (match g.dest with
      | some i => ⟨384, i / 20, i % 20⟩
      | none => sl.sectorAddr g.next) →
    s.begins u n h c →
    let right : Right := s.map.active.rightOn p (sl.sectorAddr g.next).cyl
    let taken (x : PassKind) (ws : List Word) : Prop := u.takes p k g x a ws h (exec c s)
    let slips : Prop := exec c s =
      .next { (u.modSlot p k fun y => { y with slips := min (y.slips + 1) 65535, consSlips := min (y.consSlips + 1) 8 }).count
        p .slips with pass := some ⟨.slip, a, .unreadable, []⟩ }.judgeAlarm
    let ends (e : Ending) : Prop := u.ends p k sl e (some a) (exec c s)
    (a.sector ≠ n → exec c s = .next u.judgeAlarm)
    ∧ (a.sector = n →
      (sl.kind = .read → right ≠ .none → (s.owned p k).length < 3 → ∀ b : Fin 4, s.buffers[b].state = .free →
        (∀ b', b' < b → s.buffers[b'].state ≠ .free) → taken (.read b) [])
      ∧ (sl.kind = .read → (∀ b : Fin 4, s.buffers[b].state ≠ .free) ∨ 3 ≤ (s.owned p k).length → slips)
      ∧ (sl.kind = .read → right = .none → (s.owned p k).length < 3 → (∃ b : Fin 4, s.buffers[b].state = .free) →
          ends .mapChanged)
      ∧ (sl.kind = .check → (right ≠ .none → taken .check []) ∧ (right = .none → ends .mapChanged))
      ∧ (sl.kind = .write → sl.verifyPhase = true →
          (right = .write → taken .verify []) ∧ (right ≠ .write → ends .mapChanged))
      ∧ (sl.kind = .write → sl.verifyPhase = false →
          let holds (b : Fin 4) : Prop := s.buffers[b].owner = some (p, k) ∧ s.buffers[b].state = .fullForDisk
            ∧ s.buffers[b].index = g.next
          let barred : Prop := s.guard.protectsData (sl.sectorAddr g.next).cyl = true
          ((∀ b, ¬holds b) → slips)
          ∧ ∀ b, holds b → (∀ b', b' < b → ¬holds b') →
            (barred → ends .guarded)
            ∧ (¬barred → right ≠ .write → ends .mapChanged)
            ∧ (¬barred → right = .write → s.lines.supply = false → ends .writeInhibited)
            ∧ (¬barred → right = .write → s.lines.supply = true → taken (.write b) s.buffers[b].data)))

/-- The good end of a pass over a sector of a data order that has another sector to do: a READ's buffer is FULL FOR HOST
and joins the stream, a WRITE's sector is on the disk and its buffer FREE, and the sector is counted. At the boundary
that follows, a withdrawn order and one whose port is LOST stop, one whose next sector is no longer granted ends MAP
CHANGED, and one that a PROMPT order cannot wait for is set aside. Any other turns to its next sector: on the track of
the heads it follows, on another it is gone to, and a substituted one is an excursion to its spare; an arrival taken at
once is a boundary itself (R12, R63, R84 to R88, R98, R110, R111, R113, R118, R121, R123). A withdrawn READ's buffer is
not filled, but its sector is counted (assumption 16); a seek drops on-cylinder at its issue, and its head is selected
there (assumptions 13, 24); MAP CHANGED names the sector's own address, also a listed one's (assumption 39). What a FREE
buffer and one waiting for its data hold is assumption 40. -/
def Obligations.AGoodPassGoesOnToTheNextSector : Prop :=
  ∀ (s : State) (p : Port) (k : Fin 8) (sl : Slot) (g : Progress) (q : Pass) (d : DataReading), s.serviceLaw →
    s.pass = some q → s.inService = some (p, k, sl) → s.progress = some g →
    sl.kind = .read ∨ sl.kind = .write ∨ sl.kind = .check → q.verdict = .matching → g.next + 1 < sl.n →
    let o := exec (.sectorPassEnd d) s
    let u : State := { s with pass := none, progress := some { g with next := g.next + 1, failed := 0 } }
    let sl' : Slot := { sl with sectorsDone := sl.sectorsDone + 1, consSlips := 0 }
    let moved (x : State) (c : Counter) : State := (x.modSlot p k fun _ => sl').count p c
    let goesOn (m : State) (y : Slot) : Prop :=
      m.atBoundary p k y (10 * (q.addr.sector + 1) % 200) (g.next + 1) o (m.goesOn p k y (g.next + 1) o)
    (∀ b, q.kind = .read b → d.passes s.disk q.addr = true → goesOn (moved (if sl.withdrawn then u else { u with
        buffers := s.buffers.set b ⟨.fullForHost, some (p, k), g.next, d.words s.disk q.addr⟩ }) .sectorsRead) sl')
    ∧ (q.kind = .check → d.passes s.disk q.addr = true → goesOn (moved u .sectorsRead) sl')
    ∧ (∀ b, q.kind = .write b → goesOn (moved { u with
        buffers := s.buffers.set b ⟨.free, none, 0, []⟩
        disk := Cartridge.put s.disk q.addr.linear { Cartridge.get s.disk q.addr.linear with
          data := q.words, dCheck := crc q.words } } .sectorsWritten).testRequests sl')
    ∧ (q.kind = .verify → d.passes s.disk q.addr = true
      → goesOn { u with progress := some { g with next := g.next + 1 } } sl)

/-- The good end of the pass over the last sector of a data order. Withdrawn, or with its port LOST, the order stops;
else a CHECK, a WRITE without verify and a verify pass end DONE, and a READ begins draining with its blocks still to be
taken. A WRITE with verify begins its verify phase instead, and turns to its first sector as to any next sector. What
has left the actuator lets a pending stop or a selection follow (R50, R63, R69, R111, R113, R118, R121, R138). A
withdrawn READ's sector is counted (assumption 16); a seek drops on-cylinder at its issue, and its head is selected
there (assumptions 13, 24); MAP CHANGED names the sector's own address, also a listed one's (assumption 39). What a FREE
buffer and one waiting for its data hold is assumption 40. -/
def Obligations.TheLastSectorEndsTheOrder : Prop :=
  ∀ (s u : State) (p : Port) (k : Fin 8) (sl sl' : Slot) (g : Progress) (q : Pass) (d : DataReading), s.serviceLaw →
    s.pass = some q → s.inService = some (p, k, sl) → s.progress = some g → q.verdict = .matching →
    g.next + 1 = sl.n → u = { s with pass := none } →
    sl' = { sl with sectorsDone := sl.sectorsDone + 1, consSlips := 0 } →
    let o := exec (.sectorPassEnd d) s
    let free : Prop := sl.withdrawn = false ∧ (s.ports.get p).presence ≠ .lost
    let written (b : Fin 4) : State := { u with
      buffers := s.buffers.set b ⟨.free, none, 0, []⟩
      disk := Cartridge.put s.disk q.addr.linear { Cartridge.get s.disk q.addr.linear with
        data := q.words, dCheck := crc q.words } }.count p .sectorsWritten
    (∀ b, q.kind = .read b → sl.kind = .read → d.passes s.disk q.addr = true →
      let x := (if sl.withdrawn then u else { u with
        buffers := s.buffers.set b ⟨.fullForHost, some (p, k), g.next, d.words s.disk q.addr⟩ }).count p .sectorsRead
      x.stops p k sl' o ∧ (free → ∃ t, x.beginsDraining t p k sl' .done none ∧ o = State.answers (t, .released)))
    ∧ (q.kind = .check → sl.kind = .check → d.passes s.disk q.addr = true →
        (u.count p .sectorsRead).stops p k sl' o ∧ (free → (u.count p .sectorsRead).ends p k sl' .done none o))
    ∧ (∀ b, q.kind = .write b → sl.kind = .write → sl.verify = false → sl.sectorsDone = g.next →
        (written b).stops p k sl' o ∧ (free → (written b).ends p k sl' .done none o))
    ∧ (q.kind = .verify → sl.kind = .write → d.passes s.disk q.addr = true →
        u.stops p k sl o ∧ (free → u.ends p k sl .done none o))
    ∧ (∀ b, q.kind = .write b → sl.kind = .write → sl.verify = true →
        let y : Slot := { sl' with verifyPhase := true }
        let x : State := { ((written b).modSlot p k fun _ => sl').testRequests.modSlot p k (fun _ => y) with
          progress := some { g with next := 0, failed := 0 } }
        x.atBoundary p k y (10 * (q.addr.sector + 1) % 200) 0 o (x.goesOn p k y 0 o))

/-- A pass of a READ or CHECK that is unreadable or fails its data check, and a write pass whose header is unreadable,
leave the sector to be taken again, up to the fifth failed pass of one sector, which ends the order READ FAULT, with
SECTOR LOST latched and counted in both banks, or WRITE FAULT. A failed verify read ends the order at once. The eighth
slip in a row ends it STALLED. Each is a boundary, at which first a withdrawn order and one whose port is LOST stop, and
at which one that goes on can end MAP CHANGED or be set aside (R50, R63, R84 to R88, R111, R115, R119, R121, R122). MAP
CHANGED names the sector's own address, also a listed one's (assumption 39). What a FREE buffer and one waiting for its
data hold is assumption 40. -/
def Obligations.FailedPassesAreTriedFiveTimes : Prop :=
  ∀ (s u v : State) (p : Port) (k : Fin 8) (sl : Slot) (g : Progress) (q : Pass) (d : DataReading), s.serviceLaw →
    s.pass = some q → s.inService = some (p, k, sl) → s.progress = some g →
    u = { s with pass := none, progress := some { g with failed := g.failed + 1 } } → v = { s with pass := none } →
    let o := exec (.sectorPassEnd d) s
    let free : Prop := sl.withdrawn = false ∧ (s.ports.get p).presence ≠ .lost
    let goesOn (x : State) : Prop :=
      x.atBoundary p k sl (10 * (q.addr.sector + 1) % 200) g.next o (o = .next x.judgeAlarm)
    let bad : Prop := q.verdict = .unreadable ∨ (q.verdict = .matching ∧ d.passes s.disk q.addr = false)
    let ends (x : State) (e : Ending) (fault : Option Addr) : Prop :=
      x.stops p k sl o ∧ (free → x.ends p k sl e fault o)
    let lost : State := (u.latch .sectorLost).countBoth .sectorsLost
    let reads : Prop := (∃ b, q.kind = .read b) ∨ q.kind = .check
    (reads → bad → g.failed < 4 → g.next < sl.n → goesOn u)
    ∧ (reads → bad → 4 ≤ g.failed → u.stops p k sl o
      ∧ (free → (sl.kind = .check ∨ s.ownedIn p k .fullForHost = [] → lost.ends p k sl .readFault (some q.addr) o)
        ∧ (sl.kind = .read → s.ownedIn p k .fullForHost ≠ [] →
            ∃ t, lost.beginsDraining t p k sl .readFault (some q.addr) ∧ o = State.answers (t, .released))))
    ∧ (∀ b, q.kind = .write b → q.verdict = .unreadable →
        (g.failed < 4 → g.next < sl.n → goesOn u) ∧ (4 ≤ g.failed → ends u .writeFault (some q.addr)))
    ∧ (q.kind = .verify → bad → ends v .verifyFault (some q.addr))
    ∧ (q.kind = .slip → (8 ≤ sl.consSlips → ends v .stalled none) ∧ (sl.consSlips < 8 → g.next < sl.n → goesOn v))

/-- The passes of the maintenance orders. A sector start: FORMAT TRACK writes its next sector, its first of the label's
track leaving the label ABSENT, unless it is guarded, no longer granted or without the write supply; a zeroing pass and
a label write start unless guard freeze or the supply forbids them, and a read-back starts; TEST TRACK moves every
sector of a revolution. A pass end: a formatted sector has its own header and the pass's words, the twentieth ending the
order DONE; TEST TRACK counts a write failure at a header that does not match, or writes its words; a read revolution
counts the words that differ and the failing sectors, and where it stops at the first ends the order DONE with its stop
record; a zeroed spare leads to the seek to the label, a written label to its read-back, and one with an unreadable
header is tried again, the fifth failing pass ending the order WRITE FAULT. Its boundaries are those of R142 (R14, R42,
R84, R95, R122, R142, R143, R145, R148, R151, R152). A seek drops on-cylinder at its issue, and its head is selected
there (assumptions 13, 24). A pass taken while failed passes stand above 0 is a re-read, also after a seek error
(assumption 12), and the spaces of an ABSENT label's name are the code 20h (assumption 33). What a FREE buffer and one
waiting for its data hold is assumption 40. -/
def Obligations.MaintenancePassesWriteTheirSectors : Prop :=
  ∀ (s u : State) (p : Port) (k : Fin 8) (sl : Slot) (g : Progress), s.serviceLaw → s.queueLaw →
    s.inService = some (p, k, sl) → s.progress = some g →
    -- sector starts
    (∀ n h c, s.onTarget → s.drive.state ≠ .labelRead → s.begins u n h c →
      let o := exec c s
      let a : Addr := { sl.startAddr with sector := n }
      let ends (e : Ending) (x : Addr) : Prop := u.ends p k sl e (some x) o
      let frozen (x : Addr) (go : Prop) : Prop := (s.guard.freeze = true → ends .guarded x)
        ∧ (s.guard.freeze = false → s.lines.supply = false → ends .writeInhibited x)
        ∧ (s.guard.freeze = false → s.lines.supply = true → go)
      let guarded : Prop := if a.cyl ≤ 383 then s.guard.protectsData a.cyl = true
        else (a.cyl = 384 ∨ a.cyl = 386) ∧ s.guard.freeze = true
      let barred : Prop := sl.kind = .formatTrack ∧ a.cyl ≤ 383 ∧ s.map.active.rightOn p a.cyl ≠ .write
      let cleared : State := { u with
        label := ⟨.absent, Vector.replicate 4 0x2020, 0, 0, [], []⟩
        alarms := if u.label.state = .valid ∧ u.drive.state.serving = true then (u.latch .labelNotValid).alarms
          else u.alarms }
      (g.stage = .format → (sl.sectorsDone ≠ n → o = .next u.judgeAlarm)
        ∧ (sl.sectorsDone = n → (guarded → ends .guarded a) ∧ (¬guarded → barred → ends .mapChanged a)
          ∧ (¬guarded → ¬barred → s.lines.supply = false → ends .writeInhibited a)
          ∧ (¬guarded → ¬barred → s.lines.supply = true → o = .next (({ if a = ⟨386, 0, 0⟩ then cleared else u with
              pass := some ⟨.format, a, .matching, List.replicate 256 0⟩ } : State).judgeAlarm))))
      ∧ (∀ d i r, g.stage = .zeroing → sl.maint = .assign d (some i) r → (i % 20 ≠ n → o = .next u.judgeAlarm)
        ∧ (i % 20 = n → frozen ⟨384, i / 20, n⟩ (u.takes p k g .zero ⟨384, i / 20, n⟩ (List.replicate 256 0) h o)))
      ∧ (g.stage = .labelWrite ∨ g.stage = .readBack → n ≠ 0 → o = .next u.judgeAlarm)
      ∧ (g.stage = .labelWrite → n = 0 → frozen ⟨386, 0, 0⟩
          (u.takes p k g .labelWrite ⟨386, 0, 0⟩ (labelWords (sl.labelToBe u.label)) h o))
      ∧ (g.stage = .readBack → n = 0 → u.takes p k g .readBack ⟨386, 0, 0⟩ [] h o)
      ∧ ∀ hd seed window first, n ≠ 0 → sl.params = .test hd seed window first →
        let begins (x : PassKind) (ws : List Word) : Prop :=
          o = .next { u with pass := some ⟨x, a, h.verdict s.disk a, ws⟩ }.judgeAlarm
        (g.stage = .testWaiting → o = .next u.judgeAlarm) ∧ (g.stage = .testReading → begins .testRead [])
        ∧ (g.stage = .testWriting → (s.lines.supply = true → begins .testWrite (patternSector seed n))
          ∧ (s.lines.supply = false → ends .writeInhibited a)))
    -- pass ends
    ∧ ∀ q d v, s.pass = some q → u = { s with pass := none } →
      v = { u with progress := some { g with failed := g.failed + 1 } } → g.stage ≠ .readBack →
      let o := exec (.sectorPassEnd d) s
      let pos : Nat := 10 * (q.addr.sector + 1) % 200
      let ends (x : State) (y : Slot) (body : List Word) (e : Ending) (fault : Option Addr) : Prop := x.stops p k y o
        ∧ (sl.withdrawn = false → (s.ports.get p).presence ≠ .lost → x.ends p k { y with body := body } e fault o)
      let goesOn (x : State) (y : Slot) : Prop := x.atMaintenance p k y pos o (o = .next x.judgeAlarm)
      let fails : Prop := q.verdict = .unreadable →
        (g.failed < 4 → goesOn v sl) ∧ (4 ≤ g.failed → ends v sl sl.body .writeFault (some q.addr))
      let written : State := { u with
        disk := Cartridge.put s.disk q.addr.linear { Cartridge.get s.disk q.addr.linear with
          data := q.words, dCheck := crc q.words } }
      (q.kind = .format → sl.kind = .formatTrack →
        let header : List Word := [wordOf q.addr.cyl, wordOf q.addr.head, wordOf q.addr.sector]
        let y : Slot := { sl with sectorsDone := sl.sectorsDone + 1 }
        let x : State := { u with
          disk := Cartridge.put s.disk q.addr.linear
            ⟨wordOf q.addr.cyl, wordOf q.addr.head, wordOf q.addr.sector, crc header, q.words, crc q.words⟩ }.modSlot p k
              fun _ => y
        (sl.sectorsDone < 19 → goesOn x y) ∧ (19 ≤ sl.sectorsDone → ends x y sl.body .done none))
      ∧ (∀ hd seed window first w r f m e, sl.params = .test hd seed window first → sl.maint = .test w r f m e →
        (q.kind = .testWrite → q.verdict = .matching →
          o = .next (written.modSlot p k fun _ => { sl with sectorsDone := sl.sectorsDone + 1 }).judgeAlarm)
        ∧ (q.kind = .testWrite → q.verdict ≠ .matching →
          o = .next (u.modSlot p k fun _ => { sl with maint := .test w r (f + 1) m e }).judgeAlarm)
        ∧ (q.kind = .testRead → sl.kind = .testTrack → (d.words s.disk q.addr).length = 256 →
          let differing : List Nat := (List.range 256).filter fun i =>
            decide (wordAt (d.words s.disk q.addr) i ≠ wordAt (patternSector seed q.addr.sector) i)
          let bad : Bool := !d.passes s.disk q.addr
          let read : Bool := decide (q.verdict = .matching)
          let m' : Nat := if read then min (m + differing.length) 65535 else m
          let e' : Nat := if read = false ∨ bad = true then min (e + 1) 65535 else e
          let y : Slot := { sl with maint := .test w r f m' e' }
          let x : State := u.modSlot p k fun _ => y
          let stop (cause : Word) (word : Option Nat) : Prop :=
            (first = false → o = .next x.judgeAlarm)
            ∧ (first = true → ends x y
                [1, if seed = 0 then 1 else seed, BitVec.ofNat 16 window, BitVec.ofNat 16 r, BitVec.ofNat 16 f,
                  BitVec.ofNat 16 m', BitVec.ofNat 16 e', BitVec.ofNat 16 (r + 1), BitVec.ofNat 16 q.addr.sector, cause,
                  match word with
                  | some i => BitVec.ofNat 16 i
                  | none => 0xFFFF] .done none)
          (read = false → stop 0 none) ∧ (read = true → bad = true → stop 1 differing.head?)
          ∧ (read = true → bad = false → differing ≠ [] → stop 2 differing.head?)
          ∧ (read = true → bad = false → differing = [] → o = .next x.judgeAlarm)))
      ∧ (∀ c i r, q.kind = .zero → sl.kind = .assignSpare → sl.maint = .assign c i r → fails ∧ (q.verdict = .matching →
          let x : State := { written.modSlot p k (fun _ => { sl with maint := .assign c i .labelWrite }) with
            progress := some { g with stage := .labelWrite, failed := 0 } }
          written.atMaintenance p k sl pos o (o = State.answers (x.positioned ⟨386, 0, 0⟩, x.follows 386))))
      ∧ (q.kind = .labelWrite → sl.kind = .initializeLabel ∨ sl.kind = .assignSpare → fails ∧ (q.verdict = .matching →
          o = .next { written with progress := some { g with stage := .readBack, failed := 0 } }.judgeAlarm))

/-- A read-back that matches and passes makes the held label what was written: INITIALIZE LABEL its own name and serial
with generation 1 and no entries; ASSIGN SPARE the next generation, 65535 followed by 1, with by its case a new entry,
an entry given a new spare and its old one retired, or a free spare retired, the lists staying in ascending order. Any
other read-back leaves the label DAMAGED, LABEL NOT VALID latched where a VALID label was lost. Only then are withdrawal
and the loss of the port looked at; else the order ends DONE with one sector, or WRITE FAULT at the label's sector (R6,
R10, R63, R142, R145, R146, R147, R148, R163). That the retired list ascends is assumption 23, and that the spaces of a
DAMAGED label's name are the code 20h assumption 33. What a FREE buffer and one waiting for its data hold is assumption
40. -/
def Obligations.TheReadBackDecidesTheLabel : Prop :=
  ∀ (s u : State) (p : Port) (k : Fin 8) (sl : Slot) (g : Progress) (q : Pass) (d : DataReading), s.serviceLaw →
    s.pass = some q → s.inService = some (p, k, sl) → s.progress = some g → q.kind = .readBack →
    sl.kind = .initializeLabel ∨ sl.kind = .assignSpare → u = { s with pass := none } →
    let o := exec (.sectorPassEnd d) s
    let good : Prop := q.verdict = .matching ∧ d.passes s.disk q.addr = true
    let free : Prop := sl.withdrawn = false ∧ (s.ports.get p).presence ≠ .lost
    let held (l : Label) : Prop := sl.labelToBe s.label = l ∧ { u with label := l }.stops p k sl o
      ∧ (free → { u with label := l }.ends p k { sl with sectorsDone := 1 } .done none o)
    (∀ name serial, sl.params = .label name serial → good → held ⟨.valid, name, serial, 1, [], []⟩)
    ∧ (∀ x c i r, sl.params = .assign x → sl.maint = .assign c i r → good →
        s.label.table.Pairwise (fun e f => e.bad.linear < f.bad.linear) → s.label.retired.Pairwise (· < ·) →
        let j : Nat := x.head * 20 + x.sector
        let made (t : List SubEntry) (ret : List Nat) : Prop := held { s.label with
          state := .valid, gen := if s.label.gen = 65535 then 1 else s.label.gen + 1, table := t, retired := ret }
        let retires (t : List SubEntry) (n : Nat) : Prop := ∃ ret, made t ret ∧ ret.Pairwise (· < ·)
          ∧ ∀ y, y ∈ ret ↔ y = n ∨ y ∈ s.label.retired
        (∀ n, c = .newEntry → i = some n → (∀ e ∈ s.label.table, e.bad.linear ≠ x.linear) →
          ∃ t, made t s.label.retired ∧ t.Pairwise (fun e f => e.bad.linear < f.bad.linear)
            ∧ ∀ e, e ∈ t ↔ e = ⟨x, n⟩ ∨ e ∈ s.label.table)
        ∧ (∀ n e, c = .reSpared → i = some n → e ∈ s.label.table → e.bad = x →
            retires (s.label.table.map fun f => if f.bad = x then { f with spare := n } else f) e.spare)
        ∧ (∀ n, c = .spareRetired → i = some n →
            retires (s.label.table.map fun f => if f.spare = j then { f with spare := n } else f) j)
        ∧ (c = .freeRetired → retires s.label.table j))
    ∧ (¬good → let x : State := { u with
          label := ⟨.damaged, Vector.replicate 4 0x2020, 0, 0, [], []⟩
          alarms := if s.label.state = LabelState.valid ∧ s.drive.state.serving = true then
              (s.latch .labelNotValid).alarms
            else s.alarms }
        x.stops p k sl o ∧ (free → x.ends p k sl .writeFault (some ⟨386, 0, 0⟩) o))

/-- The label read. In LABEL READ the index under the heads on the label track begins a pass over the label's sector, a
pass after a failed one counted as a re-read, and no other pulse begins one. At a pass's end the first good one is
judged, and so the drive enters READY, or DEGRADED with its reasons, the positioner idle without a target (assumption
18); a failed one is tried again, and the fifth leaves the label DAMAGED. DRIVE DEGRADED latches on entry, LABEL NOT
VALID where the label is not VALID; then the scheduler tests for a selection (R7, R9, R69, R95, R101, R133, R134, R163).
A pass after a failed one is a re-read also across a seek error (assumption 12), and the spaces of a DAMAGED label's
name are the code 20h (assumption 33). What a FREE buffer and one waiting for its data hold is assumption 40. -/
def Obligations.TheLabelReadMakesTheDriveReady : Prop :=
  ∀ s : State, s.drive.state = .labelRead →
    (∀ u n h c, s.serviceLaw → s.queueLaw → s.onTarget → s.inService = none → s.begins u n h c →
      (n ≠ 0 → exec c s = .next u.judgeAlarm)
      ∧ (n = 0 → (if 0 < s.drive.labelFails then u.countBoth .reReads else u).reads .labelRead ⟨386, 0, 0⟩ [] h (exec c s)))
    ∧ ∀ (q : Pass) (d : DataReading), s.pass = some q → q.kind = .labelRead →
      let good : Prop := q.verdict = .matching ∧ d.passes s.disk q.addr = true
      let degraded : Bool := !s.pos.inBand || !s.lines.supply
      let served (l : Label) : Prop := ∃ u v : State,
        u = { s with
                pass := none, label := l, pos := { s.pos with activity := .idle, target := none, errors := 0 },
                drive := { s.drive with
                  state := if degraded then .degraded else .ready, speed := !s.pos.inBand, supply := !s.lines.supply,
                  labelFails := 0 } }
        ∧ v = (if degraded then u.latch .driveDegraded else u)
        ∧ exec (.sectorPassEnd d) s = .next
            ((if l.state = .valid then v else v.latch .labelNotValid).schedule).judgeAlarm
      (good → served (judgeLabel (d.words s.disk q.addr)))
      ∧ (¬good → 4 ≤ s.drive.labelFails → served ⟨.damaged, Vector.replicate 4 0x2020, 0, 0, [], []⟩)
      ∧ (¬good → s.drive.labelFails < 4 → exec (.sectorPassEnd d) s =
          .next { s with pass := none, drive := { s.drive with labelFails := s.drive.labelFails + 1 } }.judgeAlarm)

/-! ## Seeks, recalibrations and the drive -/

/-- A seek whose line has become active arrives once its T_seek has passed: the cylinder and head are the target's, and
the confirming header is awaited; a FORMAT TRACK and a TEST TRACK are confirmed by it. An arrival is a boundary of the
order in service: it stops withdrawn or PORT LOST, ends MAP CHANGED, is set aside, or goes on; of a label order between
a label write and its read-back's verdict it is none. Not arrived 200 ticks after T_seek, the seek is a seek error:
counted, the cylinder UNKNOWN, and a recalibration follows, the third of a positioning faulting the drive SEEK (R63,
R84, R85, R88, R98, R99, R101, R102, R103, R111, R142, R145). Without a seek, or before their time, both change nothing
but the line (assumptions 8, 26); the drive drops on-cylinder at a recalibration's command (assumption 13). MAP CHANGED
names the next sector's own address (assumption 39). What a FREE buffer and one waiting for its data hold is assumption
40. -/
def Obligations.SeeksArriveOrTimeOut : Prop :=
  ∀ s : State, s.serviceLaw → s.queueLaw →
    (s.pos.activity ≠ .seeking → exec .seekArrival s = .next s ∧ exec .seekTimeout s = .next s)
    ∧ (s.pos.activity = .seeking → 0 < (tickAfter s.pos.seekStart (s.pos.seekTime + 200) - s.tick).toInt →
        exec .seekTimeout s = .next s)
    ∧ (s.pos.activity = .seeking → (tickAfter s.pos.seekStart (s.pos.seekTime + 200) - s.tick).toInt ≤ 0 →
        let u : State := { s with pos := { s.pos with cyl := none } }.countBoth .seekErrors
        (s.pos.errors < 2 → exec .seekTimeout s = .next ({ u with
            lines := { s.lines with onCylinder := false }
            pos := { u.pos with
              activity := .recalibrating, head := 0, recalStart := s.tick, errors := s.pos.errors + 1 } }.countBoth
                .recalibrations).judgeAlarm)
        ∧ (2 ≤ s.pos.errors → u.faultsThen .seek (exec .seekTimeout s)))
    ∧ ∀ x, s.pos.activity = .seeking → s.pos.target = some x →
      let o := exec .seekArrival s
      let u : State := { s with lines := { s.lines with onCylinder := true } }
      let v : State := { u with pos := { s.pos with
        activity := .arrived, cyl := some x.cyl, head := x.head, arrivalTick := s.tick } }
      let w : State := { v with pos := { v.pos with activity := .confirmed } }
      (0 < (tickAfter s.pos.seekStart s.pos.seekTime - s.tick).toInt → o = .next u)
      ∧ ((tickAfter s.pos.seekStart s.pos.seekTime - s.tick).toInt ≤ 0 → (s.inService = none → o = .next v.judgeAlarm)
        ∧ ∀ p k sl g, s.inService = some (p, k, sl) → s.progress = some g → s.pass = none →
          let maint (y : State) : Prop := y.atMaintenance p k sl s.pos.position o (o = .next y.judgeAlarm)
          (sl.kind = .read ∨ sl.kind = .write ∨ sl.kind = .check →
            v.atBoundary p k sl s.pos.position g.next o (o = .next v.judgeAlarm))
          ∧ (sl.kind = .formatTrack ∨ sl.kind = .testTrack → g.stage ≠ .readBack → maint w)
          ∧ (sl.kind = .initializeLabel ∨ sl.kind = .assignSpare →
              (g.stage ≠ .readBack → maint v) ∧ (g.stage = .readBack → o = .next v.judgeAlarm)))

/-- A recalibration that completes leaves the heads at cylinder 0: in CALIBRATING the drive enters LABEL READ, its label
emptied and a seek to the label track issued; any other is followed by the seek to its target, issued even to cylinder 0
(assumption 14). One that has not completed in 1,000 ticks is, in CALIBRATING, a failed attempt, the third of which
faults the drive CALIBRATION, and else a seek error, the third of a positioning faulting it SEEK. A rise of on-cylinder
that comes in the tick in which the limit was taken completes nothing, not even the recalibration then begun (assumption
37) (R102, R103, R132, R133). A rise that is not awaited (assumption 8) and a limit that is not due (assumption 26)
change nothing; the drive drops on-cylinder at a seek's issue and a recalibration's command (assumption 13), the head is
selected at the seek's issue (assumption 24), and the spaces of the emptied label's name are the code 20h (assumption
33). What a FREE buffer and one waiting for its data hold is assumption 40. -/
def Obligations.RecalibrationsCompleteOrFail : Prop :=
  ∀ s : State, s.serviceLaw → s.queueLaw →
    (s.pos.activity ≠ .recalibrating →
      exec .recalibrationComplete s = .next s ∧ exec .recalibrationLimit s = .next s)
    ∧ (s.lines.onCylinder = true ∨ s.pos.limitTaken = true → exec .recalibrationComplete s = .next s)
    ∧ (s.pos.activity = .recalibrating → s.lines.onCylinder = false → s.pos.limitTaken = false →
        (s.drive.state = .calibrating → exec .recalibrationComplete s = .next ({ s with
          lines := { s.lines with onCylinder := false }
          label := ⟨.none, Vector.replicate 4 0x2020, 0, 0, [], []⟩
          drive := { s.drive with state := .labelRead, labelFails := 0 }
          pos := { s.pos with
            activity := .seeking, cyl := some 0, head := 0, target := some ⟨386, 0, 0⟩, errors := 0,
            seekStart := s.tick, seekTime := 490 } }.countBoth .seeks).judgeAlarm)
        ∧ ∀ x, s.drive.state ≠ .calibrating → s.pos.target = some x → exec .recalibrationComplete s = .next ({ s with
          lines := { s.lines with onCylinder := false }
          pos := { s.pos with
            activity := .seeking, cyl := some 0, head := x.head, seekStart := s.tick,
            seekTime := seekTicks x.cyl } }.countBoth .seeks).schedule.judgeAlarm)
    ∧ (s.pos.activity = .recalibrating → 0 < (tickAfter s.pos.recalStart 1000 - s.tick).toInt →
        exec .recalibrationLimit s = .next s)
    ∧ (s.pos.activity = .recalibrating → (tickAfter s.pos.recalStart 1000 - s.tick).toInt ≤ 0 →
        let taken : State := { s with pos := { s.pos with limitTaken := true } }
        let again (u : State) : Host.Outcome State Fault Refusal := .next ({ u with
          lines := { s.lines with onCylinder := false }
          pos := { u.pos with cyl := none, head := 0, recalStart := s.tick } }.countBoth .recalibrations).judgeAlarm
        (s.drive.state = .calibrating → s.drive.attempts < 3 → exec .recalibrationLimit s =
          again { taken with drive := { s.drive with attempts := s.drive.attempts + 1 } })
        ∧ (s.drive.state = .calibrating → 3 ≤ s.drive.attempts →
            taken.faultsThen .calibration (exec .recalibrationLimit s))
        ∧ (s.drive.state ≠ .calibrating → s.pos.errors < 2 → exec .recalibrationLimit s =
          again ({ taken with pos := { taken.pos with errors := s.pos.errors + 1 } }.countBoth .seekErrors))
        ∧ (s.drive.state ≠ .calibrating → 2 ≤ s.pos.errors →
            ({ taken with pos := { taken.pos with cyl := none } }.countBoth .seekErrors).faultsThen .seek
              (exec .recalibrationLimit s)))

/-- The loss of the index for 400 ticks in a watched state, the spin-up limit in SPINNING UP, and the over-temperature
line's activation in a spinning state fault the drive, each with its reason; at any other time the first two change
nothing and the third its line alone (R97, R131, R135, R136; assumptions 26, 8). The spaces of a label no longer held
are the code 20h (assumption 33). What a FREE buffer and one waiting for its data hold is assumption 40. -/
def Obligations.TheDriveFaults : Prop :=
  ∀ s : State, s.serviceLaw → s.queueLaw →
    let watched : Prop := s.drive.state = .calibrating ∨ s.drive.state = .labelRead ∨ s.drive.state = .ready
      ∨ s.drive.state = .degraded
    let hot : State := { s with lines := { s.lines with overTemp := true } }
    (watched → (∃ i, s.pos.lastIndex = some i ∧ (tickAfter i 400 - s.tick).toInt ≤ 0) →
      s.faultsThen .indexLost (exec .indexLoss s))
    ∧ (¬watched ∨ (∀ i, s.pos.lastIndex = some i → 0 < (tickAfter i 400 - s.tick).toInt) →
        exec .indexLoss s = .next s)
    ∧ (s.drive.state = .spinningUp → (∃ d, s.drive.spinUp = some d ∧ (d - s.tick).toInt ≤ 0) →
        s.faultsThen .spinUpTimeout (exec .spinUpTimeout s))
    ∧ (s.drive.state ≠ .spinningUp ∨ (∀ d, s.drive.spinUp = some d → 0 < (d - s.tick).toInt) →
        exec .spinUpTimeout s = .next s)
    ∧ (s.lines.overTemp = true → exec .overTemperature s = .next s)
    ∧ (s.lines.overTemp = false → watched ∨ s.drive.state = .spinningUp →
        hot.faultsThen .overtemp (exec .overTemperature s))
    ∧ (s.lines.overTemp = false → ¬watched → s.drive.state ≠ .spinningUp → exec .overTemperature s = .next hot)
    ∧ exec .overTemperatureInactive s = .next { s with lines := { s.lines with overTemp := false } }

/-- The run condition's coming to hold spins an EMPTY drive up, at once to FAULTED where the over-temperature line is
active, and elsewhere withdraws a pending stop; its coming to fail spins the drive down, in READY and DEGRADED only
once no order is in service. 400 ticks without an index after that the drive is EMPTY, and judges the run condition
again, faulting at once where the over-temperature line is active (R129, R130, R135, R138, R139, R140). That
RUN_CONDITION_HOLDS may put another cartridge in place, in EMPTY and SPINNING DOWN alone, is assumption 20, and that a
run-down whose time is not due and a condition that holds already change nothing is assumptions 26 and 8; the spaces of
the emptied label's name are the code 20h (assumption 33). What a FREE buffer and one waiting for its data hold is
assumption 40. -/
def Obligations.TheRunConditionStartsAndStopsTheDrive : Prop :=
  ∀ (s : State) (cart : Option Cartridge) (c d st : Bool), s.queueLaw →
    let held : State := { s with
      lines := { s.lines with cartridge := true, door := true, start := true }
      disk := match cart with
        | some x =>
          if s.drive.state = .empty ∨ s.drive.state = .spinningDown then Cartridge.ofList x else s.disk
        | none => s.disk }
    let failed : State := { s with lines := { s.lines with cartridge := c, door := d, start := st } }
    let up (u : State) : State := { u with
      pos := { s.pos with inBand := false, outRun := 0, inRun := 0, lastIndex := none, extra := false }
      drive := { s.drive with
        state := .spinningUp, spinUp := some (tickAfter s.tick 600000), attempts := 0, stopPending := false,
        fault := none, runDown := none } }
    let ranOut : Prop := s.drive.state = .spinningDown ∧ ∃ x, s.drive.runDown = some x ∧ (x - s.tick).toInt ≤ 0
    (s.lines.run = true → exec (.runConditionHolds cart) s = .next s)
    ∧ (s.lines.run = false → s.drive.state ≠ .empty → exec (.runConditionHolds cart) s =
        .next { held with drive := { s.drive with stopPending := false } }.judgeAlarm)
    ∧ (s.lines.run = false → s.drive.state = .empty →
        (s.lines.overTemp = false → exec (.runConditionHolds cart) s = .next (up held).judgeAlarm)
        ∧ (s.lines.overTemp = true → s.serviceLaw →
            (up held).faultsThen .overtemp (exec (.runConditionHolds cart) s)))
    ∧ ((s.lines.run = false ∨ (c && d && st) = true) → exec (.runConditionFails c d st) s = .next failed)
    ∧ (s.lines.run = true → (c && d && st) = false →
        (s.drive.state = .empty ∨ s.drive.state = .spinningDown →
          exec (.runConditionFails c d st) s = .next failed.judgeAlarm)
        ∧ (s.drive.state = .ready ∨ s.drive.state = .degraded → s.inService ≠ none →
          exec (.runConditionFails c d st) s =
            .next { failed with drive := { s.drive with stopPending := true } }.judgeAlarm)
        ∧ ((s.drive.state = .ready ∨ s.drive.state = .degraded) ∧ s.inService = none ∨ s.drive.state = .spinningUp
            ∨ s.drive.state = .calibrating ∨ s.drive.state = .labelRead ∨ s.drive.state = .faulted →
          ∃ t, failed.spinsDown t ∧ exec (.runConditionFails c d st) s = .next t.judgeAlarm))
    ∧ (¬ranOut → exec .runDownTimeout s = .next s)
    ∧ (ranOut → s.lines.run = false → exec .runDownTimeout s =
        .next { s with drive := { s.drive with state := .empty, runDown := none } }.judgeAlarm)
    ∧ (ranOut → s.lines.run = true → (s.lines.overTemp = false → exec .runDownTimeout s = .next (up s).judgeAlarm)
        ∧ (s.lines.overTemp = true → s.serviceLaw → (up s).faultsThen .overtemp (exec .runDownTimeout s)))

/-- The loss of the write supply makes a READY drive DEGRADED, with DRIVE DEGRADED latched, and adds its reason to a
DEGRADED one; its return makes a DEGRADED drive READY where the speed is no reason. Each entry lets the scheduler
test. In any other state the line alone changes (R69, R134, R163). That the scheduler tests only where the drive state
changes is assumption 8. -/
def Obligations.TheWriteSupplyDegradesTheDrive : Prop :=
  ∀ s : State,
    let lost : State := { s with lines := { s.lines with supply := false } }
    let good : State := { s with lines := { s.lines with supply := true } }
    let serving : Prop := s.drive.state = .ready ∨ s.drive.state = .degraded
    (s.drive.state = .ready → exec .writeSupplyLost s =
      .next ({ lost with drive := { s.drive with state := .degraded, supply := true } }.latch .driveDegraded).schedule.judgeAlarm)
    ∧ (s.drive.state = .degraded →
        exec .writeSupplyLost s = .next { lost with drive := { s.drive with supply := true } }.judgeAlarm)
    ∧ (s.drive.state = .degraded → s.drive.speed = false → exec .writeSupplyGood s =
        .next { good with drive := { s.drive with state := .ready, supply := false } }.schedule.judgeAlarm)
    ∧ (serving → s.drive.speed = (decide (s.drive.state = .degraded)) →
        exec .writeSupplyGood s = .next { good with drive := { s.drive with supply := false } }.judgeAlarm)
    ∧ (¬serving → exec .writeSupplyLost s = .next lost.judgeAlarm ∧ exec .writeSupplyGood s = .next good.judgeAlarm)

/-! ## Selection -/

/-- What a step carries on with: a test for a selection selects, a release carries out a pending stop or selects, an
arrival is a boundary of the order in service, until nothing is left (in 64 items at most, assumption 21). A selection
is made while no order is in service, the drive is READY or DEGRADED, no stop is pending and the cylinder is known. Step
1 takes a PROMPT order: of each port the hazard-free one due first, of those the oldest, where it has one at all; of the
two that with less slack, at equal slack that of the port not last granted. Step 2 takes the SUSPENDED order; step 3 one
of the ROUTINE heads (the oldest ROUTINE order, not behind a PROMPT one it clashes with, nor while its port has a
SUSPENDED order), one passed over four times first, else that reached sooner, at equal times that of the port not last
granted, and counts what it passes over. The order the actuator is handed to is IN SERVICE and its port last granted: a
data order has its next sector looked up and its requests issued, and goes to it or, as an excursion, to its spare;
FORMAT TRACK and TEST TRACK go to their track, INITIALIZE LABEL to the label; ASSIGN SPARE is classified and goes to its
lowest free spare or the label, or ends at once (R12, R60, R69, R70, R71, R72, R78, R79, R80, R81, R90, R98, R110, R138,
R147). That a SUSPENDED order's hazard is judged by its whole span is assumption 32; the position reported is used, at a
pass end too (assumption 31); a seek drops on-cylinder and selects its head at its issue (assumptions 13, 24). What a
FREE buffer and one waiting for its data hold is assumption 40, and that an ASSIGN SPARE ended at its classification has
its write reached recorded as zeroing is assumption 41. -/
def Obligations.ASelectionTakesPromptOrdersFirst : Prop :=
  ∀ s : State,
    -- what a step carries on with
    (∀ m, settle m (s, .idle) = s ∧ settle (m + 1) (s, .select) = settle m s.select
        ∧ settle (m + 1) (s, .released) = settle m s.stopOrSelect
        ∧ settle (m + 1) (s, .arrived) = settle m s.arrivalBoundary)
    ∧ s.schedule = settle settleLimit (s, .select) ∧ settleLimit = 64
    ∧ (s.drive.stopPending = true → s.inService = none → s.queueLaw → ∃ t, s.spinsDown t ∧ s.stopOrSelect = (t, .idle))
    ∧ (s.drive.stopPending = false ∨ s.inService ≠ none → s.stopOrSelect = s.select)
    ∧ (s.pos.cyl = none → s.select = (s, .idle))
    ∧ (s.inService = none → s.arrivalBoundary = (s, .idle))
    ∧ ∀ c pos, s.pos.cyl = some c → pos = s.pos.position →
    let may : Prop := s.inService = none ∧ (s.drive.state = .ready ∨ s.drive.state = .degraded)
      ∧ s.drive.stopPending = false
    let slack (sl : Slot) : Int := signedDiff sl.due (tickAfter s.tick (estimate c pos sl.startAddr sl.n sl.verify))
    let wait (sl : Slot) : Nat := positionTicks c pos sl.estimateTarget
    let barred (sl : Slot) : Prop := s.drive.state = .degraded ∧ sl.kind.writeClass = true
    let noPrompt : Prop := ∀ p, s.promptOffers p = []
    (¬may → s.select = (s, .idle))
    -- the boundary of an arrival
    ∧ (∀ p k sl g, s.serviceLaw → s.inService = some (p, k, sl) → s.progress = some g → s.pass = none →
      let stopped : Prop := sl.withdrawn = true ∨ (s.ports.get p).presence = .lost
      let stops (x : State) : Prop := stopped → ∃ t, x.stopsService t p k sl ∧ s.arrivalBoundary = (t, .released)
      let changed (x : State) (a : Addr) : Prop :=
        ∃ t, x.endsService t p k sl .mapChanged (some a) ∧ s.arrivalBoundary = (t, .released)
      let goesOn (x : State) : Prop := (∀ q j, x.yields sl c pos q j → s.arrivalBoundary = (x.setAside p k).handTo q j)
        ∧ (x.keeps sl c pos → s.arrivalBoundary = (x, .idle))
      let confirmed : State := { s with pos := { s.pos with activity := .confirmed } }
      (sl.kind = .read ∨ sl.kind = .write ∨ sl.kind = .check → stops s ∧ (¬stopped → g.next < sl.n →
        let right : Right := s.map.active.rightOn p (sl.sectorAddr g.next).cyl
        let granted : Prop := if sl.kind = .write then right = .write else right ≠ .none
        (¬granted → changed s (sl.sectorAddr g.next)) ∧ (granted → goesOn s)))
      ∧ (sl.kind = .formatTrack ∨ sl.kind = .testTrack → g.stage ≠ .readBack → stops confirmed ∧ (¬stopped →
        let barred : Prop := sl.kind = .formatTrack ∧ sl.startAddr.cyl ≤ 383
          ∧ s.map.active.rightOn p sl.startAddr.cyl ≠ .write
        (barred → changed confirmed { sl.startAddr with sector := sl.sectorsDone }) ∧ (¬barred → goesOn confirmed)))
      ∧ (sl.kind = .initializeLabel ∨ sl.kind = .assignSpare →
          (g.stage ≠ .readBack → stops s ∧ (¬stopped → s.arrivalBoundary = (s, .idle)))
          ∧ (g.stage = .readBack → s.arrivalBoundary = (s, .idle))))
    -- candidates
    ∧ (∀ x y : Slot, 0 < x.extent → 0 < y.extent → (x.clashes y = true ↔
        (∃ z ∈ [x.kind, y.kind], z = .write ∨ z = .formatTrack ∨ z = .assignSpare ∨ z = .initializeLabel
          ∨ z = .testTrack)
          ∧ ∃ i < x.extent, ∃ j < y.extent, x.startAddr.linear + i = y.startAddr.linear + j))
    ∧ (∀ x : Slot, x.extent = if x.kind = .read ∨ x.kind = .write ∨ x.kind = .check then x.n
        else if x.kind = .formatTrack ∨ x.kind = .testTrack then 20 else 1)
    ∧ (∀ p k sl, (k, sl) ∈ s.promptOffers p ↔ ∃ l l', (s.queues.get p).order = l ++ k :: l' ∧ s.slot p k = some sl
        ∧ sl.state = .queued ∧ sl.prompt = true ∧ ¬barred sl
        ∧ ∀ j ∈ l, ∀ x, s.slot p j = some x → x.state = .queued ∨ x.state = .inService ∨ x.state = .suspended →
            x.clashes sl = false)
    ∧ (∀ p k sl, s.routineHead p = some (k, sl) ↔ ∃ l l', (s.queues.get p).order = l ++ k :: l' ∧ s.slot p k = some sl
        ∧ sl.state = .queued ∧ sl.prompt = false ∧ ¬barred sl ∧ (∀ x, s.suspended = some x → x.1 ≠ p)
        ∧ ∀ j ∈ l, ∀ x, s.slot p j = some x → x.state = .queued → x.prompt = true ∧ x.clashes sl = false)
    ∧ (∀ p k sl b, s.promptCandidate p = some (k, sl) →
        (∀ x ∈ s.promptOffers p, -1073741824 < signedDiff x.2.due b ∧ signedDiff x.2.due b < 1073741824) →
        (k, sl) ∈ s.promptOffers p ∧ (∀ x ∈ s.promptOffers p, 0 ≤ signedDiff x.2.due sl.due)
        ∧ ∃ older newer, (s.queues.get p).order = older ++ k :: newer
          ∧ ∀ x ∈ s.promptOffers p, x.2.due = sl.due → x.1 = k ∨ x.1 ∈ newer)
    ∧ (∀ p, s.promptCandidate p = none ↔ s.promptOffers p = [])
    -- the three steps
    ∧ (may → ¬noPrompt → ∃ p k sl, s.select = s.handTo p k ∧ s.promptCandidate p = some (k, sl)
        ∧ ∀ j x, s.promptCandidate p.other = some (j, x) →
            slack sl ≤ slack x ∧ (slack sl = slack x → p ≠ s.sched.last))
    ∧ (∀ p k sl, may → noPrompt → s.suspended = some (p, k, sl) → ¬barred sl → s.select = s.handTo p k)
    ∧ (may → noPrompt → (∀ p k sl, s.suspended = some (p, k, sl) → barred sl) →
        ((∀ p, s.routineHead p = none) → s.select = (s, .idle))
        ∧ ∀ p k sl, s.routineHead p = some (k, sl) →
          let taken (waiting : Bool) : Prop := ∃ x : PerPort Nat, x.get p = 0
            ∧ x.get p.other = (if waiting then min (s.sched.bypass.get p.other + 1) 4 else s.sched.bypass.get p.other)
            ∧ s.select = { s with sched := { s.sched with bypass := x } }.handTo p k
          (s.routineHead p.other = none → taken false)
          ∧ ∀ j x, s.routineHead p.other = some (j, x) → s.bypassLaw →
            (s.sched.bypass.get p = 4 → taken true)
            ∧ (s.sched.bypass.get p ≠ 4 → s.sched.bypass.get p.other ≠ 4 →
                wait sl < wait x ∨ (wait sl = wait x ∧ p ≠ s.sched.last) → taken true))
    -- the order the actuator is handed to
    ∧ ∀ p k sl, s.slot p k = some sl → s.inService = none →
      let y : Slot := { sl with state := .inService }
      let t : State := { s.modSlot p k (fun _ => y) with sched := { s.sched with last := p } }
      let goes (z : State) (x : Addr) : Prop := s.handTo p k = (z.positioned x, s.follows x.cyl)
      let begun (z : State) (n : Nat) (dest : Option Nat) (stage : Stage) : State :=
        { z with progress := some ⟨n, dest, 0, stage⟩ }
      let ends (z : Slot) (e : Ending) (fault : Option Addr) : Prop :=
        ∃ u, t.endsService u p k z e fault ∧ s.handTo p k = (u, .released)
      (sl.kind = .formatTrack → goes (begun t 0 none .format) sl.startAddr)
      ∧ (sl.kind = .testTrack → goes (begun t 0 none .testWaiting) sl.startAddr)
      ∧ (sl.kind = .initializeLabel → goes (begun t 0 none .labelWrite) ⟨386, 0, 0⟩)
      ∧ (sl.kind = .read ∨ sl.kind = .write ∨ sl.kind = .check → let a := sl.sectorAddr sl.sectorsDone
          ((∀ e ∈ s.label.table, e.bad ≠ a) → goes (begun t sl.sectorsDone none .data).testRequests a)
          ∧ ∀ e ∈ s.label.table, e.bad = a → (∀ f ∈ s.label.table, f.bad = a → f = e) →
            goes ((begun t sl.sectorsDone (some e.spare) .data).testRequests.countBoth .excursions)
              ⟨384, e.spare / 20, e.spare % 20⟩)
      ∧ (sl.kind = .assignSpare → let x := sl.startAddr
          let j : Nat := x.head * 20 + x.sector
          let told (c : AssignCase) (spare : Option Nat) (w : Word) (st : AssignWrite) : Slot :=
            { y with maint := .assign c spare st, body := [w, match spare with
              | some i => BitVec.ofNat 16 i
              | none => 0xFFFF] }
          let unused (i : Nat) : Prop := i < 80 ∧ (∀ e ∈ s.label.table, e.spare ≠ i) ∧ i ∉ s.label.retired
          let spared (c : AssignCase) (w : Word) : Prop :=
            ((∀ i, ¬unused i) → ends (told c none w .zeroing) .sparesExhausted none)
            ∧ ∀ i, unused i → (∀ i', i' < i → ¬unused i') →
              goes (begun (t.modSlot p k fun _ => told c (some i) w .zeroing) 0 none .zeroing) ⟨384, i / 20, i % 20⟩
          (s.label.state ≠ .valid → ends y .writeFault (some ⟨386, 0, 0⟩))
          ∧ (s.label.state = .valid → x.cyl ≠ 384 → ((∀ e ∈ s.label.table, e.bad ≠ x) → spared .newEntry 0)
            ∧ ((∃ e ∈ s.label.table, e.bad = x) → spared .reSpared 1))
          ∧ (s.label.state = .valid → x.cyl = 384 →
            (j ∈ s.label.retired → ends (told .noChange none 4 .zeroing) .done none)
            ∧ (j ∉ s.label.retired → (∃ e ∈ s.label.table, e.spare = j) → spared .spareRetired 2)
            ∧ (j ∉ s.label.retired → (∀ e ∈ s.label.table, e.spare ≠ j) →
                goes (begun (t.modSlot p k fun _ => told .freeRetired none 3 .labelWrite) 0 none .labelWrite)
                  ⟨386, 0, 0⟩)))

/-! ## Arithmetic the rules fix -/

/-- The check word of a list of words is what the check register holds, from FFFFh, when every bit has passed through
it, most significant bit of each word first: each bit shifts the register left, and inverts bits 12, 5 and 0 of it
where it differs from the bit shifted out. A header or a data field as read passes exactly when its check word is that
of its words, and exactly then the words with their check word leave the register at 0 (R3). -/
def Obligations.TheCheckWordIsTheStatedRegister : Prop :=
  crc [] = 0xFFFF
    ∧ (∀ (ws : List Word) (w : Word), ∃ r : Fin 17 → Word, r 0 = crc ws ∧ crc (ws ++ [w]) = r 16
        ∧ ∀ i : Fin 16, r i.succ = if (r i.castSucc).getLsbD 15 ≠ w.getLsbD (15 - i.val)
            then (r i.castSucc <<< 1) ^^^ 0x1021 else r i.castSucc <<< 1)
    ∧ (∀ (ws : List Word) (w : Word), crc (ws ++ [w]) = 0 ↔ w = crc ws)
    ∧ (∀ (c h s k : Word) (x : Addr), classify c h s k x = .unreadable ↔ k ≠ crc [c, h, s])
    ∧ (∀ (d : Cartridge) (x : Addr), DataReading.stored.passes d x = true ↔
        (Cartridge.get d x.linear).dCheck = crc (Cartridge.get d x.linear).data)
    ∧ ∀ (d : Cartridge) (x : Addr) (ws : List Word) (k : Word), ws.length = 256 →
        ((DataReading.read ws k).passes d x = true ↔ k = crc ws)

/-- The pattern register of TEST TRACK never loses a value: a step can be undone and a register that is not zero never
becomes zero. Word j of sector s, counting from 0, is the register after 16 · (256 s + j + 1) steps from the seed, 0
taken as 1; from seed 1 it passes the values R150 lists (R150). -/
def Obligations.TheTestPatternIsTheStatedRegister : Prop :=
  (∀ r r' : Word, patternStep r = patternStep r' → r = r')
    ∧ (∀ r : Word, patternStep r = (r <<< 1) ||| (if (r.getLsbD 15 ^^ r.getLsbD 13) ^^ (r.getLsbD 12 ^^ r.getLsbD 10)
        then 1 else 0))
    ∧ (∀ n (r : Word), r ≠ 0 → patternSteps n r ≠ 0)
    ∧ (∀ (seed : Word) (s j : Nat), j < 256 →
        (patternSector seed s)[j]? = some (patternSteps (16 * (256 * s + j + 1)) (if seed = 0 then 1 else seed)))
    ∧ patternSteps 10 1 = 0x0400 ∧ patternSteps 11 1 = 0x0801 ∧ patternSteps 13 1 = 0x2005
    ∧ patternSteps 15 1 = 0x8016 ∧ patternSteps 16 1 = 0x002D

/-- The guarded range of a span and side, and the set that a guard protects: the range, or with complement the data
cylinders outside it. It holds data cylinders alone, and is a contiguous run, or empty, or the whole data zone (R35). -/
def Obligations.TheGuardedRangeIsTheStatedOne : Prop :=
  ∀ (g : Guard) (c : Nat),
    let n := match g.span with
      | .none => 0
      | .sixteenth => 24
      | .eighth => 48
      | .quarter => 96
      | .half => 192
      | .all => 384
    let inRange : Prop := c ≤ 383 ∧ (if g.low then c + 1 ≤ n else 384 ≤ c + n)
    (g.protectsData c = true ↔ c ≤ 383 ∧ (if g.complement then ¬inRange else inRange))
    ∧ ∀ a b, a ≤ b → b ≤ c → g.protectsData a = true → g.protectsData c = true → g.protectsData b = true

/-- The times of the model: T_seek for a move; the wait from an arrival position to the next start of a sector, which
is between 1 and 200 ticks and ends at that sector's start; the time to a target, which is T_seek and the wait from
the position at arrival; and the estimate of an order, 10 ticks a sector and a revolution for a verify pass more (R74,
R75, R77). -/
def Obligations.TheModelTimesAreTheStatedOnes : Prop :=
  (∀ d, (d = 0 → seekTicks d = 0) ∧ (1 ≤ d → d ≤ 16 → seekTicks d = 40 + 5 * d)
      ∧ (17 ≤ d → seekTicks d = 120 + (d - 16)))
    ∧ (∀ d e, d ≤ e → seekTicks d ≤ seekTicks e)
    ∧ (∀ s a, s ≤ 19 → a ≤ 199 → 1 ≤ sectorWait s a ∧ sectorWait s a ≤ 200 ∧ (a + sectorWait s a) % 200 = 10 * s
      ∧ ∀ w, 1 ≤ w → (a + w) % 200 = 10 * s → sectorWait s a ≤ w)
    ∧ ∀ (c a : Nat) (x : Addr) (n : Nat) (v : Bool), let ts := seekTicks (x.cyl - c + (c - x.cyl))
      positionTicks c a x = ts + sectorWait x.sector ((a + ts) % 200)
      ∧ estimate c a x n v = positionTicks c a x + 10 * n + if v then 200 else 0

/-- A label sector is judged by its words: without the mark 6B1Dh the label is ABSENT; with E + R above 80, or where any
other condition of R8 fails, DAMAGED, and in both cases nothing of it is held; and else VALID with its name, serial and
generation, its entries sorted by bad address and its retired spares, in whatever order they stood in it. So a sound
label judged as it was written is the label that was written (R6, R7, R8, R9). That the retired list is held in
ascending order is the model's choice, assumption 23, and that the spaces of the name of a label that is not VALID are
the code 20h is assumption 33. -/
def Obligations.ALabelReadsBackAsWritten : Prop :=
  (∀ ws : List Word, ws.length = 256 →
    let x (i : Nat) : Word := wordAt ws i
    let e : Nat := (x 7).toNat
    let r : Nat := (x 8).toNat
    let bad (i : Nat) : Addr := ⟨(x (9 + 2 * i)).toNat, field (x (10 + 2 * i)) 15 12, field (x (10 + 2 * i)) 11 7⟩
    let spare (i : Nat) : Nat := field (x (10 + 2 * i)) 6 0
    let gone (i : Nat) : Nat := (x (9 + 2 * e + i)).toNat
    let blank (st : LabelState) : Label := ⟨st, Vector.replicate 4 0x2020, 0, 0, [], []⟩
    let sound : Prop := x 6 ≠ 0
      ∧ (∀ i < e, (bad i).cyl ≤ 383 ∧ (bad i).head ≤ 3 ∧ (bad i).sector ≤ 19)
      ∧ (∀ i < e, spare i < 80) ∧ (∀ i < r, gone i < 80)
      ∧ (∀ i < e, ∀ j < i, bad i ≠ bad j) ∧ (∀ i < e, ∀ j < i, spare i ≠ spare j)
      ∧ (∀ i < r, ∀ j < i, gone i ≠ gone j) ∧ (∀ i < e, ∀ j < r, spare i ≠ gone j)
    (x 0 ≠ 0x6B1D → judgeLabel ws = blank .absent)
    ∧ (x 0 = 0x6B1D → 80 < e + r ∨ ¬sound → judgeLabel ws = blank .damaged)
    ∧ (x 0 = 0x6B1D → e + r ≤ 80 → sound → ∃ table retired,
        judgeLabel ws = ⟨.valid, #v[x 1, x 2, x 3, x 4], x 5, x 6, table, retired⟩
        ∧ table.Pairwise (fun y z => y.bad.linear < z.bad.linear) ∧ (∀ y, y ∈ table ↔ ∃ i < e, y = ⟨bad i, spare i⟩)
        ∧ retired.Pairwise (· < ·) ∧ ∀ y, y ∈ retired ↔ ∃ i < r, y = gone i))
  ∧ ∀ l : Label, l.state = .valid → l.table.length + l.retired.length ≤ 80 →
    labelSound l.gen l.table l.retired = true → l.table.Pairwise (fun x y => x.bad.linear < y.bad.linear) →
    l.retired.Pairwise (· < ·) → judgeLabel (labelWords l) = l
end

