-- ==== Sys2Proof/Laws/State.lean ====
section
/-! SUPPORT. The field of the state that each basic update changes, and the fields it leaves, one lemma for each: no
later proof unfolds a record update. Then the items of a port, the records of slots, and the counters. -/

namespace Sys2Proof.Machine

-- Every thread of the checker reserves a whole stack: these many short proofs are checked one after another.
set_option Elab.async false

variable (s : State)

/-! ## `State.onPort` -/

@[simp] theorem onPort_pending (p : Port) (f : PortIf → PortIf) : (s.onPort p f).pending = s.pending := rfl
@[simp] theorem onPort_tick (p : Port) (f : PortIf → PortIf) : (s.onPort p f).tick = s.tick := rfl
@[simp] theorem onPort_lines (p : Port) (f : PortIf → PortIf) : (s.onPort p f).lines = s.lines := rfl
@[simp] theorem onPort_map (p : Port) (f : PortIf → PortIf) : (s.onPort p f).map = s.map := rfl
@[simp] theorem onPort_guard (p : Port) (f : PortIf → PortIf) : (s.onPort p f).guard = s.guard := rfl
@[simp] theorem onPort_ports (p : Port) (f : PortIf → PortIf) : (s.onPort p f).ports = s.ports.modify p f := rfl
@[simp] theorem onPort_queues (p : Port) (f : PortIf → PortIf) : (s.onPort p f).queues = s.queues := rfl
@[simp] theorem onPort_sched (p : Port) (f : PortIf → PortIf) : (s.onPort p f).sched = s.sched := rfl
@[simp] theorem onPort_pos (p : Port) (f : PortIf → PortIf) : (s.onPort p f).pos = s.pos := rfl
@[simp] theorem onPort_buffers (p : Port) (f : PortIf → PortIf) : (s.onPort p f).buffers = s.buffers := rfl
@[simp] theorem onPort_progress (p : Port) (f : PortIf → PortIf) : (s.onPort p f).progress = s.progress := rfl
@[simp] theorem onPort_pass (p : Port) (f : PortIf → PortIf) : (s.onPort p f).pass = s.pass := rfl
@[simp] theorem onPort_drive (p : Port) (f : PortIf → PortIf) : (s.onPort p f).drive = s.drive := rfl
@[simp] theorem onPort_label (p : Port) (f : PortIf → PortIf) : (s.onPort p f).label = s.label := rfl
@[simp] theorem onPort_alarms (p : Port) (f : PortIf → PortIf) : (s.onPort p f).alarms = s.alarms := rfl
@[simp] theorem onPort_banks (p : Port) (f : PortIf → PortIf) : (s.onPort p f).banks = s.banks := rfl
@[simp] theorem onPort_disk (p : Port) (f : PortIf → PortIf) : (s.onPort p f).disk = s.disk := rfl
@[simp] theorem onPort_free (p : Port) (f : PortIf → PortIf) : (s.onPort p f).free = s.free := rfl

/-! ## `State.onQueue` -/

@[simp] theorem onQueue_pending (p : Port) (f : Queue → Queue) : (s.onQueue p f).pending = s.pending := rfl
@[simp] theorem onQueue_tick (p : Port) (f : Queue → Queue) : (s.onQueue p f).tick = s.tick := rfl
@[simp] theorem onQueue_lines (p : Port) (f : Queue → Queue) : (s.onQueue p f).lines = s.lines := rfl
@[simp] theorem onQueue_map (p : Port) (f : Queue → Queue) : (s.onQueue p f).map = s.map := rfl
@[simp] theorem onQueue_guard (p : Port) (f : Queue → Queue) : (s.onQueue p f).guard = s.guard := rfl
@[simp] theorem onQueue_ports (p : Port) (f : Queue → Queue) : (s.onQueue p f).ports = s.ports := rfl
@[simp] theorem onQueue_queues (p : Port) (f : Queue → Queue) : (s.onQueue p f).queues = s.queues.modify p f := rfl
@[simp] theorem onQueue_sched (p : Port) (f : Queue → Queue) : (s.onQueue p f).sched = s.sched := rfl
@[simp] theorem onQueue_pos (p : Port) (f : Queue → Queue) : (s.onQueue p f).pos = s.pos := rfl
@[simp] theorem onQueue_buffers (p : Port) (f : Queue → Queue) : (s.onQueue p f).buffers = s.buffers := rfl
@[simp] theorem onQueue_progress (p : Port) (f : Queue → Queue) : (s.onQueue p f).progress = s.progress := rfl
@[simp] theorem onQueue_pass (p : Port) (f : Queue → Queue) : (s.onQueue p f).pass = s.pass := rfl
@[simp] theorem onQueue_drive (p : Port) (f : Queue → Queue) : (s.onQueue p f).drive = s.drive := rfl
@[simp] theorem onQueue_label (p : Port) (f : Queue → Queue) : (s.onQueue p f).label = s.label := rfl
@[simp] theorem onQueue_alarms (p : Port) (f : Queue → Queue) : (s.onQueue p f).alarms = s.alarms := rfl
@[simp] theorem onQueue_banks (p : Port) (f : Queue → Queue) : (s.onQueue p f).banks = s.banks := rfl
@[simp] theorem onQueue_disk (p : Port) (f : Queue → Queue) : (s.onQueue p f).disk = s.disk := rfl
@[simp] theorem onQueue_free (p : Port) (f : Queue → Queue) : (s.onQueue p f).free = s.free := rfl

/-! ## `State.onPos` -/

@[simp] theorem onPos_pending (f : Positioner → Positioner) : (s.onPos f).pending = s.pending := rfl
@[simp] theorem onPos_tick (f : Positioner → Positioner) : (s.onPos f).tick = s.tick := rfl
@[simp] theorem onPos_lines (f : Positioner → Positioner) : (s.onPos f).lines = s.lines := rfl
@[simp] theorem onPos_map (f : Positioner → Positioner) : (s.onPos f).map = s.map := rfl
@[simp] theorem onPos_guard (f : Positioner → Positioner) : (s.onPos f).guard = s.guard := rfl
@[simp] theorem onPos_ports (f : Positioner → Positioner) : (s.onPos f).ports = s.ports := rfl
@[simp] theorem onPos_queues (f : Positioner → Positioner) : (s.onPos f).queues = s.queues := rfl
@[simp] theorem onPos_sched (f : Positioner → Positioner) : (s.onPos f).sched = s.sched := rfl
@[simp] theorem onPos_pos (f : Positioner → Positioner) : (s.onPos f).pos = f s.pos := rfl
@[simp] theorem onPos_buffers (f : Positioner → Positioner) : (s.onPos f).buffers = s.buffers := rfl
@[simp] theorem onPos_progress (f : Positioner → Positioner) : (s.onPos f).progress = s.progress := rfl
@[simp] theorem onPos_pass (f : Positioner → Positioner) : (s.onPos f).pass = s.pass := rfl
@[simp] theorem onPos_drive (f : Positioner → Positioner) : (s.onPos f).drive = s.drive := rfl
@[simp] theorem onPos_label (f : Positioner → Positioner) : (s.onPos f).label = s.label := rfl
@[simp] theorem onPos_alarms (f : Positioner → Positioner) : (s.onPos f).alarms = s.alarms := rfl
@[simp] theorem onPos_banks (f : Positioner → Positioner) : (s.onPos f).banks = s.banks := rfl
@[simp] theorem onPos_disk (f : Positioner → Positioner) : (s.onPos f).disk = s.disk := rfl
@[simp] theorem onPos_free (f : Positioner → Positioner) : (s.onPos f).free = s.free := rfl

/-! ## `State.onDrive` -/

@[simp] theorem onDrive_pending (f : Supervisor → Supervisor) : (s.onDrive f).pending = s.pending := rfl
@[simp] theorem onDrive_tick (f : Supervisor → Supervisor) : (s.onDrive f).tick = s.tick := rfl
@[simp] theorem onDrive_lines (f : Supervisor → Supervisor) : (s.onDrive f).lines = s.lines := rfl
@[simp] theorem onDrive_map (f : Supervisor → Supervisor) : (s.onDrive f).map = s.map := rfl
@[simp] theorem onDrive_guard (f : Supervisor → Supervisor) : (s.onDrive f).guard = s.guard := rfl
@[simp] theorem onDrive_ports (f : Supervisor → Supervisor) : (s.onDrive f).ports = s.ports := rfl
@[simp] theorem onDrive_queues (f : Supervisor → Supervisor) : (s.onDrive f).queues = s.queues := rfl
@[simp] theorem onDrive_sched (f : Supervisor → Supervisor) : (s.onDrive f).sched = s.sched := rfl
@[simp] theorem onDrive_pos (f : Supervisor → Supervisor) : (s.onDrive f).pos = s.pos := rfl
@[simp] theorem onDrive_buffers (f : Supervisor → Supervisor) : (s.onDrive f).buffers = s.buffers := rfl
@[simp] theorem onDrive_progress (f : Supervisor → Supervisor) : (s.onDrive f).progress = s.progress := rfl
@[simp] theorem onDrive_pass (f : Supervisor → Supervisor) : (s.onDrive f).pass = s.pass := rfl
@[simp] theorem onDrive_drive (f : Supervisor → Supervisor) : (s.onDrive f).drive = f s.drive := rfl
@[simp] theorem onDrive_label (f : Supervisor → Supervisor) : (s.onDrive f).label = s.label := rfl
@[simp] theorem onDrive_alarms (f : Supervisor → Supervisor) : (s.onDrive f).alarms = s.alarms := rfl
@[simp] theorem onDrive_banks (f : Supervisor → Supervisor) : (s.onDrive f).banks = s.banks := rfl
@[simp] theorem onDrive_disk (f : Supervisor → Supervisor) : (s.onDrive f).disk = s.disk := rfl
@[simp] theorem onDrive_free (f : Supervisor → Supervisor) : (s.onDrive f).free = s.free := rfl

/-! ## `State.onLines` -/

@[simp] theorem onLines_pending (f : Lines → Lines) : (s.onLines f).pending = s.pending := rfl
@[simp] theorem onLines_tick (f : Lines → Lines) : (s.onLines f).tick = s.tick := rfl
@[simp] theorem onLines_lines (f : Lines → Lines) : (s.onLines f).lines = f s.lines := rfl
@[simp] theorem onLines_map (f : Lines → Lines) : (s.onLines f).map = s.map := rfl
@[simp] theorem onLines_guard (f : Lines → Lines) : (s.onLines f).guard = s.guard := rfl
@[simp] theorem onLines_ports (f : Lines → Lines) : (s.onLines f).ports = s.ports := rfl
@[simp] theorem onLines_queues (f : Lines → Lines) : (s.onLines f).queues = s.queues := rfl
@[simp] theorem onLines_sched (f : Lines → Lines) : (s.onLines f).sched = s.sched := rfl
@[simp] theorem onLines_pos (f : Lines → Lines) : (s.onLines f).pos = s.pos := rfl
@[simp] theorem onLines_buffers (f : Lines → Lines) : (s.onLines f).buffers = s.buffers := rfl
@[simp] theorem onLines_progress (f : Lines → Lines) : (s.onLines f).progress = s.progress := rfl
@[simp] theorem onLines_pass (f : Lines → Lines) : (s.onLines f).pass = s.pass := rfl
@[simp] theorem onLines_drive (f : Lines → Lines) : (s.onLines f).drive = s.drive := rfl
@[simp] theorem onLines_label (f : Lines → Lines) : (s.onLines f).label = s.label := rfl
@[simp] theorem onLines_alarms (f : Lines → Lines) : (s.onLines f).alarms = s.alarms := rfl
@[simp] theorem onLines_banks (f : Lines → Lines) : (s.onLines f).banks = s.banks := rfl
@[simp] theorem onLines_disk (f : Lines → Lines) : (s.onLines f).disk = s.disk := rfl
@[simp] theorem onLines_free (f : Lines → Lines) : (s.onLines f).free = s.free := rfl

/-! ## `State.count` -/

@[simp] theorem count_pending (p : Port) (c : Counter) : (s.count p c).pending = s.pending := rfl
@[simp] theorem count_tick (p : Port) (c : Counter) : (s.count p c).tick = s.tick := rfl
@[simp] theorem count_lines (p : Port) (c : Counter) : (s.count p c).lines = s.lines := rfl
@[simp] theorem count_map (p : Port) (c : Counter) : (s.count p c).map = s.map := rfl
@[simp] theorem count_guard (p : Port) (c : Counter) : (s.count p c).guard = s.guard := rfl
@[simp] theorem count_ports (p : Port) (c : Counter) : (s.count p c).ports = s.ports := rfl
@[simp] theorem count_queues (p : Port) (c : Counter) : (s.count p c).queues = s.queues := rfl
@[simp] theorem count_sched (p : Port) (c : Counter) : (s.count p c).sched = s.sched := rfl
@[simp] theorem count_pos (p : Port) (c : Counter) : (s.count p c).pos = s.pos := rfl
@[simp] theorem count_buffers (p : Port) (c : Counter) : (s.count p c).buffers = s.buffers := rfl
@[simp] theorem count_progress (p : Port) (c : Counter) : (s.count p c).progress = s.progress := rfl
@[simp] theorem count_pass (p : Port) (c : Counter) : (s.count p c).pass = s.pass := rfl
@[simp] theorem count_drive (p : Port) (c : Counter) : (s.count p c).drive = s.drive := rfl
@[simp] theorem count_label (p : Port) (c : Counter) : (s.count p c).label = s.label := rfl
@[simp] theorem count_alarms (p : Port) (c : Counter) : (s.count p c).alarms = s.alarms := rfl
@[simp] theorem count_banks (p : Port) (c : Counter) : (s.count p c).banks = s.banks.modify p (·.count c) := rfl
@[simp] theorem count_disk (p : Port) (c : Counter) : (s.count p c).disk = s.disk := rfl
@[simp] theorem count_free (p : Port) (c : Counter) : (s.count p c).free = s.free := rfl

/-! ## `State.countBoth` -/

@[simp] theorem countBoth_pending (c : Counter) : (s.countBoth c).pending = s.pending := rfl
@[simp] theorem countBoth_tick (c : Counter) : (s.countBoth c).tick = s.tick := rfl
@[simp] theorem countBoth_lines (c : Counter) : (s.countBoth c).lines = s.lines := rfl
@[simp] theorem countBoth_map (c : Counter) : (s.countBoth c).map = s.map := rfl
@[simp] theorem countBoth_guard (c : Counter) : (s.countBoth c).guard = s.guard := rfl
@[simp] theorem countBoth_ports (c : Counter) : (s.countBoth c).ports = s.ports := rfl
@[simp] theorem countBoth_queues (c : Counter) : (s.countBoth c).queues = s.queues := rfl
@[simp] theorem countBoth_sched (c : Counter) : (s.countBoth c).sched = s.sched := rfl
@[simp] theorem countBoth_pos (c : Counter) : (s.countBoth c).pos = s.pos := rfl
@[simp] theorem countBoth_buffers (c : Counter) : (s.countBoth c).buffers = s.buffers := rfl
@[simp] theorem countBoth_progress (c : Counter) : (s.countBoth c).progress = s.progress := rfl
@[simp] theorem countBoth_pass (c : Counter) : (s.countBoth c).pass = s.pass := rfl
@[simp] theorem countBoth_drive (c : Counter) : (s.countBoth c).drive = s.drive := rfl
@[simp] theorem countBoth_label (c : Counter) : (s.countBoth c).label = s.label := rfl
@[simp] theorem countBoth_alarms (c : Counter) : (s.countBoth c).alarms = s.alarms := rfl
@[simp] theorem countBoth_banks (c : Counter) : (s.countBoth c).banks = ⟨s.banks.a.count c, s.banks.b.count c⟩ := rfl
@[simp] theorem countBoth_disk (c : Counter) : (s.countBoth c).disk = s.disk := rfl
@[simp] theorem countBoth_free (c : Counter) : (s.countBoth c).free = s.free := rfl

/-! ## `State.modSlot` -/

@[simp] theorem modSlot_pending (p : Port) (k : Fin 8) (f : Slot → Slot) :
    (s.modSlot p k f).pending = s.pending := rfl
@[simp] theorem modSlot_tick (p : Port) (k : Fin 8) (f : Slot → Slot) : (s.modSlot p k f).tick = s.tick := rfl
@[simp] theorem modSlot_lines (p : Port) (k : Fin 8) (f : Slot → Slot) : (s.modSlot p k f).lines = s.lines := rfl
@[simp] theorem modSlot_map (p : Port) (k : Fin 8) (f : Slot → Slot) : (s.modSlot p k f).map = s.map := rfl
@[simp] theorem modSlot_guard (p : Port) (k : Fin 8) (f : Slot → Slot) : (s.modSlot p k f).guard = s.guard := rfl
@[simp] theorem modSlot_ports (p : Port) (k : Fin 8) (f : Slot → Slot) : (s.modSlot p k f).ports = s.ports := rfl
@[simp] theorem modSlot_queues (p : Port) (k : Fin 8) (f : Slot → Slot) :
    (s.modSlot p k f).queues = s.queues.modify p fun q => q.put k (q.slots[k].map f) := rfl
@[simp] theorem modSlot_sched (p : Port) (k : Fin 8) (f : Slot → Slot) : (s.modSlot p k f).sched = s.sched := rfl
@[simp] theorem modSlot_pos (p : Port) (k : Fin 8) (f : Slot → Slot) : (s.modSlot p k f).pos = s.pos := rfl
@[simp] theorem modSlot_buffers (p : Port) (k : Fin 8) (f : Slot → Slot) :
    (s.modSlot p k f).buffers = s.buffers := rfl
@[simp] theorem modSlot_progress (p : Port) (k : Fin 8) (f : Slot → Slot) :
    (s.modSlot p k f).progress = s.progress := rfl
@[simp] theorem modSlot_pass (p : Port) (k : Fin 8) (f : Slot → Slot) : (s.modSlot p k f).pass = s.pass := rfl
@[simp] theorem modSlot_drive (p : Port) (k : Fin 8) (f : Slot → Slot) : (s.modSlot p k f).drive = s.drive := rfl
@[simp] theorem modSlot_label (p : Port) (k : Fin 8) (f : Slot → Slot) : (s.modSlot p k f).label = s.label := rfl
@[simp] theorem modSlot_alarms (p : Port) (k : Fin 8) (f : Slot → Slot) : (s.modSlot p k f).alarms = s.alarms := rfl
@[simp] theorem modSlot_banks (p : Port) (k : Fin 8) (f : Slot → Slot) : (s.modSlot p k f).banks = s.banks := rfl
@[simp] theorem modSlot_disk (p : Port) (k : Fin 8) (f : Slot → Slot) : (s.modSlot p k f).disk = s.disk := rfl
@[simp] theorem modSlot_free (p : Port) (k : Fin 8) (f : Slot → Slot) : (s.modSlot p k f).free = s.free := rfl

/-! ## `State.putBuffer` -/

@[simp] theorem putBuffer_pending (b : Fin 4) (x : Buffer) : (s.putBuffer b x).pending = s.pending := rfl
@[simp] theorem putBuffer_tick (b : Fin 4) (x : Buffer) : (s.putBuffer b x).tick = s.tick := rfl
@[simp] theorem putBuffer_lines (b : Fin 4) (x : Buffer) : (s.putBuffer b x).lines = s.lines := rfl
@[simp] theorem putBuffer_map (b : Fin 4) (x : Buffer) : (s.putBuffer b x).map = s.map := rfl
@[simp] theorem putBuffer_guard (b : Fin 4) (x : Buffer) : (s.putBuffer b x).guard = s.guard := rfl
@[simp] theorem putBuffer_ports (b : Fin 4) (x : Buffer) : (s.putBuffer b x).ports = s.ports := rfl
@[simp] theorem putBuffer_queues (b : Fin 4) (x : Buffer) : (s.putBuffer b x).queues = s.queues := rfl
@[simp] theorem putBuffer_sched (b : Fin 4) (x : Buffer) : (s.putBuffer b x).sched = s.sched := rfl
@[simp] theorem putBuffer_pos (b : Fin 4) (x : Buffer) : (s.putBuffer b x).pos = s.pos := rfl
@[simp] theorem putBuffer_buffers (b : Fin 4) (x : Buffer) : (s.putBuffer b x).buffers = s.buffers.set b x := rfl
@[simp] theorem putBuffer_progress (b : Fin 4) (x : Buffer) : (s.putBuffer b x).progress = s.progress := rfl
@[simp] theorem putBuffer_pass (b : Fin 4) (x : Buffer) : (s.putBuffer b x).pass = s.pass := rfl
@[simp] theorem putBuffer_drive (b : Fin 4) (x : Buffer) : (s.putBuffer b x).drive = s.drive := rfl
@[simp] theorem putBuffer_label (b : Fin 4) (x : Buffer) : (s.putBuffer b x).label = s.label := rfl
@[simp] theorem putBuffer_alarms (b : Fin 4) (x : Buffer) : (s.putBuffer b x).alarms = s.alarms := rfl
@[simp] theorem putBuffer_banks (b : Fin 4) (x : Buffer) : (s.putBuffer b x).banks = s.banks := rfl
@[simp] theorem putBuffer_disk (b : Fin 4) (x : Buffer) : (s.putBuffer b x).disk = s.disk := rfl
@[simp] theorem putBuffer_free (b : Fin 4) (x : Buffer) : (s.putBuffer b x).free = s.free := rfl

/-! ## `State.release` -/

@[simp] theorem release_pending (p : Port) (k : Fin 8) (P : BufState → Bool) :
    (s.release p k P).pending = s.pending := rfl
@[simp] theorem release_tick (p : Port) (k : Fin 8) (P : BufState → Bool) : (s.release p k P).tick = s.tick := rfl
@[simp] theorem release_lines (p : Port) (k : Fin 8) (P : BufState → Bool) : (s.release p k P).lines = s.lines := rfl
@[simp] theorem release_map (p : Port) (k : Fin 8) (P : BufState → Bool) : (s.release p k P).map = s.map := rfl
@[simp] theorem release_guard (p : Port) (k : Fin 8) (P : BufState → Bool) : (s.release p k P).guard = s.guard := rfl
@[simp] theorem release_ports (p : Port) (k : Fin 8) (P : BufState → Bool) : (s.release p k P).ports = s.ports := rfl
@[simp] theorem release_queues (p : Port) (k : Fin 8) (P : BufState → Bool) :
    (s.release p k P).queues = s.queues := rfl
@[simp] theorem release_sched (p : Port) (k : Fin 8) (P : BufState → Bool) : (s.release p k P).sched = s.sched := rfl
@[simp] theorem release_pos (p : Port) (k : Fin 8) (P : BufState → Bool) : (s.release p k P).pos = s.pos := rfl
@[simp] theorem release_progress (p : Port) (k : Fin 8) (P : BufState → Bool) :
    (s.release p k P).progress = s.progress := rfl
@[simp] theorem release_pass (p : Port) (k : Fin 8) (P : BufState → Bool) : (s.release p k P).pass = s.pass := rfl
@[simp] theorem release_drive (p : Port) (k : Fin 8) (P : BufState → Bool) : (s.release p k P).drive = s.drive := rfl
@[simp] theorem release_label (p : Port) (k : Fin 8) (P : BufState → Bool) : (s.release p k P).label = s.label := rfl
@[simp] theorem release_alarms (p : Port) (k : Fin 8) (P : BufState → Bool) :
    (s.release p k P).alarms = s.alarms := rfl
@[simp] theorem release_banks (p : Port) (k : Fin 8) (P : BufState → Bool) : (s.release p k P).banks = s.banks := rfl
@[simp] theorem release_disk (p : Port) (k : Fin 8) (P : BufState → Bool) : (s.release p k P).disk = s.disk := rfl
@[simp] theorem release_free (p : Port) (k : Fin 8) (P : BufState → Bool) : (s.release p k P).free = s.free := rfl

/-! ## `State.putSector` -/

@[simp] theorem putSector_pending (x : Addr) (y : Sector) : (s.putSector x y).pending = s.pending := rfl
@[simp] theorem putSector_tick (x : Addr) (y : Sector) : (s.putSector x y).tick = s.tick := rfl
@[simp] theorem putSector_lines (x : Addr) (y : Sector) : (s.putSector x y).lines = s.lines := rfl
@[simp] theorem putSector_map (x : Addr) (y : Sector) : (s.putSector x y).map = s.map := rfl
@[simp] theorem putSector_guard (x : Addr) (y : Sector) : (s.putSector x y).guard = s.guard := rfl
@[simp] theorem putSector_ports (x : Addr) (y : Sector) : (s.putSector x y).ports = s.ports := rfl
@[simp] theorem putSector_queues (x : Addr) (y : Sector) : (s.putSector x y).queues = s.queues := rfl
@[simp] theorem putSector_sched (x : Addr) (y : Sector) : (s.putSector x y).sched = s.sched := rfl
@[simp] theorem putSector_pos (x : Addr) (y : Sector) : (s.putSector x y).pos = s.pos := rfl
@[simp] theorem putSector_buffers (x : Addr) (y : Sector) : (s.putSector x y).buffers = s.buffers := rfl
@[simp] theorem putSector_progress (x : Addr) (y : Sector) : (s.putSector x y).progress = s.progress := rfl
@[simp] theorem putSector_pass (x : Addr) (y : Sector) : (s.putSector x y).pass = s.pass := rfl
@[simp] theorem putSector_drive (x : Addr) (y : Sector) : (s.putSector x y).drive = s.drive := rfl
@[simp] theorem putSector_label (x : Addr) (y : Sector) : (s.putSector x y).label = s.label := rfl
@[simp] theorem putSector_alarms (x : Addr) (y : Sector) : (s.putSector x y).alarms = s.alarms := rfl
@[simp] theorem putSector_banks (x : Addr) (y : Sector) : (s.putSector x y).banks = s.banks := rfl
@[simp] theorem putSector_disk (x : Addr) (y : Sector) :
    (s.putSector x y).disk = Cartridge.put s.disk x.linear y := rfl
@[simp] theorem putSector_free (x : Addr) (y : Sector) : (s.putSector x y).free = s.free := rfl

/-! ## `State.setLabel` -/

@[simp] theorem setLabel_pending (l : Label) : (s.setLabel l).pending = s.pending := rfl
@[simp] theorem setLabel_tick (l : Label) : (s.setLabel l).tick = s.tick := rfl
@[simp] theorem setLabel_lines (l : Label) : (s.setLabel l).lines = s.lines := rfl
@[simp] theorem setLabel_map (l : Label) : (s.setLabel l).map = s.map := rfl
@[simp] theorem setLabel_guard (l : Label) : (s.setLabel l).guard = s.guard := rfl
@[simp] theorem setLabel_ports (l : Label) : (s.setLabel l).ports = s.ports := rfl
@[simp] theorem setLabel_queues (l : Label) : (s.setLabel l).queues = s.queues := rfl
@[simp] theorem setLabel_sched (l : Label) : (s.setLabel l).sched = s.sched := rfl
@[simp] theorem setLabel_pos (l : Label) : (s.setLabel l).pos = s.pos := rfl
@[simp] theorem setLabel_buffers (l : Label) : (s.setLabel l).buffers = s.buffers := rfl
@[simp] theorem setLabel_progress (l : Label) : (s.setLabel l).progress = s.progress := rfl
@[simp] theorem setLabel_pass (l : Label) : (s.setLabel l).pass = s.pass := rfl
@[simp] theorem setLabel_drive (l : Label) : (s.setLabel l).drive = s.drive := rfl
@[simp] theorem setLabel_label (l : Label) : (s.setLabel l).label = l := rfl
@[simp] theorem setLabel_alarms (l : Label) : (s.setLabel l).alarms = s.alarms := rfl
@[simp] theorem setLabel_banks (l : Label) : (s.setLabel l).banks = s.banks := rfl
@[simp] theorem setLabel_disk (l : Label) : (s.setLabel l).disk = s.disk := rfl
@[simp] theorem setLabel_free (l : Label) : (s.setLabel l).free = s.free := rfl

/-! ## `State.latch` -/

@[simp] theorem latch_pending (x : Source) : (s.latch x).pending = s.pending := rfl
@[simp] theorem latch_tick (x : Source) : (s.latch x).tick = s.tick := rfl
@[simp] theorem latch_lines (x : Source) : (s.latch x).lines = s.lines := rfl
@[simp] theorem latch_map (x : Source) : (s.latch x).map = s.map := rfl
@[simp] theorem latch_guard (x : Source) : (s.latch x).guard = s.guard := rfl
@[simp] theorem latch_ports (x : Source) : (s.latch x).ports = s.ports := rfl
@[simp] theorem latch_queues (x : Source) : (s.latch x).queues = s.queues := rfl
@[simp] theorem latch_sched (x : Source) : (s.latch x).sched = s.sched := rfl
@[simp] theorem latch_pos (x : Source) : (s.latch x).pos = s.pos := rfl
@[simp] theorem latch_buffers (x : Source) : (s.latch x).buffers = s.buffers := rfl
@[simp] theorem latch_progress (x : Source) : (s.latch x).progress = s.progress := rfl
@[simp] theorem latch_pass (x : Source) : (s.latch x).pass = s.pass := rfl
@[simp] theorem latch_drive (x : Source) : (s.latch x).drive = s.drive := rfl
@[simp] theorem latch_label (x : Source) : (s.latch x).label = s.label := rfl
@[simp] theorem latch_alarms (x : Source) :
    (s.latch x).alarms = { s.alarms with latched := s.alarms.latched.put x true, acked := s.alarms.acked.put x false } := rfl
@[simp] theorem latch_banks (x : Source) : (s.latch x).banks = s.banks := rfl
@[simp] theorem latch_disk (x : Source) : (s.latch x).disk = s.disk := rfl
@[simp] theorem latch_free (x : Source) : (s.latch x).free = s.free := rfl

/-! ## `State.judgeAlarm` -/

@[simp] theorem judgeAlarm_pending : (s.judgeAlarm).pending = s.pending := rfl
@[simp] theorem judgeAlarm_tick : (s.judgeAlarm).tick = s.tick := rfl
@[simp] theorem judgeAlarm_lines : (s.judgeAlarm).lines = s.lines := rfl
@[simp] theorem judgeAlarm_map : (s.judgeAlarm).map = s.map := rfl
@[simp] theorem judgeAlarm_guard : (s.judgeAlarm).guard = s.guard := rfl
@[simp] theorem judgeAlarm_ports : (s.judgeAlarm).ports = s.ports := rfl
@[simp] theorem judgeAlarm_queues : (s.judgeAlarm).queues = s.queues := rfl
@[simp] theorem judgeAlarm_sched : (s.judgeAlarm).sched = s.sched := rfl
@[simp] theorem judgeAlarm_pos : (s.judgeAlarm).pos = s.pos := rfl
@[simp] theorem judgeAlarm_buffers : (s.judgeAlarm).buffers = s.buffers := rfl
@[simp] theorem judgeAlarm_progress : (s.judgeAlarm).progress = s.progress := rfl
@[simp] theorem judgeAlarm_pass : (s.judgeAlarm).pass = s.pass := rfl
@[simp] theorem judgeAlarm_drive : (s.judgeAlarm).drive = s.drive := rfl
@[simp] theorem judgeAlarm_label : (s.judgeAlarm).label = s.label := rfl
@[simp] theorem judgeAlarm_banks : (s.judgeAlarm).banks = s.banks := rfl
@[simp] theorem judgeAlarm_disk : (s.judgeAlarm).disk = s.disk := rfl
@[simp] theorem judgeAlarm_free : (s.judgeAlarm).free = s.free := rfl

/-! ## `State.setProgress` -/

@[simp] theorem setProgress_pending (n : Nat) (d : Option Nat) (st : Stage) :
    (s.setProgress n d st).pending = s.pending := rfl
@[simp] theorem setProgress_tick (n : Nat) (d : Option Nat) (st : Stage) : (s.setProgress n d st).tick = s.tick := rfl
@[simp] theorem setProgress_lines (n : Nat) (d : Option Nat) (st : Stage) :
    (s.setProgress n d st).lines = s.lines := rfl
@[simp] theorem setProgress_map (n : Nat) (d : Option Nat) (st : Stage) : (s.setProgress n d st).map = s.map := rfl
@[simp] theorem setProgress_guard (n : Nat) (d : Option Nat) (st : Stage) :
    (s.setProgress n d st).guard = s.guard := rfl
@[simp] theorem setProgress_ports (n : Nat) (d : Option Nat) (st : Stage) :
    (s.setProgress n d st).ports = s.ports := rfl
@[simp] theorem setProgress_queues (n : Nat) (d : Option Nat) (st : Stage) :
    (s.setProgress n d st).queues = s.queues := rfl
@[simp] theorem setProgress_sched (n : Nat) (d : Option Nat) (st : Stage) :
    (s.setProgress n d st).sched = s.sched := rfl
@[simp] theorem setProgress_pos (n : Nat) (d : Option Nat) (st : Stage) : (s.setProgress n d st).pos = s.pos := rfl
@[simp] theorem setProgress_buffers (n : Nat) (d : Option Nat) (st : Stage) :
    (s.setProgress n d st).buffers = s.buffers := rfl
@[simp] theorem setProgress_progress (n : Nat) (d : Option Nat) (st : Stage) :
    (s.setProgress n d st).progress = some ⟨n, d, 0, st⟩ := rfl
@[simp] theorem setProgress_pass (n : Nat) (d : Option Nat) (st : Stage) : (s.setProgress n d st).pass = s.pass := rfl
@[simp] theorem setProgress_drive (n : Nat) (d : Option Nat) (st : Stage) :
    (s.setProgress n d st).drive = s.drive := rfl
@[simp] theorem setProgress_label (n : Nat) (d : Option Nat) (st : Stage) :
    (s.setProgress n d st).label = s.label := rfl
@[simp] theorem setProgress_alarms (n : Nat) (d : Option Nat) (st : Stage) :
    (s.setProgress n d st).alarms = s.alarms := rfl
@[simp] theorem setProgress_banks (n : Nat) (d : Option Nat) (st : Stage) :
    (s.setProgress n d st).banks = s.banks := rfl
@[simp] theorem setProgress_disk (n : Nat) (d : Option Nat) (st : Stage) : (s.setProgress n d st).disk = s.disk := rfl
@[simp] theorem setProgress_free (n : Nat) (d : Option Nat) (st : Stage) : (s.setProgress n d st).free = s.free := rfl

/-! ## `State.setPass` -/

@[simp] theorem setPass_pending (x : PassKind) (a : Addr) (v : Verdict) (ws : List Word) :
    (s.setPass x a v ws).pending = s.pending := rfl
@[simp] theorem setPass_tick (x : PassKind) (a : Addr) (v : Verdict) (ws : List Word) :
    (s.setPass x a v ws).tick = s.tick := rfl
@[simp] theorem setPass_lines (x : PassKind) (a : Addr) (v : Verdict) (ws : List Word) :
    (s.setPass x a v ws).lines = s.lines := rfl
@[simp] theorem setPass_map (x : PassKind) (a : Addr) (v : Verdict) (ws : List Word) :
    (s.setPass x a v ws).map = s.map := rfl
@[simp] theorem setPass_guard (x : PassKind) (a : Addr) (v : Verdict) (ws : List Word) :
    (s.setPass x a v ws).guard = s.guard := rfl
@[simp] theorem setPass_ports (x : PassKind) (a : Addr) (v : Verdict) (ws : List Word) :
    (s.setPass x a v ws).ports = s.ports := rfl
@[simp] theorem setPass_queues (x : PassKind) (a : Addr) (v : Verdict) (ws : List Word) :
    (s.setPass x a v ws).queues = s.queues := rfl
@[simp] theorem setPass_sched (x : PassKind) (a : Addr) (v : Verdict) (ws : List Word) :
    (s.setPass x a v ws).sched = s.sched := rfl
@[simp] theorem setPass_pos (x : PassKind) (a : Addr) (v : Verdict) (ws : List Word) :
    (s.setPass x a v ws).pos = s.pos := rfl
@[simp] theorem setPass_buffers (x : PassKind) (a : Addr) (v : Verdict) (ws : List Word) :
    (s.setPass x a v ws).buffers = s.buffers := rfl
@[simp] theorem setPass_progress (x : PassKind) (a : Addr) (v : Verdict) (ws : List Word) :
    (s.setPass x a v ws).progress = s.progress := rfl
@[simp] theorem setPass_pass (x : PassKind) (a : Addr) (v : Verdict) (ws : List Word) :
    (s.setPass x a v ws).pass = some ⟨x, a, v, ws⟩ := rfl
@[simp] theorem setPass_drive (x : PassKind) (a : Addr) (v : Verdict) (ws : List Word) :
    (s.setPass x a v ws).drive = s.drive := rfl
@[simp] theorem setPass_label (x : PassKind) (a : Addr) (v : Verdict) (ws : List Word) :
    (s.setPass x a v ws).label = s.label := rfl
@[simp] theorem setPass_alarms (x : PassKind) (a : Addr) (v : Verdict) (ws : List Word) :
    (s.setPass x a v ws).alarms = s.alarms := rfl
@[simp] theorem setPass_banks (x : PassKind) (a : Addr) (v : Verdict) (ws : List Word) :
    (s.setPass x a v ws).banks = s.banks := rfl
@[simp] theorem setPass_disk (x : PassKind) (a : Addr) (v : Verdict) (ws : List Word) :
    (s.setPass x a v ws).disk = s.disk := rfl
@[simp] theorem setPass_free (x : PassKind) (a : Addr) (v : Verdict) (ws : List Word) :
    (s.setPass x a v ws).free = s.free := rfl

/-! ## `State.setActive` -/

@[simp] theorem setActive_pending (m : Plan) (o : Origin) : (s.setActive m o).pending = s.pending := rfl
@[simp] theorem setActive_tick (m : Plan) (o : Origin) : (s.setActive m o).tick = s.tick := rfl
@[simp] theorem setActive_lines (m : Plan) (o : Origin) : (s.setActive m o).lines = s.lines := rfl
@[simp] theorem setActive_map (m : Plan) (o : Origin) :
    (s.setActive m o).map = { s.map with active := m, origin := o } := rfl
@[simp] theorem setActive_guard (m : Plan) (o : Origin) : (s.setActive m o).guard = s.guard := rfl
@[simp] theorem setActive_ports (m : Plan) (o : Origin) : (s.setActive m o).ports = s.ports := rfl
@[simp] theorem setActive_queues (m : Plan) (o : Origin) : (s.setActive m o).queues = s.queues := rfl
@[simp] theorem setActive_sched (m : Plan) (o : Origin) : (s.setActive m o).sched = s.sched := rfl
@[simp] theorem setActive_pos (m : Plan) (o : Origin) : (s.setActive m o).pos = s.pos := rfl
@[simp] theorem setActive_buffers (m : Plan) (o : Origin) : (s.setActive m o).buffers = s.buffers := rfl
@[simp] theorem setActive_progress (m : Plan) (o : Origin) : (s.setActive m o).progress = s.progress := rfl
@[simp] theorem setActive_pass (m : Plan) (o : Origin) : (s.setActive m o).pass = s.pass := rfl
@[simp] theorem setActive_drive (m : Plan) (o : Origin) : (s.setActive m o).drive = s.drive := rfl
@[simp] theorem setActive_label (m : Plan) (o : Origin) : (s.setActive m o).label = s.label := rfl
@[simp] theorem setActive_alarms (m : Plan) (o : Origin) : (s.setActive m o).alarms = s.alarms := rfl
@[simp] theorem setActive_banks (m : Plan) (o : Origin) : (s.setActive m o).banks = s.banks := rfl
@[simp] theorem setActive_disk (m : Plan) (o : Origin) : (s.setActive m o).disk = s.disk := rfl
@[simp] theorem setActive_free (m : Plan) (o : Origin) : (s.setActive m o).free = s.free := rfl

/-! ## Items of a port -/

@[simp] theorem get_modify_same {α : Type} (x : PerPort α) (p : Port) (f : α → α) :
    (x.modify p f).get p = f (x.get p) := by cases p <;> rfl

theorem get_modify_other {α : Type} (x : PerPort α) (p q : Port) (f : α → α) (h : q ≠ p) :
    (x.modify p f).get q = x.get q := by cases p <;> cases q <;> first | rfl | exact absurd rfl h

theorem get_modify {α : Type} (x : PerPort α) (p q : Port) (f : α → α) :
    (x.modify p f).get q = if q = p then f (x.get p) else x.get q := by
  split
  · next h => subst h; simp
  · next h => exact get_modify_other x p q f h

@[simp] theorem get_other_modify {α : Type} (x : PerPort α) (p : Port) (f : α → α) :
    (x.modify p f).get p.other = x.get p.other := by cases p <;> rfl

theorem other_ne (p : Port) : p.other ≠ p := by cases p <;> decide

/-! ## Slots -/

@[simp] theorem put_order (q : Queue) (k : Fin 8) (o : Option Slot) : (q.put k o).order = q.order := rfl
@[simp] theorem put_replies (q : Queue) (k : Fin 8) (o : Option Slot) : (q.put k o).replies = q.replies := rfl

theorem put_slots (q : Queue) (k j : Fin 8) (o : Option Slot) :
    (q.put k o).slots[j] = if j = k then o else q.slots[j] := by
  simp only [Queue.put, Fin.getElem_fin, Vector.getElem_set, Fin.ext_iff, eq_comm]

theorem drop_slots (q : Queue) (k j : Fin 8) : (q.drop k).slots[j] = if j = k then none else q.slots[j] := by
  simp only [Queue.drop, Fin.getElem_fin, Vector.getElem_set, Fin.ext_iff, eq_comm]

theorem enter_slots (q : Queue) (k j : Fin 8) (sl : Slot) :
    (q.enter k sl).slots[j] = if j = k then some sl else q.slots[j] := by
  simp only [Queue.enter, Fin.getElem_fin, Vector.getElem_set, Fin.ext_iff, eq_comm]

@[simp] theorem answer_slots (q : Queue) (k : Fin 8) : (q.answer k).slots = q.slots := rfl
@[simp] theorem answer_order (q : Queue) (k : Fin 8) : (q.answer k).order = q.order := rfl
@[simp] theorem answer_replies (q : Queue) (k : Fin 8) : (q.answer k).replies = q.replies ++ [k] := rfl
@[simp] theorem enter_order (q : Queue) (k : Fin 8) (sl : Slot) : (q.enter k sl).order = q.order ++ [k] := rfl
@[simp] theorem enter_replies (q : Queue) (k : Fin 8) (sl : Slot) : (q.enter k sl).replies = q.replies := rfl
@[simp] theorem drop_order (q : Queue) (k : Fin 8) : (q.drop k).order = q.order.erase k := rfl
@[simp] theorem drop_replies (q : Queue) (k : Fin 8) : (q.drop k).replies = q.replies.erase k := rfl

/-- A slot's record is read from its port's queue. -/
theorem slot_eq (p : Port) (k : Fin 8) : s.slot p k = (s.queues.get p).slots[k] := rfl

/-- A slot's record after its queue was changed. -/
theorem slot_onQueue (p q : Port) (f : Queue → Queue) (k : Fin 8) :
    (s.onQueue p f).slot q k = if q = p then (f (s.queues.get p)).slots[k] else s.slot q k := by
  simp only [State.slot, onQueue_queues, get_modify]; split <;> rfl

/-- A slot's record after one slot's record was changed: only that slot's, and only where it is live. -/
theorem slot_modSlot (p q : Port) (k j : Fin 8) (f : Slot → Slot) :
    (s.modSlot p k f).slot q j = if q = p ∧ j = k then (s.slot p k).map f else s.slot q j := by
  unfold State.modSlot
  rw [slot_onQueue]
  by_cases h : q = p
  · subst h
    simp only [if_true, put_slots, true_and]
    split <;> simp [State.slot, *]
  · simp [h]

@[simp] theorem slot_modSlot_same (p : Port) (k : Fin 8) (f : Slot → Slot) :
    (s.modSlot p k f).slot p k = (s.slot p k).map f := by simp [slot_modSlot]

theorem slot_of_queues (t : State) (h : t.queues = s.queues) (p : Port) (k : Fin 8) :
    t.slot p k = s.slot p k := by simp [State.slot, h]

/-! ## Counters (R168) -/

theorem bump_bound (n : Nat) : bump n ≤ 4294967295 := Nat.min_le_right _ _

theorem le_bump (n : Nat) (h : n ≤ 4294967295) : n ≤ bump n := by unfold bump; omega

@[simp] theorem count_snap (x : Bank) (c : Counter) : (x.count c).snap = x.snap := rfl
@[simp] theorem count_capture (x : Bank) (c : Counter) : (x.count c).capture = x.capture := rfl

/-- Counting raises one counter of the live set by 1, up to the ceiling, and leaves every other. -/
theorem count_live (x : Bank) (c : Counter) (i : Fin 26) :
    (x.count c).live[i] = if i = c.idx then bump x.live[i] else x.live[i] := by
  simp only [Bank.count, Fin.getElem_fin, Vector.getElem_set, Fin.ext_iff]
  by_cases h : c.idx.val = i.val
  · simp [h]
  · have h' : ¬ i.val = c.idx.val := fun e => h e.symm
    simp [h, h']

/-! ## Source flags (R163) -/

@[simp] theorem get_put_same (f : SourceSet) (x : Source) (v : Bool) : (f.put x v).get x = v := by cases x <;> rfl

theorem get_put_other (f : SourceSet) (x y : Source) (v : Bool) (h : y ≠ x) : (f.put x v).get y = f.get y := by
  cases x <;> cases y <;> first | rfl | exact absurd rfl h

@[simp] theorem get_of (f : Source → Bool) (x : Source) : (SourceSet.of f).get x = f x := by cases x <;> rfl

end Sys2Proof.Machine
end

