-- ==== Sys2Proof/Laws/Slots.lean ====
section
/-! SUPPORT. What the searches over slots give: the order in service, the suspended order, the slot of a tag, a FREE
slot, and the candidates of a selection. -/

namespace Sys2Proof.Machine

-- Every thread of the checker reserves a whole stack: these many short proofs are checked one after another.
set_option Elab.async false

variable {s : State} {p : Port} {k : Fin 8} {sl : Slot}

theorem mem_slotNumbers (k : Fin 8) : k ∈ slotNumbers := by revert k; decide

/-- A search of a queue answers a live slot whose record has the property. -/
theorem find_some {q : Queue} {P : Slot → Bool} (h : q.find P = some (k, sl)) : q.slots[k] = some sl ∧ P sl = true := by
  obtain ⟨j, -, hj⟩ := List.exists_of_findSome?_eq_some h
  split at hj
  · next x e =>
    split at hj
    · next hp => cases hj; exact ⟨e, hp⟩
    · cases hj
  · cases hj

/-- A search of a queue that answers nothing: no live slot's record has the property. -/
theorem find_none {q : Queue} {P : Slot → Bool} (h : q.find P = none) (k : Fin 8) (sl : Slot)
    (hk : q.slots[k] = some sl) : P sl = false := by
  have := List.findSome?_eq_none_iff.mp h k (mem_slotNumbers k)
  simpa [hk] using this

theorem findSlot_some {P : Slot → Bool} (h : s.findSlot P = some (p, k, sl)) : s.slot p k = some sl ∧ P sl = true := by
  unfold State.findSlot at h
  split at h
  · next e => cases h; exact find_some e
  · next e =>
    obtain ⟨x, hx, hy⟩ := Option.map_eq_some_iff.mp h
    cases hy; exact find_some hx

theorem findSlot_none {P : Slot → Bool} (h : s.findSlot P = none) (p : Port) (k : Fin 8) (sl : Slot)
    (hk : s.slot p k = some sl) : P sl = false := by
  unfold State.findSlot at h
  split at h
  · cases h
  · next e => cases p with
    | a => exact find_none e k sl hk
    | b => exact find_none (Option.map_eq_none_iff.mp h) k sl hk

/-- The order in service is a slot whose record says so (R91). -/
theorem inService_some (h : s.inService = some (p, k, sl)) : s.slot p k = some sl ∧ sl.state = .inService := by
  have := findSlot_some h; simpa using this

theorem inService_none (h : s.inService = none) (p : Port) (k : Fin 8) (sl : Slot) (hk : s.slot p k = some sl) :
    sl.state ≠ .inService := by
  have := findSlot_none h p k sl hk; simpa using this

theorem suspended_some (h : s.suspended = some (p, k, sl)) : s.slot p k = some sl ∧ sl.state = .suspended := by
  have := findSlot_some h; simpa using this

theorem suspended_none (h : s.suspended = none) (p : Port) (k : Fin 8) (sl : Slot) (hk : s.slot p k = some sl) :
    sl.state ≠ .suspended := by
  have := findSlot_none h p k sl hk; simpa using this

theorem tagged_some {tag : Byte} (h : (s.queues.get p).tagged tag = some (k, sl)) :
    s.slot p k = some sl ∧ sl.tag = tag := by have := find_some h; simpa [State.slot] using this

theorem tagged_none {q : Queue} {tag : Byte} (h : q.tagged tag = none) (k : Fin 8) (sl : Slot)
    (hk : q.slots[k] = some sl) : sl.tag ≠ tag := by have := find_none h k sl hk; simpa using this

/-- The free slot found is FREE. -/
theorem freeSlot_some {q : Queue} (h : q.freeSlot = some k) : q.slots[k] = none := by
  have := List.find?_some h; simpa using this

/-! ## Candidates (R71 to R73) -/

theorem mem_ordered {q : Queue} (h : (k, sl) ∈ q.ordered) : k ∈ q.order ∧ q.slots[k] = some sl := by
  obtain ⟨j, hj, e⟩ := List.mem_filterMap.mp h
  obtain ⟨x, hx, e'⟩ := Option.map_eq_some_iff.mp e
  cases e'; exact ⟨hj, hx⟩

theorem mem_withOlder {older l : List (Fin 8 × Slot)} {x : (Fin 8 × Slot) × List (Fin 8 × Slot)}
    (h : x ∈ withOlder older l) : x.1 ∈ l := by
  induction l generalizing older with
  | nil => cases h
  | cons y rest ih =>
    rcases List.mem_cons.mp h with h | h
    · subst h; exact List.mem_cons_self
    · exact List.mem_cons_of_mem _ (ih h)

theorem mem_promptOffers (h : (k, sl) ∈ s.promptOffers p) :
    s.slot p k = some sl ∧ sl.state = .queued ∧ sl.prompt = true := by
  obtain ⟨x, hx, e⟩ := List.mem_map.mp h
  obtain ⟨hx, c⟩ := List.mem_filter.mp hx
  have := mem_ordered (e ▸ mem_withOlder hx)
  simp only [Bool.and_eq_true, decide_eq_true_eq, e] at c
  exact ⟨this.2, c.1.1.1, c.1.1.2⟩

theorem earliestDue_mem {l : List (Fin 8 × Slot)} {x : Fin 8 × Slot} (h : earliestDue l = some x) : x ∈ l := by
  cases l with
  | nil => cases h
  | cons y rest =>
    simp only [earliestDue, Option.some.injEq] at h
    have main : ∀ (r : List (Fin 8 × Slot)) (b : Fin 8 × Slot),
        r.foldl (fun best y => if signedDiff y.2.due best.2.due < 0 then y else best) b ∈ b :: r := by
      intro r
      induction r with
      | nil => intro b; simp
      | cons z r ih =>
        intro b
        rw [List.foldl_cons]
        have := ih (if signedDiff z.2.due b.2.due < 0 then z else b)
        rcases List.mem_cons.mp this with e | e
        · rw [e]; split <;> simp
        · exact List.mem_cons_of_mem _ (List.mem_cons_of_mem _ e)
    exact h ▸ main rest y

/-- A PROMPT candidate is a QUEUED PROMPT order of its port (R71). -/
theorem promptCandidate_some (h : s.promptCandidate p = some (k, sl)) :
    s.slot p k = some sl ∧ sl.state = .queued ∧ sl.prompt = true := mem_promptOffers (earliestDue_mem h)

/-- The choice of step 1 is a QUEUED PROMPT order (R79). -/
theorem stepOne_some {cyl pos : Nat} (h : s.stepOne cyl pos = some (p, k, sl)) :
    s.slot p k = some sl ∧ sl.state = .queued ∧ sl.prompt = true := by
  unfold State.stepOne at h
  split at h
  · cases h
  · next e _ => cases h; exact promptCandidate_some e
  · next e => cases h; exact promptCandidate_some e
  · next ea eb =>
    dsimp only at h
    split at h
    · cases h; exact promptCandidate_some ea
    · split at h
      · cases h; exact promptCandidate_some eb
      · split at h
        · cases h; exact promptCandidate_some eb
        · cases h; exact promptCandidate_some ea

/-- The suspended candidate is the SUSPENDED order (R72). -/
theorem suspendedCandidate_some (h : s.suspendedCandidate = some (p, k, sl)) :
    s.slot p k = some sl ∧ sl.state = .suspended := by
  unfold State.suspendedCandidate at h
  split at h
  · next e =>
    split at h
    · cases h
    · cases h; exact suspended_some e
  · cases h

/-- A ROUTINE head is a QUEUED ROUTINE order (R72). -/
theorem routineHead_some (h : s.routineHead p = some (k, sl)) :
    s.slot p k = some sl ∧ sl.state = .queued ∧ sl.prompt = false := by
  unfold State.routineHead at h
  split at h
  · cases h
  · next x older e =>
    have hx := List.find?_some e
    have hm := mem_withOlder (List.mem_of_find?_eq_some e)
    split at h
    · cases h
    · split at h
      · cases h
      · split at h
        · cases h
        · cases h
          simp only [Bool.and_eq_true, decide_eq_true_eq, Bool.not_eq_true'] at hx
          exact ⟨(mem_ordered hm).2, hx.1, hx.2⟩

/-- The choice of step 3 is a QUEUED ROUTINE order (R81). -/
theorem stepThree_some {cyl pos : Nat} (h : s.stepThree cyl pos = some (p, k, sl)) :
    s.slot p k = some sl ∧ sl.state = .queued ∧ sl.prompt = false := by
  unfold State.stepThree at h
  split at h
  · cases h
  · next e _ => cases h; exact routineHead_some e
  · next e => cases h; exact routineHead_some e
  · next ea eb =>
    dsimp only at h
    repeat' split at h
    all_goals first
      | (cases h; exact routineHead_some ea)
      | (cases h; exact routineHead_some eb)

end Sys2Proof.Machine
end

