-- ==== Sys2Proof/Laws/Moves.lean ====
section
/-! SUPPORT. The moves a command is made of. `Move` lists every elementary change that the endings, the scheduler, the
positioner, the supervisor and the engine make to the state, each with what is known when it is made, and `Path` is a
sequence of moves; `Act` lists the changes that a command itself makes beside them. What holds of every move holds of
every operation that is a path (Paths.lean), and what holds of acts too holds of every command (Runs.lean). -/

namespace Sys2Proof.Machine

-- Every thread of the checker reserves a whole stack: these many short proofs are checked one after another.
set_option Elab.async false

/-- The items of the positioner that pulses alone change: the rotational position and the speed monitor. -/
def Positioner.turn (x : Positioner) : Nat × Nat × Bool × Option Tick × Int × Nat × Nat × Bool × Bool :=
  (x.sc, x.t, x.valid, x.lastIndex, x.revLength, x.outRun, x.inRun, x.inBand, x.extra)

/-- One elementary change of the state below the commands. -/
inductive Move : State → State → Prop
  /-- the positioner changes, the items that pulses change stay -/
  | pos (s : State) (f : Positioner → Positioner) (h : ∀ x, (f x).turn = x.turn) : Move s (s.onPos f)
  | drive (s : State) (f : Supervisor → Supervisor) : Move s (s.onDrive f)
  /-- the drive drops on-cylinder -/
  | offCylinder (s : State) : Move s { s with lines := { s.lines with onCylinder := false } }
  | count (s : State) (p : Port) (c : Counter) : Move s (s.count p c)
  | countBoth (s : State) (c : Counter) : Move s (s.countBoth c)
  /-- a live slot's record changes, its tag, state and urgency stay -/
  | record (s : State) (p : Port) (k : Fin 8) (f : Slot → Slot)
      (h : ∀ x, s.slot p k = some x → (f x).tag = x.tag ∧ (f x).state = x.state ∧ (f x).prompt = x.prompt) :
      Move s (s.modSlot p k f)
  /-- a waiting order becomes IN SERVICE while none is -/
  | serve (s : State) (p : Port) (k : Fin 8) (sl : Slot) (h : s.slot p k = some sl)
      (hw : sl.state = .queued ∨ sl.state = .suspended) (hn : s.inService = none) :
      Move s (s.modSlot p k fun x => { x with state := .inService })
  /-- the ROUTINE order IN SERVICE becomes SUSPENDED, while none is, and a QUEUED order takes its place -/
  | replace (s : State) (p q : Port) (k j : Fin 8) (sl x : Slot) (h : s.slot p k = some sl)
      (hs : sl.state = .inService) (hr : sl.prompt = false) (hn : s.suspended = none) (hx : s.slot q j = some x)
      (hq : x.state = .queued) :
      Move s ((s.modSlot p k fun x => { x with state := .suspended }).modSlot q j fun x => { x with state := .inService })
  /-- the order IN SERVICE becomes DRAINING -/
  | drain (s : State) (p : Port) (k : Fin 8) (e : Ending) (fa : Option Addr) (sl : Slot) (h : s.slot p k = some sl)
      (hs : sl.state = .inService) :
      Move s (s.modSlot p k fun x =>
        { x with state := .draining, outcome := some e, faultAddr := fa, drainStart := some s.tick })
  /-- a live slot that is not DONE ends: it becomes DONE and joins the reply list, or FREE if it was withdrawn -/
  | finish (s : State) (p : Port) (k : Fin 8) (e : Ending) (fa : Option Addr) (sl : Slot) (h : s.slot p k = some sl)
      (hs : sl.state ≠ .done) : Move s (s.onQueue p fun q => q.finish k e fa)
  /-- a slot becomes FREE -/
  | drop (s : State) (p : Port) (k : Fin 8) : Move s (s.onQueue p (·.drop k))
  /-- the buffers change, none becoming FREE with an owner -/
  | buffers (s : State) (v : Vector Buffer 4) (h : s.bufferLaw → ({ s with buffers := v } : State).bufferLaw) :
      Move s { s with buffers := v }
  | progress (s : State) (g : Option Progress) : Move s { s with progress := g }
  | pass (s : State) (q : Option Pass) : Move s { s with pass := q }
  | granted (s : State) (p : Port) : Move s { s with sched := { s.sched with last := p } }
  | bypass (s : State) (p : Port) : Move s { s with sched := { s.sched with bypass := s.bypassAfter p } }
  | label (s : State) (l : Label) : Move s (s.setLabel l)
  | latch (s : State) (x : Source) : Move s (s.latch x)
  /-- the alarm line changes, every flag stays -/
  | alarms (s : State) (x : Alarms) (h : x.latched = s.alarms.latched ∧ x.acked = s.alarms.acked) :
      Move s { s with alarms := x }
  | sector (s : State) (x : Addr) (y : Sector) : Move s (s.putSector x y)
  | free (s : State) (n : Nat) : Move s { s with free := n }

/-- One elementary change that a command makes beside the moves; some are one command's alone. -/
inductive Act (c : Instr) : State → State → Prop
  | port (s : State) (p : Port) (f : PortIf → PortIf) (h : ∀ x, (f x).interval = x.interval) : Act c s (s.onPort p f)
  /-- SET SUPERVISION sets its port's interval -/
  | interval (s : State) (p : Port) (n : Nat) (f : PortIf → PortIf) (h : ∀ x, (f x).interval = clampInterval n)
      (hc : ∃ tag rest, c = .setSupervision p tag rest) : Act c s (s.onPort p f)
  /-- a pulse changes the rotational position -/
  | turn (s : State) (f : Positioner → Positioner) (h : ((f s.pos).sc ≤ 19 ∨ (f s.pos).sc = s.pos.sc) ∧ (f s.pos).t = 0)
      (hc : ∃ r, c = .indexPulse r ∨ c = .sectorPulse r) : Act c s (s.onPos f)
  /-- a new measurement of the speed begins -/
  | measurement (s : State) : Act c s s.newMeasurement
  | lines (s : State) (f : Lines → Lines) : Act c s (s.onLines f)
  /-- CAPTURE STATISTICS captures its port's bank -/
  | capture (s : State) (p : Port) (hc : ∃ tag rest, c = .captureStatistics p tag rest) :
      Act c s { s with banks := s.banks.modify p (·.captured s.tick) }
  /-- a DRAINING slot becomes DONE and joins the reply list -/
  | drained (s : State) (p : Port) (k : Fin 8) (sl : Slot) (h : s.slot p k = some sl) (hs : sl.state = .draining) :
      Act c s (s.finishDraining p k)
  /-- a map load -/
  | active (s : State) (m : Plan) (o : Origin) (h : s.mapLaw → m.conflictFree = true) : Act c s (s.setActive m o)
  | plan1 (s : State) (m : Plan) (h : m.conflictFree = true) (hc : ∃ p tag rest, c = .writePlan p tag rest) :
      Act c s { s with map := { s.map with plan1 := m } }
  | plan2 (s : State) (m : Plan) (h : m.conflictFree = true) (hc : ∃ p tag rest, c = .writePlan p tag rest) :
      Act c s { s with map := { s.map with plan2 := m } }
  | mapMode (s : State) (m : MapMode) (auto : Bool) (hc : ∃ p tag rest, c = .setMapMode p tag rest) :
      Act c s { s with map := { s.map with mode := m, auto := auto } }
  | guard (s : State) (g : Guard) (h : s.guard.mode ≠ .locked ∧ ¬(s.guard.mode = .keyed ∧ s.lines.guardKey = true))
      (hc : ∃ p tag rest, c = .setGuard p tag rest) : Act c s { s with guard := g }
  | acknowledge (s : State) : Act c s { s with alarms := s.alarms.acknowledge }
  | clear (s : State) (x : SourceSet) (hc : ∃ p tag rest, c = .clearAlarms p tag rest) : Act c s (s.clearFlags x)
  | cartridge (s : State) (l : Cartridge) (hc : putsCartridge c = true) : Act c s { s with disk := Cartridge.ofList l }

/-- A sequence of moves. -/
inductive Path (s : State) : State → Prop
  | refl : Path s s
  | move {t u : State} (h : Path s t) (m : Move t u) : Path s u

theorem Path.trans {s t u : State} (h : Path s t) (h' : Path t u) : Path s u := by
  induction h' with
  | refl => exact h
  | move _ m ih => exact ih.move m

/-- What every move keeps, a path keeps. -/
theorem Path.keeps {I : State → Prop} (hI : ∀ {s t}, Move s t → I s → I t) {s t : State} (h : Path s t) (hs : I s) :
    I t := by
  induction h with
  | refl => exact hs
  | move _ m ih => exact hI m ih

/-- What a path never changes: the queue of commands, the tick count, the guard, the port interfaces, the map unit, and
the items of the positioner that pulses change. -/
structure Still (s t : State) : Prop where
  pending : t.pending = s.pending
  tick : t.tick = s.tick
  guard : t.guard = s.guard
  ports : t.ports = s.ports
  map : t.map = s.map
  turn : t.pos.turn = s.pos.turn

theorem Move.still {s t : State} (m : Move s t) : Still s t := by
  cases m with
  | pos f h => exact ⟨rfl, rfl, rfl, rfl, rfl, h _⟩
  | _ => exact ⟨rfl, rfl, rfl, rfl, rfl, rfl⟩

theorem Path.still {s t : State} (h : Path s t) : Still s t := by
  induction h with
  | refl => exact ⟨rfl, rfl, rfl, rfl, rfl, rfl⟩
  | move _ m ih =>
    have := m.still
    exact ⟨this.pending.trans ih.pending, this.tick.trans ih.tick, this.guard.trans ih.guard,
      this.ports.trans ih.ports, this.map.trans ih.map, this.turn.trans ih.turn⟩

/-- A slot holds the order IN SERVICE. -/
def Serving (s : State) (p : Port) (k : Fin 8) : Prop := ∃ sl, s.slot p k = some sl ∧ sl.state = .inService

theorem Serving.of (s : State) {p : Port} {k : Fin 8} {sl : Slot} (h : s.inService = some (p, k, sl)) : Serving s p k :=
  ⟨sl, (inService_some h).1, (inService_some h).2⟩

/-- A change outside the queues keeps the order IN SERVICE. -/
theorem Serving.keep {s t : State} {p : Port} {k : Fin 8} (h : Serving s p k) (e : t.queues = s.queues) :
    Serving t p k := by
  obtain ⟨sl, h, hs⟩ := h
  exact ⟨sl, by rw [slot_of_queues s t e]; exact h, hs⟩

/-- A change of a record that leaves its state keeps the order IN SERVICE. -/
theorem Serving.record {s : State} {p : Port} {k : Fin 8} (h : Serving s p k) (f : Slot → Slot)
    (e : ∀ x, s.slot p k = some x → (f x).state = x.state) : Serving (s.modSlot p k f) p k := by
  obtain ⟨sl, h, hs⟩ := h
  exact ⟨f sl, by simp [h], by rw [e sl h, hs]⟩

end Sys2Proof.Machine
end

