-- ==== Sys2Proof/Laws/Paths.lean ====
section
/-! SUPPORT. Every shared operation that puts no order into a slot is a path of moves: one lemma for each operation,
written to follow one another (`h.release.testRequests`). -/

namespace Sys2Proof.Machine

-- Every thread of the checker reserves a whole stack: these many short proofs are checked one after another.
set_option Elab.async false

variable {a s : State} {p q : Port} {k j : Fin 8}

/-! ## The basic updates -/

theorem Path.onPos {f : Positioner → Positioner} (h : Path a s)
    (hf : ∀ x, (f x).turn = x.turn := by intros; rfl) : Path a (s.onPos f) :=
  h.move (.pos s f hf)

theorem Path.onDrive {f : Supervisor → Supervisor} (h : Path a s) : Path a (s.onDrive f) := h.move (.drive s f)

theorem Path.offCylinder (h : Path a s) : Path a { s with lines := { s.lines with onCylinder := false } } :=
  h.move (.offCylinder s)

theorem Path.count {c : Counter} (h : Path a s) : Path a (s.count p c) := h.move (.count s p c)

theorem Path.countBoth {c : Counter} (h : Path a s) : Path a (s.countBoth c) := h.move (.countBoth s c)

theorem Path.modSlot {f : Slot → Slot} (h : Path a s)
    (hf : ∀ x, s.slot p k = some x → (f x).tag = x.tag ∧ (f x).state = x.state ∧ (f x).prompt = x.prompt := by
      intros; exact ⟨rfl, rfl, rfl⟩) : Path a (s.modSlot p k f) := h.move (.record s p k f hf)

/-- A buffer that is not FREE, or is FREE without an owner, may be put in any place. -/
theorem putBuffer_law {b : Fin 4} {x : Buffer} (hx : x.state = .free → x.owner = none) (h : s.bufferLaw) :
    (s.putBuffer b x).bufferLaw := by
  intro c
  simp only [putBuffer_buffers, Fin.getElem_fin, Vector.getElem_set]
  split
  · exact hx
  · exact h c

theorem release_law {P : BufState → Bool} (h : s.bufferLaw) : (s.release p k P).bufferLaw := by
  intro c hc
  simp only [State.release, Fin.getElem_fin, Vector.getElem_ofFn] at hc ⊢
  split at hc
  · next h1 =>
    split at hc
    · next h2 => exact absurd (h2.2.symm.trans hc) (by decide)
    · next h2 => rw [if_pos h1, if_neg h2]; rfl
  · next h1 => rw [if_neg h1]; exact h c hc

theorem Path.putBuffer {b : Fin 4} {x : Buffer} (h : Path a s)
    (hx : x.state = .free → x.owner = none := by intro h; first | rfl | cases h) : Path a (s.putBuffer b x) :=
  h.move (.buffers s _ (putBuffer_law hx))

theorem Path.release {P : BufState → Bool} (h : Path a s) : Path a (s.release p k P) :=
  h.move (.buffers s _ release_law)

theorem Path.withProgress {g : Option Progress} (h : Path a s) : Path a { s with progress := g } := h.move (.progress s g)

theorem Path.withPass {g : Option Pass} (h : Path a s) : Path a { s with pass := g } := h.move (.pass s g)

theorem Path.setProgress {n : Nat} {d : Option Nat} {st : Stage} (h : Path a s) : Path a (s.setProgress n d st) :=
  h.withProgress

theorem Path.toStage {st : Stage} (h : Path a s) : Path a (s.toStage st) := h.withProgress

theorem Path.setPass {x : PassKind} {b : Addr} {v : Verdict} {ws : List Word} (h : Path a s) :
    Path a (s.setPass x b v ws) := h.withPass

theorem Path.setLabel {l : Label} (h : Path a s) : Path a (s.setLabel l) := h.move (.label s l)

theorem Path.latch {x : Source} (h : Path a s) : Path a (s.latch x) := h.move (.latch s x)

theorem Path.putSector {x : Addr} {y : Sector} (h : Path a s) : Path a (s.putSector x y) := h.move (.sector s x y)

theorem Path.writeData {x : Addr} {ws : List Word} (h : Path a s) : Path a (s.writeData x ws) := h.putSector

theorem Path.judgeAlarm (h : Path a s) : Path a s.judgeAlarm := by
  refine h.move (.alarms s _ ?_)
  dsimp only
  split
  · split <;> exact ⟨rfl, rfl⟩
  · exact ⟨rfl, rfl⟩

/-! ## Slots, buffers and endings -/

theorem Path.dropOrphan {b : Fin 4} (h : Path a s) : Path a (s.dropOrphan b) := by
  unfold State.dropOrphan; split
  · exact h.putBuffer
  · exact h

theorem Path.issueRequest (h : Path a s) : Path a s.issueRequest := by
  unfold State.issueRequest
  split
  · split
    · split
      · exact h.putBuffer
      · exact h
    · exact h
  · exact h

theorem Path.testRequests (h : Path a s) : Path a s.testRequests := h.issueRequest.issueRequest.issueRequest

theorem Path.leaveActuator (h : Path a s) : Path a (s.leaveActuator p k) := by
  unfold State.leaveActuator
  split
  · exact h
  · dsimp only
    split
    · exact ((h.modSlot.count.withProgress (g := none)).withPass (g := none)).onPos
        (f := fun x => { x with activity := .idle, target := none, errors := 0 })
    · exact ((h.modSlot.withProgress (g := none)).withPass (g := none)).onPos
        (f := fun x => { x with activity := .idle, target := none, errors := 0 })

theorem Path.countEnding {e : Ending} (h : Path a s) : Path a (s.countEnding p e) := by
  unfold State.countEnding; split
  · exact h.count
  · exact h.count
  · exact h

@[simp] theorem testRequests_queues : s.testRequests.queues = s.queues := by
  have one : ∀ s : State, s.issueRequest.queues = s.queues := by
    intro s; unfold State.issueRequest
    split
    · split
      · split <;> rfl
      · rfl
    · rfl
  simp [State.testRequests, one]

@[simp] theorem countEnding_queues {e : Ending} : (s.countEnding p e).queues = s.queues := by
  unfold State.countEnding; split <;> rfl

/-- The record of the order that leaves the actuator keeps its state. -/
theorem leaveActuator_slot {x : Slot} (h : s.slot p k = some x) :
    (s.leaveActuator p k).slot p k = some { x with endTick := some s.tick } := by
  unfold State.leaveActuator
  rw [h]
  dsimp only
  split
  · show (s.modSlot p k _).slot p k = _
    simp [h]
  · show (s.modSlot p k _).slot p k = _
    simp [h]

theorem Path.endSlot {e : Ending} {fa : Option Addr} (h : Path a s) : Path a (s.endSlot p k e fa) := by
  unfold State.endSlot
  split
  · exact h
  · next sl hsl =>
    split
    · exact h
    · next hd =>
      dsimp only
      split
      · refine Path.testRequests (.move (h.leaveActuator.release.countEnding) (.finish _ p k e fa
          { sl with endTick := some s.tick } ?_ hd))
        rw [slot_of_queues _ _ (countEnding_queues), slot_of_queues _ _ (release_queues _ p k _)]
        exact leaveActuator_slot hsl
      · refine Path.testRequests (.move (h.release.countEnding) (.finish _ p k e fa sl ?_ hd))
        rw [slot_of_queues _ _ (countEnding_queues), slot_of_queues _ _ (release_queues _ p k _)]
        exact hsl

theorem Path.startDraining {e : Ending} {fa : Option Addr} (h : Path a s) (hs : Serving s p k) :
    Path a (s.startDraining p k e fa) := by
  obtain ⟨sl, hsl, hst⟩ := hs
  have ht : (s.leaveActuator p k).tick = s.tick := by
    unfold State.leaveActuator; rw [hsl]; dsimp only; split <;> rfl
  unfold State.startDraining
  rw [← ht]
  exact h.leaveActuator.move (.drain _ p k e fa { sl with endTick := some s.tick } (leaveActuator_slot hsl) hst)

theorem Path.endDiskPhase {sl : Slot} {e : Ending} {fa : Option Addr} (h : Path a s) (hs : Serving s p k) :
    Path a (s.endDiskPhase p k sl e fa) := by
  unfold State.endDiskPhase; split
  · exact h.startDraining hs
  · exact h.endSlot

theorem Path.drop (h : Path a s) : Path a (s.onQueue p (·.drop k)) := h.move (.drop s p k)

theorem Path.freeWithdrawn (h : Path a s) : Path a (s.freeWithdrawn p k) := h.leaveActuator.release.drop.testRequests

/-- A fold of steps that are each a path is a path. -/
theorem Path.foldl {α : Type} (l : List α) (f : State → α → State) (hf : ∀ s x, Path s (f s x)) (h : Path a s) :
    Path a (l.foldl f s) := by
  induction l generalizing s with
  | nil => exact h
  | cons x l ih => exact ih (h.trans (hf s x))

theorem Path.endWhere {P : Slot → Bool} {e : Ending} (h : Path a s) : Path a (s.endWhere p P e) := by
  unfold State.endWhere
  refine Path.foldl _ _ (fun s k => ?_) h
  split
  · split
    · exact Path.refl.endSlot
    · exact .refl
  · exact .refl

theorem Path.cutPass (h : Path a s) : Path a s.cutPass := by
  unfold State.cutPass
  split
  · split
    · exact (h.putSector.withPass (g := none)).move (.free _ _)
    · exact h.withPass
  · exact h

/-! ## The region map unit -/

theorem Path.recheckPort (h : Path a s) : Path a (s.recheckPort p) := by
  unfold State.recheckPort
  refine Path.foldl _ _ (fun s k => ?_) h
  split
  · split
    · exact Path.refl.endSlot
    · exact .refl
  · exact .refl

/-! ## The positioner and the supervisor -/

theorem Path.abandonPositioning (h : Path a s) : Path a s.abandonPositioning := h.onPos

theorem Path.issueSeek {x : Addr} (h : Path a s) : Path a (s.issueSeek x) := h.onPos.offCylinder.countBoth

theorem Path.arrive {x : Addr} (h : Path a s) : Path a (s.arrive x) := h.onPos

theorem Path.requestPositioning {x : Addr} (h : Path a s) : Path a (s.requestPositioning x) := by
  unfold State.requestPositioning; dsimp only; split
  · exact h.onPos.arrive
  · exact h.onPos.issueSeek

theorem Path.recalibrate (h : Path a s) : Path a s.recalibrate := h.onPos.offCylinder.countBoth

theorem Path.loseLabel {st : LabelState} (h : Path a s) : Path a (s.loseLabel st) := by
  unfold State.loseLabel; dsimp only; split
  · exact h.setLabel.latch
  · exact h.setLabel

theorem Path.enterSpinningDown (h : Path a s) : Path a s.enterSpinningDown :=
  ((h.abandonPositioning.onDrive.withPass (g := none)).endWhere).endWhere.setLabel

theorem Path.faultInService (h : Path a s) : Path a s.faultInService := by
  unfold State.faultInService
  dsimp only
  split <;> split
  · exact h.setLabel.cutPass.endSlot
  · exact h.cutPass.endSlot
  · exact h.setLabel.cutPass
  · exact h.cutPass

theorem Path.enterFaulted {why : FaultReason} (h : Path a s) : Path a (s.enterFaulted why) := by
  unfold State.enterFaulted; dsimp only; split
  · exact h.faultInService.endWhere.endWhere.abandonPositioning.onDrive.latch.enterSpinningDown
  · exact h.faultInService.endWhere.endWhere.abandonPositioning.onDrive.latch

theorem Path.enterCalibrating (h : Path a s) : Path a s.enterCalibrating := h.onDrive.recalibrate

theorem Path.enterLabelRead (h : Path a s) : Path a s.enterLabelRead := h.onDrive.setLabel.requestPositioning

theorem Path.weighReasons (h : Path a s) : Path a s.weighReasons := by
  unfold State.weighReasons
  split
  · split
    · exact h
    · exact h.onDrive.latch
  · exact h.onDrive

theorem Path.finishLabelRead {l : Label} (h : Path a s) : Path a (s.finishLabelRead l) := by
  unfold State.finishLabelRead; dsimp only; split
  · exact h.setLabel.onPos.onDrive.weighReasons
  · exact h.setLabel.onPos.onDrive.weighReasons.latch

theorem Path.setReasons {x y : Bool} (h : Path a s) : Path a (s.setReasons x y) := by
  unfold State.setReasons; split
  · exact h.onDrive.weighReasons
  · exact h

theorem Path.seekError (h : Path a s) : Path a s.seekError := by
  unfold State.seekError; dsimp only; split
  · exact h.countBoth.onPos.onPos.recalibrate
  · exact h.countBoth.onPos.enterFaulted

theorem Path.headerMismatch {x : Addr} (h : Path a s) : Path a (s.headerMismatch x) := h.onPos.seekError

theorem Path.recalibrationFailed (h : Path a s) : Path a s.recalibrationFailed := by
  unfold State.recalibrationFailed; dsimp only
  split
  · split
    · exact h.onPos.onDrive.recalibrate
    · exact h.onPos.enterFaulted
  · exact h.onPos.seekError

/-! ## The scheduler -/

theorem Path.goTo {x : Addr} (h : Path a s) : Path a (s.goTo x).1 := h.requestPositioning

theorem Path.beginData {sl : Slot} (h : Path a s) : Path a (s.beginData sl).1 := by
  unfold State.beginData; split
  · exact h.setProgress.testRequests.countBoth.goTo
  · exact h.setProgress.testRequests.goTo

theorem Path.beginAssign {x : Addr} (h : Path a s) : Path a (s.beginAssign p k x).1 := by
  unfold State.beginAssign
  split
  · exact h.endSlot
  · dsimp only
    split
    · split
      · exact h.modSlot.endSlot
      · exact h.modSlot.setProgress.goTo
    · split
      · exact h.modSlot.endSlot
      · exact h.modSlot.setProgress.goTo

/-- What the hand-over does once the slot is IN SERVICE. -/
theorem Path.handTo (h : Path a (s.modSlot p k fun x => { x with state := .inService })) : Path a (s.handTo p k).1 := by
  have h1 : Path a { s.modSlot p k (fun x => { x with state := .inService }) with sched := { s.sched with last := p } } :=
    h.move (.granted _ p)
  unfold State.handTo
  dsimp only
  split
  · exact h1
  · split
    · exact h1.setProgress.goTo
    · exact h1.setProgress.goTo
    · exact h1.setProgress.goTo
    · exact h1.beginAssign
    · exact h1.beginData

theorem Path.select (h : Path a s) : Path a s.select.1 := by
  unfold State.select
  split
  · next hm =>
    have hn : s.inService = none := by
      simp only [State.maySelect, Bool.and_eq_true, Option.isNone_iff_eq_none] at hm; exact hm.1.1.1
    dsimp only
    split
    · next e =>
      have := stepOne_some e
      exact Path.handTo (h.move (.serve s _ _ _ this.1 (.inl this.2.1) hn))
    · split
      · next e =>
        have := suspendedCandidate_some e
        exact Path.handTo (h.move (.serve s _ _ _ this.1 (.inr this.2) hn))
      · split
        · next e =>
          have := stepThree_some e
          exact Path.handTo ((h.move (.bypass s _)).move (.serve _ _ _ _ this.1 (.inl this.2.1) hn))
        · exact h
  · exact h

theorem Path.checkSuspension {pos : Nat} {r : State × Agenda} (h : Path a s) (hs : Serving s p k)
    (e : s.checkSuspension p k pos = some r) : Path a r.1 := by
  obtain ⟨sl, hsl, hst⟩ := hs
  unfold State.checkSuspension at e
  rw [hsl] at e
  dsimp only at e
  split at e
  · next q j hq =>
    cases e
    unfold State.suspensionFor at hq
    split at hq
    · next hc =>
      split at hq
      · cases hq
      · next x hx =>
        dsimp only at hq
        split at hq
        · cases hq
          have hx := stepOne_some hx
          exact Path.handTo ((((h.move (.replace s p q k j sl x hsl hst hc.1 hc.2.2.2.1 hx.1 hx.2.1)).withProgress
            (g := none)).withPass (g := none)).countBoth (c := .suspensions))
        · cases hq
    · cases hq
  · cases e

/-! ## The engine -/

theorem Path.endWith {r : Result} (h : Path a s) (hs : Serving s p k) : Path a (s.endWith p k r).1 := by
  have h1 : Serving (s.modSlot p k fun x =>
      { x with sectorsDone := r.sectors.getD x.sectorsDone, body := r.body.getD x.body }) p k := hs.record _ fun _ _ => rfl
  unfold State.endWith
  dsimp only
  split <;> split
  · exact h.modSlot.latch.countBoth.endDiskPhase (h1.keep rfl)
  · exact h.modSlot.endDiskPhase h1
  · exact h.modSlot.latch.countBoth
  · exact h.modSlot

theorem Path.nextSector {sl : Slot} {g : Progress} (h : Path a s) : Path a (s.nextSector sl g).1 := by
  unfold State.nextSector
  split
  · exact h.setProgress.countBoth.goTo
  · dsimp only; split
    · exact h.setProgress
    · exact h.setProgress.goTo

theorem Path.dataBoundary {pos : Nat} {r : Option Result} {c : Bool} (h : Path a s) (hs : Serving s p k) :
    Path a (s.dataBoundary p k pos r c).1 := by
  unfold State.dataBoundary
  split
  · split
    · exact h.freeWithdrawn
    · split
      · exact h.endWith hs
      · split
        · exact h.endWith hs
        · split
          · exact h.endWith hs
          · split
            · exact h.endWith hs
            · split
              · next e => exact h.checkSuspension hs e
              · split
                · exact h.nextSector
                · exact h
  · exact h

theorem Path.maintBoundary {r : Option Result} {x : State × Agenda} (h : Path a s) (hs : Serving s p k)
    (e : s.maintBoundary p k r = some x) : Path a x.1 := by
  unfold State.maintBoundary at e
  split at e
  · cases e
  · split at e
    · cases e; exact h.freeWithdrawn
    · split at e
      · cases e; exact h.endWith hs
      · split at e
        · cases e; exact h.endWith hs
        · split at e
          · cases e; exact h.endWith hs
          · cases e

theorem Path.maintThen {pos : Nat} {r : Option Result} {go : State × Agenda} (h : Path a s) (hs : Serving s p k)
    (hgo : Path a go.1) : Path a (s.maintThen p k pos r go).1 := by
  unfold State.maintThen
  split
  · next e => exact h.maintBoundary hs e
  · split
    · next e => exact h.checkSuspension hs e
    · exact hgo

theorem Path.takePass {g : Progress} {x : PassKind} {b : Addr} {ws : List Word} {r : HeaderReading} (h : Path a s) :
    Path a (s.takePass p k g x b ws r).1 := by
  unfold State.takePass
  dsimp only
  split <;> split
  · exact h.modSlot.countBoth.modSlot.headerMismatch
  · exact h.modSlot.headerMismatch
  · exact h.modSlot.countBoth.modSlot.setPass
  · exact h.modSlot.setPass
  · exact h.modSlot.countBoth.modSlot.onPos.setPass
  · exact h.modSlot.onPos.setPass

theorem Path.slip {b : Addr} (h : Path a s) : Path a (s.slip p k b).1 := h.modSlot.count.setPass

theorem Path.endAtStart {e : Ending} {b : Addr} (h : Path a s) (hs : Serving s p k) :
    Path a (s.endAtStart p k e b).1 := h.endWith hs

theorem Path.startData {sl : Slot} {g : Progress} {r : HeaderReading} (h : Path a s) (hs : Serving s p k) :
    Path a (s.startData p k sl g r).1 := by
  unfold State.startData
  dsimp only
  split
  · split
    · exact h.slip
    · split
      · exact h.slip
      · split
        · exact h.endAtStart hs
        · exact h.takePass
  · split
    · exact h.endAtStart hs
    · exact h.takePass
  · split
    · split
      · exact h.endAtStart hs
      · exact h.takePass
    · split
      · exact h.slip
      · split
        · exact h.endAtStart hs
        · split
          · exact h.endAtStart hs
          · split
            · exact h.endAtStart hs
            · exact h.takePass
  · exact h

theorem Path.startFormat {sl : Slot} (h : Path a s) (hs : Serving s p k) : Path a (s.startFormat p k sl).1 := by
  unfold State.startFormat
  dsimp only
  split
  · exact h.endAtStart hs
  · split
    · exact h.endAtStart hs
    · split
      · exact h.endAtStart hs
      · split
        · exact h.loseLabel.setPass
        · exact h.setPass

theorem Path.startFrozen {g : Progress} {x : PassKind} {b : Addr} {ws : List Word} {r : HeaderReading} (h : Path a s)
    (hs : Serving s p k) : Path a (s.startFrozen p k g x b ws r).1 := by
  unfold State.startFrozen
  split
  · exact h.endAtStart hs
  · split
    · exact h.endAtStart hs
    · exact h.takePass

theorem Path.startTest {sl : Slot} {n : Nat} {w : Bool} {r : HeaderReading} (h : Path a s) (hs : Serving s p k) :
    Path a (s.startTest p k sl n w r).1 := by
  unfold State.startTest
  dsimp only
  split
  · split
    · split
      · exact h.endAtStart hs
      · exact h.setPass
    · exact h.setPass
  · exact h

theorem Path.startInService {sl : Slot} {g : Progress} {n : Nat} {r : HeaderReading} (h : Path a s)
    (hs : Serving s p k) : Path a (s.startInService p k sl g n r).1 := by
  unfold State.startInService
  split
  · split
    · exact h.startData hs
    · exact h
  · split
    · exact h.startFormat hs
    · exact h
  · exact h
  · exact h.startTest hs
  · exact h.startTest hs
  · split
    · exact h.startFrozen hs
    · exact h
  · split
    · exact h.startFrozen hs
    · exact h
  · split
    · exact h.takePass
    · exact h

theorem Path.startLabelRead {r : HeaderReading} (h : Path a s) : Path a (s.startLabelRead r).1 := by
  unfold State.startLabelRead
  dsimp only
  split <;> split
  · exact h.countBoth.headerMismatch
  · exact h.headerMismatch
  · exact h.countBoth.setPass
  · exact h.setPass
  · exact h.countBoth.onPos.setPass
  · exact h.onPos.setPass

theorem Path.sectorStart {n : Nat} {r : HeaderReading} (h : Path a s) : Path a (s.sectorStart n r).1 := by
  unfold State.sectorStart
  split
  · exact h
  · split
    · split
      · exact h.startLabelRead
      · exact h
    · split
      · next e _ => exact h.startInService (.of s e)
      · exact h

theorem Path.failPass {g : Progress} {e : Ending} {b : Addr} (h : Path a s) : Path a (s.failPass g e b).1 :=
  h.withProgress

theorem Path.sectorDone {g : Progress} (h : Path a s) : Path a (s.sectorDone p k g) := h.modSlot.withProgress

theorem Path.beginVerify (h : Path a s) : Path a (s.beginVerify p k) := by
  unfold State.beginVerify
  split
  · split
    · exact h.modSlot.withProgress
    · exact h
  · exact h

theorem Serving.sectorDone {g : Progress} (h : Serving s p k) : Serving (s.sectorDone p k g) p k :=
  (h.record (fun x => { x with sectorsDone := x.sectorsDone + 1, consSlips := 0 }) fun _ _ => rfl).keep rfl

theorem Serving.beginVerify (h : Serving s p k) : Serving (s.beginVerify p k) p k := by
  unfold State.beginVerify
  split
  · split
    · exact (h.record (fun x => { x with verifyPhase := true }) fun _ _ => rfl).keep rfl
    · exact h
  · exact h

theorem Path.endDataPass {sl : Slot} {g : Progress} {x : Pass} {d : DataReading} (h : Path a s) (hs : Serving s p k) :
    Path a (s.endDataPass p k sl g x d).1 := by
  unfold State.endDataPass
  dsimp only
  split
  · exact h.dataBoundary hs
  · split
    · split
      · exact h.sectorDone.count.dataBoundary ((hs.sectorDone (g := g)).keep rfl)
      · exact h.putBuffer.sectorDone.count.dataBoundary (((hs.keep (t := s.putBuffer _ _) rfl).sectorDone (g := g)).keep rfl)
    · exact h.failPass.dataBoundary (hs.keep rfl)
  · split
    · exact h.sectorDone.count.dataBoundary ((hs.sectorDone (g := g)).keep rfl)
    · exact h.failPass.dataBoundary (hs.keep rfl)
  · split
    · refine (h.writeData.putBuffer.sectorDone.count.testRequests.beginVerify).dataBoundary (Serving.beginVerify ?_)
      refine Serving.keep (s := ((s.writeData x.addr x.words).putBuffer _ _).sectorDone p k g) ?_
        (by rw [testRequests_queues, count_queues])
      exact Serving.sectorDone (hs.keep rfl)
    · exact h.failPass.dataBoundary (hs.keep rfl)
  · split
    · exact h.withProgress.dataBoundary (hs.keep rfl)
    · exact h.dataBoundary hs
  · exact h

theorem Path.endFormatPass {sl : Slot} {x : Pass} (h : Path a s) (hs : Serving s p k) :
    Path a (s.endFormatPass p k sl x).1 :=
  h.putSector.modSlot.maintThen ((hs.keep (t := s.putSector x.addr _) rfl).record _ fun _ _ => rfl) h.putSector.modSlot

theorem Path.endZeroPass {g : Progress} {x : Pass} (h : Path a s) (hs : Serving s p k) :
    Path a (s.endZeroPass p k g x).1 := by
  unfold State.endZeroPass
  dsimp only
  split
  · refine h.writeData.maintThen (hs.keep rfl) (Path.goTo (h.writeData.toStage.modSlot ?_))
    intro y _
    split <;> exact ⟨rfl, rfl, rfl⟩
  · exact h.failPass.maintThen (hs.keep rfl) (h.failPass (e := .writeFault) (b := x.addr))

theorem Path.endLabelWritePass {g : Progress} {x : Pass} (h : Path a s) (hs : Serving s p k) :
    Path a (s.endLabelWritePass p k g x).1 := by
  unfold State.endLabelWritePass
  dsimp only
  split
  · exact h.writeData.toStage.maintThen (hs.keep rfl) h.writeData.toStage
  · exact h.failPass.maintThen (hs.keep rfl) (h.failPass (e := .writeFault) (b := x.addr))

@[simp] theorem loseLabel_queues {st : LabelState} : (s.loseLabel st).queues = s.queues := by
  unfold State.loseLabel; dsimp only; split <;> rfl

theorem Path.endReadBack {sl : Slot} {x : Pass} {d : DataReading} (h : Path a s) (hs : Serving s p k) :
    Path a (s.endReadBack p k sl x d).1 := by
  unfold State.endReadBack
  dsimp only
  split
  · exact h.toStage.setLabel.maintThen (hs.keep rfl) h.toStage.setLabel
  · exact h.toStage.loseLabel.maintThen (hs.keep (by rw [loseLabel_queues]; rfl)) h.toStage.loseLabel

theorem Path.endTestWrite {x : Pass} (h : Path a s) : Path a (s.endTestWrite p k x) := by
  unfold State.endTestWrite; split
  · exact h.writeData.modSlot
  · refine h.modSlot ?_
    intro y _
    split <;> exact ⟨rfl, rfl, rfl⟩

/-- A sector of a read revolution changes nothing but the progress of the test. -/
theorem testReadSector_keeps (sl : Slot) (x : Pass) (ws : List Word) (b : Bool) :
    (sl.testReadSector x ws b).1.tag = sl.tag ∧ (sl.testReadSector x ws b).1.state = sl.state
      ∧ (sl.testReadSector x ws b).1.prompt = sl.prompt := by
  unfold Slot.testReadSector
  split
  · split
    · exact ⟨rfl, rfl, rfl⟩
    · dsimp only
      split
      · exact ⟨rfl, rfl, rfl⟩
      · split <;> exact ⟨rfl, rfl, rfl⟩
  · exact ⟨rfl, rfl, rfl⟩

theorem Path.endTestRead {sl : Slot} {x : Pass} {d : DataReading} (h : Path a s) (hsl : s.slot p k = some sl)
    (hst : sl.state = .inService) : Path a (s.endTestRead p k sl x d).1 := by
  have keep := testReadSector_keeps sl x (d.words s.disk x.addr) (d.passes s.disk x.addr)
  have h1 : Path a (s.modSlot p k fun _ => (sl.testReadSector x (d.words s.disk x.addr) (d.passes s.disk x.addr)).1) := by
    refine h.modSlot ?_
    intro y hy
    rw [hsl] at hy; cases hy
    exact keep
  have hs : Serving (s.modSlot p k fun _ =>
      (sl.testReadSector x (d.words s.disk x.addr) (d.passes s.disk x.addr)).1) p k :=
    ⟨_, by rw [slot_modSlot_same, hsl]; rfl, by rw [keep.2.1, hst]⟩
  unfold State.endTestRead
  dsimp only
  split
  · split
    · exact h1.maintThen hs h1
    · exact h1
  · exact h1

theorem Path.endLabelRead {x : Pass} {d : DataReading} (h : Path a s) : Path a (s.endLabelRead x d).1 := by
  unfold State.endLabelRead
  split
  · exact h.finishLabelRead (l := judgeLabel _)
  · split
    · exact h.finishLabelRead (l := .blank .damaged)
    · exact h.onDrive (f := fun y => { y with labelFails := y.labelFails + 1 })

theorem Path.passEnd {d : DataReading} (h : Path a s) : Path a (s.passEnd d).1 := by
  unfold State.passEnd
  split
  · exact h
  · dsimp only
    split
    · exact h.withPass.endLabelRead
    · split
      · next e _ =>
        have hs := Serving.of _ e
        have hi := inService_some e
        split
        · exact h.withPass.endFormatPass hs
        · exact h.withPass.endZeroPass hs
        · exact h.withPass.endLabelWritePass hs
        · exact h.withPass.endReadBack hs
        · exact h.withPass.endTestWrite
        · exact h.withPass.endTestRead hi.1 hi.2
        · exact h.withPass.endDataPass hs
      · exact h.withPass

/-- The close of a revolution changes nothing but the progress of the test. -/
theorem closeRevolution_keeps (sl : Slot) (st : Stage) :
    (sl.closeRevolution st).tag = sl.tag ∧ (sl.closeRevolution st).state = sl.state
      ∧ (sl.closeRevolution st).prompt = sl.prompt := by
  unfold Slot.closeRevolution
  split <;> exact ⟨rfl, rfl, rfl⟩

/-- The end of a sector in the write revolution keeps the order in service. -/
theorem Serving.endTestWrite {x : Pass} (hs : Serving s p k) : Serving (s.endTestWrite p k x) p k := by
  unfold State.endTestWrite; split
  · exact (hs.keep (t := s.writeData x.addr x.words) rfl).record _ fun _ _ => rfl
  · refine hs.record _ fun y _ => ?_
    split <;> rfl

theorem Path.completeTestWrite (h : Path a s) : Path a (s.completeTestWrite p k) := by
  unfold State.completeTestWrite; split
  · split
    · exact h.withPass.endTestWrite
    · exact h
  · exact h

theorem Serving.completeTestWrite (hs : Serving s p k) : Serving (s.completeTestWrite p k) p k := by
  unfold State.completeTestWrite; split
  · split
    · exact Serving.endTestWrite (hs.keep rfl)
    · exact hs
  · exact hs

theorem Path.testBoundary {st : Stage} (h : Path a s) (hs : Serving s p k) : Path a (s.testBoundary p k st).1 := by
  obtain ⟨sl, hsl, hst⟩ := hs
  have keep := closeRevolution_keeps sl st
  have h1 : Path a (s.modSlot p k fun _ => sl.closeRevolution st) := by
    refine h.modSlot ?_
    intro y hy
    rw [hsl] at hy; cases hy
    exact keep
  unfold State.testBoundary
  rw [hsl]
  refine h1.maintThen ⟨sl.closeRevolution st, ?_, by rw [keep.2.1, hst]⟩ h1.toStage
  rw [slot_modSlot_same, hsl]; rfl

theorem Path.testIndex (h : Path a s) : Path a s.testIndex.1 := by
  unfold State.testIndex
  split
  · next e _ =>
    split
    · exact h.completeTestWrite.testBoundary (Serving.of _ e).completeTestWrite
    · exact h
  · exact h

theorem Path.arrivalBoundary (h : Path a s) : Path a s.arrivalBoundary.1 := by
  unfold State.arrivalBoundary
  split
  · exact h
  · next e =>
    have hs := Serving.of _ e
    split
    · exact h.dataBoundary hs
    · dsimp only
      split
      · exact h.onPos.maintThen (hs.keep rfl) (h.onPos (f := fun y => { y with activity := .confirmed }))
      · exact h.maintThen hs h

theorem Path.stopOrSelect (h : Path a s) : Path a s.stopOrSelect.1 := by
  unfold State.stopOrSelect; split
  · exact h.enterSpinningDown
  · exact h.select

theorem Path.advance {x : Agenda} (h : Path a s) : Path a (s.advance x).1 := by
  cases x with
  | idle => exact h
  | select => exact h.select
  | released => exact h.stopOrSelect
  | arrived => exact h.arrivalBoundary

theorem Path.settle (n : Nat) {x : Agenda} (h : Path a s) : Path a (settle n (s, x)) := by
  induction n generalizing s x with
  | zero => exact h
  | succ n ih =>
    cases x with
    | idle => exact h
    | select => exact ih (x := (s.advance .select).2) (h.advance (x := .select))
    | released => exact ih (x := (s.advance .released).2) (h.advance (x := .released))
    | arrived => exact ih (x := (s.advance .arrived).2) (h.advance (x := .arrived))

/-- Carrying a step to its end is a path. -/
theorem Path.settled {x : State × Agenda} (h : Path a x.1) : Path a (State.settled x) := h.settle settleLimit

theorem Path.schedule (h : Path a s) : Path a s.schedule := Path.settled (x := (s, .select)) h

theorem Path.close {x : State × Agenda} (h : Path a x.1) : Path a (State.close x) := h.settled.judgeAlarm

end Sys2Proof.Machine
end

