-- ==== Sys2Proof/Laws/Buffers.lean ====
section
/-! SUPPORT. What streams and request lists depend on: the queues and the buffers alone; and what the searches over the
buffers answer. -/

namespace Sys2Proof.Machine

-- Every thread of the checker reserves a whole stack: these many short proofs are checked one after another.
set_option Elab.async false

variable {s t : State}

theorem insertByIndex_congr (hb : t.buffers = s.buffers) (b : Fin 4) (l : List (Fin 4)) :
    insertByIndex t b l = insertByIndex s b l := by
  induction l with
  | nil => rfl
  | cons c l ih => simp only [insertByIndex, hb, ih]

theorem owned_congr (hb : t.buffers = s.buffers) (p : Port) (k : Fin 8) : t.owned p k = s.owned p k := by
  simp only [State.owned, hb]

theorem ownedIn_congr (hb : t.buffers = s.buffers) (p : Port) (k : Fin 8) (st : BufState) :
    t.ownedIn p k st = s.ownedIn p k st := by simp only [State.ownedIn, owned_congr hb, hb]

theorem listed_congr (hq : t.queues = s.queues) (hb : t.buffers = s.buffers) (p : Port) (st : BufState) :
    t.listed p st = s.listed p st := by
  unfold State.listed
  rw [hq]
  congr 1
  funext k
  rw [ownedIn_congr hb]
  congr 1
  funext l b
  exact insertByIndex_congr hb b l

theorem stream_congr (hq : t.queues = s.queues) (hb : t.buffers = s.buffers) (p : Port) : t.stream p = s.stream p :=
  listed_congr hq hb p .fullForHost

theorem requests_congr (hq : t.queues = s.queues) (hb : t.buffers = s.buffers) (p : Port) :
    t.requests p = s.requests p := listed_congr hq hb p .filling

@[simp] theorem stream_onPort (p q : Port) (f : PortIf → PortIf) : (s.onPort q f).stream p = s.stream p :=
  stream_congr (s := s) (t := s.onPort q f) rfl rfl p

@[simp] theorem requests_onPort (p q : Port) (f : PortIf → PortIf) : (s.onPort q f).requests p = s.requests p :=
  requests_congr (s := s) (t := s.onPort q f) rfl rfl p

/-- A buffer is owned by a slot exactly where its owner field says so. -/
theorem mem_owned (p : Port) (k : Fin 8) (b : Fin 4) : b ∈ s.owned p k ↔ s.buffers[b].owner = some (p, k) := by
  have : b ∈ bufferNumbers := by revert b; decide
  simp [State.owned, List.mem_filter, this]

theorem mem_ownedIn (p : Port) (k : Fin 8) (st : BufState) (b : Fin 4) :
    b ∈ s.ownedIn p k st ↔ s.buffers[b].owner = some (p, k) ∧ s.buffers[b].state = st := by
  simp [State.ownedIn, List.mem_filter, mem_owned]

theorem mem_insertByIndex (b c : Fin 4) (l : List (Fin 4)) : c ∈ insertByIndex s b l ↔ c = b ∨ c ∈ l := by
  induction l with
  | nil => simp [insertByIndex]
  | cons d l ih =>
    simp only [insertByIndex]
    split
    · simp
    · simp only [List.mem_cons, ih]
      constructor
      · rintro (h | h | h) <;> simp [h]
      · rintro (h | h | h) <;> simp [h]

theorem mem_sorted (c : Fin 4) (l : List (Fin 4)) :
    c ∈ l.foldl (fun l b => insertByIndex s b l) [] ↔ c ∈ l := by
  have main : ∀ (l acc : List (Fin 4)), c ∈ l.foldl (fun l b => insertByIndex s b l) acc ↔ c ∈ l ∨ c ∈ acc := by
    intro l
    induction l with
    | nil => intro acc; simp
    | cons d l ih =>
      intro acc
      rw [List.foldl_cons, ih, mem_insertByIndex]
      simp only [List.mem_cons]
      constructor
      · rintro (h | h | h) <;> simp [h]
      · rintro ((h | h) | h) <;> simp [h]
  simpa using main l []

/-- A buffer is in a port's list of a state exactly where a slot of the port's order list owns it in that state. -/
theorem mem_listed (p : Port) (st : BufState) (b : Fin 4) :
    b ∈ s.listed p st ↔
      ∃ k, k ∈ (s.queues.get p).order ∧ s.buffers[b].owner = some (p, k) ∧ s.buffers[b].state = st := by
  simp only [State.listed, List.mem_flatMap, mem_sorted, mem_ownedIn]

/-- The first buffer of a sorted list has an index no other of the list is below. -/
theorem head_sorted (l : List (Fin 4)) (b : Fin 4) (r : List (Fin 4))
    (h : l.foldl (fun l b => insertByIndex s b l) [] = b :: r) (c : Fin 4) (hc : c ∈ l) :
    s.buffers[b].index ≤ s.buffers[c].index := by
  have ins : ∀ (x : Fin 4) (l : List (Fin 4)), (∀ b r, l = b :: r → ∀ c ∈ l, s.buffers[b].index ≤ s.buffers[c].index) →
      ∀ b r, insertByIndex s x l = b :: r → ∀ c ∈ insertByIndex s x l, s.buffers[b].index ≤ s.buffers[c].index := by
    intro x l hl b r hb c hc
    rw [mem_insertByIndex] at hc
    cases l with
    | nil => cases hb; rcases hc with rfl | hc
             · exact Nat.le_refl _
             · cases hc
    | cons d l =>
      have hd := hl d l rfl
      simp only [insertByIndex] at hb
      split at hb
      · next hlt =>
        cases hb
        rcases hc with rfl | hc
        · exact Nat.le_refl _
        · exact Nat.le_trans (Nat.le_of_lt hlt) (hd c hc)
      · next hge =>
        cases hb
        rcases hc with rfl | hc
        · omega
        · exact hd c hc
  have main : ∀ (l acc : List (Fin 4)),
      (∀ b r, acc = b :: r → ∀ c ∈ acc, s.buffers[b].index ≤ s.buffers[c].index) →
      ∀ b r, l.foldl (fun l b => insertByIndex s b l) acc = b :: r →
        ∀ c ∈ l.foldl (fun l b => insertByIndex s b l) acc, s.buffers[b].index ≤ s.buffers[c].index := by
    intro l
    induction l with
    | nil => intro acc ha; exact ha
    | cons x l ih => intro acc ha; exact ih _ (ins x acc ha)
  exact main l [] (by intro b r h; cases h) b r h c ((mem_sorted c l).mpr hc)

/-- The first buffer with a property, by number. -/
theorem find_buffer (P : Fin 4 → Bool) (b : Fin 4) :
    bufferNumbers.find? P = some b ↔ P b = true ∧ ∀ b', b' < b → P b' = false := by
  unfold bufferNumbers
  cases h0 : P 0 <;> cases h1 : P 1 <;> cases h2 : P 2 <;> cases h3 : P 3 <;> simp only [List.find?, h0, h1, h2, h3] <;>
    revert b <;> simp [Fin.forall_fin_succ, h0, h1, h2, h3]

theorem mem_bufferNumbers (b : Fin 4) : b ∈ bufferNumbers := by revert b; decide

/-- The lowest-numbered FREE buffer (R113). -/
theorem freeBuffer_iff (s : State) (b : Fin 4) :
    s.freeBuffer = some b ↔ s.buffers[b].state = .free ∧ ∀ b', b' < b → s.buffers[b'].state ≠ .free := by
  unfold State.freeBuffer
  rw [find_buffer]; simp

theorem freeBuffer_none (s : State) : s.freeBuffer = none ↔ ∀ b : Fin 4, s.buffers[b].state ≠ .free := by
  unfold State.freeBuffer
  rw [List.find?_eq_none]
  exact ⟨fun h b => by simpa using h b (mem_bufferNumbers b), fun h b _ => by simpa using h b⟩

/-- The least number with a property. -/
theorem find_range (P : Nat → Bool) (n i : Nat) :
    (List.range n).find? P = some i ↔ i < n ∧ P i = true ∧ ∀ i', i' < i → P i' = false := by
  rw [List.find?_range_eq_some]
  simp [List.mem_range, and_left_comm]

end Sys2Proof.Machine
end

