-- ==== Sys2Proof/Laws/Requests.lean ====
section
/-! SUPPORT. What issuing requests does (R116): the buffers alone change, one request takes the lowest FREE buffer for the
lowest sector in no buffer of its order, and once all are issued none is left to be issued. -/

namespace Sys2Proof.Machine

-- Every thread of the checker reserves a whole stack: these many short proofs are checked one after another.
set_option Elab.async false

variable {s t u : State} {p : Port} {k : Fin 8} {sl : Slot}

/-- One request issued changes the buffers alone (R116). -/
theorem issueRequest_buffers (s : State) : s.issueRequest = { s with buffers := s.issueRequest.buffers } := by
  unfold State.issueRequest
  split
  · split
    · split <;> rfl
    · rfl
  · rfl

/-- Issuing requests changes the buffers alone (R116). -/
theorem testRequests_buffers (s : State) : s.testRequests = { s with buffers := s.testRequests.buffers } := by
  unfold State.testRequests
  rw [issueRequest_buffers s.issueRequest.issueRequest, issueRequest_buffers s.issueRequest, issueRequest_buffers s]

@[simp] theorem slot_issueRequest (q : Port) (j : Fin 8) : s.issueRequest.slot q j = s.slot q j := by
  rw [issueRequest_buffers]; rfl

@[simp] theorem slot_testRequests (q : Port) (j : Fin 8) : s.testRequests.slot q j = s.slot q j := by
  rw [testRequests_buffers]; rfl

/-- Without an order in service no WRITE may issue requests (R116). -/
theorem mayAsk_none (h : s.inService = none) (p : Port) (k : Fin 8) (sl : Slot) : ¬s.mayAsk p k sl := by
  intro hm; have := hm.1; rw [h] at this; cases this

/-- A request is issued only for a WRITE that may issue one (R116, R161). -/
theorem issueRequest_idle (h : ∀ p k sl, ¬s.mayAsk p k sl) : s.issueRequest = s := by
  unfold State.issueRequest
  split
  · next p k sl hs =>
    rw [if_neg]
    rintro ⟨a, b, c, d, -⟩
    exact h p k sl ⟨hs, a, b, c, by simpa [State.lost] using d⟩
  · rfl

/-- No request is issued where no WRITE in service may issue one (R116). -/
theorem testRequests_idle (h : ∀ p k sl, ¬s.mayAsk p k sl) : s.testRequests = s := by
  unfold State.testRequests
  rw [issueRequest_idle h, issueRequest_idle h, issueRequest_idle h]

/-- One request issued: nothing changes, since none can be issued, or the lowest sector in no buffer of the order is
requested in a FREE buffer (R116). -/
theorem issueRequest_cases (s : State) : (s.issueRequest = s) ∨ ∃ p k sl i b, s.mayAsk p k sl
    ∧ (s.owned p k).length < 3 ∧ s.buffers[b].state = .free ∧ sl.sectorsDone ≤ i ∧ i < sl.n
    ∧ (∀ b' : Fin 4, s.buffers[b'].owner = some (p, k) → s.buffers[b'].index ≠ i)
    ∧ (∀ j, sl.sectorsDone ≤ j → j < i → ∃ b' : Fin 4, s.buffers[b'].owner = some (p, k) ∧ s.buffers[b'].index = j)
    ∧ s.issueRequest = s.putBuffer b ⟨.filling, some (p, k), i, []⟩ := by
  unfold State.issueRequest
  split
  · next p k sl hs =>
    split
    · next hc =>
      obtain ⟨c1, c2, c3, c4, c5⟩ := hc
      split
      · next i b hi hb =>
        right
        refine ⟨p, k, sl, i, b, ⟨hs, c1, c2, c3, by simpa [State.lost] using c4⟩, c5, (freeBuffer_iff s b).mp hb |>.1, ?_⟩
        unfold State.nextRequest at hi
        rw [List.find?_filter, find_range] at hi
        obtain ⟨h1, h2, h3⟩ := hi
        simp only [decide_eq_true_eq, List.all_eq_true, Bool.not_eq_true', decide_eq_false_iff_not, mem_owned] at h2
        refine ⟨h2.1, h1, h2.2, fun j hj hji => ?_, rfl⟩
        have := h3 j hji
        simpa [hj, mem_owned] using this
      · exact .inl rfl
    · exact .inl rfl
  · exact .inl rfl

/-- The buffers that an order owns and that are not FREE are one more once a request of it has been issued. -/
theorem issued_count {b : Fin 4} (x : Buffer) (hx : x.owner = some (p, k) ∧ x.state ≠ .free)
    (hb : s.buffers[b].state = .free) :
    (bufferNumbers.filter fun b' => decide ((s.putBuffer b x).buffers[b'].owner = some (p, k)
      ∧ (s.putBuffer b x).buffers[b'].state ≠ .free)).length
    = (bufferNumbers.filter fun b' => decide (s.buffers[b'].owner = some (p, k) ∧ s.buffers[b'].state ≠ .free)).length + 1 := by
  generalize hP : (fun b' : Fin 4 => decide (s.buffers[b'].owner = some (p, k) ∧ s.buffers[b'].state ≠ .free)) = P
  have key : (fun b' : Fin 4 => decide ((s.putBuffer b x).buffers[b'].owner = some (p, k)
      ∧ (s.putBuffer b x).buffers[b'].state ≠ .free)) = fun b' => decide (b' = b) || P b' := by
    funext b'
    rw [← hP]
    simp only [State.putBuffer, Fin.getElem_fin, Vector.getElem_set]
    by_cases h : b = b'
    · subst h; simp [hx]
    · rw [if_neg (by simpa [Fin.ext_iff] using h)]; simp [Ne.symm h]
  have hPb : P b = false := by rw [← hP]; simp only [Fin.getElem_fin] at hb ⊢; simp [hb]
  rw [key]
  clear hP key
  unfold bufferNumbers
  cases h0 : P 0 <;> cases h1 : P 1 <;> cases h2 : P 2 <;> cases h3 : P 3 <;>
    (revert hPb; revert b; simp [Fin.forall_fin_succ, h0, h1, h2, h3])

/-- Once all requests are issued, none is left to be issued (R116). -/
theorem testRequests_twice (s : State) : s.testRequests.testRequests = s.testRequests := by
  have fix : ∀ x : State, x.issueRequest = x → x.testRequests = x := by
    intro x h; unfold State.testRequests; rw [h, h, h]
  -- a state in which no request can be issued stays so
  suffices h : s.testRequests.issueRequest = s.testRequests by exact fix _ h
  unfold State.testRequests
  by_cases h1 : s.issueRequest = s
  · rw [h1, h1, h1, h1]
  by_cases h2 : s.issueRequest.issueRequest = s.issueRequest
  · rw [h2, h2, h2]
  by_cases h3 : s.issueRequest.issueRequest.issueRequest = s.issueRequest.issueRequest
  · rw [h3, h3]
  by_cases h4 : s.issueRequest.issueRequest.issueRequest.issueRequest = s.issueRequest.issueRequest.issueRequest
  · exact h4
  exfalso
  obtain ⟨p1, k1, s1, i1, b1, m1, c1, f1, -, -, -, -, e1⟩ := (issueRequest_cases s).resolve_left h1
  obtain ⟨p2, k2, s2, i2, b2, m2, c2, f2, -, -, -, -, e2⟩ := (issueRequest_cases _).resolve_left h2
  obtain ⟨p3, k3, s3, i3, b3, m3, c3, f3, -, -, -, -, e3⟩ := (issueRequest_cases _).resolve_left h3
  obtain ⟨p4, k4, s4, i4, b4, m4, c4, f4, -, -, -, -, e4⟩ := (issueRequest_cases _).resolve_left h4
  have same : ∀ {x y : State} {p q j k z w}, x.queues = y.queues → x.mayAsk p k z → y.mayAsk q j w →
      (p, k) = (q, j) := by
    intro x y p q j k z w hq hx hy
    have : x.inService = y.inService := by unfold State.inService State.findSlot; rw [hq]
    have h := hx.1; rw [this, hy.1] at h; cases h; rfl
  have q2 : s.issueRequest.queues = s.queues := by rw [issueRequest_buffers]
  have q3 : s.issueRequest.issueRequest.queues = s.queues := by rw [issueRequest_buffers]; exact q2
  have q4 : s.issueRequest.issueRequest.issueRequest.queues = s.queues := by rw [issueRequest_buffers]; exact q3
  cases same q2 m2 m1; cases same q3 m3 m1; cases same q4 m4 m1
  have n1 := issued_count (s := s) (p := p1) (k := k1) ⟨.filling, some (p1, k1), i1, []⟩ ⟨rfl, by simp⟩ f1
  have n2 := issued_count (s := s.issueRequest) (p := p1) (k := k1) ⟨.filling, some (p1, k1), i2, []⟩ ⟨rfl, by simp⟩ f2
  have n3 := issued_count (s := s.issueRequest.issueRequest) (p := p1) (k := k1) ⟨.filling, some (p1, k1), i3, []⟩
    ⟨rfl, by simp⟩ f3
  rw [← e1] at n1; rw [← e2] at n2; rw [← e3] at n3
  have le : ∀ x : State, (bufferNumbers.filter fun b' => decide (x.buffers[b'].owner = some (p1, k1)
      ∧ x.buffers[b'].state ≠ .free)).length ≤ (x.owned p1 k1).length := by
    intro x
    unfold State.owned
    refine List.Sublist.length_le (List.monotone_filter_right _ fun b h => ?_)
    simp only [decide_eq_true_eq] at h ⊢
    exact h.1
  have := le s.issueRequest.issueRequest.issueRequest
  omega

end Sys2Proof.Machine
end

