-- ==== Sys2Proof/Laws/Endings.lean ====
section
/-! SUPPORT. What an ending does, said once for a slot that waits or drains, once for the order in service, and once for
all the slots of a port that an event ends; what the drive's entry into FAULTED and into SPINNING DOWN leaves. -/

namespace Sys2Proof.Machine

-- Every thread of the checker reserves a whole stack: these many short proofs are checked one after another.
set_option Elab.async false

variable {s t u : State} {p : Port} {k : Fin 8} {sl : Slot} {e : Ending} {fa : Option Addr}

/-- `t` differs from `s` in its queues and its buffers alone. -/
def QueuesOnly (s t : State) : Prop := t = { s with queues := t.queues, buffers := t.buffers }

theorem QueuesOnly.refl (s : State) : QueuesOnly s s := rfl

theorem QueuesOnly.trans (h : QueuesOnly s t) (h' : QueuesOnly t u) : QueuesOnly s u := by
  unfold QueuesOnly at *; rw [h', h]

/-- `t` differs from `s` in the queue of one port and in the buffers alone. -/
def QueueOnly (p : Port) (s t : State) : Prop := QueuesOnly s t ∧ t.queues.get p.other = s.queues.get p.other

theorem QueueOnly.refl (p : Port) (s : State) : QueueOnly p s s := ⟨rfl, rfl⟩

theorem QueueOnly.trans (h : QueueOnly p s t) (h' : QueueOnly p t u) : QueueOnly p s u :=
  ⟨h.1.trans h'.1, h'.2.trans h.2⟩

/-- The lists of a port name its live slots, each once, and its DONE slots. -/
def Listed (s : State) (p : Port) : Prop :=
  (s.queues.get p).order.Nodup ∧ (∀ k, k ∈ (s.queues.get p).order ↔ (s.slot p k).isSome = true)
    ∧ ∀ k ∈ (s.queues.get p).replies, ∃ sl, s.slot p k = some sl ∧ sl.state = .done

theorem Listed.of (h : s.queueLaw) (p : Port) : Listed s p := ⟨(h p).1, (h p).2.1, fun k => ((h p).2.2.2.1 k).mp⟩

theorem Listed.congr (h : Listed s p) (e : t.queues.get p = s.queues.get p) : Listed t p := by
  unfold Listed State.slot at *; rw [e]; exact h

/-- The queue of a slot that an ending reaches. -/
theorem finish_eq {q : Queue} (h : q.slots[k] = some sl) :
    q.finish k e fa = if sl.withdrawn then ⟨q.slots.set k none, q.order.erase k, q.replies.erase k⟩
      else { q with slots := q.slots.set k (sl.ended e fa), replies := q.replies ++ [k] } := by
  unfold Queue.finish; rw [h]; dsimp only
  cases hw : sl.withdrawn
  · simp only [Bool.false_eq_true, if_false, Slot.ended, hw]; rfl
  · rfl

/-- The slots of a queue after an ending. -/
theorem finish_slots {q : Queue} (h : q.slots[k] = some sl) (j : Fin 8) :
    (q.finish k e fa).slots[j] = if j = k then sl.ended e fa else q.slots[j] := by
  rw [finish_eq h]
  split
  · next hw => simp only [Fin.getElem_fin, Vector.getElem_set, Slot.ended, hw, if_true, Fin.ext_iff, eq_comm]
  · simp only [Fin.getElem_fin, Vector.getElem_set, Fin.ext_iff, eq_comm]

theorem onQueue_congr (f g : Queue → Queue) (h : f (s.queues.get p) = g (s.queues.get p)) :
    s.onQueue p f = s.onQueue p g := by
  cases p <;> simp only [PerPort.get] at h <;> simp only [State.onQueue, PerPort.modify, h]

@[simp] theorem countEnding_buffers : (s.countEnding p e).buffers = s.buffers := by cases e <;> rfl

/-- The buffers of a slot that lets go of all of them. -/
theorem release_buffers (b : Fin 4) : (s.release p k fun _ => true).buffers[b] =
    if s.buffers[b].owner = some (p, k) then
      if s.delivering p = some b ∧ s.buffers[b].state = .fullForHost then { s.buffers[b] with owner := none }
      else ⟨.free, none, 0, []⟩
    else s.buffers[b] := by
  simp only [State.release, Fin.getElem_fin, Vector.getElem_ofFn, and_true]; rfl

/-- An ending of a slot that waits or drains (R49). -/
theorem endSlot_waiting (h : s.slot p k = some sl) (hd : sl.state ≠ .done) (hi : sl.state ≠ .inService) :
    s.endSlot p k e fa = (((s.release p k fun _ => true).countEnding p e).onQueue p fun q =>
      if sl.withdrawn then ⟨q.slots.set k none, q.order.erase k, q.replies.erase k⟩
      else { q with slots := q.slots.set k (sl.ended e fa), replies := q.replies ++ [k] }).testRequests := by
  unfold State.endSlot; rw [h]; dsimp only; rw [if_neg hd, if_neg hi]
  congr 1
  refine onQueue_congr _ _ ?_
  have : ((s.release p k fun _ => true).countEnding p e).queues = s.queues := by rw [countEnding_queues]; rfl
  rw [this]
  exact finish_eq h

/-- The slots after an ending: the slot it reached has ended, every other is as it was. -/
theorem endSlot_slot (h : s.slot p k = some sl) (hd : sl.state ≠ .done) (hi : sl.state ≠ .inService) (q : Port)
    (j : Fin 8) : (s.endSlot p k e fa).slot q j = if (q, j) = (p, k) then sl.ended e fa else s.slot q j := by
  rw [endSlot_waiting h hd hi, slot_testRequests, slot_onQueue]
  by_cases hq : q = p
  · subst hq
    have hs : ((s.release q k fun _ => true).countEnding q e).queues = s.queues := by rw [countEnding_queues]; rfl
    rw [if_pos rfl, hs, ← finish_eq h, finish_slots h]
    by_cases hj : j = k
    · subst hj; simp
    · simp [hj]; rfl
  · rw [if_neg hq, if_neg (by simp [hq])]
    exact slot_of_queues _ _ (by rw [countEnding_queues]; rfl) q j

/-- An ending that no counter counts changes queues and buffers alone, for a slot that waits or drains. -/
theorem endSlot_only (h : s.slot p k = some sl) (hd : sl.state ≠ .done) (hi : sl.state ≠ .inService)
    (he : ∀ x : State, x.countEnding p e = x) : QueueOnly p s (s.endSlot p k e fa) := by
  rw [endSlot_waiting h hd hi, he]
  constructor
  · unfold QueuesOnly
    rw [testRequests_buffers]; rfl
  · rw [testRequests_buffers]; cases p <;> rfl

/-! ## The slots and the lists after endings -/

theorem ended_state {x y : Slot} (h : x.ended e fa = some y) : y.state = .done := by
  unfold Slot.ended at h; split at h
  · cases h
  · cases h; rfl

/-- Slots of `s` that were live and not DONE have ended in `t`, each DONE or FREE, every other is as it was, and the lists
follow (R47, R49). -/
structure Ended (s t : State) : Prop where
  slots : ∀ q j, t.slot q j = s.slot q j
    ∨ (∃ y, s.slot q j = some y ∧ y.state ≠ .done) ∧ ∀ z, t.slot q j = some z → z.state = .done
  lists : s.listsFollow t

theorem Ended.refl (hl : ∀ q, Listed s q) (h : t.queues = s.queues) : Ended s t := by
  refine ⟨fun q j => .inl (slot_of_queues (s := s) t h q j), fun q => ?_⟩
  rw [h]
  refine ⟨(List.filter_eq_self.mpr fun k hk => ?_).symm, [], by simp, by simp, fun k => ?_⟩
  · rw [slot_of_queues (s := s) t h]; exact ((hl q).2.1 k).mp hk
  · rw [slot_of_queues (s := s) t h]; simp

theorem Ended.congr (h : Ended s t) (e : u.queues = t.queues) : Ended s u := by
  refine ⟨fun q j => ?_, fun q => ?_⟩
  · rw [slot_of_queues (s := t) u e]; exact h.slots q j
  · simp only [slot_of_queues (s := t) u e, e]; exact h.lists q

/-- A slot that has ended was not DONE, so that it stays as it is from then on. -/
theorem Ended.changed (h : Ended s t) {q : Port} {j : Fin 8} (hc : t.slot q j ≠ s.slot q j) :
    (∃ y, s.slot q j = some y ∧ y.state ≠ .done) ∧ ∀ z, t.slot q j = some z → z.state = .done :=
  (h.slots q j).resolve_left hc

theorem Ended.trans (h : Ended s t) (g : Ended t u) : Ended s u := by
  have stay : ∀ q j, t.slot q j ≠ s.slot q j → u.slot q j = t.slot q j := by
    intro q j hc
    by_contra hu
    obtain ⟨⟨y, hy, hn⟩, -⟩ := g.changed hu
    exact hn ((h.changed hc).2 y hy)
  refine ⟨fun q j => ?_, fun q => ?_⟩
  · by_cases hc : t.slot q j = s.slot q j
    · rw [← hc]; exact g.slots q j
    · rw [stay q j hc]; exact h.slots q j
  obtain ⟨o1, l1, r1, n1, m1⟩ := h.lists q
  obtain ⟨o2, l2, r2, n2, m2⟩ := g.lists q
  refine ⟨?_, l1 ++ l2, by rw [r2, r1, List.append_assoc], ?_, fun k => ?_⟩
  · rw [o2, o1, List.filter_filter]
    refine List.filter_congr fun k _ => ?_
    by_cases hu : u.slot q k = t.slot q k
    · rw [hu, Bool.and_self]
    · obtain ⟨⟨y, hy, -⟩, -⟩ := g.changed hu; rw [hy, Option.isSome_some, Bool.and_true]
  · refine List.nodup_append.mpr ⟨n1, n2, ?_⟩
    rintro k h1 _ h2 rfl
    exact ((m2 k).mp h2).1 (stay q k ((m1 k).mp h1).1)
  · rw [List.mem_append, m1, m2]
    by_cases hc : t.slot q k = s.slot q k
    · rw [hc]; simp
    · rw [stay q k hc]; simp

theorem Ended.listed (h : Ended s t) {q : Port} (hl : Listed s q) : Listed t q := by
  obtain ⟨o, l, r, -, m⟩ := h.lists q
  obtain ⟨h1, h2, h3⟩ := hl
  refine ⟨by rw [o]; exact h1.filter _, fun k => ?_, fun k hk => ?_⟩
  · rw [o, List.mem_filter, h2]
    refine ⟨fun x => x.2, fun x => ⟨?_, x⟩⟩
    rcases h.slots q k with e | ⟨⟨y, hy, -⟩, -⟩
    · rw [← e]; exact x
    · rw [hy]; rfl
  · rw [r, List.mem_append, m] at hk
    rcases hk with hk | ⟨hc, hn⟩
    · obtain ⟨sl, hs, hd⟩ := h3 k hk
      rcases h.slots q k with e | ⟨⟨y, hy, hyd⟩, -⟩
      · exact ⟨sl, by rw [e, hs], hd⟩
      · rw [hs] at hy; cases hy; exact absurd hd hyd
    · cases ht : t.slot q k with
      | none => exact absurd ht hn
      | some z => exact ⟨z, rfl, (h.changed hc).2 z ht⟩

/-- One ending of a slot that was not DONE (R47, R49). -/
theorem Ended.of_finish {z : Slot} (h : s.slot p k = some sl) (hd : sl.state ≠ .done) (hl : ∀ q, Listed s q)
    (hz : z.state = .done) (hq : t.queues = s.queues.modify p fun q =>
      if sl.withdrawn then ⟨q.slots.set k none, q.order.erase k, q.replies.erase k⟩
      else { q with slots := q.slots.set k (some z), replies := q.replies ++ [k] }) : Ended s t := by
  have hs : ∀ q j, t.slot q j = if (q, j) = (p, k) then (if sl.withdrawn then none else some z) else s.slot q j := by
    intro q j
    unfold State.slot
    rw [hq, get_modify]
    by_cases hqp : q = p
    · subst hqp
      rw [if_pos rfl]
      by_cases hj : j = k
      · subst hj; split <;> simp
      · have this : ¬(k : Nat) = (j : Nat) := fun e => hj (Fin.ext e.symm)
        have hne : ¬(q, j) = (q, k) := by simp [hj]
        rw [if_neg hne]
        split <;> simp [this]
    · rw [if_neg hqp, if_neg (by simp [hqp])]
  refine ⟨fun q j => ?_, fun q => ?_⟩
  · rw [hs]
    split
    · next e => cases e; right; refine ⟨⟨sl, h, hd⟩, fun y hy => ?_⟩; split at hy <;> cases hy; exact hz
    · exact .inl rfl
  obtain ⟨h1, h2, h3⟩ := hl q
  rw [hq, get_modify]
  have live : ∀ k ∈ (s.queues.get q).order, (s.slot q k).isSome = true := fun k hk => (h2 k).mp hk
  by_cases hqp : q = p
  · subst hqp
    rw [if_pos rfl]
    have notIn : k ∉ (s.queues.get q).replies := by
      intro hk; obtain ⟨y, hy, hyd⟩ := h3 k hk; rw [h] at hy; cases hy; exact hd hyd
    cases hw : sl.withdrawn
    · simp only [hw, Bool.false_eq_true, if_false] at hs ⊢
      refine ⟨(List.filter_eq_self.mpr fun j hj => ?_).symm, [k], rfl, by simp, fun j => ?_⟩
      · rw [hs]; split
        · rfl
        · exact live j hj
      · rw [hs]
        by_cases hj : j = k
        · subst hj
          simp only [List.mem_singleton, if_true, ne_eq, true_iff, reduceCtorEq, not_false_eq_true, and_true, h]
          rintro e; cases e; exact hd hz
        · simp [hj]
    · simp only [hw, if_true] at hs ⊢
      refine ⟨?_, [], ?_, by simp, fun j => ?_⟩
      · rw [h1.erase_eq_filter]
        refine List.filter_congr fun j hj => ?_
        rw [hs]
        by_cases hjk : j = k
        · subst hjk; simp
        · rw [if_neg (by simp [hjk]), live j hj]; simp [hjk]
      · rw [List.erase_of_not_mem notIn, List.append_nil]
      · rw [hs]; split
        · simp
        · simp
  · rw [if_neg hqp]
    refine ⟨(List.filter_eq_self.mpr fun j hj => ?_).symm, [], by simp, by simp, fun j => ?_⟩
    · rw [hs, if_neg (by simp [hqp])]; exact live j hj
    · rw [hs, if_neg (by simp [hqp])]; simp

/-- An ending of a slot that waits or drains (R47, R49). -/
theorem endSlot_ended (h : s.slot p k = some sl) (hd : sl.state ≠ .done) (hi : sl.state ≠ .inService)
    (hl : ∀ q, Listed s q) : Ended s (s.endSlot p k e fa) := by
  refine Ended.of_finish (z := { sl with
    state := .done, outcome := some e, faultAddr := fa.or sl.faultAddr, drainStart := none }) h hd hl rfl ?_
  rw [endSlot_waiting h hd hi, testRequests_queues, onQueue_queues, countEnding_queues]
  show s.queues.modify p _ = _
  cases hw : sl.withdrawn <;> simp [Slot.ended, hw]

/-! ## The buffers after endings -/

/-- A buffer is left as it is where no slot has ended. -/
theorem left_self (h : t.queues = s.queues) (b : Fin 4) : s.bufferLeft t b = s.buffers[b] := by
  unfold State.bufferLeft
  split
  · next p k _ => rw [if_pos (slot_of_queues (s := s) t h p k)]
  · rfl

/-- Where the endings from `s` to `t` leave each buffer exactly as they must, what further endings leave of `t` is what they
leave of `s`. -/
theorem left_trans (hb : ∀ b : Fin 4, t.buffers[b] = s.bufferLeft t b) (hp : t.ports = s.ports) (h : Ended s t)
    (g : Ended t u) (b : Fin 4) : t.bufferLeft u b = s.bufferLeft u b := by
  have hd : ∀ p, t.delivering p = s.delivering p := by intro p; unfold State.delivering; rw [hp]
  have e := hb b
  cases ho : s.buffers[b].owner with
  | none =>
    have : s.bufferLeft t b = s.buffers[b] := by unfold State.bufferLeft; rw [ho]
    rw [this] at e
    unfold State.bufferLeft; rw [e, ho]
  | some x =>
    obtain ⟨p, k⟩ := x
    by_cases hc : t.slot p k = s.slot p k
    · have : s.bufferLeft t b = s.buffers[b] := by unfold State.bufferLeft; rw [ho]; dsimp only; rw [if_pos hc]
      rw [this] at e
      unfold State.bufferLeft; rw [e, ho]; dsimp only; rw [hc, hd]
    · have hu : u.slot p k = t.slot p k := by
        by_contra hu
        obtain ⟨⟨y, hy, hn⟩, -⟩ := g.changed hu
        exact hn ((h.changed hc).2 y hy)
      have : s.bufferLeft u b = s.bufferLeft t b := by
        unfold State.bufferLeft; rw [ho]; dsimp only; rw [hu]
      rw [this, ← e]
      unfold State.bufferLeft
      have hn : t.buffers[b].owner = none := by
        rw [e]; unfold State.bufferLeft; rw [ho]; dsimp only; rw [if_neg hc]; split <;> rfl
      rw [hn]

/-- The order in service depends on the records that are IN SERVICE alone. -/
theorem inService_congr (h : ∀ q j, t.slot q j = s.slot q j
    ∨ (∀ y, s.slot q j = some y → y.state ≠ .inService) ∧ ∀ y, t.slot q j = some y → y.state ≠ .inService) :
    t.inService = s.inService := by
  have one : ∀ p, (t.queues.get p).find (fun sl => decide (sl.state = .inService))
      = (s.queues.get p).find fun sl => decide (sl.state = .inService) := by
    intro p
    unfold Queue.find
    congr 1
    funext k
    rcases h p k with e | ⟨a, b⟩
    · unfold State.slot at e; rw [e]
    · unfold State.slot at a b
      have z : ∀ o : Option Slot, (∀ y, o = some y → y.state ≠ .inService) → (match o with
          | some sl => if decide (sl.state = .inService) = true then some (k, sl) else none
          | none => none) = none := by
        intro o ho
        cases o with
        | none => rfl
        | some y => dsimp only; rw [if_neg (by simpa using ho y rfl)]
      exact (z _ b).trans (z _ a).symm
  have ha := one .a
  have hb := one .b
  simp only [PerPort.get] at ha hb
  unfold State.inService State.findSlot
  rw [ha, hb]

/-- Slots of `s` that wait or drain have ended in `t`, and the WRITE in service may have taken FREE buffers since (R49,
R116, R124). -/
structure Waning (s t : State) : Prop where
  only : QueuesOnly s t
  ended : Ended s t
  serving : ∀ q j y, s.slot q j = some y → y.state = .inService → t.slot q j = some y
  kept : ∀ b : Fin 4, (s.bufferLeft t b).state ≠ .free → t.buffers[b] = s.bufferLeft t b
  idle : (∀ p k sl, ¬s.mayAsk p k sl) → ∀ b : Fin 4, t.buffers[b] = s.bufferLeft t b
  asked : ∀ p k sl, s.bufferLaw → s.mayAsk p k sl → ∀ b : Fin 4, (s.bufferLeft t b).state = .free →
    t.buffers[b] = s.bufferLeft t b ∨ ∃ i, t.buffers[b] = ⟨.filling, some (p, k), i, []⟩
      ∧ sl.sectorsDone ≤ i ∧ i < sl.n
      ∧ (∀ b' : Fin 4, t.buffers[b'].owner = some (p, k) → t.buffers[b'].index = i → b' = b)
      ∧ ∀ j, sl.sectorsDone ≤ j → j < i → ∃ b' : Fin 4, t.buffers[b'].owner = some (p, k) ∧ t.buffers[b'].index = j

theorem Waning.inService (h : Waning s t) : t.inService = s.inService := by
  refine inService_congr fun q j => ?_
  rcases h.ended.slots q j with e | ⟨⟨y, hy, -⟩, g⟩
  · exact .inl e
  · by_cases hi : y.state = .inService
    · exact .inl (by rw [h.serving q j y hy hi, hy])
    · right
      refine ⟨fun x hx => by rw [hy] at hx; cases hx; exact hi, fun x hx => ?_⟩
      rw [g x hx]; simp

theorem Waning.mayAsk (h : Waning s t) {q : Port} {j : Fin 8} {x : Slot} : t.mayAsk q j x ↔ s.mayAsk q j x := by
  unfold State.mayAsk; rw [h.inService, show t.ports = s.ports by rw [h.only]]

/-- Nothing has ended, or the requests that the endings let through are issued (R116). -/
structure Waned (s t : State) : Prop extends Waning s t where
  quiet : t = s ∨ (t.testRequests = t ∧ ∃ q j, t.slot q j ≠ s.slot q j)

/-- What the endings of slots that wait or drain leave of the buffers. -/
theorem Waned.buffers (h : Waned s t) : s.buffersFollow t := by
  refine ⟨h.kept, fun hs => ?_, fun ⟨q, j, hc⟩ => ?_, fun hi => h.idle fun p k sl hm => hi p k sl (h.mayAsk.mpr hm),
    fun p k sl hb hm => h.asked p k sl hb (h.mayAsk.mp hm)⟩
  · rcases h.quiet with e | ⟨-, q, j, hc⟩
    · rw [e]
    · exact absurd (hs q j) hc
  · rcases h.quiet with e | ⟨e, -⟩
    · rw [e] at hc; exact absurd rfl hc
    · exact e

theorem Waned.refl (hl : ∀ q, Listed s q) : Waned s s := by
  have e : ∀ b : Fin 4, s.bufferLeft s b = s.buffers[b] := left_self rfl
  exact ⟨⟨.refl s, .refl hl rfl, fun _ _ _ h _ => h, fun b _ => (e b).symm, fun _ b => (e b).symm,
    fun _ _ _ _ _ b _ => .inl (e b).symm⟩, .inl rfl⟩

/-- A request issued meanwhile takes a buffer that is left FREE (R116). -/
theorem Waning.issue (h : Waning s t) : Waning s t.issueRequest := by
  rcases issueRequest_cases t with e | ⟨p, k, sl, i, c, hm, -, hf, h1, h2, h3, h4, e⟩
  · rw [e]; exact h
  have hm' := h.mayAsk.mp hm
  have left : ∀ b, s.bufferLeft t.issueRequest b = s.bufferLeft t b := by
    intro b; unfold State.bufferLeft; simp only [slot_issueRequest]
  have buf : ∀ b : Fin 4, t.issueRequest.buffers[b] = if b = c then ⟨.filling, some (p, k), i, []⟩ else t.buffers[b] := by
    intro b
    rw [e]
    simp only [State.putBuffer, Fin.getElem_fin, Vector.getElem_set, Fin.ext_iff, eq_comm (a := (c : Nat))]
  refine ⟨h.only.trans ?_, h.ended.congr ?_, fun q j y hy hi => ?_, fun b hb => ?_, fun hi => ?_,
    fun q j x hl hx b hb => ?_⟩
  · rw [issueRequest_buffers]; rfl
  · rw [issueRequest_buffers]
  · rw [slot_issueRequest]; exact h.serving q j y hy hi
  · rw [left] at hb ⊢
    rw [buf, if_neg, h.kept b hb]
    rintro rfl
    rw [h.kept b hb] at hf; exact hb hf
  · exact absurd hm' (hi p k sl)
  · rw [left] at hb ⊢
    have hx' := hx.1
    rw [hm'.1] at hx'; cases hx'
    have none' : t.buffers[c].owner = none := by
      by_cases hc : (s.bufferLeft t c).state = .free
      · rcases h.asked p k sl hl hm' c hc with e | ⟨i', e, -⟩
        · rw [e]; unfold State.bufferLeft
          split
          · next q j ho =>
            split
            · next hs =>
              unfold State.bufferLeft at hc
              rw [ho] at hc; dsimp only at hc; rw [if_pos hs] at hc
              exact hl c hc
            · split <;> rfl
          · next ho => exact ho
        · rw [e] at hf; cases hf
      · rw [h.kept c hc] at hf; exact absurd hf hc
    have keep : ∀ b' : Fin 4, t.buffers[b'].owner = some (p, k) → b' ≠ c := by
      rintro b' hb' rfl; rw [none'] at hb'; cases hb'
    by_cases hbc : b = c
    · subst hbc
      right
      refine ⟨i, by rw [buf, if_pos rfl], h1, h2, fun b' ho hix => ?_, fun j hj hji => ?_⟩
      · by_contra hne
        rw [buf, if_neg hne] at ho hix
        exact h3 b' ho hix
      · obtain ⟨b', hb', hx⟩ := h4 j hj hji
        exact ⟨b', by rw [buf, if_neg (keep b' hb')]; exact hb', by rw [buf, if_neg (keep b' hb')]; exact hx⟩
    · rw [buf, if_neg hbc]
      rcases h.asked p k sl hl hm' b hb with e | ⟨i', e, g1, g2, g3, g4⟩
      · exact .inl e
      · right
        refine ⟨i', e, g1, g2, fun b' ho hix => ?_, fun j hj hji => ?_⟩
        · by_cases hb' : b' = c
          · rw [buf, if_pos hb'] at hix
            have := h3 b (by rw [e])
            rw [e] at this; exact absurd hix.symm this
          · rw [buf, if_neg hb'] at ho hix; exact g3 b' ho hix
        · obtain ⟨b', hb', hx⟩ := g4 j hj hji
          exact ⟨b', by rw [buf, if_neg (keep b' hb')]; exact hb', by rw [buf, if_neg (keep b' hb')]; exact hx⟩

theorem Waning.requests (h : Waning s t) : Waning s t.testRequests := h.issue.issue.issue

/-- One more slot that waits or drains ends (R49, R124). -/
theorem Waned.ending (h : Waned s t) (hl : ∀ q, Listed s q) (hs : t.slot p k = some sl) (hd : sl.state ≠ .done)
    (hi : sl.state ≠ .inService) (he : ∀ x : State, x.countEnding p e = x) : Waned s (t.endSlot p k e fa) := by
  -- the slot had not ended before
  have hsame : t.slot p k = s.slot p k := by
    by_contra hc; exact hd ((h.ended.changed hc).2 sl hs)
  have hl' : ∀ q, Listed t q := fun q => h.ended.listed (hl q)
  have slots := endSlot_slot (e := e) (fa := fa) hs hd hi
  have changed : (t.endSlot p k e fa).slot p k ≠ s.slot p k := by
    rw [slots, if_pos rfl, ← hsame, hs]
    intro hx; exact hd (ended_state hx)
  have hlast : (t.endSlot p k e fa).testRequests = t.endSlot p k e fa := by
    rw [endSlot_waiting hs hd hi]; exact testRequests_twice _
  refine ⟨?_, .inr ⟨hlast, p, k, changed⟩⟩
  have hw := endSlot_waiting (e := e) (fa := fa) hs hd hi
  rw [he] at hw
  generalize hy : (t.release p k fun _ => true).onQueue p (fun q =>
      if sl.withdrawn then ⟨q.slots.set k none, q.order.erase k, q.replies.erase k⟩
      else { q with slots := q.slots.set k (sl.ended e fa), replies := q.replies ++ [k] }) = y at hw
  have yslots : ∀ q j, y.slot q j = (t.endSlot p k e fa).slot q j := by intro q j; rw [hw, slot_testRequests]
  have yleft : ∀ b, s.bufferLeft y b = s.bufferLeft (t.endSlot p k e fa) b := by
    intro b; unfold State.bufferLeft; simp only [yslots]
  suffices hy' : Waning s y by rw [hw]; exact hy'.requests
  have ybuf : ∀ b : Fin 4, y.buffers[b] = if t.buffers[b].owner = some (p, k) then
      if s.delivering p = some b ∧ t.buffers[b].state = .fullForHost then { t.buffers[b] with owner := none }
      else ⟨.free, none, 0, []⟩
    else t.buffers[b] := by
    intro b
    have hdel : s.delivering p = t.delivering p := by
      unfold State.delivering; rw [show t.ports = s.ports by rw [h.only]]
    rw [← hy, hdel]; exact release_buffers b
  have ychanged : y.slot p k ≠ s.slot p k := by rw [yslots]; exact changed
  -- what is left of a buffer changes for the slot's own alone
  have same : ∀ b : Fin 4, s.buffers[b].owner ≠ some (p, k) →
      s.bufferLeft y b = s.bufferLeft t b ∧ (s.bufferLeft t b).owner ≠ some (p, k) := by
    intro b hb
    constructor
    · unfold State.bufferLeft
      split
      · next q j ho =>
        have : y.slot q j = t.slot q j := by
          rw [yslots, slots, if_neg]; rintro ⟨⟩; exact hb ho
        rw [this]
      · rfl
    · unfold State.bufferLeft
      split
      · next q j ho =>
        split
        · rw [ho]; rintro ⟨⟩; exact hb ho
        · split <;> simp
      · next ho => rw [ho]; simp
  have own : ∀ b : Fin 4, s.buffers[b].owner = some (p, k) → s.bufferLeft t b = s.buffers[b]
      ∧ s.bufferLeft y b = if s.delivering p = some b ∧ s.buffers[b].state = .fullForHost then
          { s.buffers[b] with owner := none } else ⟨.free, none, 0, []⟩ := by
    intro b hb
    constructor
    · unfold State.bufferLeft; rw [hb]; dsimp only; rw [if_pos hsame]
    · unfold State.bufferLeft; rw [hb]; dsimp only; rw [if_neg ychanged]
  refine ⟨h.only.trans ?_, ?_, fun q j x hx hxi => ?_, fun b hb => ?_, fun hidle b => ?_, fun q j x hbl hm b hb => ?_⟩
  · rw [← hy]; rfl
  · exact (h.ended.trans (endSlot_ended hs hd hi hl')).congr (by rw [hw, testRequests_queues])
  · rw [yslots, slots, if_neg, h.serving q j x hx hxi]
    rintro ⟨⟩
    rw [h.serving p k x hx hxi] at hs; cases hs; exact hi hxi
  · by_cases ho : s.buffers[b].owner = some (p, k)
    · obtain ⟨o1, o2⟩ := own b ho
      have hdel : s.delivering p = some b ∧ s.buffers[b].state = .fullForHost := by
        by_contra hc; rw [o2, if_neg hc] at hb; exact hb rfl
      have ht : t.buffers[b] = s.buffers[b] := by
        rw [← o1]; refine h.kept b ?_; rw [o1, hdel.2]; simp
      rw [ybuf, ht, if_pos ho, o2]
    · obtain ⟨o1, o2⟩ := same b ho
      rw [o1] at hb ⊢
      rw [ybuf, h.kept b hb, if_neg o2]
  · by_cases ho : s.buffers[b].owner = some (p, k)
    · obtain ⟨o1, o2⟩ := own b ho
      rw [ybuf, h.idle hidle b, o1, if_pos ho, o2]
    · obtain ⟨o1, o2⟩ := same b ho
      rw [ybuf, h.idle hidle b, if_neg o2, o1]
  · -- a request stands in a buffer of the order in service, which has not ended
    have hne : (q, j) ≠ (p, k) := by
      rintro ⟨⟩
      have := inService_some (h.mayAsk.mpr hm).1
      rw [hs] at this; cases this.1; exact hi this.2
    have keep : ∀ b' : Fin 4, t.buffers[b'].owner = some (q, j) → y.buffers[b'] = t.buffers[b'] := by
      intro b' hb'; rw [ybuf, if_neg]; rw [hb']; intro e; exact hne (Option.some.inj e)
    have back : ∀ b' : Fin 4, y.buffers[b'].owner = some (q, j) → y.buffers[b'] = t.buffers[b'] := by
      intro b' hb'
      rw [ybuf] at hb' ⊢
      split at hb'
      · split at hb' <;> cases hb'
      · next hc => rw [if_neg hc]
    by_cases ho : s.buffers[b].owner = some (p, k)
    · obtain ⟨o1, o2⟩ := own b ho
      have hfree : s.buffers[b].state ≠ .free := by
        intro hf; have := hbl b hf; rw [ho] at this; cases this
      have ht : t.buffers[b] = s.buffers[b] := by rw [← o1]; refine h.kept b ?_; rw [o1]; exact hfree
      left
      rw [ybuf, ht, if_pos ho, o2]
    · obtain ⟨o1, o2⟩ := same b ho
      rw [o1] at hb ⊢
      rcases h.asked q j x hbl hm b hb with e | ⟨i, e, g1, g2, g3, g4⟩
      · left; rw [ybuf, e, if_neg o2]
      · right
        refine ⟨i, by rw [keep b (by rw [e]), e], g1, g2, fun b' ho hix => ?_, fun n hn hni => ?_⟩
        · have bk := back b' ho; rw [bk] at ho hix; exact g3 b' ho hix
        · obtain ⟨b', hb', hx⟩ := g4 n hn hni
          exact ⟨b', by rw [keep b' hb']; exact hb', by rw [keep b' hb']; exact hx⟩

/-! ## Endings of many slots -/

/-- A change made slot by slot over a list of a port's slot numbers, each number once: every slot of the list has
changed by itself, every other is as it was. -/
theorem fold_slots (g : State → Fin 8 → State) (F : State → Fin 8 → Option Slot → Option Slot) (P : State → Prop)
    (hF : ∀ x y j o, QueueOnly p x y → F x j o = F y j o)
    (hP : ∀ x j, P x → P (g x j))
    (hg : ∀ x j, P x → QueueOnly p x (g x j) ∧ ∀ q i, (g x j).slot q i = if (q, i) = (p, j) then F x j (x.slot p j)
      else x.slot q i) (l : List (Fin 8)) (hl : l.Nodup) (s : State) (hs : P s) :
    QueueOnly p s (l.foldl g s) ∧ P (l.foldl g s) ∧ ∀ q i, (l.foldl g s).slot q i =
      if q = p ∧ i ∈ l then F s i (s.slot p i) else s.slot q i := by
  induction l generalizing s with
  | nil => exact ⟨.refl p s, hs, by simp⟩
  | cons j l ih =>
    have h1 := hg s j hs
    have hn := List.nodup_cons.mp hl
    have h2 := ih hn.2 (g s j) (hP s j hs)
    refine ⟨h1.1.trans h2.1, h2.2.1, fun q i => ?_⟩
    rw [List.foldl_cons, h2.2.2 q i]
    by_cases hq : q = p
    · subst hq
      by_cases hi : i ∈ l
      · have : i ≠ j := fun e => hn.1 (e ▸ hi)
        rw [if_pos ⟨rfl, hi⟩, if_pos ⟨rfl, by simp [hi]⟩, h1.2, if_neg (by simp [this]), ← hF s _ i _ h1.1]
      · rw [if_neg (by simp [hi]), h1.2]
        by_cases hj : i = j
        · subst hj; simp
        · simp [hj, hi]
    · rw [if_neg (by simp [hq]), if_neg (by simp [hq]), h1.2, if_neg (by simp [hq])]

/-- What an event that ends the slots of a port with a property leaves (R49): those slots have ended, every other is as
it was, and only queues and buffers change. -/
theorem endWhere_spec {P : Slot → Bool} (he : ∀ x : State, x.countEnding p e = x)
    (hp : ∀ x, P x = true → x.state ≠ .done ∧ x.state ≠ .inService) (hs : Listed s p) :
    QueueOnly p s (s.endWhere p P e) ∧ ∀ q j, (s.endWhere p P e).slot q j = match s.slot q j with
      | some x => if q = p ∧ P x = true then x.ended e none else some x
      | none => none := by
  have h := fold_slots (p := p)
    (fun s k => match s.slot p k with
      | some sl => if P sl then s.endSlot p k e none else s
      | none => s)
    (fun _ _ o => o.bind fun x => if P x then x.ended e none else some x) (fun _ => True) (fun _ _ _ _ _ => rfl)
    (fun _ _ _ => trivial) (fun x j _ => by
      cases hx : x.slot p j with
      | none =>
        refine ⟨.refl p x, fun q i => ?_⟩
        by_cases hqi : (q, i) = (p, j)
        · rw [if_pos hqi]; cases hqi; exact hx
        · rw [if_neg hqi]
      | some y =>
        dsimp only
        cases hy : P y with
        | false =>
          refine ⟨.refl p x, fun q i => ?_⟩
          by_cases hqi : (q, i) = (p, j)
          · rw [if_pos hqi]; cases hqi; simp [hx, hy]
          · rw [if_neg hqi]; rfl
        | true =>
          refine ⟨endSlot_only hx (hp y hy).1 (hp y hy).2 he, fun q i => ?_⟩
          rw [if_pos rfl, endSlot_slot hx (hp y hy).1 (hp y hy).2]
          simp [hy])
    (s.queues.get p).order hs.1 s trivial
  refine ⟨h.1, fun q j => ?_⟩
  refine (h.2.2 q j).trans ?_
  cases hx : s.slot q j with
  | none =>
    dsimp only
    split
    · next h => obtain ⟨rfl, -⟩ := h; rw [hx]; rfl
    · rfl
  | some x =>
    dsimp only
    by_cases hq : q = p
    · subst hq
      rw [if_pos ⟨rfl, (hs.2.1 j).mpr (by rw [hx]; rfl)⟩, hx]; simp
    · simp [hq]

/-- What the endings of one port's slots that wait or drain leave (R49, R124). -/
theorem endWhere_waned {P : Slot → Bool} (he : ∀ x : State, x.countEnding p e = x)
    (hp : ∀ x, P x = true → x.state ≠ .done ∧ x.state ≠ .inService) (hl : ∀ q, Listed s q) (h : Waned s t) :
    Waned s (t.endWhere p P e) := by
  unfold State.endWhere
  generalize (t.queues.get p).order = l
  induction l generalizing t with
  | nil => exact h
  | cons j l ih =>
    refine ih ?_
    dsimp only
    split
    · next x hx =>
      split
      · next hy => exact h.ending hl hx (hp x hy).1 (hp x hy).2 he
      · exact h
    · exact h

/-! ## The order in service -/

theorem mem_numbered {st : SlotState} : k ∈ s.numbered p st ↔ ∃ x, s.slot p k = some x ∧ x.state = st := by
  unfold State.numbered
  rw [List.mem_filter]
  constructor
  · intro ⟨_, h⟩
    split at h
    · next x e => exact ⟨x, e, by simpa using h⟩
    · cases h
  · intro ⟨x, e, h⟩
    exact ⟨mem_slotNumbers k, by rw [e]; simpa using h⟩

/-- At most one slot of the device is in a state, said of any two. -/
theorem numbered_unique {st : SlotState} (h : (s.numbered .a st).length + (s.numbered .b st).length ≤ 1) {q : Port}
    {j : Fin 8} {x y : Slot} (hx : s.slot p k = some x) (hxs : x.state = st) (hy : s.slot q j = some y)
    (hys : y.state = st) : (p, k) = (q, j) := by
  have mx : k ∈ s.numbered p st := mem_numbered.mpr ⟨x, hx, hxs⟩
  have my : j ∈ s.numbered q st := mem_numbered.mpr ⟨y, hy, hys⟩
  have key : ∀ (l : List (Fin 8)), l.length ≤ 1 → ∀ a b, a ∈ l → b ∈ l → a = b := by
    intro l hl a b ha hb
    match l, hl with
    | [], _ => cases ha
    | [z], _ => simp at ha hb; rw [ha, hb]
  cases p <;> cases q
  · rw [key _ (by omega) k j mx my]
  · have := List.length_pos_of_mem mx; have := List.length_pos_of_mem my; omega
  · have := List.length_pos_of_mem mx; have := List.length_pos_of_mem my; omega
  · rw [key _ (by omega) k j mx my]

/-- A slot IN SERVICE is the order in service, where there is at most one. -/
theorem inService_of (hs : s.serviceLaw) (h : s.slot p k = some sl) (hi : sl.state = .inService) :
    s.inService = some (p, k, sl) := by
  cases e : s.inService with
  | none => exact absurd hi (inService_none e p k sl h)
  | some x =>
    obtain ⟨q, j, y⟩ := x
    have := inService_some e
    have u := numbered_unique hs h hi this.1 this.2
    cases u; rw [h] at this; cases this.1; rfl

theorem inService_eq_none (h : ∀ q j y, s.slot q j = some y → y.state ≠ .inService) : s.inService = none := by
  cases e : s.inService with
  | none => rfl
  | some x =>
    obtain ⟨q, j, y⟩ := x
    exact absurd (inService_some e).2 (h q j y (inService_some e).1)

/-- The order in service leaves the actuator: its end tick, the margin, and what is dropped (R46, R83, R98, R124). -/
theorem leaveActuator_eq (h : s.slot p k = some sl) : s.leaveActuator p k =
    { s.modSlot p k (fun x => { x with endTick := some s.tick }) with
        progress := none, pass := none,
        pos := { s.pos with activity := .idle, target := none, errors := 0 },
        banks := (match sl.prompt, sl.dueTick with
          | true, some due => s.count p (marginBucket (signedDiff due s.tick))
          | _, _ => s).banks } := by
  unfold State.leaveActuator; rw [h]; dsimp only
  cases sl.prompt <;> cases sl.dueTick <;> rfl

/-- The end of the order in service: it is DONE, or FREE if it was withdrawn (R49, R50, R124). -/
theorem endSlot_service (hs : s.serviceLaw) (h : s.inService = some (p, k, sl)) :
    s.endsService (s.endSlot p k e fa) p k sl e fa := by
  obtain ⟨h1, h2⟩ := inService_some h
  have hd : ¬sl.state = .done := by rw [h2]; simp
  have e0 : s.endSlot p k e fa = ((((s.leaveActuator p k).release p k fun _ => true).countEnding p e).onQueue p
      fun q => q.finish k e fa).testRequests := by
    unfold State.endSlot; rw [h1]; dsimp only; rw [if_neg hd, if_pos h2]
  generalize hu : (((s.leaveActuator p k).release p k fun _ => true).countEnding p e).onQueue p
      (fun q => q.finish k e fa) = u at e0
  have hq : (((s.leaveActuator p k).release p k fun _ => true).countEnding p e).queues
      = (s.modSlot p k fun x => { x with endTick := some s.tick }).queues := by
    rw [countEnding_queues, leaveActuator_eq h1]; rfl
  have hk : ((((s.leaveActuator p k).release p k fun _ => true).countEnding p e).queues.get p).slots[k]
      = some { sl with endTick := some s.tick } := by
    rw [hq]; have := slot_modSlot_same (s := s) p k fun x => { x with endTick := some s.tick }
    rw [h1] at this; exact this
  have slots : ∀ q j, u.slot q j = if (q, j) = (p, k) then { sl with endTick := some s.tick }.ended e fa
      else s.slot q j := by
    intro q j
    rw [← hu, slot_onQueue]
    by_cases hqp : q = p
    · subst hqp
      rw [if_pos rfl, finish_slots hk]
      by_cases hj : j = k
      · subst hj; simp
      · rw [if_neg hj, if_neg (by simp [hj]), hq]
        exact (slot_modSlot (s := s) q q k j _).trans (by simp [hj])
    · rw [if_neg hqp, if_neg (by simp [hqp])]
      refine (slot_of_queues (s := s.modSlot p k fun x => { x with endTick := some s.tick }) _ hq q j).trans ?_
      rw [slot_modSlot, if_neg (by simp [hqp])]
  have none' : u.inService = none := by
    refine inService_eq_none fun q j y hy => ?_
    rw [slots] at hy
    split at hy
    · rw [ended_state hy]; simp
    · next hne =>
      intro hc; exact hne (numbered_unique hs hy hc h1 h2)
  rw [testRequests_idle (mayAsk_none none')] at e0
  rw [e0]
  refine ⟨?_, fun b => ?_⟩
  · have hf : s.onQueue p (fun q => (q.put k (q.slots[k].map fun x => { x with endTick := some s.tick })).finish k e fa)
        = s.onQueue p fun q => if sl.withdrawn then ⟨q.slots.set k none, q.order.erase k, q.replies.erase k⟩
          else { q with
            slots := q.slots.set k ({ sl with endTick := some s.tick }.ended e fa), replies := q.replies ++ [k] } := by
      refine onQueue_congr _ _ ?_
      have h1' : (s.queues.get p).slots[k] = some sl := h1
      rw [finish_eq (sl := { sl with endTick := some s.tick }) (by simp [Queue.put, h1'])]
      cases sl.withdrawn <;> simp [Queue.put]
    rw [← hf, ← hu, leaveActuator_eq h1]
    cases e <;> cases p <;> rfl
  · rw [← hu, leaveActuator_eq h1]
    show ((State.countEnding _ p e).buffers)[b] = _
    rw [countEnding_buffers]
    refine (release_buffers b).trans ?_
    rfl

/-- The slots after the end of the order in service: its own has ended, every other is as it was. -/
theorem endsService_slot (h : s.endsService t p k sl e fa) (q : Port) (j : Fin 8) :
    t.slot q j = if (q, j) = (p, k) then { sl with endTick := some s.tick }.ended e fa else s.slot q j := by
  rw [h.1]
  refine (slot_onQueue s p q _ j).trans ?_
  by_cases hq : q = p
  · subst hq
    rw [if_pos rfl]
    have : ∀ o, ((s.queues.get q).slots.set k o)[j] = if j = k then o else s.slot q j := by
      intro o; simp only [Fin.getElem_fin, Vector.getElem_set, Fin.ext_iff, eq_comm]; rfl
    split
    · next hw => rw [this]; simp [Slot.ended, hw]
    · rw [this]; simp
  · rw [if_neg hq, if_neg (by simp [hq])]

/-- The end of the order in service has ended its slot, and left every buffer as it must be left. -/
theorem endsService_ended (h : s.endsService t p k sl e fa) (hs : s.slot p k = some sl) (hd : sl.state ≠ .done)
    (hl : ∀ q, Listed s q) : Ended s t ∧ ∀ b : Fin 4, t.buffers[b] = s.bufferLeft t b := by
  have hslot := endsService_slot h
  constructor
  · refine Ended.of_finish (z := { sl with
      endTick := some s.tick, state := .done, outcome := some e, faultAddr := fa.or sl.faultAddr,
      drainStart := none }) hs hd hl rfl ?_
    refine (congrArg State.queues h.1).trans ?_
    show s.queues.modify p (fun q => if sl.withdrawn then ⟨q.slots.set k none, q.order.erase k, q.replies.erase k⟩
      else { q with
        slots := q.slots.set k ({ sl with endTick := some s.tick }.ended e fa), replies := q.replies ++ [k] }) = _
    cases sl.withdrawn <;> simp [Slot.ended]
  · intro b
    rw [h.2 b]
    unfold State.bufferLeft
    split
    · next ho =>
      rw [ho]; dsimp only
      have hc : ¬t.slot p k = s.slot p k := by
        rw [hslot, if_pos rfl, hs]; intro hx; exact hd (ended_state hx)
      rw [if_neg hc]
    · next ho =>
      split
      · next q j hq =>
        rw [if_pos]
        rw [hslot, if_neg]
        rintro ⟨⟩; exact ho hq
      · rfl

/-- A READ in service whose disk phase ends with blocks still to be taken begins draining (R50, R114). -/
theorem startDraining_spec (h : s.inService = some (p, k, sl)) :
    s.beginsDraining (s.startDraining p k e fa) p k sl e fa := by
  obtain ⟨h1, -⟩ := inService_some h
  unfold State.startDraining
  rw [leaveActuator_eq h1]
  have hf : s.onQueue p (fun q => (q.put k (q.slots[k].map fun x => { x with endTick := some s.tick })).put k
        ((q.put k (q.slots[k].map fun x => { x with endTick := some s.tick })).slots[k].map fun sl => { sl with
          state := .draining, outcome := some e, faultAddr := fa, drainStart := some s.tick }))
      = s.onQueue p fun q => q.put k (q.slots[k].map fun _ => { sl with
          endTick := some s.tick, state := .draining, outcome := some e, faultAddr := fa,
          drainStart := some s.tick }) := by
    refine onQueue_congr _ _ ?_
    have h1' : (s.queues.get p).slots[k] = some sl := h1
    simp [Queue.put, h1']
  unfold State.beginsDraining State.modSlot
  rw [← hf]
  cases p <;> rfl

/-- A change of one record that leaves it in its state keeps the lists. -/
theorem Listed.modSlot {q : Port} (h : Listed s q) (p : Port) (k : Fin 8) (f : Slot → Slot)
    (hf : ∀ x, (f x).state = x.state) : Listed (s.modSlot p k f) q := by
  have ho : ((s.modSlot p k f).queues.get q).order = (s.queues.get q).order := by cases p <;> cases q <;> rfl
  have hr : ((s.modSlot p k f).queues.get q).replies = (s.queues.get q).replies := by cases p <;> cases q <;> rfl
  unfold Listed
  rw [ho, hr]
  refine ⟨h.1, fun j => ?_, fun j hj => ?_⟩
  · rw [slot_modSlot, h.2.1 j]
    split
    · next hh => obtain ⟨rfl, rfl⟩ := hh; simp
    · rfl
  · obtain ⟨sl, hs, hd⟩ := h.2.2 j hj
    rw [slot_modSlot]
    split
    · next hh => obtain ⟨rfl, rfl⟩ := hh; rw [hs]; exact ⟨f sl, rfl, by rw [hf, hd]⟩
    · exact ⟨sl, hs, hd⟩

end Sys2Proof.Machine
end

