-- ==== Sys2Proof/Laws/Events.lean ====
section
/-! SUPPORT. What an event that ends many orders leaves: the drive's entry into FAULTED and into SPINNING DOWN, and the
re-check of a map load. -/

namespace Sys2Proof.Machine

-- Every thread of the checker reserves a whole stack: these many short proofs are checked one after another.
set_option Elab.async false

variable {s t u : State} {p : Port} {k : Fin 8} {sl : Slot} {e : Ending} {fa : Option Addr}


theorem waits_state {x : Slot} (h : x.waits = true) : x.state ≠ .done ∧ x.state ≠ .inService := by
  unfold Slot.waits at h
  have := of_decide_eq_true h
  rcases this with h | h <;> rw [h] <;> simp

/-- What ends the waiting orders of both ports leaves: they have ended, every other slot is as it was, and only queues and
buffers change. -/
theorem endWaiting_spec (he : ∀ p, ∀ x : State, x.countEnding p e = x) (la : Listed s .a) (lb : Listed s .b) :
    QueuesOnly s ((s.endWhere .a Slot.waits e).endWhere .b Slot.waits e)
    ∧ ∀ q j, ((s.endWhere .a Slot.waits e).endWhere .b Slot.waits e).slot q j = match s.slot q j with
      | some x => if x.state = .queued ∨ x.state = .suspended then x.ended e none else some x
      | none => none := by
  have ha := endWhere_spec (s := s) (he .a) (fun x => waits_state) la
  have hb := endWhere_spec (s := s.endWhere .a Slot.waits e) (he .b) (fun x => waits_state)
    (lb.congr ha.1.2)
  refine ⟨ha.1.1.trans hb.1.1, fun q j => ?_⟩
  rw [hb.2 q j, ha.2 q j]
  cases s.slot q j with
  | none => rfl
  | some x =>
    have w : (x.waits = true) = (x.state = .queued ∨ x.state = .suspended) := by simp [Slot.waits]
    cases q
    · simp only [true_and, w]
      cases hx : (if x.state = .queued ∨ x.state = .suspended then x.ended e none else some x) <;> simp
    · simp [w]

/-- What ends the waiting orders of both ports leaves of the lists and the buffers. -/
theorem endWaiting_waned (he : ∀ p, ∀ x : State, x.countEnding p e = x) (hl : ∀ q, Listed s q) :
    Waned s ((s.endWhere .a Slot.waits e).endWhere .b Slot.waits e) :=
  endWhere_waned (he .b) (fun _ => waits_state) hl (endWhere_waned (he .a) (fun _ => waits_state) hl (.refl hl))

/-- Issuing requests looks at the queues, the ports and the buffers alone (R116). -/
theorem testRequests_congr (hq : t.queues = s.queues) (hp : t.ports = s.ports) (hb : t.buffers = s.buffers) :
    t.testRequests.buffers = s.testRequests.buffers := by
  have one : ∀ x y : State, y.queues = x.queues → y.ports = x.ports → y.buffers = x.buffers →
      y.issueRequest.buffers = x.issueRequest.buffers := by
    intro x y hq hp hb
    have hx : y = { x with
        pending := y.pending, tick := y.tick, lines := y.lines, map := y.map, guard := y.guard, sched := y.sched,
        pos := y.pos, progress := y.progress, pass := y.pass, drive := y.drive, label := y.label, alarms := y.alarms,
        banks := y.banks, disk := y.disk, free := y.free } := by cases x; cases y; simp_all
    have hi : y.inService = x.inService := by rw [hx]; rfl
    unfold State.issueRequest
    rw [hi]
    cases x.inService with
    | none => exact hb
    | some z =>
      obtain ⟨p, k, sl⟩ := z
      dsimp only
      have ho : y.owned p k = x.owned p k := owned_congr hb p k
      have hn : y.nextRequest p k sl = x.nextRequest p k sl := by unfold State.nextRequest; rw [ho, hb]
      have hf : y.freeBuffer = x.freeBuffer := by unfold State.freeBuffer; rw [hb]
      have hL : y.lost p = x.lost p := by unfold State.lost; rw [hp]
      rw [ho, hn, hf, hL]
      split
      · split
        · simp only [State.putBuffer, hb]
        · exact hb
      · exact hb
  have q1 : ∀ x : State, x.issueRequest.queues = x.queues := fun x => by rw [issueRequest_buffers]
  have p1 : ∀ x : State, x.issueRequest.ports = x.ports := fun x => by rw [issueRequest_buffers]
  unfold State.testRequests
  have a := one s t hq hp hb
  have b := one s.issueRequest t.issueRequest (by rw [q1, q1, hq]) (by rw [p1, p1, hp]) a
  exact one _ _ (by rw [q1, q1, q1, q1, hq]) (by rw [p1, p1, p1, p1, hp]) b

/-- What endings leave of the buffers is said of the queues, the ports and the buffers alone. -/
theorem buffersFollow_congr {s' t' : State} (hs : s'.queues = s.queues ∧ s'.ports = s.ports ∧ s'.buffers = s.buffers)
    (ht : t'.queues = t.queues ∧ t'.ports = t.ports ∧ t'.buffers = t.buffers) (h : s.buffersFollow t) :
    s'.buffersFollow t' := by
  have slS : ∀ q j, s'.slot q j = s.slot q j := slot_of_queues (s := s) s' hs.1
  have slT : ∀ q j, t'.slot q j = t.slot q j := slot_of_queues (s := t) t' ht.1
  have del : ∀ p, s'.delivering p = s.delivering p := by intro p; unfold State.delivering; rw [hs.2.1]
  have left : ∀ b, s'.bufferLeft t' b = s.bufferLeft t b := by
    intro b; unfold State.bufferLeft; simp only [hs.2.2, slS, slT, del]
  have ask : ∀ p k sl, t'.mayAsk p k sl ↔ t.mayAsk p k sl := by
    intro p k sl
    have : t'.inService = t.inService := by unfold State.inService State.findSlot; rw [ht.1]
    unfold State.mayAsk; rw [this, ht.2.1]
  obtain ⟨h1, h2, h3, h4, h5⟩ := h
  refine ⟨fun b hb => ?_, fun h => ?_, fun h => ?_, fun h b => ?_, fun p k sl hb hm b hf => ?_⟩
  · rw [left] at hb ⊢; rw [ht.2.2]; exact h1 b hb
  · rw [ht.2.2, hs.2.2]; exact h2 fun q j => by rw [← slT, ← slS]; exact h q j
  · have e := h3 (by obtain ⟨q, j, hc⟩ := h; rw [slT, slS] at hc; exact ⟨q, j, hc⟩)
    rw [testRequests_buffers, testRequests_congr ht.1 ht.2.1 ht.2.2, e, ← ht.2.2]
  · rw [left, ht.2.2]; exact h4 (fun p k sl hm => h p k sl ((ask p k sl).mpr hm)) b
  · rw [left] at hf ⊢
    rw [ht.2.2]
    exact h5 p k sl (fun b' hb' => by have := hb b' (by rw [hs.2.2]; exact hb'); rwa [hs.2.2] at this)
      ((ask p k sl).mp hm) b hf

/-- Entry into SPINNING DOWN (R139). -/
theorem enterSpinningDown_spec (hl : ∀ q, Listed s q) : s.spinsDown s.enterSpinningDown := by
  unfold State.enterSpinningDown
  generalize hx : ({ s.abandonPositioning.onDrive fun d =>
    { d with state := .spinningDown, speed := false, supply := false, fault := none, stopPending := false,
             spinUp := none, runDown := some (tickAfter s.tick 400), labelFails := 0 } with pass := none } : State) = x
  have hlx : ∀ q, Listed x q := fun q => by rw [← hx]; exact hl q
  have h := endWaiting_spec (e := .volumeGone) (s := x) (fun _ _ => rfl) (hlx .a) (hlx .b)
  have w := endWaiting_waned (e := .volumeGone) (s := x) (fun _ _ => rfl) hlx
  dsimp only
  rw [hx]
  generalize (x.endWhere .a Slot.waits .volumeGone).endWhere .b Slot.waits .volumeGone = g at h w ⊢
  refine ⟨?_, fun p k => ?_, ?_, ?_⟩
  · have := h.1
    unfold QueuesOnly at this
    dsimp only [State.setLabel]
    rw [this, ← hx]; rfl
  · refine (h.2 p k).trans ?_
    rw [← hx]; rfl
  · have := w.ended.lists
    rw [← hx] at this
    exact this
  · exact buffersFollow_congr (s := x) (t := g) (by rw [← hx]; exact ⟨rfl, rfl, rfl⟩) ⟨rfl, rfl, rfl⟩ w.buffers

/-- Cutting a sector write under way changes the medium, the pass and the free values' counter alone (R2, R126). -/
theorem cutPass_eq (s : State) : s.cutPass = { s with pass := none, disk := s.cutPass.disk, free := s.cutPass.free } := by
  unfold State.cutPass
  split
  · split <;> rfl
  · next h => rw [← h]

theorem cutPass_label (s : State) (l : Label) : ({ s with label := l } : State).cutPass = { s.cutPass with label := l } := by
  obtain ⟨_, _, _, _, _, _, _, _, _, _, _, pass, _, _, _, _, _, _⟩ := s
  cases pass with
  | none => rfl
  | some q => simp only [State.cutPass]; split <;> rfl

/-- What the end of the order in service leaves at entry into FAULTED (R126, R136, R145). -/
theorem faultInService_spec (hs : s.serviceLaw) (hl : ∀ q, Listed s q) : ∃ f, s.faultInService = f
    ∧ Ended s f ∧ (∀ b : Fin 4, f.buffers[b] = s.bufferLeft f b) ∧ f.inService = none
    ∧ f = { s with
              queues := f.queues, buffers := f.buffers, pass := none,
              progress := if s.inService = none then s.progress else none,
              banks := match s.inService with
                | some (p, _, sl) => (s.marginCounted p sl).banks
                | none => s.banks
              disk := s.cutPass.disk, free := s.cutPass.free, pos := f.pos,
              label := if s.labelOpen then .blank .damaged else s.label }
    ∧ { f.pos with activity := .idle, target := none, errors := 0, cyl := none }
        = { s.pos with activity := .idle, target := none, errors := 0, cyl := none }
    ∧ ∀ p k, f.slot p k = match s.slot p k with
      | some sl => if sl.state = .inService then { sl with endTick := some s.tick }.ended .driveFault none else some sl
      | none => none := by
  refine ⟨_, rfl, ?_⟩
  unfold State.faultInService
  generalize hx : (if s.labelOpen then s.setLabel (.blank .damaged) else s) = x
  have hx' : x = { s with label := if s.labelOpen then .blank .damaged else s.label } := by
    rw [← hx]; split <;> rfl
  have hc : x.cutPass = { s with
      pass := none, disk := s.cutPass.disk, free := s.cutPass.free
      label := if s.labelOpen then .blank .damaged else s.label } := by
    rw [hx', cutPass_label, cutPass_eq]
  have hi : x.inService = s.inService := by rw [hx']; rfl
  dsimp only
  rw [hi]
  cases hin : s.inService with
  | none =>
    dsimp only
    rw [hc]
    refine ⟨.refl hl rfl, fun b => ?_, hin, rfl, rfl, fun p k => ?_⟩
    · exact (left_self (s := s) rfl b).symm
    · show s.slot p k = _
      cases hk : s.slot p k with
      | none => rfl
      | some sl => dsimp only; rw [if_neg (inService_none hin p k sl hk)]
  | some y =>
    obtain ⟨p, k, sl⟩ := y
    dsimp only
    obtain ⟨h1, h2⟩ := inService_some hin
    have h1' : x.cutPass.slot p k = some sl := by rw [hc]; exact h1
    have hi' : x.cutPass.inService = some (p, k, sl) := by rw [hc]; exact hin
    have hs' : x.cutPass.serviceLaw := by rw [hc]; exact hs
    have hl' : ∀ q, Listed x.cutPass q := fun q => by rw [hc]; exact hl q
    have hd : sl.state ≠ .done := by rw [h2]; simp
    have e := endSlot_service (e := .driveFault) (fa := none) hs' hi'
    generalize x.cutPass.endSlot p k .driveFault none = f at e
    obtain ⟨en, left⟩ := endsService_ended e h1' hd hl'
    have e2 := endsService_slot e
    have e1 := e.1
    have slots : ∀ q j, f.slot q j = match s.slot q j with
        | some sl => if sl.state = .inService then { sl with endTick := some s.tick }.ended .driveFault none else some sl
        | none => none := by
      intro q j
      by_cases hqj : (q, j) = (p, k)
      · cases hqj; rw [e2, if_pos rfl, h1]; dsimp only; rw [if_pos h2, hc]
      · rw [e2, if_neg hqj, hc]
        show s.slot q j = _
        cases hk : s.slot q j with
        | none => rfl
        | some y =>
          dsimp only; rw [if_neg]
          intro hy; exact hqj (numbered_unique hs hk hy h1 h2)
    refine ⟨⟨fun q j => ?_, ?_⟩, fun b => ?_, inService_eq_none fun q j y hy => ?_, ?_, ?_, slots⟩
    · have := en.slots q j; rw [hc] at this; exact this
    · have := en.lists; rw [hc] at this; exact this
    · have := left b; rw [hc] at this; exact this
    · rw [slots] at hy
      split at hy
      · split at hy
        · rw [ended_state hy]; simp
        · next hn => cases hy; exact hn
      · cases hy
    · rw [e1, hc]
      unfold State.marginCounted
      dsimp only
      cases sl.prompt <;> cases sl.dueTick <;> rfl
    · rw [e1, hc]

/-- Entry into FAULTED, and what a pending stop makes of it (R136, R138). -/
theorem enterFaulted_spec (hs : s.serviceLaw) (hl : ∀ q, Listed s q) (why : FaultReason) :
    ∃ t, s.faults t why ∧ t.drive.stopPending = s.drive.stopPending ∧ (∀ q, Listed t q)
      ∧ s.enterFaulted why = if s.drive.stopPending then t.enterSpinningDown else t := by
  obtain ⟨f, ef, fe, fb, fi, f1, f2, f4⟩ := faultInService_spec hs hl
  have hlf : ∀ q, Listed f q := fun q => fe.listed (hl q)
  have hw := endWaiting_spec (s := f) (e := .driveFault) (fun _ _ => rfl) (hlf .a) (hlf .b)
  have w := endWaiting_waned (s := f) (e := .driveFault) (fun _ _ => rfl) hlf
  generalize hg : (f.endWhere .a Slot.waits .driveFault).endWhere .b Slot.waits .driveFault = g at hw w
  obtain ⟨g1, g2⟩ := hw
  have eg : Ended s g := fe.trans w.ended
  refine ⟨(g.abandonPositioning.onDrive fun d =>
    { d with state := .faulted, speed := false, supply := false, fault := some why, spinUp := none,
             labelFails := 0 }).latch .driveFaulted, ⟨?_, fun p k => ?_, eg.lists, fun b => ?_⟩, ?_,
    fun q => eg.listed (hl q), ?_⟩
  · unfold QueuesOnly at g1
    unfold State.abandonPositioning State.onDrive State.onPos State.latch
    dsimp only
    rw [g1]; dsimp only; rw [f2, f1] <;> rfl
  · show g.slot p k = _
    rw [g2, f4]
    cases s.slot p k with
    | none => rfl
    | some sl =>
      dsimp only
      by_cases hi : sl.state = .inService
      · rw [if_pos hi, if_pos hi]
        cases he : ({ sl with endTick := some s.tick } : Slot).ended .driveFault none with
        | none => rfl
        | some y => dsimp only; rw [if_neg (by rw [ended_state he]; simp)]
      · rw [if_neg hi, if_neg hi]
  · show g.buffers[b] = s.bufferLeft g b
    rw [w.idle (mayAsk_none fi) b]
    exact left_trans fb (by rw [f1]) fe w.ended b
  · show g.drive.stopPending = _
    rw [g1, f1]
  · unfold State.enterFaulted
    rw [ef]; dsimp only; rw [hg]
    have : (((g.abandonPositioning.onDrive fun d =>
      { d with state := .faulted, speed := false, supply := false, fault := some why, spinUp := none,
               labelFails := 0 }).latch .driveFaulted).drive).stopPending = s.drive.stopPending := by
      show g.drive.stopPending = _
      rw [g1, f1]
    rw [this]

/-- What a command that faults the drive answers (R136, R138). -/
theorem faultsThen_of (hs : s.serviceLaw) (hl : ∀ q, Listed s q) (why : FaultReason) :
    s.faultsThen why (.next (s.enterFaulted why).judgeAlarm) := by
  obtain ⟨t, h1, h2, hl', e⟩ := enterFaulted_spec hs hl why
  refine ⟨t, h1, fun h => ?_, fun h => ⟨t.enterSpinningDown, enterSpinningDown_spec hl', ?_⟩⟩
  · rw [e, h]; rfl
  · rw [e, h]; rfl

/-! ## The re-check -/

/-- What the re-check of a map load leaves of the slots, the lists and the buffers (R29, R49, R124). -/
theorem recheck_waned (hl : ∀ q, Listed s q) : Waned s s.recheck := by
  have one : ∀ (p : Port) (l : List (Fin 8)) (t : State), Waned s t → Waned s (l.foldl (fun t k => match t.slot p k with
      | some sl => match t.recheckFails p sl with
        | some x => t.endSlot p k .mapChanged (some x)
        | none => t
      | none => t) t) := by
    intro p l
    induction l with
    | nil => intro t h; exact h
    | cons j l ih =>
      intro t h
      refine ih _ ?_
      dsimp only
      split
      · next x hx =>
        split
        · next a ha =>
          have hw : x.state = .queued ∨ x.state = .suspended := by
            unfold State.recheckFails at ha
            cases hst : x.state <;> simp_all
          refine h.ending hl hx ?_ ?_ fun _ => rfl <;> rcases hw with e | e <;> rw [e] <;> simp
        · exact h
      · exact h
  unfold State.recheck State.recheckPort
  exact one .b _ _ (one .a _ _ (.refl hl))

end Sys2Proof.Machine
end

