-- ==== Sys2Proof/Laws/Boundaries.lean ====
section
/-! SUPPORT. What a boundary does when nothing stops the order, and when the order ends there. -/

namespace Sys2Proof.Machine

-- Every thread of the checker reserves a whole stack: these many short proofs are checked one after another.
set_option Elab.async false

variable {s t : State} {p : Port} {k : Fin 8} {sl : Slot} {g : Progress}

/-- A kind that may not be suspended is not (R85). -/
theorem checkSuspension_kind (h : s.slot p k = some sl) (hs : sl.suspendable = false) (pos : Nat) :
    s.checkSuspension p k pos = none := by
  unfold State.checkSuspension
  rw [h]; dsimp only
  unfold State.suspensionFor
  rw [if_neg (by rintro ⟨-, a, -⟩; rw [hs] at a; cases a)]

/-- A data order that is not stopped by a withdrawal or a loss, and has a result or no sector left, ends with it. -/
theorem dataBoundary_ends (h : s.slot p k = some sl) (hg : s.progress = some g) (hw : sl.withdrawn = false)
    (hl : (s.ports.get p).presence ≠ .lost) (r : Result) (changed : Bool) :
    s.dataBoundary p k pos (some r) changed = s.endWith p k r := by
  unfold State.dataBoundary
  rw [h, hg]; dsimp only
  rw [if_neg (by simp [hw]), if_neg (by simp [State.lost, hl])]

theorem dataBoundary_done (h : s.slot p k = some sl) (hg : s.progress = some g) (hw : sl.withdrawn = false)
    (hl : (s.ports.get p).presence ≠ .lost) (hn : sl.n ≤ g.next) (changed : Bool) :
    s.dataBoundary p k pos none changed = s.endWith p k { ending := .done } := by
  unfold State.dataBoundary
  rw [h, hg]; dsimp only
  rw [if_neg (by simp [hw]), if_neg (by simp [State.lost, hl]), if_pos hn]

/-- An ending that starts from a state that differs in the slot itself, the progress record and the pass. -/
theorem endsService_base {s1 : State} {sl' : Slot} {e : Ending} {fa : Option Addr} {f : Slot → Slot}
    (hq : s1 = { s.modSlot p k f with progress := s1.progress, pass := s1.pass }) (h : s1.endsService t p k sl' e fa) :
    s.endsService t p k sl' e fa := by
  obtain ⟨a, d⟩ := h
  refine ⟨a.trans ?_, ?_⟩
  · have hf : (s.modSlot p k f).onQueue p (fun q =>
        if sl'.withdrawn then ⟨q.slots.set k none, q.order.erase k, q.replies.erase k⟩
        else { q with
          slots := q.slots.set k ({ sl' with endTick := some s.tick }.ended e fa), replies := q.replies ++ [k] })
        = s.onQueue p fun q => if sl'.withdrawn then ⟨q.slots.set k none, q.order.erase k, q.replies.erase k⟩
          else { q with
            slots := q.slots.set k ({ sl' with endTick := some s.tick }.ended e fa), replies := q.replies ++ [k] } := by
      cases p <;> simp [State.modSlot, State.onQueue, PerPort.modify, Queue.put]
    rw [← hf, hq]
    unfold State.marginCounted
    generalize sl'.prompt = x
    generalize sl'.dueTick = y
    cases x <;> cases y <;> cases e <;> rfl
  · intro b; rw [d b, hq]; rfl

/-- The order in service ends with a result other than a READ's that drains (R50). -/
theorem endWith_ends (hs : s.serviceLaw) (h : s.inService = some (p, k, sl)) (r : Result) (hr : r.ending ≠ .readFault)
    (hd : sl.kind = .read → r.ending = .done → s.ownedIn p k .fullForHost = []) :
    ∃ t, s.endsService t p k { sl with sectorsDone := r.sectors.getD sl.sectorsDone, body := r.body.getD sl.body }
        r.ending r.fault ∧ s.endWith p k r = (t, .released) := by
  obtain ⟨h1, h2⟩ := inService_some h
  generalize hs1 : (s.modSlot p k fun x =>
    { x with sectorsDone := r.sectors.getD x.sectorsDone, body := r.body.getD x.body }) = s1
  have e1 : s1.slot p k = some { sl with sectorsDone := r.sectors.getD sl.sectorsDone, body := r.body.getD sl.body } := by
    rw [← hs1, slot_modSlot_same, h1]; rfl
  have eo : ∀ q j, (q, j) ≠ (p, k) → s1.slot q j = s.slot q j := by
    intro q j hne; rw [← hs1, slot_modSlot, if_neg (by simpa using hne)]
  have hs1' : s1.serviceLaw := by
    have : ∀ q, s1.numbered q .inService = s.numbered q .inService := by
      intro q; unfold State.numbered
      refine List.filter_congr fun j _ => ?_
      by_cases hq : (q, j) = (p, k)
      · cases hq; rw [e1, h1]
      · rw [eo q j hq]
    unfold State.serviceLaw; rw [this, this]; exact hs
  have hi : s1.inService = some (p, k, { sl with sectorsDone := r.sectors.getD sl.sectorsDone, body := r.body.getD sl.body }) :=
    inService_of hs1' e1 h2
  have e := endSlot_service (e := r.ending) (fa := r.fault) hs1' hi
  refine ⟨s1.endSlot p k r.ending r.fault, ?_, ?_⟩
  rotate_left
  · unfold State.endWith
    rw [hs1]; dsimp only
    rw [if_neg hr, e1]; dsimp only
    unfold State.endDiskPhase
    rw [if_neg]
    rintro ⟨a, b, c⟩
    rcases b with b | b
    · apply c
      have := hd a b
      rw [← hs1]; exact this
    · exact hr b
  · refine endsService_base (f := fun x =>
      { x with sectorsDone := r.sectors.getD x.sectorsDone, body := r.body.getD x.body }) ?_ e
    rw [hs1]

end Sys2Proof.Machine
end

