-- ==== Sys2Proof/Laws/Sectors.lean ====
section
/-! SUPPORT. What positionings, suspensions, boundaries and sector starts do, each said once in the terms of Safety.lean. -/

namespace Sys2Proof.Machine

-- Every thread of the checker reserves a whole stack: these many short proofs are checked one after another.
set_option Elab.async false

variable {s t u : State} {p : Port} {k : Fin 8} {sl : Slot} {g : Progress}

/-! ## Positionings -/

/-- A request for a positioning (R98). -/
theorem requestPositioning_eq (s : State) (x : Addr) : s.requestPositioning x = s.positioned x := by
  unfold State.requestPositioning State.positioned State.atCylinder
  by_cases h : s.pos.cyl = some x.cyl
  · simp only [h, decide_true, if_true]
    unfold State.arrive State.onPos
    simp only
  · simp only [h, decide_false, if_false]
    unfold State.issueSeek State.onPos distance
    have : ∀ a b : Nat, max a b - min a b = a - b + (b - a) := by omega
    simp only [this]; rfl

theorem positioned_arrived (s : State) (x : Addr) : ((s.positioned x).pos.activity = .arrived) = (s.pos.cyl = some x.cyl) := by
  unfold State.positioned; dsimp only
  by_cases h : s.pos.cyl = some x.cyl
  · simp [h]
  · rw [if_neg h]; simp [h]

/-- A request for a positioning with what follows it. -/
theorem goTo_eq (s : State) (x : Addr) : s.goTo x = (s.positioned x, s.follows x.cyl) := by
  unfold State.goTo
  rw [requestPositioning_eq]; unfold State.afterRequest State.follows
  simp only [positioned_arrived]

/-- The next sector of a data order is turned to (R110, R123). -/
theorem nextSector_eq (s : State) (sl : Slot) (g : Progress) : s.nextSector sl g = s.turnsTo sl g.next := by
  unfold State.nextSector State.turnsTo
  dsimp only
  cases hi : lookupSpare s.label.table (sl.sectorAddr g.next) with
  | some i => dsimp only; rw [goTo_eq]; rfl
  | none =>
    dsimp only
    unfold State.onTrack
    by_cases h : s.pos.cyl = some (sl.sectorAddr g.next).cyl ∧ s.pos.head = (sl.sectorAddr g.next).head
    · rw [if_pos h, if_pos (by exact decide_eq_true h)]; rfl
    · rw [if_neg h, if_neg (by simpa [State.setProgress] using h), goTo_eq]; rfl

/-! ## Suspensions -/

/-- The PROMPT order that step 1 takes (R79). -/
theorem stepOne_iff (s : State) (cyl pos : Nat) (q : Port) (j : Fin 8) (x : Slot) :
    s.stepOne cyl pos = some (q, j, x) ↔ s.firstPrompt cyl pos q j x := by
  unfold State.stepOne State.firstPrompt State.slack
  cases ha : s.promptCandidate .a with
  | none =>
    cases hb : s.promptCandidate .b with
    | none => cases q <;> simp [ha, hb]
    | some y => cases q <;> simp [ha, hb, Port.other, Prod.ext_iff]
  | some x' =>
    cases hb : s.promptCandidate .b with
    | none => cases q <;> simp [ha, hb, Port.other, Prod.ext_iff]
    | some y' =>
      obtain ⟨ja, xa⟩ := x'
      obtain ⟨jb, xb⟩ := y'
      dsimp only
      rcases Int.lt_trichotomy
        (signedDiff xa.due (tickAfter s.tick (estimate cyl pos xa.startAddr xa.n xa.verify)))
        (signedDiff xb.due (tickAfter s.tick (estimate cyl pos xb.startAddr xb.n xb.verify))) with h | h | h
      · rw [if_pos h]
        cases q
        · simp only [ha, Port.other, hb, Option.some.injEq, Prod.mk.injEq, true_and]
          constructor
          · rintro ⟨rfl, rfl⟩; exact ⟨⟨rfl, rfl⟩, by rintro _ _ ⟨rfl, rfl⟩; omega⟩
          · exact fun h => h.1
        · simp only [ha, Port.other, hb, Option.some.injEq, Prod.mk.injEq, reduceCtorEq, false_and, false_iff]
          rintro ⟨⟨rfl, rfl⟩, h'⟩; have := (h' _ _ ⟨rfl, rfl⟩).1; omega
      · rw [if_neg (by omega), if_neg (by omega)]
        cases hl : s.sched.last <;> cases q <;>
          simp only [reduceCtorEq, if_true, if_false, ha, Port.other, hb, Option.some.injEq, Prod.mk.injEq,
            true_and, false_and, false_iff]
        · rintro ⟨⟨rfl, rfl⟩, h'⟩; exact (h' _ _ ⟨rfl, rfl⟩).2 h rfl
        · constructor
          · rintro ⟨rfl, rfl⟩; exact ⟨⟨rfl, rfl⟩, by rintro _ _ ⟨rfl, rfl⟩; exact ⟨by omega, fun _ => by simp⟩⟩
          · exact fun h => h.1
        · constructor
          · rintro ⟨rfl, rfl⟩; exact ⟨⟨rfl, rfl⟩, by rintro _ _ ⟨rfl, rfl⟩; exact ⟨by omega, fun _ => by simp⟩⟩
          · exact fun h => h.1
        · rintro ⟨⟨rfl, rfl⟩, h'⟩; exact (h' _ _ ⟨rfl, rfl⟩).2 h.symm rfl
      · rw [if_neg (by omega), if_pos h]
        cases q
        · simp only [ha, Port.other, hb, Option.some.injEq, Prod.mk.injEq, reduceCtorEq, false_and, false_iff]
          rintro ⟨⟨rfl, rfl⟩, h'⟩; have := (h' _ _ ⟨rfl, rfl⟩).1; omega
        · simp only [ha, Port.other, hb, Option.some.injEq, Prod.mk.injEq, true_and]
          constructor
          · rintro ⟨rfl, rfl⟩; exact ⟨⟨rfl, rfl⟩, by rintro _ _ ⟨rfl, rfl⟩; omega⟩
          · exact fun h => h.1

/-- What the order in service still needs (R86). -/
theorem needs_iff (sl : Slot) (hs : sl.suspendable = true) (r : Nat × Nat × Nat) :
    sl.needs r.1 r.2.1 r.2.2 ↔ sl.hasWork = true ∧ r = sl.remaining := by
  unfold Slot.needs Slot.hasWork Slot.remaining
  by_cases ht : sl.kind = .testTrack
  · simp only [ht, if_true, Kind.isData, Bool.false_eq_true, false_and, false_or, true_and]
    unfold Slot.revolutionsLeft
    constructor
    · rintro ⟨hd, seed, w, first, done, revs, f, m, e, hp, hm, hw, h1, h2, h3⟩
      rw [hp, hm]; dsimp only
      refine ⟨?_, by ext <;> simp [h1, h2, h3]⟩
      cases done <;> simp at hw ⊢; omega
    · rintro ⟨h1, h2⟩
      cases hp : sl.params <;> cases hm : sl.maint <;> rw [hp, hm] at h1 h2 <;> try (simp at h1; done)
      next hd seed w first done revs f m e =>
        refine ⟨_, _, _, _, _, _, _, _, _, rfl, rfl, ?_, by rw [h2], by rw [h2], by rw [h2]⟩
        cases done <;> simp at h1 ⊢; omega
  · have hk : sl.kind.isData = true := by
      unfold Slot.suspendable at hs
      cases h : sl.kind <;> simp [h] at hs ht <;> rfl
    simp only [ht, if_false, hk, false_and, or_false, true_and]
    constructor
    · rintro ⟨h1, h2, h3, h4⟩
      exact ⟨by simpa using h1, by ext <;> simp [h2, h3, h4]⟩
    · rintro ⟨h1, h2⟩
      rw [h2]; exact ⟨by simpa using h1, rfl, rfl, rfl⟩

/-- The order for which the order in service is set aside (R85). -/
theorem suspensionFor_iff (s : State) (sl : Slot) (cyl pos : Nat) (q : Port) (j : Fin 8) :
    s.suspensionFor sl cyl pos = some (q, j) ↔ s.yields sl cyl pos q j := by
  have hk : sl.suspendable = true ↔
      (sl.kind = .read ∨ sl.kind = .check ∨ (sl.kind = .write ∧ sl.verify = false) ∨ sl.kind = .testTrack) := by
    unfold Slot.suspendable; cases sl.kind <;> simp
  unfold State.suspensionFor State.yields
  rw [← hk]
  constructor
  · intro h
    split at h
    · next hc =>
      obtain ⟨h1, h2, h3, h4, h5, h6⟩ := hc
      split at h
      · cases h
      · next q' j' x hx =>
        dsimp only at h
        split at h
        · next hf =>
          cases h
          exact ⟨h1, h2, h3, h4, h5, _, _, _, x, (needs_iff sl h2 sl.remaining).mpr ⟨h6, rfl⟩,
            (stepOne_iff s cyl pos q j x).mp hx, hf.1, hf.2⟩
        · cases h
    · cases h
  · rintro ⟨h1, h2, h3, h4, h5, r, c, a, x, hn, hx, hw, hs⟩
    obtain ⟨h6, hr⟩ := (needs_iff sl h2 (r, c, a)).mp hn
    rw [if_pos ⟨h1, h2, h3, h4, h5, h6⟩, (stepOne_iff s cyl pos q j x).mpr hx]
    dsimp only
    unfold State.finishTimes
    rw [← hr, if_pos ⟨hw, hs⟩]

/-- The suspension check at a boundary whose order gives way (R85, R88). -/
theorem checkSuspension_yields {c pos : Nat} {q : Port} {j : Fin 8} (h : s.slot p k = some sl) (hc : s.pos.cyl = some c)
    (hy : s.yields sl c pos q j) : s.checkSuspension p k pos = some ((s.setAside p k).handTo q j) := by
  unfold State.checkSuspension
  rw [h]; dsimp only
  rw [hc, Option.getD_some, (suspensionFor_iff s sl c pos q j).mpr hy]; rfl

/-- The suspension check at a boundary whose order goes on (R85). -/
theorem checkSuspension_keeps {c pos : Nat} (h : s.slot p k = some sl) (hc : s.pos.cyl = some c)
    (hy : s.keeps sl c pos) : s.checkSuspension p k pos = none := by
  unfold State.checkSuspension
  rw [h]; dsimp only
  rw [hc, Option.getD_some]
  cases hx : s.suspensionFor sl c pos with
  | none => rfl
  | some x => exact absurd ((suspensionFor_iff s sl c pos x.1 x.2).mp hx) (hy _ _)

theorem serviceLaw_of_queues (hs : s.serviceLaw) (hq : u.queues = s.queues) : u.serviceLaw := by
  have : ∀ q st, u.numbered q st = s.numbered q st := by
    intro q st; unfold State.numbered; simp only [slot_of_queues s u hq]
  unfold State.serviceLaw; rw [this, this]; exact hs

theorem inService_of_queues (hq : u.queues = s.queues) : u.inService = s.inService := by
  unfold State.inService State.findSlot; rw [hq]

/-! ## Boundaries -/

/-- A withdrawn order in service stops (R63). -/
theorem freeWithdrawn_stops (hs : s.serviceLaw) (h : s.inService = some (p, k, sl)) (hw : sl.withdrawn = true) :
    s.endsService (s.freeWithdrawn p k) p k sl .done none := by
  have : s.freeWithdrawn p k = s.endSlot p k .done none := by
    obtain ⟨h1, h2⟩ := inService_some h
    unfold State.freeWithdrawn State.endSlot
    rw [h1]; dsimp only
    rw [if_neg (by rw [h2]; simp), if_pos h2]
    have hk : ((s.leaveActuator p k).release p k fun _ => true).countEnding p .done
        = (s.leaveActuator p k).release p k fun _ => true := rfl
    rw [hk]
    congr 1
    refine onQueue_congr _ _ ?_
    have hq : ((((s.leaveActuator p k).release p k fun _ => true).queues).get p).slots[k]
        = some { sl with endTick := some s.tick } := by
      rw [leaveActuator_eq h1]
      have := slot_modSlot_same (s := s) p k fun x => { x with endTick := some s.tick }
      rw [h1] at this; exact this
    rw [finish_eq hq]
    simp [hw]; rfl
  rw [this]
  exact endSlot_service hs h

/-- A boundary at which a withdrawn order, or one whose port is LOST, stops (R63, R111, R142). -/
theorem stops_of {o : Host.Outcome State Fault Refusal} (hs : s.serviceLaw) (h : s.inService = some (p, k, sl))
    (hw : sl.withdrawn = true → o = State.answers (s.freeWithdrawn p k, .released))
    (hl : sl.withdrawn = false → (s.ports.get p).presence = .lost → o = State.answers (s.endWith p k { ending := .portLost })) :
    s.stops p k sl o := by
  intro hst
  by_cases hw' : sl.withdrawn = true
  · exact ⟨_, ⟨fun _ => freeWithdrawn_stops hs h hw', fun h' => by rw [hw'] at h'; cases h'⟩, hw hw'⟩
  · obtain ⟨t, ht, e⟩ := endWith_ends hs h { ending := .portLost } (by simp) (by simp)
    exact ⟨t, ⟨fun h' => absurd h' hw', fun _ => ht⟩, by rw [hl (by simpa using hw') (hst.resolve_left hw'), e]⟩

/-- An order that ends with a result, a READ's that drains apart. -/
theorem ends_of {r : Result} {o : Host.Outcome State Fault Refusal} (hs : s.serviceLaw)
    (h : s.inService = some (p, k, sl)) (ho : o = State.answers (s.endWith p k r)) (hr : r.ending ≠ .readFault)
    (hd : sl.kind = .read → r.ending = .done → s.ownedIn p k .fullForHost = []) :
    s.ends p k { sl with sectorsDone := r.sectors.getD sl.sectorsDone, body := r.body.getD sl.body } r.ending r.fault o := by
  obtain ⟨t, ht, e⟩ := endWith_ends hs h r hr hd
  exact ⟨t, ht, by rw [ho, e]⟩

/-- The suspension check that closes a boundary (R85, R88). -/
theorem mayYield_of {m pos : Nat} {go : State × Agenda} {goes : Prop} {o : Host.Outcome State Fault Refusal}
    (h : s.slot p k = some sl)
    (ho : o = State.answersIn m (match s.checkSuspension p k pos with
      | some x => x
      | none => go))
    (hgo : o = State.answersIn m go → goes) : State.mayYield m s p k sl pos o goes := by
  refine fun c hc => ⟨fun q j hy => ?_, fun hk => hgo ?_⟩
  · rw [ho, checkSuspension_yields h hc hy]
  · rw [ho, checkSuspension_keeps h hc hk]

/-- A boundary of a data order at which it stops, ends, is set aside or goes on (R63, R85, R111). -/
theorem dataBoundary_spec {pos : Nat} {changed : Bool} {goes : Prop} {o : Host.Outcome State Fault Refusal}
    (hs : s.serviceLaw) (h : s.inService = some (p, k, sl)) (hg : s.progress = some g)
    (ho : o = State.answers (s.dataBoundary p k pos none changed))
    (hgo : o = State.answers (if changed then s.nextSector sl g else (s, .idle)) → goes) :
    s.atBoundary p k sl pos g.next o goes := by
  obtain ⟨h1, h2⟩ := inService_some h
  unfold State.dataBoundary at ho
  rw [h1, hg] at ho; dsimp only at ho
  refine ⟨stops_of hs h (fun hw => by rw [ho, if_pos hw])
    (fun hw hl => by rw [ho, if_neg (by simp [hw]), if_pos (by simp [State.lost, hl])]), fun hw hl hn => ?_⟩
  rw [if_neg (by simp [hw]), if_neg (by simp [State.lost, hl]), if_neg (by omega)] at ho
  refine ⟨fun hr => ?_, fun hr => ?_⟩
  · rw [if_pos (by unfold State.grants Slot.needsWrite; simpa using hr)] at ho
    exact ends_of (r := { ending := .mapChanged, fault := some (sl.sectorAddr g.next) }) hs h ho (by simp) (by simp)
  · rw [if_neg (by unfold State.grants Slot.needsWrite; simpa using hr)] at ho
    exact mayYield_of h1 ho hgo

/-- A boundary of a maintenance order that holds no unjudged label write (R63, R85, R142). -/
theorem maintThen_spec {pos : Nat} {go : State × Agenda} {goes : Prop} {o : Host.Outcome State Fault Refusal}
    (hs : s.serviceLaw) (h : s.inService = some (p, k, sl)) (hl : s.labelOpen = false)
    (ho : o = State.answers (s.maintThen p k pos none go)) (hgo : o = State.answers go → goes) :
    s.atMaintenance p k sl pos o goes := by
  obtain ⟨h1, h2⟩ := inService_some h
  unfold State.maintThen State.maintBoundary at ho
  rw [h1] at ho; dsimp only at ho
  refine ⟨stops_of hs h (fun hw => by rw [ho, if_pos ⟨hw, hl⟩])
    (fun hw hl' => by rw [ho, if_neg (by simp [hw]), if_pos ⟨by simp [State.lost, hl'], hl⟩]), fun hw hl' => ?_⟩
  rw [if_neg (by simp [hw]), if_neg (by simp [State.lost, hl'])] at ho
  have hb : s.formatBarred p sl = true ↔ sl.kind = .formatTrack ∧ sl.startAddr.cyl ≤ 383
      ∧ s.map.active.rightOn p sl.startAddr.cyl ≠ .write := by
    unfold State.formatBarred State.grants
    cases s.map.active.rightOn p sl.startAddr.cyl <;> simp [Right.allows]
  refine ⟨fun hr => ?_, fun hr => ?_⟩
  · rw [if_pos (hb.mpr hr)] at ho
    exact ends_of (r := { ending := .mapChanged, fault := some { sl.startAddr with sector := sl.sectorsDone } }) hs h ho
      (by simp) (by simp)
  · rw [if_neg (fun hr' => hr (hb.mp hr'))] at ho
    exact mayYield_of h1 ho hgo

/-- A maintenance order ends with its result, unless it stops (R142). -/
theorem maintThen_result {pos : Nat} {go : State × Agenda} {r : Result} {o : Host.Outcome State Fault Refusal}
    (hs : s.serviceLaw) (h : s.inService = some (p, k, sl)) (hl : s.labelOpen = false)
    (ho : o = State.answers (s.maintThen p k pos (some r) go)) (hk : sl.kind ≠ .read) (hr : r.ending ≠ .readFault) :
    s.stops p k sl o ∧ (sl.withdrawn = false → (s.ports.get p).presence ≠ .lost →
      s.ends p k { sl with sectorsDone := r.sectors.getD sl.sectorsDone, body := r.body.getD sl.body } r.ending r.fault
        o) := by
  obtain ⟨h1, h2⟩ := inService_some h
  unfold State.maintThen State.maintBoundary at ho
  rw [h1] at ho; dsimp only at ho
  refine ⟨stops_of hs h (fun hw => by rw [ho, if_pos ⟨hw, hl⟩])
    (fun hw hl' => by rw [ho, if_neg (by simp [hw]), if_pos ⟨by simp [State.lost, hl'], hl⟩]), fun hw hl' => ?_⟩
  rw [if_neg (by simp [hw]), if_neg (by simp [State.lost, hl'])] at ho
  exact ends_of hs h ho hr fun h _ => absurd h hk

/-- A step that leaves nothing to be done. -/
theorem answers_idle (s : State) : State.answers (s, .idle) = .next s.judgeAlarm := rfl

/-- A data order turns to its next sector (R84, R98, R110, R123). -/
theorem goesOn_of {n : Nat} {o : Host.Outcome State Fault Refusal} (h : s.inService = some (p, k, sl))
    (hd : sl.kind.isData = true) (hw : sl.withdrawn = false) (hl : (s.ports.get p).presence ≠ .lost) (hn : n < sl.n)
    (hr : (s.map.active.rightOn p (sl.sectorAddr n).cyl).allows (decide (sl.kind = .write)) = true)
    (ho : o = State.answers (s.turnsTo sl n)) : s.goesOn p k sl n o := by
  have hx : (s.turnsTo sl n).1 = { (s.turnsTo sl n).1 with queues := s.queues, ports := s.ports, map := s.map }
      ∧ ∃ i, (s.turnsTo sl n).1.progress = some ⟨n, i, 0, .data⟩ := by
    unfold State.turnsTo; dsimp only
    split
    · unfold State.positioned; dsimp only; split <;> exact ⟨rfl, _, rfl⟩
    · split
      · exact ⟨rfl, _, rfl⟩
      · unfold State.positioned; dsimp only; split <;> exact ⟨rfl, _, rfl⟩
  unfold State.goesOn
  generalize s.turnsTo sl n = x at *
  obtain ⟨x, y⟩ := x
  obtain ⟨hq, i, hp⟩ := hx
  dsimp only at hq hp ⊢
  have hi : x.inService = some (p, k, sl) := by rw [← h]; exact inService_of_queues (by rw [hq])
  refine ⟨fun e => by rw [ho, e]; rfl, fun e => ?_⟩
  subst e
  refine mayYield_of (inService_some hi).1 (go := (x, .idle)) (ho.trans ?_) fun h => h
  show State.answersIn 63 (x.advance .arrived) = _
  unfold State.advance State.arrivalBoundary
  rw [hi]; dsimp only
  rw [if_pos hd]
  unfold State.dataBoundary
  rw [(inService_some hi).1, hp]; dsimp only
  rw [if_neg (by simp [hw]), if_neg (by rw [hq]; simp [State.lost, hl]), if_neg (by omega), if_neg]
  · rfl
  · rw [hq]; unfold State.grants Slot.needsWrite; simp [hr]

/-! ## Pulses and sector starts -/

theorem select_busy (h : s.inService ≠ none) : s.select = (s, .idle) := by
  unfold State.select State.maySelect
  cases hi : s.inService with
  | none => exact absurd hi h
  | some x => simp

theorem schedule_busy (h : s.inService ≠ none) : s.schedule = s := by
  unfold State.schedule State.settled settleLimit
  unfold settle
  unfold State.advance
  rw [select_busy h]; rfl

theorem weighReasons_eq (s : State) : s.weighReasons =
    { s with drive := s.weighReasons.drive, alarms := s.weighReasons.alarms } := by
  unfold State.weighReasons; split
  · split <;> rfl
  · rfl

theorem weighReasons_state (s : State) : s.weighReasons.drive.state = .ready ∨ s.weighReasons.drive.state = .degraded := by
  unfold State.weighReasons; split
  · split
    · next h => exact .inr h
    · exact .inr rfl
  · exact .inl rfl

/-- What an index changes while an order is in service: the position, the speed monitor, the degraded reasons and the
counts (R94, R96, R134). -/
theorem indexWatch_busy (hi : s.inService ≠ none) (hd : s.drive.state ≠ .spinningUp) :
    s.indexWatch = { s with
      pos := (s.pos.measure s.tick).atIndex, drive := s.indexWatch.drive, alarms := s.indexWatch.alarms,
      banks := s.indexWatch.banks }
    ∧ (s.indexWatch.drive.state = .labelRead ↔ s.drive.state = .labelRead) := by
  unfold State.indexWatch; dsimp only
  generalize hs1 : (if s.countsRevolution then s.countBoth .outOfBand else s) = s1
  have e1 : s1 = { s with banks := s1.banks } := by rw [← hs1]; split <;> rfl
  generalize hs2 : s1.onPos (fun x => (x.measure s.tick).atIndex) = s2
  have e2 : s2 = { s with pos := (s.pos.measure s.tick).atIndex, banks := s1.banks } := by rw [← hs2, e1]; rfl
  have i2 : s2.inService ≠ none := by rw [e2]; exact hi
  have d2 : s2.drive = s.drive := by rw [e2]
  generalize hs3 : (if s2.pos.inBand = s.pos.inBand then s2 else s2.verdictChanged) = s3
  have e3 : s3 = { s2 with drive := s3.drive, alarms := s3.alarms }
      ∧ (s3.drive.state = .labelRead ↔ s.drive.state = .labelRead) := by
    rw [← hs3]
    split
    · rw [d2]; exact ⟨by rw [← d2], Iff.rfl⟩
    · unfold State.verdictChanged
      rw [if_neg (by rw [d2]; exact fun h => hd h.1)]
      unfold State.setReasons
      by_cases hv : s2.drive.state.serving = true
      · rw [if_pos hv]
        generalize hw : (s2.onDrive fun d => { d with speed := !s2.pos.inBand, supply := s2.drive.supply }).weighReasons = w
        have ew : w = { s2 with drive := w.drive, alarms := w.alarms } := by rw [← hw, weighReasons_eq]; rfl
        have iw : w.inService ≠ none := by rw [ew]; exact i2
        have es : w.scheduleOnEntry s2.drive.state = w := by
          unfold State.scheduleOnEntry; split
          · rfl
          · exact schedule_busy iw
        rw [es]
        refine ⟨ew, ?_⟩
        have := weighReasons_state (s2.onDrive fun d => { d with speed := !s2.pos.inBand, supply := s2.drive.supply })
        rw [hw] at this
        rw [d2] at hv
        constructor
        · intro h; rcases this with h' | h' <;> rw [h'] at h <;> cases h
        · intro h; rw [h] at hv; cases hv
      · rw [if_neg hv]
        have es : s2.scheduleOnEntry s2.drive.state = s2 := by unfold State.scheduleOnEntry; rw [if_pos rfl]
        rw [es, d2]; exact ⟨by rw [← d2], Iff.rfl⟩
  obtain ⟨e3, l3⟩ := e3
  have b3 : s3.banks = s2.banks := by rw [e3]
  split
  · exact ⟨by rw [e3, e2]; rfl, l3⟩
  · exact ⟨by rw [e3, e2], l3⟩

/-- The pulse at which a sector begins, for an order in service that is no TEST TRACK: what it makes of the state, and
what it answers (R94, R95). -/
theorem begins_spec {n : Nat} {h : HeaderReading} {c : Instr} (hi : s.inService = some (p, k, sl)) (hg : s.progress = some g)
    (hb : s.begins u n h c) :
    u = { s with pos := u.pos, drive := u.drive, alarms := u.alarms, banks := u.banks }
      ∧ u.pos.activity = s.pos.activity ∧ u.pos.arrivalTick = s.pos.arrivalTick ∧ u.pos.errors = s.pos.errors
      ∧ (u.drive.state = .labelRead ↔ s.drive.state = .labelRead)
      ∧ (g.stage.isTest = false ∨ n ≠ 0 → exec c s = State.answers (u.sectorStart n h)) := by
  rcases hb with ⟨rfl, rfl, hd, rfl⟩ | ⟨rfl, rfl, hv, hsc, rfl⟩
  · obtain ⟨e, l⟩ := indexWatch_busy (by rw [hi]; simp) hd
    generalize hw : s.indexWatch = w at *
    have ep : w.pos = (s.pos.measure s.tick).atIndex := by rw [e]
    have em : (s.pos.measure s.tick).atIndex.activity = s.pos.activity
        ∧ (s.pos.measure s.tick).atIndex.arrivalTick = s.pos.arrivalTick
        ∧ (s.pos.measure s.tick).atIndex.errors = s.pos.errors := by
      unfold Positioner.measure Positioner.atIndex Positioner.judgeRevolution; dsimp only
      cases s.pos.closes s.tick with
      | none => exact ⟨rfl, rfl, rfl⟩
      | some x => dsimp only; split <;> exact ⟨rfl, rfl, rfl⟩
    refine ⟨by rw [e], by rw [ep, em.1], by rw [ep, em.2.1], by rw [ep, em.2.2], l, fun ht => ?_⟩
    have ht := ht.resolve_right (by simp)
    have hi' : w.inService = some (p, k, sl) := by rw [e]; exact hi
    have hg' : w.progress = some g := by rw [e]; exact hg
    show Host.Outcome.next _ = _
    rw [hw]
    have : w.testIndex = (w, .idle) := by
      unfold State.testIndex
      rw [hi', hg']; dsimp only
      rw [if_neg (by rw [ht]; simp)]
    rw [this]; rfl
  · refine ⟨rfl, rfl, rfl, rfl, Iff.rfl, fun _ => ?_⟩
    show Host.Outcome.next _ = _
    rw [if_neg (by rw [hv]; simp), if_pos hsc]; rfl

/-- An order in service whose record alone changed is still the one in service. -/
theorem modSlot_service {f : Slot → Slot} (hs : s.serviceLaw) (hi : s.inService = some (p, k, sl)) (hu : u.queues = s.queues)
    (hf : (f sl).state = .inService) :
    (u.modSlot p k f).serviceLaw ∧ (u.modSlot p k f).inService = some (p, k, f sl) := by
  obtain ⟨h1, h2⟩ := inService_some hi
  have e : ∀ q j, (u.modSlot p k f).slot q j = if (q, j) = (p, k) then some (f sl) else s.slot q j := by
    intro q j
    by_cases h : (q, j) = (p, k)
    · cases h; rw [slot_modSlot_same, slot_of_queues s u hu, h1, if_pos rfl]; rfl
    · rw [slot_modSlot, if_neg (by simpa using h), if_neg h, slot_of_queues s u hu]
  have hs' : (u.modSlot p k f).serviceLaw := by
    have : ∀ q, (u.modSlot p k f).numbered q .inService = s.numbered q .inService := by
      intro q; unfold State.numbered
      refine List.filter_congr fun j _ => ?_
      rw [e]
      by_cases h : (q, j) = (p, k)
      · cases h; rw [if_pos rfl, h1]; simp [hf, h2]
      · rw [if_neg h]
    unfold State.serviceLaw; rw [this, this]; exact hs
  exact ⟨hs', inService_of hs' (by rw [e, if_pos rfl]) hf⟩

/-- A pass over a sector that has been judged by its header (R101, R102). -/
theorem reads_of {x : PassKind} {a : Addr} {ws : List Word} {h : HeaderReading} {o : Host.Outcome State Fault Refusal}
    (hs : s.serviceLaw) (hl : ∀ q, Listed s q)
    (ho : o = State.answers (match h.verdict s.disk a with
      | .mismatched => (s.headerMismatch a, .idle)
      | .unreadable => (s.setPass x a .unreadable ws, .idle)
      | .matching => ((s.onPos fun y => { y with activity := .confirmed }).setPass x a .matching ws, .idle))) :
    s.reads x a ws h o := by
  refine ⟨fun hm => ?_, fun hm => ?_, fun hm he => ?_, fun hm ha he => ?_⟩ <;> rw [hm] at ho <;> dsimp only at ho <;>
    rw [ho]
  · rfl
  · rfl
  · show Host.Outcome.next (s.headerMismatch a).judgeAlarm = _
    congr 2
    unfold State.headerMismatch State.seekError
    dsimp only
    have hne : (s.onPos fun y => { y with target := some a, errors := if y.activity = .confirmed then 0 else y.errors
        }).pos.errors < 2 := by
      show (if s.pos.activity = .confirmed then 0 else s.pos.errors) < 2
      rcases he with he | he
      · simp [he]
      · split <;> omega
    rw [if_pos hne]
    have herr : (if s.pos.activity = Activity.confirmed then 1 else s.pos.errors + 1)
        = (if s.pos.activity = Activity.confirmed then 0 else s.pos.errors) + 1 := by split <;> rfl
    rw [herr]; rfl
  · have : (s.headerMismatch a) = ({ s with pos := { s.pos with target := some a, cyl := none } }.countBoth .seekErrors
        : State).enterFaulted .seek := by
      unfold State.headerMismatch State.seekError
      dsimp only
      rw [if_neg]
      · have key : ∀ n, n = s.pos.errors → ((s.onPos fun y => { y with target := some a, errors := n }).countBoth
            .seekErrors).onPos (fun y => { y with cyl := none }) = { s with pos := { s.pos with
              target := some a, cyl := none } }.countBoth .seekErrors := by rintro _ rfl; rfl
        exact congrArg (State.enterFaulted · .seek) (key _ (if_neg ha))
      · show ¬(if s.pos.activity = Activity.confirmed then 0 else s.pos.errors) < 2
        rw [if_neg ha]; omega
    show State.faultsThen _ _ (.next (s.headerMismatch a).judgeAlarm)
    rw [this]
    exact faultsThen_of (s := ({ s with pos := { s.pos with target := some a, cyl := none } }.countBoth .seekErrors : State))
      (serviceLaw_of_queues hs rfl) (fun q => hl q) .seek

/-- A pass over a sector is taken for the order in service (R101, R115, R122). -/
theorem takePass_spec {x : PassKind} {a : Addr} {ws : List Word} {h : HeaderReading}
    {o : Host.Outcome State Fault Refusal} (hs : s.serviceLaw) (hi : s.inService = some (p, k, sl)) (hl : ∀ q, Listed s q)
    (ho : o = State.answers (s.takePass p k g x a ws h)) : s.takes p k g x a ws h o := by
  unfold State.takes
  generalize hev : (if 0 < g.failed then s.countBoth .reReads else s).modSlot p k (fun y =>
    { y with retries := if 0 < g.failed then min (y.retries + 1) 65535 else y.retries, consSlips := 0 }) = v
  have hv : (if 0 < g.failed then (s.modSlot p k fun y => { y with retries := sat16 y.retries 1 }).countBoth .reReads
      else s).modSlot p k (fun y => { y with consSlips := 0 }) = v := by
    rw [← hev]
    by_cases hg : 0 < g.failed
    · simp only [hg, if_true]
      cases p <;> simp [State.modSlot, State.onQueue, PerPort.modify, Queue.put, State.countBoth, Function.comp_def, sat16]
    · simp only [hg, if_false]
  have hq : ∀ c : Prop, ∀ _ : Decidable c, (if c then s.countBoth .reReads else s).queues = s.queues := by
    intro c _; split <;> rfl
  have hd : v.disk = s.disk := by rw [← hev]; show (if _ then _ else _ : State).disk = _; split <;> rfl
  refine reads_of (by rw [← hev]; exact (modSlot_service hs hi (hq _ _) (inService_some hi).2).1)
    (fun q => by rw [← hev]; exact Listed.modSlot ((hl q).congr (by rw [hq])) p k _ fun _ => rfl) ?_
  rw [ho, hd, ← hv]; rfl

/-- The start of a sector that the order in service may take (R95). -/
theorem sectorStart_spec {n : Nat} {h : HeaderReading} (hi : s.inService = some (p, k, sl)) (hg : s.progress = some g)
    (ht : s.onTarget) (hd : s.drive.state ≠ .labelRead) : s.sectorStart n h = s.startInService p k sl g n h := by
  obtain ⟨a, b, c⟩ := ht
  unfold State.sectorStart
  have : s.mayTake = true := by
    unfold State.mayTake
    rw [a, decide_eq_true b, decide_eq_true (show 0 < signedDiff s.tick s.pos.arrivalTick from c)]; rfl
  rw [if_neg (by simp [this]), if_neg hd, hi, hg]

/-- An order that ends at the start of a sector (R112, R142). -/
theorem endAtStart_spec {e : Ending} {a : Addr} {o : Host.Outcome State Fault Refusal} (hs : s.serviceLaw)
    (hi : s.inService = some (p, k, sl)) (he : e ≠ .readFault) (hd : e ≠ .done)
    (ho : o = State.answers (s.endAtStart p k e a)) : s.ends p k sl e (some a) o :=
  ends_of (r := { ending := e, fault := some a }) hs hi ho he fun _ h => absurd h hd

end Sys2Proof.Machine
end

