-- ==== Sys2Proof/Laws/Arrivals.lean ====
section
/-! SUPPORT. No sector is taken at the tick at which a positioning arrives: what follows the end of an order in one step
leaves the positioner idle, seeking or just arrived (R95, R98), and the supervisor as it was unless a stop is pending. -/

namespace Sys2Proof.Machine

-- Every thread of the checker reserves a whole stack: these many short proofs are checked one after another.
set_option Elab.async false
variable {s t u : State} {p : Port} {k : Fin 8} {sl : Slot} {g : Progress}

/-- An arrival that the positioner stands at was taken at the tick now. -/
def Fresh (s : State) : Prop :=
  s.pos.activity = .arrived ∨ s.pos.activity = .confirmed → s.pos.arrivalTick = s.tick

theorem Fresh.of_idle (h : s.pos.activity = .idle) : Fresh s := by
  rintro (e | e) <;> rw [h] at e <;> cases e

theorem Fresh.congr (h : Fresh s) (hp : t.pos = s.pos) (ht : t.tick = s.tick) : Fresh t := by
  unfold Fresh at *; rw [hp, ht]; exact h

theorem positioned_fresh (s : State) (x : Addr) : Fresh (s.positioned x) := by
  unfold State.positioned; dsimp only
  split
  · exact fun _ => rfl
  · rintro (e | e) <;> cases e

/-- The same of a state with what remains to be done in its step: an arrival's boundary follows an arrival. -/
def FreshFor (x : State × Agenda) : Prop := Fresh x.1 ∧ (x.2 = .arrived → x.1.pos.activity = .arrived)

theorem Fresh.with (h : Fresh s) {a : Agenda} (ha : a ≠ .arrived) : FreshFor (s, a) := ⟨h, fun e => absurd e ha⟩

theorem goTo_fresh (s : State) (x : Addr) : FreshFor (s.goTo x) := by
  refine ⟨by rw [goTo_eq]; exact positioned_fresh s x, fun e => ?_⟩
  unfold State.goTo State.afterRequest at e ⊢
  dsimp only at e ⊢
  split at e
  · next h => exact h
  · cases e

/-- An ending takes the order in service off the actuator, or leaves the positioner. -/
theorem endSlot_pos {e : Ending} {fa : Option Addr} (h : s.slot p k = some sl) :
    (s.endSlot p k e fa).tick = s.tick ∧ ((s.endSlot p k e fa).pos = s.pos ∧ sl.state ≠ .inService
      ∨ (s.endSlot p k e fa).pos.activity = .idle) := by
  unfold State.endSlot; rw [h]; dsimp only
  split
  · next hd => exact ⟨rfl, .inl ⟨rfl, by rw [hd]; simp⟩⟩
  · have h1 : ∀ x : State, (((x.release p k fun _ => true).countEnding p e).onQueue p fun q => q.finish k e fa).testRequests.pos
        = x.pos ∧ (((x.release p k fun _ => true).countEnding p e).onQueue p fun q => q.finish k e fa).testRequests.tick
        = x.tick := by
      intro x; rw [testRequests_buffers]; cases e <;> exact ⟨rfl, rfl⟩
    split
    · rw [(h1 _).1, (h1 _).2, leaveActuator_eq h]; exact ⟨rfl, .inr rfl⟩
    · next hi => rw [(h1 _).1, (h1 _).2]; exact ⟨rfl, .inl ⟨rfl, hi⟩⟩

theorem Fresh.endSlot {e : Ending} {fa : Option Addr} (h : Fresh s) : Fresh (s.endSlot p k e fa) := by
  cases hs : s.slot p k with
  | none => unfold State.endSlot; rw [hs]; exact h
  | some sl =>
    obtain ⟨a, b⟩ := endSlot_pos (e := e) (fa := fa) hs
    rcases b with b | b
    · exact h.congr b.1 a
    · exact .of_idle b

theorem endSlot_fresh {e : Ending} {fa : Option Addr} (hs : s.slot p k = some sl) (hi : sl.state = .inService) :
    Fresh (s.endSlot p k e fa) := by
  obtain ⟨-, b⟩ := endSlot_pos (e := e) (fa := fa) hs
  rcases b with b | b
  · exact absurd hi b.2
  · exact .of_idle b

theorem slot_mod {f : Slot → Slot} (h : s.slot p k = some sl) : (s.modSlot p k f).slot p k = some (f sl) := by
  rw [slot_modSlot_same, h]; rfl

theorem handTo_fresh (h : s.slot p k = some sl) : FreshFor (s.handTo p k) := by
  unfold State.handTo; dsimp only
  have h1 : ({ s.modSlot p k (fun x => { x with state := .inService }) with sched := { s.sched with last := p } } : State).slot
      p k = some { sl with state := .inService } := slot_mod h
  generalize ({ s.modSlot p k (fun x => { x with state := .inService }) with sched := { s.sched with last := p } } : State)
    = s1 at *
  rw [h1]; dsimp only
  split
  · exact goTo_fresh _ _
  · exact goTo_fresh _ _
  · exact goTo_fresh _ _
  · unfold State.beginAssign; dsimp only
    split
    · exact (endSlot_fresh h1 rfl).with (by simp)
    · split
      · split
        · exact (endSlot_fresh (slot_mod h1) rfl).with (by simp)
        · exact goTo_fresh _ _
      · split
        · exact (endSlot_fresh (slot_mod h1) rfl).with (by simp)
        · exact goTo_fresh _ _
  · unfold State.beginData; split <;> exact goTo_fresh _ _

theorem select_fresh (h : Fresh s) : FreshFor s.select := by
  unfold State.select; dsimp only
  split
  · split
    · next e => exact handTo_fresh (stepOne_some e).1
    · split
      · next e => exact handTo_fresh (suspendedCandidate_some e).1
      · split
        · next e => exact handTo_fresh (s := { s with sched := _ }) (stepThree_some e).1
        · exact h.with (by simp)
  · exact h.with (by simp)

theorem endWhere_fresh {P : Slot → Bool} {e : Ending} (h : Fresh s) : Fresh (s.endWhere p P e) := by
  unfold State.endWhere
  generalize (s.queues.get p).order = l
  induction l generalizing s with
  | nil => exact h
  | cons j l ih =>
    rw [List.foldl_cons]
    refine ih ?_
    split
    · split
      · exact h.endSlot
      · exact h
    · exact h

theorem stopOrSelect_fresh (h : Fresh s) : FreshFor s.stopOrSelect := by
  unfold State.stopOrSelect
  split
  · unfold State.enterSpinningDown
    exact Fresh.with (Fresh.congr (endWhere_fresh (endWhere_fresh (.of_idle rfl))) rfl rfl) (by simp)
  · exact select_fresh h

theorem endWith_fresh {r : Result} (h : s.slot p k = some sl) (hi : sl.state = .inService) : FreshFor (s.endWith p k r) := by
  unfold State.endWith; dsimp only
  have h1 := slot_mod (f := fun x => { x with sectorsDone := r.sectors.getD x.sectorsDone, body := r.body.getD x.body }) h
  generalize s.modSlot p k (fun x => { x with sectorsDone := r.sectors.getD x.sectorsDone, body := r.body.getD x.body })
    = s1 at *
  have h2 : (if r.ending = .readFault then (s1.latch .sectorLost).countBoth .sectorsLost else s1).slot p k = s1.slot p k := by
    split <;> rfl
  generalize (if r.ending = .readFault then (s1.latch .sectorLost).countBoth .sectorsLost else s1) = s2 at *
  rw [h2, h1]; dsimp only
  unfold State.endDiskPhase
  split
  · unfold State.startDraining
    rw [leaveActuator_eq (h2.trans h1)]
    exact Fresh.with (.of_idle rfl) (by simp)
  · exact (endSlot_fresh (h2.trans h1) hi).with (by simp)

theorem freeWithdrawn_fresh (h : s.slot p k = some sl) : Fresh (s.freeWithdrawn p k) := by
  unfold State.freeWithdrawn
  rw [testRequests_buffers, leaveActuator_eq h]
  exact .of_idle rfl

theorem checkSuspension_fresh {pos : Nat} {x : State × Agenda} (h : s.checkSuspension p k pos = some x) : FreshFor x := by
  unfold State.checkSuspension at h
  split at h
  · cases h
  · next cur hcur =>
    split at h
    · next q j e =>
      cases h
      have ⟨y, hy, hq⟩ : ∃ y, s.slot q j = some y ∧ y.state = .queued := by
        unfold State.suspensionFor at e
        split at e
        · split at e
          · cases e
          · next e' =>
            dsimp only at e; split at e
            · cases e; exact ⟨_, (stepOne_some e').1, (stepOne_some e').2.1⟩
            · cases e
        · cases e
      unfold State.suspend
      by_cases hpj : (q, j) = (p, k)
      · cases hpj; exact handTo_fresh (sl := { y with state := .suspended }) (slot_mod hy)
      · refine handTo_fresh (sl := y) ?_
        refine (slot_modSlot ..).trans ?_
        rw [if_neg (by simpa using hpj), hy]
    · cases h

theorem dataBoundary_fresh {pos : Nat} (hs : Serving s p k) (h : Fresh s) : FreshFor (s.dataBoundary p k pos none false) := by
  unfold State.dataBoundary
  split
  · next sl g h1 h2 =>
    obtain ⟨sl', e, hi⟩ := hs
    rw [h1] at e; cases e
    split
    · exact (freeWithdrawn_fresh h1).with (by simp)
    · split
      · exact endWith_fresh h1 hi
      · split
        · next h => cases h
        · split
          · exact endWith_fresh h1 hi
          · split
            · exact endWith_fresh h1 hi
            · split
              · next e => exact checkSuspension_fresh e
              · exact h.with (by simp)
  · exact h.with (by simp)

theorem maintThen_fresh {pos : Nat} {r : Option Result} {go : State × Agenda} (hs : s.slot p k = some sl)
    (hi : sl.state = .inService) (h : FreshFor go) : FreshFor (s.maintThen p k pos r go) := by
  unfold State.maintThen State.maintBoundary
  rw [hs]; dsimp only
  by_cases h1 : sl.withdrawn = true ∧ s.labelOpen = false
  · rw [if_pos h1]; exact (freeWithdrawn_fresh hs).with (by simp)
  rw [if_neg h1]
  by_cases h2 : s.lost p = true ∧ s.labelOpen = false
  · rw [if_pos h2]; exact endWith_fresh hs hi
  rw [if_neg h2]
  cases r with
  | some r => exact endWith_fresh hs hi
  | none =>
    dsimp only
    by_cases h3 : s.formatBarred p sl = true
    · rw [if_pos h3]; exact endWith_fresh hs hi
    rw [if_neg h3]; dsimp only
    split
    · next e => exact checkSuspension_fresh e
    · exact h

theorem arrivalBoundary_fresh (h : Fresh s) (ha : s.pos.activity = .arrived) : FreshFor s.arrivalBoundary := by
  unfold State.arrivalBoundary
  split
  · exact h.with (by simp)
  · next q j x e =>
    obtain ⟨h1, h2⟩ := inService_some e
    split
    · exact dataBoundary_fresh (.of s e) h
    · dsimp only
      split
      · have hc : Fresh (s.onPos fun y => { y with activity := .confirmed }) := fun _ => h (.inl ha)
        exact maintThen_fresh (s := s.onPos fun y => { y with activity := .confirmed }) h1 h2 (hc.with (by simp))
      · exact maintThen_fresh h1 h2 (h.with (by simp))

theorem settle_fresh (n : Nat) {x : State × Agenda} (h : FreshFor x) : Fresh (settle n x) := by
  induction n generalizing x with
  | zero => exact h.1
  | succ n ih =>
    obtain ⟨s, a⟩ := x
    cases a with
    | idle => exact h.1
    | select => exact ih (select_fresh h.1)
    | released => exact ih (stopOrSelect_fresh h.1)
    | arrived => exact ih (arrivalBoundary_fresh h.1 (h.2 rfl))

/-- A sector whose pulse comes at the tick of an arrival is not taken (R95). -/
theorem Fresh.sectorStart (h : Fresh s) (n : Nat) (r : HeaderReading) : s.sectorStart n r = (s, .idle) := by
  unfold State.sectorStart
  rw [if_pos]
  unfold State.mayTake
  by_cases ha : s.pos.activity = .arrived ∨ s.pos.activity = .confirmed
  · have : ¬ 0 < signedDiff s.tick s.pos.arrivalTick := by
      rw [h ha]; unfold signedDiff; rw [BitVec.sub_self]; decide
    simp [this]
  · simp [ha]

/-! ## The supervisor -/

theorem endSlot_drive {e : Ending} {fa : Option Addr} : (s.endSlot p k e fa).drive = s.drive := by
  unfold State.endSlot
  cases h : s.slot p k with
  | none => rfl
  | some sl =>
    dsimp only
    split
    · rfl
    · rw [testRequests_buffers]
      split
      · rw [leaveActuator_eq h]; cases e <;> rfl
      · cases e <;> rfl

theorem positioned_drive (s : State) (x : Addr) : (s.positioned x).drive = s.drive := by
  unfold State.positioned; dsimp only; split <;> rfl

theorem goTo_drive (s : State) (x : Addr) : (s.goTo x).1.drive = s.drive := by rw [goTo_eq]; exact positioned_drive s x

theorem handTo_drive : (s.handTo p k).1.drive = s.drive := by
  unfold State.handTo; dsimp only
  split
  · rfl
  · split
    · exact goTo_drive _ _
    · exact goTo_drive _ _
    · exact goTo_drive _ _
    · unfold State.beginAssign; dsimp only
      split
      · exact endSlot_drive
      · split
        · split
          · exact endSlot_drive
          · exact goTo_drive _ _
        · split
          · exact endSlot_drive
          · exact goTo_drive _ _
    · unfold State.beginData
      split
      · refine (goTo_drive _ _).trans ?_
        rw [countBoth_drive, testRequests_buffers]; rfl
      · refine (goTo_drive _ _).trans ?_
        rw [testRequests_buffers]; rfl

theorem select_drive : s.select.1.drive = s.drive := by
  unfold State.select; dsimp only
  split
  · split
    · exact handTo_drive
    · split
      · exact handTo_drive
      · split
        · exact handTo_drive
        · rfl
  · rfl

theorem endWith_drive {r : Result} : (s.endWith p k r).1.drive = s.drive := by
  unfold State.endWith; dsimp only
  generalize hs1 : s.modSlot p k (fun x => { x with sectorsDone := r.sectors.getD x.sectorsDone, body := r.body.getD x.body })
    = s1
  have h1 : s1.drive = s.drive := by rw [← hs1]; rfl
  generalize hs2 : (if r.ending = .readFault then (s1.latch .sectorLost).countBoth .sectorsLost else s1) = s2
  have h2 : s2.drive = s.drive := by rw [← hs2, ← h1]; split <;> rfl
  split
  · next y hy =>
    unfold State.endDiskPhase
    split
    · unfold State.startDraining
      rw [leaveActuator_eq hy]
      exact h2
    · exact endSlot_drive.trans h2
  · exact h2

theorem freeWithdrawn_drive : (s.freeWithdrawn p k).drive = s.drive := by
  unfold State.freeWithdrawn
  rw [testRequests_buffers]
  show (s.leaveActuator p k).drive = _
  cases h : s.slot p k with
  | none => unfold State.leaveActuator; rw [h]
  | some sl => rw [leaveActuator_eq h]; rfl

theorem checkSuspension_drive {pos : Nat} {x : State × Agenda} (h : s.checkSuspension p k pos = some x) :
    x.1.drive = s.drive := by
  unfold State.checkSuspension at h
  split at h
  · cases h
  · split at h
    · cases h; exact handTo_drive
    · cases h

theorem arrivalBoundary_drive : s.arrivalBoundary.1.drive = s.drive := by
  unfold State.arrivalBoundary
  split
  · rfl
  · split
    · unfold State.dataBoundary
      split
      · split
        · exact freeWithdrawn_drive
        · split
          · exact endWith_drive
          · split
            · exact endWith_drive
            · split
              · exact endWith_drive
              · split
                · exact endWith_drive
                · split
                  · next e => exact checkSuspension_drive e
                  · rfl
      · rfl
    · dsimp only
      next q j y _ _ =>
      generalize hs1 : (if y.kind = .formatTrack ∨ y.kind = .testTrack then s.onPos fun z => { z with activity := .confirmed }
        else s) = s1
      have h1 : s1.drive = s.drive := by rw [← hs1]; split <;> rfl
      rw [← h1]
      unfold State.maintThen
      split
      · next e =>
        unfold State.maintBoundary at e
        split at e
        · cases e
        · split at e
          · cases e; exact freeWithdrawn_drive
          · split at e
            · cases e; exact endWith_drive
            · split at e
              · cases e; exact endWith_drive
              · split at e
                · cases e; exact endWith_drive
                · cases e
      · split
        · next e => exact checkSuspension_drive e
        · rfl

/-- With no stop pending, what follows in a step leaves the supervisor (R138). -/
theorem settle_drive (n : Nat) {x : State × Agenda} (h : x.1.drive.stopPending = false) :
    (settle n x).drive = x.1.drive := by
  induction n generalizing x with
  | zero => rfl
  | succ n ih =>
    obtain ⟨s, a⟩ := x
    have key : ∀ y : State × Agenda, y.1.drive = s.drive → (settle n y).drive = s.drive := fun y hy =>
      (ih (by rw [hy]; exact h)).trans hy
    cases a with
    | idle => rfl
    | select => exact key _ select_drive
    | released =>
      refine key _ ?_
      show s.stopOrSelect.1.drive = _
      unfold State.stopOrSelect
      rw [if_neg (by rw [show s.drive.stopPending = false from h]; simp)]
      exact select_drive
    | arrived => exact key _ arrivalBoundary_drive

/-- A test for a selection leaves the supervisor (R69). -/
theorem schedule_drive (s : State) : s.schedule.drive = s.drive := by
  cases h : s.drive.stopPending with
  | false => exact settle_drive _ h
  | true =>
    unfold State.schedule State.settled
    show (settle 63 s.select).drive = _
    unfold State.select State.maySelect
    rw [if_neg (by simp [h])]
    rfl

end Sys2Proof.Machine
end

