-- ==== Sys2Proof/Laws/Passes.lean ====
section
/-! SUPPORT. The ends of passes: what the boundaries of data orders do, and how orders leave them, in the terms of
Safety.lean. -/

namespace Sys2Proof.Machine

-- Every thread of the checker reserves a whole stack: these many short proofs are checked one after another.
set_option Elab.async false

variable {s t u : State} {p : Port} {k : Fin 8} {sl : Slot} {g : Progress}

/-- The end of a pass of a data order (R111). -/
theorem passEnd_data {q : Pass} (hp : s.pass = some q) (hi : s.inService = some (p, k, sl)) (hg : s.progress = some g)
    (d : DataReading)
    (hk : (∃ b, q.kind = .read b) ∨ q.kind = .check ∨ (∃ b, q.kind = .write b) ∨ q.kind = .verify ∨ q.kind = .slip) :
    exec (.sectorPassEnd d) s = State.answers (({ s with pass := none } : State).endDataPass p k sl g q d) := by
  have hi' : ({ s with pass := none } : State).inService = some (p, k, sl) := hi
  have : s.passEnd d = ({ s with pass := none } : State).endDataPass p k sl g q d := by
    unfold State.passEnd; rw [hp]; dsimp only
    rcases hk with ⟨b, hk⟩ | hk | ⟨b, hk⟩ | hk | hk <;> · rw [hk]; dsimp only; rw [hi', hg]
  show Host.Outcome.next (State.close (s.passEnd d)) = _
  rw [this]; rfl

/-- The end of a pass of a maintenance order (R142): `u` is the state with the pass over. -/
theorem passEnd_maint {q : Pass} (hp : s.pass = some q) (hu : u = { s with pass := none })
    (hi : s.inService = some (p, k, sl)) (hg : s.progress = some g) (d : DataReading) :
    (q.kind = .format → exec (.sectorPassEnd d) s = State.answers (u.endFormatPass p k sl q))
    ∧ (q.kind = .zero → exec (.sectorPassEnd d) s = State.answers (u.endZeroPass p k g q))
    ∧ (q.kind = .labelWrite → exec (.sectorPassEnd d) s = State.answers (u.endLabelWritePass p k g q))
    ∧ (q.kind = .readBack → exec (.sectorPassEnd d) s = State.answers (u.endReadBack p k sl q d))
    ∧ (q.kind = .testWrite → exec (.sectorPassEnd d) s = State.answers (u.endTestWrite p k q, .idle))
    ∧ (q.kind = .testRead → exec (.sectorPassEnd d) s = State.answers (u.endTestRead p k sl q d)) := by
  subst hu
  have hi' : ({ s with pass := none } : State).inService = some (p, k, sl) := hi
  have h0 : exec (.sectorPassEnd d) s = State.answers (s.passEnd d) := rfl
  unfold State.passEnd at h0
  rw [hp] at h0; dsimp only at h0
  refine ⟨?_, ?_, ?_, ?_, ?_, ?_⟩ <;> · intro hk; rw [h0, hk]; dsimp only; rw [hi', hg]

/-- A boundary of a data order that turns to its next sector (R111). -/
theorem boundary_goes {pos : Nat} {o : Host.Outcome State Fault Refusal} (hs : s.serviceLaw)
    (h : s.inService = some (p, k, sl)) (hg : s.progress = some g)
    (hd : sl.kind = .read ∨ sl.kind = .write ∨ sl.kind = .check)
    (ho : o = State.answers (s.dataBoundary p k pos none true)) :
    s.atBoundary p k sl pos g.next o (s.goesOn p k sl g.next o) := by
  have base := dataBoundary_spec (goes := o = State.answers (s.turnsTo sl g.next)) hs h hg ho
    (fun e => by rw [e, if_pos rfl, nextSector_eq])
  refine ⟨base.1, fun hw hl hn => ⟨(base.2 hw hl hn).1, fun hr c hc => ?_⟩⟩
  refine ⟨((base.2 hw hl hn).2 hr c hc).1, fun hk => ?_⟩
  exact goesOn_of h (by rcases hd with h | h | h <;> rw [h] <;> rfl) hw hl hn hr (((base.2 hw hl hn).2 hr c hc).2 hk)

/-- A live record changed by either of two functions that agree on it. -/
theorem mod_eq {f f' : Slot → Slot} (h : s.slot p k = some sl) (e : f sl = f' sl) :
    s.modSlot p k f = s.modSlot p k f' := by
  unfold State.modSlot
  refine onQueue_congr _ _ ?_
  show Queue.put _ k (((s.queues.get p).slots[k]).map f) = Queue.put _ k (((s.queues.get p).slots[k]).map f')
  rw [show (s.queues.get p).slots[k] = some sl from h]; simp [e]

/-- A live record changed twice. -/
theorem modSlot_twice (s : State) (p : Port) (k : Fin 8) (x y : Slot) :
    ((s.modSlot p k fun _ => x).modSlot p k fun _ => y) = s.modSlot p k fun _ => y := by
  unfold State.modSlot State.onQueue Queue.put
  cases p <;> simp only [PerPort.modify] <;> congr 3 <;>
    · refine Vector.ext fun i hi => ?_
      simp only [Fin.getElem_fin, Vector.getElem_set]
      split
      · simp [Option.map_map, Function.comp_def]
      · rfl

/-- A live record written as it is. -/
theorem modSlot_self (h : s.slot p k = some sl) : (s.modSlot p k fun _ => sl) = s := by
  have h' : (s.queues.get p).slots[k] = some sl := h
  unfold State.modSlot
  refine (onQueue_congr _ id ?_).trans (by cases p <;> rfl)
  have e : (s.queues.get p).slots.set k ((s.queues.get p).slots[k].map fun _ => sl) = (s.queues.get p).slots := by
    rw [h']
    refine Vector.ext fun i hi => ?_
    simp only [Vector.getElem_set]
    split
    · next e => subst e; exact h'.symm
    · rfl
  show ({ s.queues.get p with slots := _ } : Queue) = s.queues.get p
  rw [e]

theorem testRequests_progress (s : State) : s.testRequests.progress = s.progress := by rw [testRequests_buffers]

/-- What an order that stops leaves does not depend on its record's last changes. -/
theorem stops_base {o : Host.Outcome State Fault Refusal} {s1 : State} {f : Slot → Slot}
    (hq : s1 = { s.modSlot p k f with progress := s1.progress, pass := s1.pass })
    (h : s1.stops p k sl o) : s.stops p k sl o := by
  intro hst
  obtain ⟨t, ht, e⟩ := h (by rw [hq]; exact hst)
  exact ⟨t, ⟨fun hw => endsService_base hq (ht.1 hw), fun hw => endsService_base hq (ht.2 hw)⟩, e⟩

/-- What an order that ends leaves does not depend on its record's last changes. -/
theorem ends_base {o : Host.Outcome State Fault Refusal} {s1 : State} {f : Slot → Slot} {e : Ending}
    {fa : Option Addr} (hq : s1 = { s.modSlot p k f with progress := s1.progress, pass := s1.pass })
    (h : s1.ends p k sl e fa o) : s.ends p k sl e fa o := by
  obtain ⟨t, ht, e⟩ := h
  exact ⟨t, endsService_base hq ht, e⟩

/-- What a READ that drains leaves does not depend on its record's last changes. -/
theorem draining_base {s1 : State} {f : Slot → Slot} {e : Ending} {fa : Option Addr}
    (hq : s1 = { s.modSlot p k f with progress := s1.progress, pass := s1.pass })
    (h : s1.beginsDraining t p k sl e fa) : s.beginsDraining t p k sl e fa := by
  unfold State.beginsDraining at *
  rw [h]
  have hf : ∀ f', (s.modSlot p k f).modSlot p k (fun _ => f') = s.modSlot p k fun _ => f' := by
    intro f'
    cases p <;> simp [State.modSlot, State.onQueue, PerPort.modify, Queue.put, Function.comp_def]
  rw [hq]
  show _ = ({ s.modSlot p k _ with progress := none, pass := none, pos := _, banks := _ } : State)
  rw [← hf]
  unfold State.marginCounted
  generalize sl.prompt = xx
  generalize sl.dueTick = yy
  cases xx <;> cases yy <;> rfl

/-- A boundary of a data order whose own work has ended with a result (R111). -/
theorem boundary_result {pos : Nat} {o : Host.Outcome State Fault Refusal} {ch : Bool} {r : Result}
    (hs : s.serviceLaw) (h : s.inService = some (p, k, sl)) (hg : s.progress = some g)
    (ho : o = State.answers (s.dataBoundary p k pos (some r) ch)) :
    s.stops p k sl o ∧ (sl.withdrawn = false → (s.ports.get p).presence ≠ .lost →
      o = State.answers (s.endWith p k r)) := by
  obtain ⟨h1, h2⟩ := inService_some h
  unfold State.dataBoundary at ho
  rw [h1, hg] at ho; dsimp only at ho
  refine ⟨stops_of hs h (fun hw => by rw [ho, if_pos hw])
    (fun hw hl => by rw [ho, if_neg (by simp [hw]), if_pos (by simp [State.lost, hl])]), fun hw hl => ?_⟩
  rw [ho, if_neg (by simp [hw]), if_neg (by simp [State.lost, hl])]

/-- A boundary of a data order whose last sector is done (R111). -/
theorem boundary_done {pos : Nat} {o : Host.Outcome State Fault Refusal} {ch : Bool}
    (hs : s.serviceLaw) (h : s.inService = some (p, k, sl)) (hg : s.progress = some g)
    (hn : sl.n ≤ g.next) (ho : o = State.answers (s.dataBoundary p k pos none ch)) :
    s.stops p k sl o ∧ (sl.withdrawn = false → (s.ports.get p).presence ≠ .lost →
      o = State.answers (s.endWith p k { ending := .done })) := by
  obtain ⟨h1, h2⟩ := inService_some h
  unfold State.dataBoundary at ho
  rw [h1, hg] at ho; dsimp only at ho
  refine ⟨stops_of hs h (fun hw => by rw [ho, if_pos hw])
    (fun hw hl => by rw [ho, if_neg (by simp [hw]), if_pos (by simp [State.lost, hl])]), fun hw hl => ?_⟩
  rw [ho, if_neg (by simp [hw]), if_neg (by simp [State.lost, hl]), if_pos hn]

/-- A READ that ends with blocks to be taken. -/
theorem endWith_drains (hs : s.serviceLaw) (h : s.inService = some (p, k, sl)) (r : Result)
    (hk : sl.kind = .read) (hr : r.ending = .done ∨ r.ending = .readFault) (hf : s.ownedIn p k .fullForHost ≠ [])
    (hsec : r.sectors = none) (hbody : r.body = none) :
    ∃ t, (if r.ending = .readFault then (s.latch .sectorLost).countBoth .sectorsLost else s).beginsDraining t p k sl
        r.ending r.fault ∧ s.endWith p k r = (t, .released) := by
  obtain ⟨h1, h2⟩ := inService_some h
  unfold State.endWith
  rw [hsec, hbody]
  dsimp only [Option.getD_none]
  generalize hs1 : s.modSlot p k (fun x => { x with sectorsDone := x.sectorsDone, body := x.body }) = s1
  have e1 : s1 = s.modSlot p k fun _ => sl := by rw [← hs1]; exact mod_eq h1 rfl
  obtain ⟨z1, z2⟩ := modSlot_service (u := s) (f := fun _ => sl) hs h rfl h2
  rw [← e1] at z1 z2
  have z2 : s1.inService = some (p, k, sl) := z2
  generalize hs2 : (if r.ending = .readFault then (s1.latch .sectorLost).countBoth .sectorsLost else s1) = s2
  have q2 : s2.queues = s1.queues := by rw [← hs2]; split <;> rfl
  have i2 : s2.inService = some (p, k, sl) := (inService_of_queues q2).trans z2
  rw [(inService_some i2).1]; dsimp only
  have hb : s2.buffers = s.buffers := by rw [← hs2, e1]; split <;> rfl
  refine ⟨s2.startDraining p k r.ending r.fault,
    draining_base (s1 := s2) (f := fun _ => sl) ?_ (startDraining_spec i2), ?_⟩
  · rw [← hs2, e1]; split <;> rfl
  · unfold State.endDiskPhase
    rw [if_pos ⟨hk, hr, by unfold State.ownedIn State.owned at *; rw [hb]; exact hf⟩]


/-- An order that ends READ FAULT with no block left to be taken (R115). -/
theorem endWith_readFault (hs : s.serviceLaw) (h : s.inService = some (p, k, sl)) (fa : Option Addr)
    (hd : sl.kind = .read → s.ownedIn p k .fullForHost = []) :
    ∃ t, ((s.latch .sectorLost).countBoth .sectorsLost).endsService t p k sl .readFault fa
      ∧ s.endWith p k { ending := .readFault, fault := fa } = (t, .released) := by
  obtain ⟨h1, h2⟩ := inService_some h
  unfold State.endWith
  dsimp only [Option.getD_none]
  rw [if_pos rfl]
  generalize hs1 : s.modSlot p k (fun x => { x with sectorsDone := x.sectorsDone, body := x.body }) = s1
  have e1 : s1 = s.modSlot p k fun _ => sl := by rw [← hs1]; exact mod_eq h1 rfl
  obtain ⟨z1, z2⟩ := modSlot_service (u := s) (f := fun _ => sl) hs h rfl h2
  rw [← e1] at z1 z2
  have z2 : s1.inService = some (p, k, sl) := z2
  generalize hs2 : (s1.latch .sectorLost).countBoth .sectorsLost = s2
  have q2 : s2.queues = s1.queues := by rw [← hs2]; rfl
  have i2 : s2.inService = some (p, k, sl) := (inService_of_queues q2).trans z2
  rw [(inService_some i2).1]; dsimp only
  have hb : s2.buffers = s.buffers := by rw [← hs2, e1]; rfl
  refine ⟨s2.endSlot p k .readFault fa,
    endsService_base (s1 := s2) (f := fun _ => sl) ?_
      (endSlot_service (serviceLaw_of_queues z1 q2) i2), ?_⟩
  · rw [← hs2, e1]; rfl
  · unfold State.endDiskPhase
    rw [if_neg]
    rintro ⟨a, -, c⟩
    apply c
    unfold State.ownedIn State.owned at *; rw [hb]; exact hd a

end Sys2Proof.Machine
end

