-- ==== Sys2Proof/Laws/Lists.lean ====
section
/-! SUPPORT. What the searches and the small list operations of the model answer: buffers, spares, label lists, the pattern
comparison, the order lists. -/

namespace Sys2Proof.Machine

-- Every thread of the checker reserves a whole stack: these many short proofs are checked one after another.
set_option Elab.async false

variable {s t u : State} {p : Port} {k : Fin 8} {sl : Slot}

/-! ## Buffers -/

/-- The buffer that holds a sector of a WRITE (R112). -/
theorem diskBuffer_iff (s : State) (p : Port) (k : Fin 8) (i : Nat) (b : Fin 4) :
    let holds (b : Fin 4) : Prop := s.buffers[b].owner = some (p, k) ∧ s.buffers[b].state = .fullForDisk
      ∧ s.buffers[b].index = i
    s.diskBuffer p k i = some b ↔ holds b ∧ ∀ b', b' < b → ¬holds b' := by
  unfold State.diskBuffer State.ownedIn State.owned
  rw [List.filter_filter, List.find?_filter, find_buffer]
  simp [and_assoc, and_comm]

theorem diskBuffer_none (s : State) (p : Port) (k : Fin 8) (i : Nat) : s.diskBuffer p k i = none ↔
    ∀ b : Fin 4, ¬(s.buffers[b].owner = some (p, k) ∧ s.buffers[b].state = .fullForDisk ∧ s.buffers[b].index = i) := by
  unfold State.diskBuffer State.ownedIn State.owned
  rw [List.filter_filter, List.find?_filter, List.find?_eq_none]
  refine ⟨fun h b hb => h b (mem_bufferNumbers b) (by simpa using ⟨⟨hb.2.1, hb.1⟩, hb.2.2⟩), fun h b _ => ?_⟩
  simpa [and_assoc, and_comm, and_left_comm] using h b

/-! ## The label's lists -/

/-- A spare index joins the retired list in its place (R10, R148). -/
theorem insertRetired_spec : ∀ (l : List Nat) (i : Nat), l.Pairwise (· < ·) →
    (insertRetired i l).Pairwise (· < ·) ∧ ∀ y, y ∈ insertRetired i l ↔ y = i ∨ y ∈ l := by
  intro l
  induction l with
  | nil => intro i _; simp [insertRetired]
  | cons j l ih =>
    intro i h
    rw [List.pairwise_cons] at h
    obtain ⟨h1, h2⟩ := h
    obtain ⟨a, b⟩ := ih i h2
    unfold insertRetired
    split
    · next hij =>
      refine ⟨?_, by intro y; simp⟩
      rw [List.pairwise_cons, List.pairwise_cons]
      refine ⟨?_, h1, h2⟩
      intro y hy; rw [List.mem_cons] at hy; rcases hy with rfl | hy
      · exact hij
      · exact Nat.lt_trans hij (h1 y hy)
    · split
      · next hij => subst hij; exact ⟨List.pairwise_cons.mpr ⟨h1, h2⟩, by intro y; simp⟩
      · refine ⟨List.pairwise_cons.mpr ⟨?_, a⟩, ?_⟩
        · intro y hy; rcases (b y).mp hy with rfl | hy
          · omega
          · exact h1 y hy
        · intro y; rw [List.mem_cons, b, List.mem_cons]; tauto

/-- A new entry takes its place in bad-address order (R10, R148). -/
theorem insertEntry_spec : ∀ (l : List SubEntry) (x : SubEntry), l.Pairwise (fun e f => e.bad.linear < f.bad.linear) →
    (∀ e ∈ l, e.bad.linear ≠ x.bad.linear) →
    (insertEntry x l).Pairwise (fun e f => e.bad.linear < f.bad.linear) ∧ ∀ y, y ∈ insertEntry x l ↔ y = x ∨ y ∈ l := by
  intro l
  induction l with
  | nil => intro i _ _; simp [insertEntry]
  | cons j l ih =>
    intro i h hn
    rw [List.pairwise_cons] at h
    obtain ⟨h1, h2⟩ := h
    obtain ⟨a, b⟩ := ih i h2 (fun e he => hn e (List.mem_cons_of_mem _ he))
    unfold insertEntry
    split
    · next hij =>
      refine ⟨?_, by intro y; simp⟩
      rw [List.pairwise_cons, List.pairwise_cons]
      refine ⟨?_, h1, h2⟩
      intro y hy; rw [List.mem_cons] at hy; rcases hy with rfl | hy
      · exact hij
      · exact Nat.lt_trans hij (h1 y hy)
    · refine ⟨List.pairwise_cons.mpr ⟨?_, a⟩, ?_⟩
      · intro y hy; rcases (b y).mp hy with rfl | hy
        · have := hn j List.mem_cons_self; omega
        · exact h1 y hy
      · intro y; rw [List.mem_cons, b, List.mem_cons]; tauto

/-- A sector that is not listed (R12). -/
theorem lookup_none {l : List SubEntry} {x : Addr} (h : ∀ e ∈ l, e.bad ≠ x) : lookupSpare l x = none := by
  unfold lookupSpare
  rw [List.find?_eq_none.mpr (by intro e he; simpa using h e he)]; rfl

/-- A listed sector's spare (R12). -/
theorem lookup_some {l : List SubEntry} {x : Addr} {e : SubEntry} (he : e ∈ l) (hx : e.bad = x) (hu : ∀ f ∈ l, f.bad = x → f = e) :
    lookupSpare l x = some e.spare := by
  unfold lookupSpare
  cases hf : l.find? (fun e => decide (e.bad = x)) with
  | none => rw [List.find?_eq_none] at hf; exact absurd hx (by simpa using hf e he)
  | some f =>
    rw [hu f (List.mem_of_find?_eq_some hf) (by simpa using List.find?_some hf)]; rfl

theorem lookup_isSome {l : List SubEntry} {x : Addr} (h : ∃ e ∈ l, e.bad = x) : (lookupSpare l x).isSome = true := by
  unfold lookupSpare
  rw [Option.isSome_map, List.find?_isSome]
  obtain ⟨e, he, hx⟩ := h
  exact ⟨e, he, by simpa using hx⟩

/-! ## The pattern comparison -/

/-- The words that differ, and the first of them (R151, R152). -/
theorem compareWords_spec : ∀ (i : Nat) (xs ys : List Word), xs.length = ys.length →
    compareWords i xs ys = (((List.range xs.length).filter fun j => decide (xs.getD j 0 ≠ ys.getD j 0)).length,
      (((List.range xs.length).filter fun j => decide (xs.getD j 0 ≠ ys.getD j 0)).head?).map (· + i)) := by
  intro i xs
  induction xs generalizing i with
  | nil => intro ys _; cases ys <;> simp [compareWords]
  | cons x xs ih =>
    intro ys h
    cases ys with
    | nil => cases h
    | cons y ys =>
      have h' : xs.length = ys.length := by simpa using h
      have e := ih (i + 1) ys h'
      rw [List.length_cons, List.range_succ_eq_map, List.filter_cons, List.filter_map]
      simp only [List.getD_cons_zero]
      have e2 : ((fun j => decide ((x :: xs).getD j 0 ≠ (y :: ys).getD j 0)) ∘ Nat.succ)
          = fun j => decide (xs.getD j 0 ≠ ys.getD j 0) := by
        funext j; simp
      rw [e2]
      show (let r := compareWords (i + 1) xs ys; if x = y then r else (r.1 + 1, some i)) = _
      dsimp only
      rw [e]
      generalize (List.range xs.length).filter _ = l
      by_cases hxy : x = y
      · simp only [hxy, if_true, ne_eq, not_true_eq_false, decide_false, Bool.false_eq_true, if_false, List.length_map]
        rw [List.head?_map, Option.map_map]
        congr 1; congr 1; funext j; simp; omega
      · simp [hxy]

/-! ## The order list -/

/-- The oldest order with a property, with the orders older than it (R72). -/
theorem find_withOlder (f : Fin 8 → Option (Fin 8 × Slot)) (hf : ∀ j x, f j = some x → x.1 = j)
    (Q : (Fin 8 × Slot) → Bool) (o : List (Fin 8)) (older ol : List (Fin 8 × Slot)) (k : Fin 8) (sl : Slot) :
    (withOlder older (o.filterMap f)).find? (fun x => Q x.1) = some ((k, sl), ol) ↔
      ∃ l l', o = l ++ k :: l' ∧ f k = some (k, sl) ∧ Q (k, sl) = true ∧ ol = older ++ l.filterMap f
        ∧ ∀ j ∈ l, ∀ x, f j = some x → Q x = false := by
  induction o generalizing older with
  | nil => simp [withOlder]
  | cons a o ih =>
    rw [List.filterMap_cons]
    cases ha : f a with
    | none =>
      dsimp only
      rw [ih]
      constructor
      · rintro ⟨l, l', h1, h2, h3, h4, h5⟩
        refine ⟨a :: l, l', by rw [h1]; rfl, h2, h3, by rw [List.filterMap_cons, ha]; exact h4, ?_⟩
        intro j hj x hx
        rw [List.mem_cons] at hj
        rcases hj with rfl | hj
        · rw [ha] at hx; cases hx
        · exact h5 j hj x hx
      · rintro ⟨l, l', h1, h2, h3, h4, h5⟩
        cases l with
        | nil => simp at h1; rw [h1.1, h2] at ha; cases ha
        | cons b l =>
          simp at h1
          obtain ⟨rfl, h1⟩ := h1
          rw [List.filterMap_cons, ha] at h4
          exact ⟨l, l', h1, h2, h3, h4, fun j hj => h5 j (List.mem_cons_of_mem _ hj)⟩
    | some x =>
      dsimp only
      have hx := hf a x ha
      show (((x, older) :: withOlder (older ++ [x]) (o.filterMap f)).find? _) = _ ↔ _
      rw [List.find?_cons]
      by_cases hq : Q x = true
      · simp only [hq]
        constructor
        · intro h; cases h
          exact ⟨[], o, by rw [← hx]; rfl, by rw [← hx] at ha; exact ha, hq, by simp, by simp⟩
        · rintro ⟨l, l', h1, h2, h3, h4, h5⟩
          cases l with
          | nil =>
            simp at h1
            rw [h1.1, h2] at ha; cases ha; simp at h4; rw [h4]
          | cons b l =>
            simp at h1
            have := h5 b List.mem_cons_self x (by rw [← h1.1]; exact ha)
            rw [hq] at this; cases this
      · have hq' : Q x = false := by simpa using hq
        simp only [hq']
        rw [ih]
        constructor
        · rintro ⟨l, l', h1, h2, h3, h4, h5⟩
          refine ⟨a :: l, l', by rw [h1]; rfl, h2, h3, by rw [List.filterMap_cons, ha, h4]; simp, ?_⟩
          intro j hj y hy
          rw [List.mem_cons] at hj
          rcases hj with rfl | hj
          · rw [ha] at hy; cases hy; exact hq'
          · exact h5 j hj y hy
        · rintro ⟨l, l', h1, h2, h3, h4, h5⟩
          cases l with
          | nil => simp at h1; rw [h1.1, h2] at ha; cases ha; rw [hq'] at h3; cases h3
          | cons b l =>
            simp at h1
            obtain ⟨rfl, h1⟩ := h1
            rw [List.filterMap_cons, ha] at h4
            exact ⟨l, l', h1, h2, h3, by rw [h4]; simp, fun j hj => h5 j (List.mem_cons_of_mem _ hj)⟩

/-- The one order handed the actuator is the one IN SERVICE (R91). -/
theorem one_inService (h : s.slot p k = some sl) (hi : s.inService = none) (sd : Sched)
    (ht : t = { s.modSlot p k (fun _ => { sl with state := .inService }) with sched := sd }) :
    t.serviceLaw ∧ t.inService = some (p, k, { sl with state := .inService }) := by
  have e : ∀ q j, t.slot q j = if (q, j) = (p, k) then some { sl with state := .inService } else s.slot q j := by
    intro q j
    rw [ht]
    by_cases hh : (q, j) = (p, k)
    · cases hh; rw [if_pos rfl]; exact slot_mod h
    · rw [if_neg hh]; exact (slot_modSlot ..).trans (if_neg (by simpa using hh))
  have others : ∀ q j y, (q, j) ≠ (p, k) → t.slot q j = some y → y.state ≠ .inService := by
    intro q j y hne hy
    rw [e, if_neg hne] at hy
    exact inService_none hi q j y hy
  have h0 : ∀ q, q ≠ p → t.numbered q .inService = [] := by
    intro q hq; unfold State.numbered
    rw [List.filter_eq_nil_iff]
    intro j _
    cases hx : t.slot q j with
    | none => simp
    | some y => simpa using others q j y (by intro h; cases h; exact hq rfl) hx
  have h1 : t.numbered p .inService = [k] := by
    unfold State.numbered
    refine (List.filter_congr (q := fun j => decide (j = k)) fun j _ => ?_).trans
      ((by decide : ∀ k : Fin 8, slotNumbers.filter (fun j => decide (j = k)) = [k]) k)
    by_cases hj : j = k
    · subst hj; rw [e, if_pos rfl]; simp
    · cases hx : t.slot p j with
      | none => simp [hj]
      | some y => simpa [hj] using others p j y (by intro h; cases h; exact hj rfl) hx
  have hs : t.serviceLaw := by
    unfold State.serviceLaw
    cases p
    · rw [h1, h0 .b (by simp)]; simp
    · rw [h1, h0 .a (by simp)]; simp
  exact ⟨hs, inService_of hs (by rw [e, if_pos rfl]) rfl⟩

end Sys2Proof.Machine
end

