-- ==== Sys2Proof/Laws/Label.lean ====
section
/-! SUPPORT. The law of label values: a label as read meets it, and so does what an ASSIGN SPARE would write
(R6, R8 to R11, R147). -/

namespace Sys2Proof.Machine

-- Every thread of the checker reserves a whole stack: these many short proofs are checked one after another.
set_option Elab.async false

variable {l : Label}

/-- A list of spare indices that never names one twice holds 80 at most. -/
theorem spares_bound {l : List Nat} (hn : l.Nodup) (hb : ∀ i ∈ l, i ≤ 79) : l.length ≤ 80 := by
  have := List.Nodup.length_le_card (l := l.attach.map fun i => (⟨i.1, Nat.lt_succ_of_le (hb i.1 i.2)⟩ : Fin 80)) (by
    refine (List.nodup_attach.mpr hn).map ?_
    intro a b h; simpa [Subtype.ext_iff] using h)
  simpa using this

/-- A blank label that is not VALID meets the law (R9). -/
theorem labelLaw_blank (st : LabelState) (h : st ≠ .valid) : (Label.blank st).law :=
  ⟨fun e => absurd e h, fun _ => ⟨rfl, rfl⟩, .nil, .nil, .nil, fun _ h => (by cases h), fun _ h => (by cases h),
    fun _ h => (by cases h), Nat.zero_le _⟩

/-- A label law from its parts: the bound on the entries follows (R11). -/
theorem labelLaw_of (hg : l.gen ≠ 0) (hv : l.state = .valid) (h1 : l.table.Pairwise (fun e f =>
    e.bad.linear < f.bad.linear))
    (h2 : l.retired.Pairwise (· < ·)) (h3 : (l.table.map (·.spare)).Nodup) (h4 : ∀ e ∈ l.table, e.spare ∉ l.retired)
    (h5 : ∀ e ∈ l.table, e.bad.cyl ≤ 383 ∧ e.bad.head ≤ 3 ∧ e.bad.sector ≤ 19 ∧ e.spare ≤ 79)
    (h6 : ∀ i ∈ l.retired, i ≤ 79) : l.law := by
  refine ⟨fun _ => hg, fun h => absurd hv h, h1, h2, h3, h4, h5, h6, ?_⟩
  have := spares_bound (l := l.table.map (·.spare) ++ l.retired) (by
      refine List.nodup_append.mpr ⟨h3, h2.imp (fun h => Nat.ne_of_lt h), ?_⟩
      intro i hi j hj e
      obtain ⟨x, hx, rfl⟩ := List.mem_map.mp hi
      exact h4 x hx (e ▸ hj)) (by
      intro i hi
      rcases List.mem_append.mp hi with hi | hi
      · obtain ⟨x, hx, rfl⟩ := List.mem_map.mp hi; exact (h5 x hx).2.2.2
      · exact h6 i hi)
  simpa using this

/-- Sectors of the disk with one linear address are one. -/
theorem linear_inj {x y : Addr} (hx : x.head ≤ 3 ∧ x.sector ≤ 19) (hy : y.head ≤ 3 ∧ y.sector ≤ 19)
    (h : x.linear = y.linear) : x = y := by
  unfold Addr.linear at h
  obtain ⟨a, b, c⟩ := x; obtain ⟨d, e, f⟩ := y
  simp only at h hx hy
  have : a = d := by omega
  have : b = e := by omega
  have : c = f := by omega
  subst_vars; rfl

/-- A generation is never 0 (R6). -/
theorem nextGen_pos (g : Word) : nextGen g ≠ 0 := by
  unfold nextGen; split
  · decide
  · next h => intro e; apply h; bv_omega

/-! ## Reading a label -/

/-- The distinctness test is that no value repeats. -/
theorem distinct_iff : ∀ l : List Nat, distinct l = true ↔ l.Nodup := by
  intro l
  induction l with
  | nil => simp [distinct]
  | cons x l ih => simp [distinct, ih]

/-- An insertion only reorders. -/
theorem insertEntry_perm (e : SubEntry) : ∀ l, (insertEntry e l).Perm (e :: l) := by
  intro l
  induction l with
  | nil => exact .refl _
  | cons f l ih =>
    unfold insertEntry; split
    · exact .refl _
    · exact (ih.cons f).trans (.swap _ _ _)

/-- Repeated insertion only reorders. -/
theorem foldEntries : ∀ (l t : List SubEntry), (l.foldl (fun t x => insertEntry x t) t).Perm (l.reverse ++ t) := by
  intro l
  induction l with
  | nil => intro t; exact .refl _
  | cons x l ih =>
    intro t
    rw [List.foldl_cons, List.reverse_cons, List.append_assoc]
    exact (ih _).trans ((insertEntry_perm x t).append_left _)

/-- Repeated insertion of distinct bad addresses keeps the table ascending. -/
theorem sortedEntries : ∀ (l t : List SubEntry), t.Pairwise (fun e f => e.bad.linear < f.bad.linear) →
    ((l.map (·.bad.linear)) ++ t.map (·.bad.linear)).Nodup →
    (l.foldl (fun t x => insertEntry x t) t).Pairwise (fun e f => e.bad.linear < f.bad.linear) := by
  intro l
  induction l with
  | nil => intro t h _; exact h
  | cons x l ih =>
    intro t h hn
    rw [List.foldl_cons]
    simp only [List.map_cons, List.cons_append, List.nodup_cons, List.mem_append, List.mem_map, not_or, not_exists,
      not_and] at hn
    obtain ⟨⟨hn1, hn2⟩, hn3⟩ := hn
    refine ih _ (insertEntry_spec t x h fun e he => hn2 e he).1 ?_
    have p1 := (insertEntry_perm x t).map (·.bad.linear)
    refine (List.Perm.nodup_iff (p1.append_left _)).mpr ?_
    rw [List.map_cons]
    refine (List.Perm.nodup_iff List.perm_middle).mpr ?_
    rw [List.nodup_cons]
    refine ⟨?_, hn3⟩
    simp only [List.mem_append, List.mem_map, not_or, not_exists, not_and]
    exact ⟨hn1, hn2⟩

/-- Repeated insertion keeps the retired list ascending and holds each index once. -/
theorem foldRetired : ∀ (l t : List Nat), t.Pairwise (· < ·) →
    (l.foldl (fun t x => insertRetired x t) t).Pairwise (· < ·)
      ∧ ∀ i, i ∈ l.foldl (fun t x => insertRetired x t) t ↔ i ∈ l ∨ i ∈ t := by
  intro l
  induction l with
  | nil => intro t h; exact ⟨h, fun i => by simp⟩
  | cons x l ih =>
    intro t h
    obtain ⟨a, b⟩ := insertRetired_spec t x h
    obtain ⟨c, d⟩ := ih _ a
    refine ⟨c, fun i => ?_⟩
    rw [List.foldl_cons, d, b, List.mem_cons]; tauto

/-- A label as judged meets its law (R8, R9). -/
theorem judgeLabel_law (ws : List Word) : (judgeLabel ws).law := by
  unfold judgeLabel
  dsimp only
  split
  · exact labelLaw_blank _ (by decide)
  split
  · exact labelLaw_blank _ (by decide)
  split
  swap
  · exact labelLaw_blank _ (by decide)
  next h =>
  generalize subEntriesOf _ _ = t at *
  generalize (List.take _ _).map _ = r at *
  unfold labelSound at h
  simp only [Bool.and_eq_true, decide_eq_true_eq, List.all_eq_true, distinct_iff, Bool.not_eq_true',
      List.contains_eq_mem,
    decide_eq_false_iff_not] at h
  obtain ⟨⟨⟨⟨⟨⟨⟨h1, h2⟩, h3⟩, h4⟩, h5⟩, h6⟩, h7⟩, h8⟩ := h
  have pt := foldEntries t []
  rw [List.append_nil] at pt
  have mt : ∀ e, e ∈ t.foldl (fun t x => insertEntry x t) [] ↔ e ∈ t := fun e => by rw [pt.mem_iff, List.mem_reverse]
  obtain ⟨ra, rb⟩ := foldRetired r [] .nil
  have rb : ∀ i, i ∈ r.foldl (fun t x => insertRetired x t) [] ↔ i ∈ r := fun i => by rw [rb]; simp
  refine labelLaw_of h1 rfl (sortedEntries t [] .nil (by simpa using h5)) ra ?_ ?_ ?_ ?_
  · refine (List.Perm.nodup_iff (pt.map _)).mpr ?_
    rw [List.map_reverse, List.nodup_reverse]; exact h6
  · intro e he; rw [mt] at he; rw [rb]; exact h8 e he
  · intro e he; rw [mt] at he
    have := h2 e he; have := h3 e he
    refine ⟨by tauto, by tauto, by tauto, by omega⟩
  · intro i hi; rw [rb] at hi; have := h4 i hi; omega

/-! ## The label an ASSIGN SPARE would write -/

/-- A spare found is that of an entry. -/
theorem lookup_mem {t : List SubEntry} {x : Addr} {j : Nat} (h : lookupSpare t x = some j) :
    ∃ e ∈ t, e.bad = x ∧ e.spare = j := by
  unfold lookupSpare at h
  obtain ⟨e, he, rfl⟩ := Option.map_eq_some_iff.mp h
  exact ⟨e, List.mem_of_find?_eq_some he, by simpa using List.find?_some he, rfl⟩

/-- The lowest free spare is one of the disk's, named by no entry and not retired (R4). -/
theorem lowestFree_spec {t : List SubEntry} {r : List Nat} {i : Nat} (h : lowestFree t r = some i) :
    i ≤ 79 ∧ (∀ e ∈ t, e.spare ≠ i) ∧ i ∉ r := by
  unfold lowestFree at h
  rw [find_range] at h
  obtain ⟨h1, h2, -⟩ := h
  unfold spareFree at h2
  simp only [Bool.and_eq_true, List.all_eq_true, Bool.not_eq_true', decide_eq_false_iff_not, List.contains_eq_mem] at h2
  exact ⟨by omega, h2.1, h2.2⟩

/-- A table in which the entries with a property name another spare, none that another entry names. -/
theorem respared_law {t : List SubEntry} {P : SubEntry → Prop} [DecidablePred P] {i : Nat}
    (h3 : (t.map (·.spare)).Nodup) (hi : ∀ e ∈ t, e.spare ≠ i) (hP : ∀ e ∈ t, ∀ f ∈ t, P e → P f → e.spare = f.spare) :
    ((t.map fun e => if P e then { e with spare := i } else e).map (·.spare)).Nodup := by
  induction t with
  | nil => exact .nil
  | cons e t ih =>
    simp only [List.map_cons, List.nodup_cons, List.mem_map, not_exists, not_and] at h3 ⊢
    refine ⟨?_, ih h3.2 (fun f hf => hi f (List.mem_cons_of_mem _ hf))
      fun a ha b hb => hP a (List.mem_cons_of_mem _ ha) b (List.mem_cons_of_mem _ hb)⟩
    rintro f ⟨g, hg, rfl⟩
    by_cases he : P e <;> by_cases hg' : P g <;> simp only [he, hg', if_true, if_false] <;> intro x
    · exact h3.1 g hg (hP g (List.mem_cons_of_mem _ hg) e List.mem_cons_self hg' he)
    · exact hi g (List.mem_cons_of_mem _ hg) x
    · exact hi e List.mem_cons_self x.symm
    · exact h3.1 g hg x

/-- What an ASSIGN SPARE would write, its target classified by the held label and its new spare free, meets the law. -/
theorem assigned_law {x : Addr} {c : AssignCase} {i : Nat} (hl : l.law)
    (hx : x.cyl ≤ 384 ∧ x.head ≤ 3 ∧ x.sector ≤ 19) (hc : c = classifyTarget l x)
    (hi : c.takesSpare = true → i ≤ 79 ∧ (∀ e ∈ l.table, e.spare ≠ i) ∧ i ∉ l.retired) :
    ({ l with state := .valid, gen := nextGen l.gen, table := (assignChange l x c i).1,
              retired := (assignChange l x c i).2 } : Label).law := by
  obtain ⟨g1, -, g3, g4, g5, g6, g7, g8, -⟩ := hl
  have hj : x.head * 20 + x.sector ≤ 79 := by omega
  have keep : ∀ (P : SubEntry → Prop) [DecidablePred P], (l.table.map fun e => if P e then { e with spare :=
      i } else e).Pairwise
      (fun e f => e.bad.linear < f.bad.linear) := by
    intro P _
    rw [List.pairwise_map]
    refine g3.imp ?_
    intro e f h; split <;> split <;> exact h
  have mem : ∀ (P : SubEntry → Prop) [DecidablePred P], ∀ e ∈ (l.table.map fun e => if P e then { e with spare :=
      i } else e),
      ∃ f ∈ l.table, e.bad = f.bad ∧ ((P f ∧ e.spare = i) ∨ (¬P f ∧ e.spare = f.spare)) := by
    intro P _ e he
    obtain ⟨f, hf, rfl⟩ := List.mem_map.mp he
    refine ⟨f, hf, ?_⟩
    by_cases hP : P f
    · rw [if_pos hP]; exact ⟨rfl, .inl ⟨hP, rfl⟩⟩
    · rw [if_neg hP]; exact ⟨rfl, .inr ⟨hP, rfl⟩⟩
  have respare : ∀ (P : SubEntry → Prop) [DecidablePred P] (j : Nat), j ≤ 79 → (i ≤ 79 ∧ (∀ e ∈ l.table,
      e.spare ≠ i) ∧ i ∉ l.retired) →
      (∀ e ∈ l.table, (P e ↔ e.spare = j)) → (∃ e ∈ l.table, e.spare = j) →
      ({ l with state := .valid, gen := nextGen l.gen, table := l.table.map fun e => if P e then { e with spare :=
          i } else e,
                retired := insertRetired j l.retired } : Label).law := by
    intro P _ j hj' hi hP hex
    obtain ⟨r1, r2⟩ := insertRetired_spec l.retired j g4
    refine labelLaw_of (nextGen_pos _) rfl (keep P) r1 (respared_law g5 hi.2.1 fun e he f hf h h' => by
      rw [(hP e he).mp h, (hP f hf).mp h']) ?_ ?_ ?_
    · intro e he
      obtain ⟨f, hf, -, ⟨-, h⟩ | ⟨h, h'⟩⟩ := mem P e he <;> rw [r2, not_or]
      · rw [h]; obtain ⟨e', he', rfl⟩ := hex
        exact ⟨fun y => hi.2.1 e' he' y.symm, hi.2.2⟩
      · rw [h']; exact ⟨fun y => h ((hP f hf).mpr y), g6 f hf⟩
    · intro e he
      obtain ⟨f, hf, h, h'⟩ := mem P e he
      have := g7 f hf
      rw [h]
      refine ⟨this.1, this.2.1, this.2.2.1, ?_⟩
      rcases h' with ⟨-, h'⟩ | ⟨-, h'⟩ <;> rw [h']
      · exact hi.1
      · exact this.2.2.2
    · intro n hn; rw [r2] at hn; rcases hn with rfl | hn
      · exact hj'
      · exact g8 n hn
  unfold classifyTarget at hc
  dsimp only at hc
  split at hc
  · next h384 =>
    split at hc
    · subst hc; exact labelLaw_of (nextGen_pos _) rfl g3 g4 g5 g6 g7 g8
    · next hr =>
      split at hc
      · next hs =>
        subst hc
        simp only [List.any_eq_true, decide_eq_true_eq] at hs
        exact respare (fun e => e.spare = x.head * 20 + x.sector) _ hj (hi rfl) (fun _ _ => Iff.rfl) hs
      · next hs =>
        subst hc
        simp only [List.any_eq_true, decide_eq_true_eq, not_exists, not_and] at hs
        obtain ⟨r1, r2⟩ := insertRetired_spec l.retired (x.head * 20 + x.sector) g4
        refine labelLaw_of (nextGen_pos _) rfl g3 r1 g5 ?_ g7 ?_
        · intro e he; show e.spare ∉ insertRetired _ _; rw [r2, not_or]; exact ⟨fun h => hs e he h, g6 e he⟩
        · intro n hn
          have hn : n ∈ insertRetired (x.head * 20 + x.sector) l.retired := hn
          rw [r2] at hn; rcases hn with rfl | hn
          · exact hj
          · exact g8 n hn
  · next h384 =>
    split at hc
    · next hs =>
      subst hc
      obtain ⟨j, hj'⟩ := Option.isSome_iff_exists.mp hs
      obtain ⟨e, he, hb, hsp⟩ := lookup_mem hj'
      have uniq : ∀ f ∈ l.table, f.bad = x → f = e := by
        intro f hf hfx
        have nd : (l.table.map (·.bad.linear)).Nodup := List.pairwise_map.mpr (g3.imp fun h => Nat.ne_of_lt h)
        exact List.inj_on_of_nodup_map nd hf he (by rw [hb, hfx])
      have := respare (fun f => f.bad = x) j (by rw [← hsp]; exact (g7 e he).2.2.2) (hi rfl) (fun f hf => by
        constructor
        · intro h; rw [uniq f hf h]; exact hsp
        · intro h
          have h' : f = e := List.inj_on_of_nodup_map g5 hf he (h.trans hsp.symm)
          rw [h']; exact hb) ⟨e, he, hsp⟩
      have hw : (lookupSpare l.table x).getD 0 = j := by rw [hj']; rfl
      show Label.law { l with
        state := .valid, gen := _, table := _, retired := insertRetired ((lookupSpare l.table x).getD 0) l.retired }
      rw [hw]; exact this
    · next hs =>
      subst hc
      have hno : ∀ e ∈ l.table, e.bad.linear ≠ x.linear := by
        intro e he h
        have h1 := g7 e he
        have := linear_inj ⟨h1.2.1, h1.2.2.1⟩ hx.2 h
        exact hs (lookup_isSome ⟨e, he, this⟩)
      obtain ⟨t1, t2⟩ := insertEntry_spec l.table ⟨x, i⟩ g3 hno
      have hi := hi rfl
      refine labelLaw_of (nextGen_pos _) rfl t1 g4 ?_ ?_ ?_ g8
      · refine (List.Perm.nodup_iff ((insertEntry_perm ⟨x, i⟩ l.table).map _)).mpr ?_
        rw [List.map_cons, List.nodup_cons]
        refine ⟨?_, g5⟩
        intro h; obtain ⟨e, he, h⟩ := List.mem_map.mp h
        exact hi.2.1 e he h
      · intro e he; rcases (t2 e).mp he with rfl | he
        · exact hi.2.2
        · exact g6 e he
      · intro e he; rcases (t2 e).mp he with rfl | he
        · exact ⟨by show x.cyl ≤ 383; omega, hx.2.1, hx.2.2, hi.1⟩
        · exact g7 e he

end Sys2Proof.Machine
end

