-- ==== Sys2Proof/Laws/Calm.lean ====
section
/-! SUPPORT. Operations that are calm for the label: they change neither the held label nor what an order in service would
write, and keep every law of it. -/

namespace Sys2Proof.Machine

-- Every thread of the checker reserves a whole stack: these many short proofs are checked one after another.
set_option Elab.async false

variable {s t u : State} {p : Port} {k : Fin 8} {sl : Slot}

/-! ## Records that stay as an order in service left them -/

/-- The classification that a slot holds (R147). -/
def Maint.case : Maint → Option (AssignCase × Option Nat)
  | .assign c i _ => some (c, i)
  | _ => Option.none

/-- A record keeps what it would write: its parameters, its start, its kind and its classification; its state stays, or
is one in which it waits no more. -/
structure Slot.Near (x y : Slot) : Prop where
  params : y.params = x.params
  start : y.start = x.start
  kind : y.kind = x.kind
  case : y.maint.case = x.maint.case
  state : y.state = x.state ∨ y.state = .draining ∨ y.state = .done

theorem Slot.Near.refl (x : Slot) : x.Near x := ⟨rfl, rfl, rfl, rfl, .inl rfl⟩

theorem Slot.Near.trans {x y z : Slot} (h : x.Near y) (h' : y.Near z) : x.Near z :=
  ⟨h'.params.trans h.params, h'.start.trans h.start, h'.kind.trans h.kind, h'.case.trans h.case, by
    rcases h'.state with e | e
    · rw [e]; exact h.state
    · exact .inr e⟩

/-- What an order would write rests on its parameters and its classification alone. -/
theorem labelToBe_case {x y : Slot} (h : y.params = x.params) (hc : y.maint.case = x.maint.case) (l : Label) :
    y.labelToBe l = x.labelToBe l := by
  unfold Slot.labelToBe
  rw [h]
  cases x.params <;> try rfl
  all_goals
    cases hx : x.maint <;> cases hy : y.maint <;> rw [hx, hy] at hc <;> simp_all [Maint.case]

/-- A near record keeps the law of an ASSIGN SPARE. -/
theorem Slot.Near.law {x y : Slot} (h : x.Near y) (hx : x.assignLaw) : y.assignLaw := by
  refine ⟨fun a ha => by rw [h.start]; exact hx.1 a (h.params ▸ ha), fun c i w hm => ?_⟩
  have hc := h.case
  rw [hm] at hc
  cases hxm : x.maint with
  | assign c' i' w' =>
    rw [hxm] at hc
    have hc : (some (c, i) : Option (AssignCase × Option Nat)) = some (c', i') := hc
    simp only [Option.some.injEq, Prod.mk.injEq] at hc
    obtain ⟨rfl, rfl⟩ := hc
    obtain ⟨h1, h2, h3, h4, h5⟩ := hx.2 _ _ _ hxm
    refine ⟨h.kind.trans h1, ?_, ?_, h4, fun e a ha => h5 e a (h.params ▸ ha)⟩ <;>
      · rcases h.state with e | e | e <;> rw [e] <;> first | assumption | decide
  | none => rw [hxm] at hc; cases hc
  | test => rw [hxm] at hc; cases hc

/-- What changes no label, no drive state but between READY and DEGRADED, begins no label read, and leaves every record
near to what it was. -/
structure Calm (s t : State) : Prop where
  label : t.label = s.label
  drive : t.drive.state = s.drive.state ∨ (s.drive.state.serving = true ∧ t.drive.state.serving = true)
  pass : ∀ q, t.pass = some q → q.kind = .labelRead → s.pass = some q
  slot : ∀ p k y, t.slot p k = some y → ∃ x, s.slot p k = some x ∧ x.Near y

theorem Calm.refl : Calm s s := ⟨rfl, .inl rfl, fun _ h _ => h, fun _ _ y h => ⟨y, h, .refl y⟩⟩

theorem Calm.trans (h : Calm s t) (h' : Calm t u) : Calm s u := by
  refine ⟨h'.label.trans h.label, ?_, fun q hq hk => h.pass q (h'.pass q hq hk) hk, fun p k z hz => ?_⟩
  · rcases h.drive with e | e <;> rcases h'.drive with e' | e'
    · exact .inl (e'.trans e)
    · exact .inr ⟨by rw [← e]; exact e'.1, e'.2⟩
    · exact .inr ⟨e.1, by rw [e']; exact e.2⟩
    · exact .inr ⟨e.1, e'.2⟩
  · obtain ⟨y, hy, n⟩ := h'.slot p k z hz
    obtain ⟨x, hx, m⟩ := h.slot p k y hy
    exact ⟨x, hx, m.trans n⟩

/-- At most one order is IN SERVICE, and the laws of the label and of the orders that write it hold. -/
structure Lawful (s : State) : Prop where
  one : s.serviceLaw
  label : s.labelLaw
  slot : ∀ p k sl, s.slot p k = some sl → sl.assignLaw
  served : ∀ p k sl, s.slot p k = some sl → sl.state = .inService → s.drive.state.serving = true ∧
      (sl.labelToBe s.label).law
  pass : ∀ q, s.pass = some q → q.kind = .labelRead → s.drive.state = .labelRead

/-- Disk orders are served in READY and DEGRADED alone. -/
theorem serving_iff (d : DriveState) : d.serving = true ↔ d = .ready ∨ d = .degraded :=
    by cases d <;> simp [DriveState.serving]

/-- The laws together. -/
theorem lawful_iff : Lawful s ↔ s.serviceLaw ∧ s.labelLaw ∧ s.assignLaw :=
  ⟨fun h => ⟨h.one, h.label, h.slot, fun p k sl a b => ⟨(serving_iff _).mp (h.served p k sl a b).1,
      (h.served p k sl a b).2⟩, h.pass⟩,
    fun h => ⟨h.1, h.2.1, h.2.2.1, fun p k sl a b => ⟨(serving_iff _).mpr (h.2.2.2.1 p k sl a b).1,
        (h.2.2.2.1 p k sl a b).2⟩, h.2.2.2.2⟩⟩

/-- At most one order is IN SERVICE where no two are. -/
theorem service_of_unique (h : ∀ p k x q j y, s.slot p k = some x → x.state = .inService → s.slot q j = some y →
    y.state = .inService → (p, k) = (q, j)) : s.serviceLaw := by
  have nd : ∀ p, (s.numbered p .inService).Nodup := fun p => List.Nodup.filter _ (by decide)
  have mem : ∀ p k, k ∈ s.numbered p .inService → ∃ x, s.slot p k = some x ∧ x.state = .inService := fun p k h =>
      mem_numbered.mp h
  unfold State.serviceLaw
  have two : ∀ p x y l, s.numbered p .inService ≠ x :: y :: l := by
    intro p x y l e
    have n := nd p; rw [e] at n
    obtain ⟨u, hu, hus⟩ := mem p x (by rw [e]; simp)
    obtain ⟨v, hv, hvs⟩ := mem p y (by rw [e]; simp)
    have e' := h _ _ _ _ _ _ hu hus hv hvs
    simp at e'; subst e'; simp at n
  match ha : s.numbered .a .inService, hb : s.numbered .b .inService with
  | [], [] => simp
  | [_], [] => simp
  | [], [_] => simp
  | x :: y :: l, _ => exact absurd ha (two _ _ _ _)
  | _, x :: y :: l => exact absurd hb (two _ _ _ _)
  | x :: l, y :: l' =>
    obtain ⟨u, hu, hus⟩ := mem .a x (by rw [ha]; simp)
    obtain ⟨v, hv, hvs⟩ := mem .b y (by rw [hb]; simp)
    have e := h _ _ _ _ _ _ hu hus hv hvs
    simp at e

/-- Two orders IN SERVICE are one. -/
theorem Lawful.unique (h : Lawful s) {q : Port} {j : Fin 8} {x y : Slot} (hx : s.slot p k = some x) (hxs :
    x.state = .inService)
    (hy : s.slot q j = some y) (hys : y.state = .inService) : (p, k) = (q, j) := numbered_unique h.one hx hxs hy hys

theorem Slot.Near.served {x y : Slot} (h : x.Near y) (hy : y.state = .inService) : x.state = .inService := by
  rcases h.state with e | e | e <;> rw [e] at hy
  · exact hy
  · cases hy
  · cases hy

/-- A calm change keeps the laws. -/
theorem Calm.lawful (h : Calm s t) (g : Lawful s) : Lawful t := by
  refine ⟨service_of_unique fun p k x q j y hx hxs hy hys => ?_, ?_, fun p k y hy => ?_, fun p k y hy hys => ?_,
      fun q hq hk => ?_⟩
  · obtain ⟨x', hx', nx⟩ := h.slot p k x hx
    obtain ⟨y', hy', ny⟩ := h.slot q j y hy
    exact g.unique hx' (nx.served hxs) hy' (ny.served hys)
  · show t.label.law; rw [h.label]; exact g.label
  · obtain ⟨x, hx, n⟩ := h.slot p k y hy
    exact n.law (g.slot p k x hx)
  · obtain ⟨x, hx, n⟩ := h.slot p k y hy
    have := g.served p k x hx (n.served hys)
    rw [h.label, labelToBe_case n.params n.case]
    refine ⟨?_, this.2⟩
    rcases h.drive with e | e
    · rw [e]; exact this.1
    · exact e.2
  · have := g.pass q (h.pass q hq hk) hk
    rcases h.drive with e | e
    · exact e.trans this
    · rw [this] at e; exact absurd e.1 (by decide)

/-! ### Calm operations -/

variable {a : State}

/-- A change of what the laws do not read is calm. -/
theorem Calm.same (h : Calm a s) (hl : t.label = s.label := by rfl) (hd : t.drive.state = s.drive.state := by rfl)
    (hp : t.pass = s.pass := by rfl) (hq : t.queues = s.queues := by rfl) : Calm a t :=
  h.trans ⟨hl, .inl hd, fun q hq _ => hp ▸ hq, fun p k y hy => ⟨y, by rw [← slot_of_queues s t hq]; exact hy, .refl y⟩⟩

theorem Calm.onPos {f : Positioner → Positioner} (h : Calm a s) : Calm a (s.onPos f) := h.same
theorem Calm.onPort {f : PortIf → PortIf} (h : Calm a s) : Calm a (s.onPort p f) := h.same
theorem Calm.onLines {f : Lines → Lines} (h : Calm a s) : Calm a (s.onLines f) := h.same
theorem Calm.onDrive {f : Supervisor → Supervisor} (h : Calm a s) (hf : ∀ x, (f x).state = x.state := by intros; rfl) :
    Calm a (s.onDrive f) := h.same (hd := hf _)
theorem Calm.offCylinder (h : Calm a s) : Calm a { s with lines := { s.lines with onCylinder := false } } := h.same
theorem Calm.count {c : Counter} (h : Calm a s) : Calm a (s.count p c) := h.same
theorem Calm.countBoth {c : Counter} (h : Calm a s) : Calm a (s.countBoth c) := h.same
theorem Calm.latch {x : Source} (h : Calm a s) : Calm a (s.latch x) := h.same
theorem Calm.judgeAlarm (h : Calm a s) : Calm a s.judgeAlarm := h.same
theorem Calm.putBuffer {b : Fin 4} {x : Buffer} (h : Calm a s) : Calm a (s.putBuffer b x) := h.same
theorem Calm.release {P : BufState → Bool} (h : Calm a s) : Calm a (s.release p k P) := h.same
theorem Calm.withProgress {g : Option Progress} (h : Calm a s) : Calm a { s with progress := g } := h.same
theorem Calm.setProgress {n : Nat} {d : Option Nat} {st : Stage} (h : Calm a s) : Calm a (s.setProgress n d st) :=
    h.same
theorem Calm.toStage {st : Stage} (h : Calm a s) : Calm a (s.toStage st) := h.same
theorem Calm.putSector {x : Addr} {y : Sector} (h : Calm a s) : Calm a (s.putSector x y) := h.same
theorem Calm.writeData {x : Addr} {ws : List Word} (h : Calm a s) : Calm a (s.writeData x ws) := h.same

theorem Calm.noPass (h : Calm a s) : Calm a { s with pass := none } :=
  h.trans ⟨rfl, .inl rfl, fun q hq _ => (by cases hq), fun _ _ y h => ⟨y, h, .refl y⟩⟩

theorem Calm.setPass {x : PassKind} {b : Addr} {v : Verdict} {ws : List Word} (h : Calm a s) (hx : x ≠ .labelRead :=
    by simp) :
    Calm a (s.setPass x b v ws) :=
  h.trans ⟨rfl, .inl rfl, fun q hq hk => by cases hq; exact absurd hk hx, fun _ _ y h => ⟨y, h, .refl y⟩⟩

theorem Calm.modSlot {f : Slot → Slot} (h : Calm a s) (hf : ∀ x, s.slot p k = some x → x.Near (f x) := by
    intros; exact ⟨rfl, rfl, rfl, rfl, .inl rfl⟩) : Calm a (s.modSlot p k f) := by
  refine h.trans ⟨rfl, .inl rfl, fun _ h _ => h, fun q j y hy => ?_⟩
  rw [slot_modSlot] at hy
  split at hy
  · next c =>
    obtain ⟨rfl, rfl⟩ := c
    obtain ⟨x, hx, rfl⟩ := Option.map_eq_some_iff.mp hy
    exact ⟨x, hx, hf x hx⟩
  · exact ⟨y, hy, .refl y⟩

theorem Calm.onQueue {f : Queue → Queue} (h : Calm a s)
    (hf : ∀ k y, (f (s.queues.get p)).slots[k] = some y → ∃ x, s.slot p k = some x ∧ x.Near y) : Calm a
        (s.onQueue p f) := by
  refine h.trans ⟨rfl, .inl rfl, fun _ h _ => h, fun q j y hy => ?_⟩
  rw [slot_onQueue] at hy
  split at hy
  · next c => subst c; exact hf j y hy
  · exact ⟨y, hy, .refl y⟩

theorem Calm.drop (h : Calm a s) : Calm a (s.onQueue p (·.drop k)) := h.onQueue fun j y hy => by
  rw [drop_slots] at hy
  split at hy
  · cases hy
  · exact ⟨y, hy, .refl y⟩

theorem Calm.answerSlot (h : Calm a s) : Calm a (s.onQueue p (·.answer k)) := h.onQueue fun _ y hy => ⟨y, hy, .refl y⟩

theorem Calm.finish {e : Ending} {fa : Option Addr} (h : Calm a s) : Calm a (s.onQueue p fun q => q.finish k e fa) :=
  h.onQueue fun j y hy => by
    unfold Queue.finish at hy
    split at hy
    · exact ⟨y, hy, .refl y⟩
    · next x hx =>
      split at hy
      · rw [drop_slots] at hy
        split at hy
        · cases hy
        · exact ⟨y, hy, .refl y⟩
      · simp only [answer_slots, put_slots] at hy
        split at hy
        · next c => subst c; cases hy; exact ⟨x, hx, ⟨rfl, rfl, rfl, rfl, .inr (.inr rfl)⟩⟩
        · exact ⟨y, hy, .refl y⟩

theorem Calm.dropOrphan {b : Fin 4} (h : Calm a s) : Calm a (s.dropOrphan b) := by
  unfold State.dropOrphan; split
  · exact h.putBuffer
  · exact h

theorem Calm.testRequests (h : Calm a s) : Calm a s.testRequests := by
  rw [testRequests_buffers]; exact h.same

theorem Calm.leaveActuator (h : Calm a s) : Calm a (s.leaveActuator p k) := by
  unfold State.leaveActuator
  split
  · exact h
  · dsimp only
    split
    · exact (h.modSlot.count.withProgress (g := none)).noPass.onPos
        (f := fun x => { x with activity := .idle, target := none, errors := 0 })
    · exact (h.modSlot.withProgress (g := none)).noPass.onPos
        (f := fun x => { x with activity := .idle, target := none, errors := 0 })

theorem Calm.countEnding {e : Ending} (h : Calm a s) : Calm a (s.countEnding p e) := by
  unfold State.countEnding; split
  · exact h.count
  · exact h.count
  · exact h

theorem Calm.endSlot {e : Ending} {fa : Option Addr} (h : Calm a s) : Calm a (s.endSlot p k e fa) := by
  unfold State.endSlot
  split
  · exact h
  · split
    · exact h
    · dsimp only
      split
      · exact h.leaveActuator.release.countEnding.finish.testRequests
      · exact h.release.countEnding.finish.testRequests

theorem Calm.startDraining {e : Ending} {fa : Option Addr} (h : Calm a s) : Calm a (s.startDraining p k e fa) :=
  h.leaveActuator.modSlot fun _ _ => ⟨rfl, rfl, rfl, rfl, .inr (.inl rfl)⟩

theorem Calm.endDiskPhase {sl : Slot} {e : Ending} {fa : Option Addr} (h : Calm a s) :
    Calm a (s.endDiskPhase p k sl e fa) := by
  unfold State.endDiskPhase; split
  · exact h.startDraining
  · exact h.endSlot

theorem Calm.freeWithdrawn (h : Calm a s) : Calm a (s.freeWithdrawn p k) := h.leaveActuator.release.drop.testRequests

theorem Calm.foldl {α : Type} (l : List α) (f : State → α → State) (hf : ∀ s x, Calm s (f s x)) (h : Calm a s) :
    Calm a (l.foldl f s) := by
  induction l generalizing s with
  | nil => exact h
  | cons x l ih => exact ih (h.trans (hf s x))

theorem Calm.endWhere {P : Slot → Bool} {e : Ending} (h : Calm a s) : Calm a (s.endWhere p P e) := by
  unfold State.endWhere
  refine Calm.foldl _ _ (fun s k => ?_) h
  split
  · split
    · exact Calm.refl.endSlot
    · exact .refl
  · exact .refl

theorem Calm.cutPass (h : Calm a s) : Calm a s.cutPass := by
  unfold State.cutPass
  split
  · split
    · exact (h.putSector).noPass.same
    · exact h.noPass
  · exact h

theorem Calm.recheckPort (h : Calm a s) : Calm a (s.recheckPort p) := by
  unfold State.recheckPort
  refine Calm.foldl _ _ (fun s k => ?_) h
  split
  · split
    · exact Calm.refl.endSlot
    · exact .refl
  · exact .refl

theorem Calm.abandonPositioning (h : Calm a s) : Calm a s.abandonPositioning := h.same
theorem Calm.issueSeek {x : Addr} (h : Calm a s) : Calm a (s.issueSeek x) := h.same
theorem Calm.arrive {x : Addr} (h : Calm a s) : Calm a (s.arrive x) := h.same
theorem Calm.recalibrate (h : Calm a s) : Calm a s.recalibrate := h.same

theorem Calm.requestPositioning {x : Addr} (h : Calm a s) : Calm a (s.requestPositioning x) := by
  unfold State.requestPositioning; dsimp only; split
  · exact h.onPos.arrive
  · exact h.onPos.issueSeek

theorem Calm.goTo {x : Addr} (h : Calm a s) : Calm a (s.goTo x).1 := h.requestPositioning

theorem Calm.setReasons {x y : Bool} (h : Calm a s) : Calm a (s.setReasons x y) := by
  unfold State.setReasons; split
  · next hs =>
    refine h.trans ?_
    unfold State.weighReasons
    split
    · split
      · exact Calm.refl.onDrive
      · exact ⟨rfl, .inr ⟨hs, rfl⟩, fun _ h _ => h, fun _ _ y h => ⟨y, h, .refl y⟩⟩
    · exact ⟨rfl, .inr ⟨hs, rfl⟩, fun _ h _ => h, fun _ _ y h => ⟨y, h, .refl y⟩⟩
  · exact h

theorem Calm.beginData {sl : Slot} (h : Calm a s) : Calm a (s.beginData sl).1 := by
  unfold State.beginData; split
  · exact h.setProgress.testRequests.countBoth.goTo
  · exact h.setProgress.testRequests.goTo

theorem Calm.endWith {r : Result} (h : Calm a s) : Calm a (s.endWith p k r).1 := by
  unfold State.endWith
  dsimp only
  split <;> split
  · exact h.modSlot.latch.countBoth.endDiskPhase
  · exact h.modSlot.endDiskPhase
  · exact h.modSlot.latch.countBoth
  · exact h.modSlot

theorem Calm.nextSector {sl : Slot} {g : Progress} (h : Calm a s) : Calm a (s.nextSector sl g).1 := by
  unfold State.nextSector
  split
  · exact h.setProgress.countBoth.goTo
  · dsimp only; split
    · exact h.setProgress
    · exact h.setProgress.goTo

theorem Calm.maintBoundary {r : Option Result} {x : State × Agenda} (h : Calm a s)
    (e : s.maintBoundary p k r = some x) : Calm a x.1 := by
  unfold State.maintBoundary at e
  split at e
  · cases e
  · split at e
    · cases e; exact h.freeWithdrawn
    · split at e
      · cases e; exact h.endWith
      · split at e
        · cases e; exact h.endWith
        · split at e
          · cases e; exact h.endWith
          · cases e

theorem Calm.slip {b : Addr} (h : Calm a s) : Calm a (s.slip p k b).1 := h.modSlot.count.setPass

theorem Calm.endAtStart {e : Ending} {b : Addr} (h : Calm a s) : Calm a (s.endAtStart p k e b).1 := h.endWith

theorem Calm.startTest {sl : Slot} {n : Nat} {w : Bool} {r : HeaderReading} (h : Calm a s) :
    Calm a (s.startTest p k sl n w r).1 := by
  unfold State.startTest
  dsimp only
  split
  · split
    · split
      · exact h.endAtStart
      · exact h.setPass
    · exact h.setPass
  · exact h

theorem Calm.failPass {g : Progress} {e : Ending} {b : Addr} (h : Calm a s) : Calm a (s.failPass g e b).1 :=
  h.withProgress

theorem Calm.sectorDone {g : Progress} (h : Calm a s) : Calm a (s.sectorDone p k g) := h.modSlot.withProgress

theorem Calm.beginVerify (h : Calm a s) : Calm a (s.beginVerify p k) := by
  unfold State.beginVerify
  split
  · split
    · exact h.modSlot.withProgress
    · exact h
  · exact h

theorem Calm.endTestWrite {x : Pass} (h : Calm a s) : Calm a (s.endTestWrite p k x) := by
  unfold State.endTestWrite; split
  · exact h.writeData.modSlot
  · refine h.modSlot fun y _ => ?_
    split
    · next e => exact ⟨rfl, rfl, rfl, by rw [e]; rfl, .inl rfl⟩
    · exact .refl _

theorem Calm.completeTestWrite (h : Calm a s) : Calm a (s.completeTestWrite p k) := by
  unfold State.completeTestWrite; split
  · split
    · exact h.noPass.endTestWrite
    · exact h
  · exact h

theorem closeRevolution_near (sl : Slot) (st : Stage) : sl.Near (sl.closeRevolution st) := by
  unfold Slot.closeRevolution
  split
  · next e => exact ⟨rfl, rfl, rfl, by rw [e]; rfl, .inl rfl⟩
  · next e => exact ⟨rfl, rfl, rfl, by rw [e]; rfl, .inl rfl⟩
  · exact .refl _

theorem testReadSector_near (sl : Slot) (x : Pass) (ws : List Word) (b : Bool) : sl.Near
    (sl.testReadSector x ws b).1 := by
  unfold Slot.testReadSector
  split
  · next e =>
    split
    · exact ⟨rfl, rfl, rfl, by rw [e]; rfl, .inl rfl⟩
    · dsimp only
      split
      · exact ⟨rfl, rfl, rfl, by rw [e]; rfl, .inl rfl⟩
      · split <;> exact ⟨rfl, rfl, rfl, by rw [e]; rfl, .inl rfl⟩
  · exact .refl _

end Sys2Proof.Machine
end

