-- ==== Sys2Proof/Laws/Disk.lean ====
section
/-! SUPPORT. The laws of the cartridge's sectors: a read after a write, and the canonical form that every operation
keeps. -/

namespace Sys2Proof.Machine

-- Every thread of the checker reserves a whole stack: these many short proofs are checked one after another.
set_option Elab.async false

/-! ## Read after write -/

/-- A sector reads as it was last written. -/
@[simp] theorem get_put_same_sector (d : Cartridge) (n : Nat) (x : Sector) :
    d.wf = true → Cartridge.get (Cartridge.put d n x) n = x := by
  have main : ∀ (d : Cartridge) (lo : Nat), Cartridge.canonicalFrom lo d = true →
      Cartridge.get (Cartridge.put d n x) n = x := by
    intro d
    induction d with
    | nil =>
      intro lo _
      by_cases h : x = Sector.unformatted <;> simp [Cartridge.put, Cartridge.get, h]
    | cons y rest ih =>
      obtain ⟨m, y⟩ := y
      intro lo h
      simp only [Cartridge.canonicalFrom, Bool.and_eq_true, decide_eq_true_eq] at h
      have gone : ∀ (r : Cartridge) (l : Nat), n < l → Cartridge.canonicalFrom l r = true →
          Cartridge.get r n = Sector.unformatted := by
        intro r
        induction r with
        | nil => intro l _ _; rfl
        | cons z r ihr =>
          obtain ⟨a, z⟩ := z
          intro l hl hc
          simp only [Cartridge.canonicalFrom, Bool.and_eq_true, decide_eq_true_eq] at hc
          simp only [Cartridge.get, if_neg (by omega : ¬ n = a)]
          exact ihr (a + 1) (by omega) hc.2
      simp only [Cartridge.put]
      split
      · next hlt =>
        split
        · next hx =>
          simp only [Cartridge.get, if_neg (by omega : ¬ n = m)]
          rw [gone rest (m + 1) (by omega) h.2, hx]
        · simp [Cartridge.get]
      · split
        · next hm =>
          split
          · next hx => rw [gone rest (m + 1) (by omega) h.2, hx]
          · simp [Cartridge.get]
        · next hm =>
          simp only [Cartridge.get, if_neg hm]
          exact ih (m + 1) h.2
  exact main d 0

/-- A write leaves every other sector as it was. -/
theorem get_put_other_sector (d : Cartridge) (n m : Nat) (x : Sector) (h : m ≠ n) :
    Cartridge.get (Cartridge.put d n x) m = Cartridge.get d m := by
  induction d with
  | nil =>
    by_cases hx : x = Sector.unformatted <;> simp [Cartridge.put, Cartridge.get, hx, h]
  | cons y rest ih =>
    obtain ⟨a, y⟩ := y
    simp only [Cartridge.put]
    split
    · split
      · rfl
      · simp [Cartridge.get, h]
    · split
      · next hm =>
        have ha : m ≠ a := by omega
        split
        · simp [Cartridge.get, ha]
        · simp [Cartridge.get, h, ha]
      · simp only [Cartridge.get, ih]

/-! ## The canonical form -/

theorem canonical_weaken (d : Cartridge) (lo lo' : Nat) (h : lo' ≤ lo) (hd : Cartridge.canonicalFrom lo d = true) :
    Cartridge.canonicalFrom lo' d = true := by
  cases d with
  | nil => rfl
  | cons y rest =>
    obtain ⟨m, y⟩ := y
    simp only [Cartridge.canonicalFrom, Bool.and_eq_true, decide_eq_true_eq] at hd ⊢
    exact ⟨⟨by omega, hd.1.2⟩, hd.2⟩

theorem put_canonical (d : Cartridge) (lo n : Nat) (x : Sector) (hn : lo ≤ n)
    (hd : Cartridge.canonicalFrom lo d = true) : Cartridge.canonicalFrom lo (Cartridge.put d n x) = true := by
  induction d generalizing lo with
  | nil =>
    by_cases hx : x = Sector.unformatted <;> simp [Cartridge.put, Cartridge.canonicalFrom, hx, hn]
  | cons y rest ih =>
    obtain ⟨m, y⟩ := y
    simp only [Cartridge.canonicalFrom, Bool.and_eq_true, decide_eq_true_eq] at hd
    simp only [Cartridge.put]
    split
    · next hlt =>
      split
      · simp only [Cartridge.canonicalFrom, Bool.and_eq_true, decide_eq_true_eq]; exact hd
      · next hx =>
        simp only [Cartridge.canonicalFrom, Bool.and_eq_true, decide_eq_true_eq]
        exact ⟨⟨hn, by simp [hx]⟩, ⟨⟨by omega, hd.1.2⟩, hd.2⟩⟩
    · split
      · next hm =>
        split
        · exact canonical_weaken rest (m + 1) lo (by omega) hd.2
        · next hx =>
          simp only [Cartridge.canonicalFrom, Bool.and_eq_true, decide_eq_true_eq]
          exact ⟨⟨hn, by simp [hx]⟩, hm ▸ hd.2⟩
      · next hm =>
        simp only [Cartridge.canonicalFrom, Bool.and_eq_true, decide_eq_true_eq]
        exact ⟨hd.1, ih (m + 1) (by omega) hd.2⟩

/-- A write keeps the canonical form. -/
theorem put_wf (d : Cartridge) (n : Nat) (x : Sector) (hd : d.wf = true) : (Cartridge.put d n x).wf = true :=
  put_canonical d 0 n x (Nat.zero_le n) hd

/-- A cartridge taken from any listing is in canonical form. -/
theorem ofList_wf (l : Cartridge) : (Cartridge.ofList l).wf = true := by
  have main : ∀ (l d : Cartridge), d.wf = true →
      (l.foldl (fun d x => Cartridge.put d x.1 { x.2 with data := fit256 x.2.data }) d).wf = true := by
    intro l
    induction l with
    | nil => intro d h; exact h
    | cons x l ih => intro d h; exact ih _ (put_wf d _ _ h)
  exact main l [] rfl

/-- The cartridge of the reset state is in canonical form. -/
theorem reset_disk_wf : Cartridge.wf State.reset.disk = true := rfl

theorem putSector_wf (s : State) (x : Addr) (y : Sector) (h : s.disk.wf = true) : (s.putSector x y).disk.wf = true :=
  put_wf _ _ _ h

theorem writeData_wf (s : State) (x : Addr) (ws : List Word) (h : s.disk.wf = true) :
    (s.writeData x ws).disk.wf = true := put_wf _ _ _ h

theorem cutPass_wf (s : State) (h : s.disk.wf = true) : s.cutPass.disk.wf = true := by
  unfold State.cutPass
  split
  · split
    · exact put_wf _ _ _ h
    · exact h
  · exact h

theorem exchange_wf (s : State) (c : Option Cartridge) (h : s.disk.wf = true) : (s.exchange c).disk.wf = true := by
  cases c with
  | none => exact h
  | some c =>
    unfold State.exchange
    dsimp only
    split
    · exact ofList_wf c
    · exact h

/-- The cartridge in place stays while the drive is neither EMPTY nor SPINNING DOWN (R14; assumption 20). -/
theorem exchange_kept (s : State) (c : Option Cartridge) (h : s.drive.state ≠ .empty ∧ s.drive.state ≠ .spinningDown) :
    s.exchange c = s := by
  cases c with
  | none => rfl
  | some c => exact if_neg fun h' => h'.elim h.1 h.2

/-! ## Sectors -/

/-- The data field that a write leaves passes its check (R2, R3). -/
theorem withData_passes (sec : Sector) (ws : List Word) : (sec.withData ws).dCheck = crc (sec.withData ws).data := rfl

/-- The data field that a cut write leaves fails its check (R2). -/
theorem cut_fails (sec : Sector) (n : Nat) : (sec.cut n).dCheck ≠ crc (sec.cut n).data := by
  have flip : ∀ x : Word, ~~~x ≠ x := by
    intro x h
    have := congrArg (·.getLsbD 0) h
    simp at this
  simp only [Sector.cut, cutField]
  split
  · next h => rw [← h]; exact flip _
  · next h => exact h

/-- A cut write leaves the header as it was (R2). -/
theorem cut_header (sec : Sector) (n : Nat) :
    (sec.cut n).hCyl = sec.hCyl ∧ (sec.cut n).hHead = sec.hHead ∧ (sec.cut n).hSector = sec.hSector
      ∧ (sec.cut n).hCheck = sec.hCheck := ⟨rfl, rfl, rfl, rfl⟩

end Sys2Proof.Machine
end

