-- ==== Sys2Proof/Laws/Exchanges.lean ====
section
/-! SUPPORT. What an opening word does to its port, what the port's item operations are in a row, and which slot an
order may take. -/

namespace Sys2Proof.Machine

-- Every thread of the checker reserves a whole stack: these many short proofs are checked one after another.
set_option Elab.async false

variable {s : State} {p : Port}

@[simp] theorem onPort_onPort (s : State) (p : Port) (f g : PortIf → PortIf) :
    (s.onPort p f).onPort p g = s.onPort p fun x => g (f x) := by cases p <;> rfl

theorem onPort_congr (s : State) (p : Port) (f g : PortIf → PortIf) (h : f (s.ports.get p) = g (s.ports.get p)) :
    s.onPort p f = s.onPort p g := by
  cases p <;> simp only [PerPort.get] at h <;> simp only [State.onPort, PerPort.modify, h]

/-- With no exchange open there is nothing to abandon. -/
theorem abandon_none (h : (s.ports.get p).exchange = none) : s.abandon p = s := by unfold State.abandon; rw [h]

/-- An opening word at a port that is not LOST and has no exchange open makes it PRESENT and reloads its timer. -/
theorem openWord_plain (h : (s.ports.get p).exchange = none) (hl : (s.ports.get p).presence ≠ .lost) :
    s.openWord p = s.portOpened p none [] := by
  unfold State.openWord
  rw [abandon_none h]
  simp only [State.lost, hl, decide_false, Bool.false_eq_true, if_false]
  exact onPort_congr _ _ _ _ (by simp [PortIf.reload, h])

/-- Opening an exchange after the opening word. -/
theorem openExchange_portOpened (e : Option Exchange) (l r : List Word) (k : ExchangeKind) (w : Word) :
    (s.portOpened p e l).openExchange p k w r = s.portOpened p (some ⟨k, [w]⟩) r := by
  unfold State.openExchange State.portOpened; rw [onPort_onPort]

/-- An opening word does what it would do after the open exchange was abandoned. -/
theorem openWord_abandon : s.openWord p = (s.abandon p).openWord p := by
  have ports : ∀ s : State, s.testRequests.ports = s.ports := by
    have one : ∀ s : State, s.issueRequest.ports = s.ports := by
      intro s; unfold State.issueRequest
      split
      · split
        · split <;> rfl
        · rfl
      · rfl
    intro s; simp [State.testRequests, one]
  have tick : ∀ s : State, s.testRequests.tick = s.tick := by
    have one : ∀ s : State, s.issueRequest.tick = s.tick := by
      intro s; unfold State.issueRequest
      split
      · split
        · split <;> rfl
        · rfl
      · rfl
    intro s; simp [State.testRequests, one]
  have drop : ∀ (s : State) b, (s.dropOrphan b).ports = s.ports ∧ (s.dropOrphan b).tick = s.tick := by
    intro s b; unfold State.dropOrphan; split <;> exact ⟨rfl, rfl⟩
  have key : (s.abandon p).abandon p = s.abandon p ∧ (s.abandon p).tick = s.tick
      ∧ (s.abandon p).lost p = s.lost p := by
    cases he : (s.ports.get p).exchange with
    | none => rw [abandon_none he]; exact ⟨abandon_none he, rfl, rfl⟩
    | some e =>
      have e1 : ((s.abandon p).ports.get p).exchange = none ∧ (s.abandon p).tick = s.tick
          ∧ ((s.abandon p).ports.get p).presence = (s.ports.get p).presence := by
        unfold State.abandon
        rw [he]
        dsimp only
        split
        · rw [ports, (drop _ _).1, tick, (drop _ _).2]
          refine ⟨?_, rfl, ?_⟩ <;> simp
        · refine ⟨?_, rfl, ?_⟩ <;> simp
      exact ⟨abandon_none e1.1, e1.2.1, by simp [State.lost, e1.2.2]⟩
  unfold State.openWord
  rw [key.1, key.2.1, key.2.2]

/-- The slot an order may take is the FREE slot found, and its tag is in use by none. -/
theorem slotFor_spec {tag : Byte} {k : Fin 8} (h : s.slotFor p tag k) :
    (s.queues.get p).freeSlot = some k ∧ (s.queues.get p).tagged tag = none := by
  obtain ⟨h1, h2, h3⟩ := h
  constructor
  · have : ∀ (f : Fin 8 → Bool) (k : Fin 8), f k = true → (∀ j, j < k → f j = false) →
        slotNumbers.find? f = some k := by
      intro f k hk hj
      have hj : ∀ j : Fin 8, j.val < k.val → f j = false := fun j h => hj j h
      unfold slotNumbers
      fin_cases k <;> simp_all [List.find?]
    refine this (fun k => ((s.queues.get p).slots[k]).isNone) k ?_ ?_
    · simpa [State.slot] using h1
    · intro j hj
      have := h2 j hj
      cases e : (s.queues.get p).slots[j] with
      | none => exact absurd e this
      | some x => rfl
  · refine Option.eq_none_iff_forall_ne_some.mpr fun x hx => ?_
    have := tagged_some (s := s) (p := p) (k := x.1) (sl := x.2) hx
    exact h3 _ _ this.1 this.2

end Sys2Proof.Machine
end

