-- ==== Sys2Proof/Laws/Runs.lean ====
section
/-! SUPPORT. What a command can do, said once: every command but the two resets is a `Run`, a path of moves in which
orders may also enter FREE slots; a reset is a path from the reset values. -/

namespace Sys2Proof.Machine

-- Every thread of the checker reserves a whole stack: these many short proofs are checked one after another.
set_option Elab.async false

variable {a s : State} {p : Port} {k : Fin 8} {c : Instr}

/-! ## Tags -/

/-- A change of a record that leaves its tag gives no slot a tag it did not carry. -/
theorem record_tags (s : State) (q : Port) (k : Fin 8) (f : Slot → Slot)
    (hf : ∀ x, s.slot q k = some x → (f x).tag = x.tag) (p : Port) (j : Fin 8) (y : Slot)
    (hy : (s.modSlot q k f).slot p j = some y) : ∃ x, s.slot p j = some x ∧ x.tag = y.tag := by
  rw [slot_modSlot] at hy
  split at hy
  · next e =>
    obtain ⟨rfl, rfl⟩ := e
    obtain ⟨x, hx, rfl⟩ := Option.map_eq_some_iff.mp hy
    exact ⟨x, hx, (hf x hx).symm⟩
  · exact ⟨y, hy, rfl⟩

/-- A move gives no slot a tag it did not carry. -/
theorem Move.tags {s t : State} (m : Move s t) (p : Port) (j : Fin 8) (y : Slot) (h : t.slot p j = some y) :
    ∃ x, s.slot p j = some x ∧ x.tag = y.tag := by
  have same : t.queues = s.queues → ∃ x, s.slot p j = some x ∧ x.tag = y.tag := fun e =>
    ⟨y, by rw [← slot_of_queues s t e]; exact h, rfl⟩
  have onDrop : ∀ (q : Queue) (k : Fin 8), (q.drop k).slots[j] = some y → q.slots[j] = some y := by
    intro q k hy
    rw [drop_slots] at hy
    split at hy
    · cases hy
    · exact hy
  cases m with
  | record q k f hf => exact record_tags _ _ _ _ (fun x hx => (hf x hx).1) p j y h
  | serve q k sl h1 h2 h3 => exact record_tags _ _ _ (fun x => { x with state := .inService }) (fun _ _ => rfl) p j y h
  | replace q r k i sl x h1 h2 h3 h4 h5 h6 =>
    obtain ⟨z, hz, e⟩ := record_tags _ r i (fun x => { x with state := .inService }) (fun _ _ => rfl) p j y h
    obtain ⟨w, hw, e'⟩ := record_tags _ q k (fun x => { x with state := .suspended }) (fun _ _ => rfl) p j z hz
    exact ⟨w, hw, e'.trans e⟩
  | drain q k e fa sl h1 h2 =>
    exact record_tags _ _ _ (fun x => { x with state := .draining, outcome := some e, faultAddr := fa,
                                               drainStart := some s.tick }) (fun _ _ => rfl) p j y h
  | finish q k e fa sl h1 h2 =>
    rw [slot_onQueue] at h
    split at h
    · next eq =>
      subst eq
      unfold Queue.finish at h
      split at h
      · exact ⟨y, h, rfl⟩
      · next x hx =>
        split at h
        · exact ⟨y, onDrop _ _ h, rfl⟩
        · simp only [answer_slots, put_slots] at h
          split at h
          · next ej => subst ej; cases h; exact ⟨x, hx, rfl⟩
          · exact ⟨y, h, rfl⟩
    · exact ⟨y, h, rfl⟩
  | drop q k =>
    rw [slot_onQueue] at h
    split at h
    · next eq => subst eq; exact ⟨y, onDrop _ _ h, rfl⟩
    · exact ⟨y, h, rfl⟩
  | _ => exact same rfl

/-- A tag that no live slot carries is carried by none after a path. -/
theorem Path.untagged {s t : State} (h : Path s t) {p : Port} {tag : Byte}
    (hs : (s.queues.get p).tagged tag = none) : (t.queues.get p).tagged tag = none := by
  induction h with
  | refl => exact hs
  | @move t u _ m ih =>
    refine Option.eq_none_iff_forall_ne_some.mpr fun x hx => ?_
    have hx := tagged_some (s := u) (p := p) (k := x.1) (sl := x.2) hx
    obtain ⟨y, hy, e⟩ := m.tags p x.1 x.2 hx.1
    exact tagged_none ih x.1 y hy (e.trans hx.2)

/-! ## Runs -/

/-- A path in which orders may enter FREE slots. -/
inductive Run (c : Instr) (s : State) : State → Prop
  | refl : Run c s s
  | move {t u : State} (h : Run c s t) (m : Move t u) : Run c s u
  | act {t u : State} (h : Run c s t) (m : Act c t u) : Run c s u
  /-- a disk order enters as QUEUED, its tag in use by no other slot of its port -/
  | enter {t : State} (h : Run c s t) (p : Port) (k : Fin 8) (sl : Slot) (hk : (t.queues.get p).freeSlot = some k)
      (hq : sl.state = .queued) (ht : (t.queues.get p).tagged sl.tag = none) :
      Run c s (t.onQueue p fun q => q.enter k sl)
  /-- an immediate order enters as DONE, in both lists -/
  | answer {t : State} (h : Run c s t) (p : Port) (k : Fin 8) (sl : Slot) (hk : (t.queues.get p).freeSlot = some k)
      (hq : sl.state = .done) (ht : (t.queues.get p).tagged sl.tag = none) :
      Run c s (t.onQueue p fun q => (q.enter k sl).answer k)

theorem Path.run {s t : State} (h : Path s t) : Run c s t := by
  induction h with
  | refl => exact .refl
  | move _ m ih => exact ih.move m

theorem Run.trans {s t u : State} (h : Run c s t) (h' : Run c t u) : Run c s u := by
  induction h' with
  | refl => exact h
  | move _ m ih => exact ih.move m
  | act _ m ih => exact ih.act m
  | enter _ p k sl hk hq ht ih => exact ih.enter p k sl hk hq ht
  | answer _ p k sl hk hq ht ih => exact ih.answer p k sl hk hq ht

theorem Run.path {s t u : State} (h : Run c s t) (h' : Path t u) : Run c s u := h.trans h'.run

/-! ## Acts -/

theorem Run.onPort {f : PortIf → PortIf} (h : Run c a s) (hf : ∀ x, (f x).interval = x.interval := by intros; rfl) :
    Run c a (s.onPort p f) := h.act (.port s p f hf)

theorem Run.onLines {f : Lines → Lines} (h : Run c a s) : Run c a (s.onLines f) := h.act (.lines s f)

theorem Run.ite {b : Prop} [Decidable b] {x y : State} (h : b → Run c a x) (h' : ¬b → Run c a y) :
    Run c a (if b then x else y) := by
  split
  · next e => exact h e
  · next e => exact h' e

/-! ## Map loads -/

theorem Run.loadMap {m : Plan} {o : Origin} (h : Run c a s) (hm : s.mapLaw → m.conflictFree = true) :
    Run c a (s.loadMap m o) := (h.act (.active s m o hm)).path Path.refl.recheckPort.recheckPort

theorem Run.loadMapLatched {m : Plan} {o : Origin} (h : Run c a s) (hm : s.mapLaw → m.conflictFree = true) :
    Run c a (s.loadMapLatched m o) := (h.loadMap hm).path Path.refl.latch.countBoth

theorem Run.autoChangeover (h : Run c a s) : Run c a s.autoChangeover :=
  .ite (fun _ => h.loadMapLatched fun l => l.2.2) fun _ => h

/-- The re-check of a map load leaves no new tag. -/
theorem loadMap_untagged {m : Plan} {o : Origin} {tag : Byte} (h : (s.queues.get p).tagged tag = none) :
    ((s.loadMap m o).queues.get p).tagged tag = none :=
  Path.untagged (s := s.setActive m o) Path.refl.recheckPort.recheckPort h

/-! ## Exchanges and orders -/

theorem Run.abandon (h : Run c a s) : Run c a (s.abandon p) := by
  unfold State.abandon
  split
  · exact h
  · dsimp only
    split
    · exact h.onPort.path Path.refl.count.dropOrphan.testRequests
    · exact h.onPort.path Path.refl.count

theorem Run.openWord (h : Run c a s) : Run c a (s.openWord p) := by
  unfold State.openWord; dsimp only; split
  · exact h.abandon.onPort.path Path.refl.testRequests.judgeAlarm
  · exact h.abandon.onPort

theorem Run.openExchange {x : ExchangeKind} {w : Word} {r : List Word} (h : Run c a s) :
    Run c a (s.openExchange p x w r) := h.onPort

theorem Run.closeExchange (h : Run c a s) : Run c a (s.closeExchange p) := h.onPort

theorem Run.answerWord {w : Word} (h : Run c a s) : Run c a (s.answer p w) := h.onPort

theorem Run.disarm (h : Run c a s) : Run c a (s.disarm p) := h.onPort

theorem Run.refuse {r : Refuse} (h : Run c a s) : Run c a (s.refuse p r) := (h.disarm.path Path.refl.count).answerWord

theorem Run.accepted (h : Run c a s) : Run c a (s.accepted p) := (h.path Path.refl.count).answerWord

/-- The checks passed: the tag of an order that takes a slot is in use by no slot of its port (R66), and a slot is
FREE (R65). -/
theorem judgeOrder_none {o : OrderRule} {x : Packet} (hk : o.kind.slotless = false)
    (h : s.judgeOrder p o.kind x (o.shape x) (o.needsArm x) (o.own s p x) = none) :
    (s.queues.get p).tagged x.tag = none ∧ (s.queues.get p).freeSlot ≠ none := by
  unfold State.judgeOrder at h
  split at h
  · cases h
  · split at h
    · cases h
    · next h1 =>
      split at h
      · cases h
      · next h2 =>
        exact ⟨by simpa [hk] using h2, fun e => h1 ⟨hk, by simp [e]⟩⟩

/-- The checks passed: so did the kind's own. -/
theorem judgeOrder_own {x : Kind} {y : Packet} {b c : Bool} {r : Option Refuse} (h : s.judgeOrder p x y b c r = none) :
    r = none := by
  unfold State.judgeOrder at h
  repeat' split at h
  all_goals first
    | (cases h; done)
    | exact h

/-- A completed order packet is a run where its kind's acceptance is one. -/
theorem Run.orderPacket {o : OrderRule} {tag : Byte} {rest : List Word}
    (h : ∀ x, s.judgeOrder p o.kind x (o.shape x) (o.needsArm x) (o.own s p x) = none →
      Run c s (o.accept (s.disarm p) p x)) : Run c s (s.orderPacket p o tag rest) := by
  unfold State.orderPacket
  split
  · split
    · exact Run.refl.refuse
    · next x _ =>
      split
      · exact Run.refl.refuse
      · next e => exact (h x e).accepted
  · exact .refl

theorem Run.enterSlot {sl : Slot} (h : Run c a s) (hq : sl.state = .queued)
    (ht : (s.queues.get p).tagged sl.tag = none) : Run c a (s.enterSlot p sl) := by
  unfold State.enterSlot
  split
  · next e => exact h.enter p _ sl e hq ht
  · exact h

theorem Run.enqueue {sl : Slot} (h : Run c a s) (hq : sl.state = .queued)
    (ht : (s.queues.get p).tagged sl.tag = none) : Run c a (s.enqueue p sl) :=
  (h.enterSlot hq ht).path Path.refl.schedule.judgeAlarm

theorem Run.answerNow {x : Kind} {tag : Byte} {body : List Word} (h : Run c a s)
    (ht : (s.queues.get p).tagged tag = none) : Run c a (s.answerNow p x tag body) := by
  unfold State.answerNow
  split
  · next e => exact h.answer p _ (Slot.immediate x tag s.tick body) e rfl ht
  · exact h

theorem Run.acceptData {x : Kind} {v : Bool} {y : Packet} (h : Run c a s) (ht : (s.queues.get p).tagged y.tag = none) :
    Run c a (s.acceptData p x v y) := (h.path Path.refl.count).enqueue rfl ht

theorem Path.clearSlot (h : Path a s) : Path a (s.clearSlot p k) := by
  unfold State.clearSlot
  split
  · exact h
  · split
    · exact h.modSlot.release
    · exact h.release.drop

theorem Run.clearPort (h : Run c a s) : Run c a (s.clearPort p) := by
  have one : Run c a (slotNumbers.foldl (fun s k => s.clearSlot p k) s) :=
    h.path (Path.foldl slotNumbers _ (fun _ _ => Path.refl.clearSlot) .refl)
  unfold State.clearPort
  dsimp only
  generalize slotNumbers.foldl (fun s k => s.clearSlot p k) s = u at one
  exact (Run.onPort (f := fun x => { x.reload s.tick with presence := .present }) one).path
    Path.refl.testRequests.schedule.judgeAlarm

/-! ## Pulses, lines and timers -/

theorem Run.exchange {x : Option Cartridge} (h : Run c a s) (hc : x.isSome = true → putsCartridge c = true) :
    Run c a (s.exchange x) := by
  cases x with
  | none => exact h
  | some l => exact .ite (fun _ => h.act (.cartridge s l (hc rfl))) fun _ => h

theorem Run.enterSpinningUp (h : Run c a s) : Run c a s.enterSpinningUp := by
  have one : Run c a s.newMeasurement := h.act (.measurement s)
  unfold State.enterSpinningUp
  dsimp only
  generalize s.newMeasurement = u at one
  exact .ite (fun _ => one.path Path.refl.onDrive.enterFaulted) fun _ => one.path Path.refl.onDrive

theorem Run.judgeRun (h : Run c a s) : Run c a s.judgeRun := .ite (fun _ => h.enterSpinningUp) fun _ => h

theorem Run.enterEmpty (h : Run c a s) : Run c a s.enterEmpty := (h.path Path.refl.onDrive).judgeRun

theorem Run.runHolds (h : Run c a s) : Run c a s.runHolds :=
  .ite (fun _ => h.enterSpinningUp) fun _ => h.path Path.refl.onDrive

theorem Path.runFails (h : Path a s) : Path a s.runFails := by
  unfold State.runFails
  split
  iterate 2 exact h
  iterate 4 exact h.enterSpinningDown
  all_goals
    split
    · exact h.enterSpinningDown
    · exact h.onDrive

theorem Path.scheduleOnEntry {d : DriveState} (h : Path a s) : Path a (s.scheduleOnEntry d) := by
  unfold State.scheduleOnEntry; split
  · exact h
  · exact h.schedule

theorem Path.verdictChanged (h : Path a s) : Path a s.verdictChanged := by
  unfold State.verdictChanged; split
  · exact h.enterCalibrating
  · exact h.setReasons.scheduleOnEntry

/-- What an index leaves: the items that pulses change are those of the measurement at the index (R94, R96). -/
theorem indexWatch_spec (s : State) : ∃ u : State, u.pos = s.pos ∧ Path s u
    ∧ Path (u.onPos fun x => (x.measure s.tick).atIndex) s.indexWatch := by
  have ite : ∀ {a x y : State} {c : Prop} [Decidable c], Path a x → Path a y → Path a (if c then x else y) := by
    intro a x y c _ h h'; split <;> assumption
  refine ⟨if s.countsRevolution then s.countBoth .outOfBand else s, by split <;> rfl, ite Path.refl.countBoth .refl, ?_⟩
  unfold State.indexWatch
  dsimp only
  generalize (if s.countsRevolution = true then s.countBoth .outOfBand else s) = u
  generalize u.onPos (fun x => (x.measure s.tick).atIndex) = v
  exact ite (Path.onDrive (ite .refl Path.refl.verdictChanged)) (ite .refl Path.refl.verdictChanged)

theorem Run.indexWatch (hc : ∃ r, c = .indexPulse r ∨ c = .sectorPulse r) : Run c s s.indexWatch := by
  obtain ⟨u, -, h, h'⟩ := indexWatch_spec s
  refine (h.run.act (.turn u _ ⟨?_, rfl⟩ hc)).path h'
  simp [Positioner.atIndex]

theorem Run.extraPulse (hc : ∃ r, c = .indexPulse r ∨ c = .sectorPulse r) : Run c s s.extraPulse :=
  .ite (fun _ => (Run.refl.act (.turn s _ ⟨.inr rfl, rfl⟩ hc)).path Path.refl.countBoth)
    fun _ => Run.refl.act (.turn s _ ⟨.inr rfl, rfl⟩ hc)

theorem Path.reseek (h : Path a s) : Path a s.reseek := by
  unfold State.reseek; split
  · exact h.issueSeek
  · exact h.onPos

theorem Path.withdrawRequests (h : Path a s) : Path a (s.withdrawRequests p) :=
  Path.foldl slotNumbers _ (fun _ _ => Path.refl.release) h

theorem Run.losePort (h : Run c a s) : Run c a (s.losePort p) := by
  unfold State.losePort
  dsimp only
  exact (((Run.onPort (f := fun x => { x with presence := .lost, timer := none, armed := false })
    h.abandon).path Path.refl.withdrawRequests.endWhere.latch).autoChangeover).path
    Path.refl.testRequests.schedule.judgeAlarm

theorem Run.strobeEdge (h : Run c a s) : Run c a s.strobeEdge := by
  refine .ite (fun _ => (h.loadMapLatched fun l => ?_).path Path.refl.schedule.judgeAlarm) fun _ => h
  unfold State.selectedPlan
  split
  · exact l.2.2
  · exact l.2.1

theorem Run.deliver {b : Fin 4} (h : Run c a s) : Run c a (s.deliver b) := by
  have one : Run c a (s.putBuffer b .empty) := h.path Path.refl.putBuffer
  unfold State.deliver
  dsimp only
  split
  · exact one
  · split
    · next sl hsl =>
      split
      · next hd =>
        split
        · exact one.act (.drained _ _ _ sl hsl hd)
        · exact one.path Path.refl.modSlot
      · exact one
    · exact one

/-! ## Every command -/

theorem fixed_conflictFree : Plan.conflictFree .fixed = true := by decide

/-- Every command but a reset is a run. -/
theorem exec_run (c : Instr) (s t : State) (hc : isReset c = false) (h : exec c s = .next t) :
    Run c s t := by
  have disk : ∀ {p : Port} {x : Packet} {o : OrderRule} {sl : Slot}, o.kind.slotless = false →
      s.judgeOrder p o.kind x (o.shape x) (o.needsArm x) (o.own s p x) = none → sl.state = .queued → sl.tag = x.tag →
      Run c s ((s.disarm p).enqueue p sl) := by
    intro p x o sl hk e hq ht
    exact Run.refl.disarm.enqueue hq (by rw [ht]; exact (judgeOrder_none hk e).1)
  cases c with
  | powerOn l c => cases hc
  | panelReset => cases hc
  | orderOutOpening p w =>
    cases h
    exact .ite (fun _ => Run.refl.openWord.refuse) fun _ => Run.refl.openWord.openExchange
  | dataOutOpening p w => cases h; exact Run.refl.openWord.openExchange
  | replyIn p w => cases h; exact Run.refl.openWord.openExchange
  | dataIn p w => cases h; exact Run.refl.openWord.openExchange
  | statusIn p w whole =>
    cases h
    exact .ite (fun _ => Run.refl.openWord.openExchange.onPort) fun _ => Run.refl.openWord.openExchange
  | openingWordNoKind p w => cases h; exact Run.refl.openWord.path Path.refl.count
  | strayWord p w =>
    cases h
    split
    · exact .refl
    · exact Run.refl.onPort
  | dataOut p header words =>
    cases h
    split
    · split
      · exact Run.refl.answerWord
      · split
        · exact Path.refl.putBuffer.run.answerWord
        · exact Run.refl.answerWord
    · exact .refl
  | replyInComplete p =>
    cases h
    split
    · exact Path.refl.drop.run.closeExchange
    · exact Run.refl.closeExchange
    · exact .refl
  | dataInComplete p =>
    cases h
    split
    · exact (Run.refl.deliver.path Path.refl.testRequests).closeExchange
    · exact Run.refl.closeExchange
    · exact .refl
  | read p tag rest =>
    cases h
    exact .orderPacket fun x e => Run.refl.disarm.acceptData (judgeOrder_none (o := readRule) rfl e).1
  | write p tag rest =>
    cases h
    exact .orderPacket fun x e => Run.refl.disarm.acceptData (judgeOrder_none (o := writeRule) rfl e).1
  | check p tag rest =>
    cases h
    exact .orderPacket fun x e => Run.refl.disarm.acceptData (judgeOrder_none (o := checkRule) rfl e).1
  | formatTrack p tag rest =>
    cases h; exact .orderPacket fun x e => disk (o := formatTrackRule) rfl e rfl rfl
  | initializeLabel p tag rest =>
    cases h; exact .orderPacket fun x e => disk (o := initializeLabelRule) rfl e rfl rfl
  | assignSpare p tag rest =>
    cases h; exact .orderPacket fun x e => disk (o := assignSpareRule) rfl e rfl rfl
  | testTrack p tag rest =>
    cases h; exact .orderPacket fun x e => disk (o := testTrackRule) rfl e rfl rfl
  | readPlan p tag rest =>
    cases h
    exact .orderPacket fun x e => Run.refl.disarm.answerNow (judgeOrder_none (o := readPlanRule) rfl e).1
  | writePlan p tag rest =>
    cases h
    refine .orderPacket fun x e => ?_
    have hm : (s.planResult x).conflictFree = true := by
      have e := judgeOrder_own e
      simp only [writePlanRule] at e
      repeat' split at e
      all_goals first
        | (cases e; done)
        | (next hn => simpa using hn)
    have ht := (judgeOrder_none (o := writePlanRule) rfl e).1
    have hp : Run (.writePlan p tag rest) s ((s.disarm p).writePlan (x.num 0) ((s.disarm p).planResult x))
        ∧ ((((s.disarm p).writePlan (x.num 0) ((s.disarm p).planResult x)).queues.get p).tagged x.tag = none) := by
      unfold State.writePlan
      split
      · exact ⟨Run.refl.disarm.loadMap fun _ => hm, loadMap_untagged (s := s.disarm p) ht⟩
      · exact ⟨Run.refl.disarm.act (.plan1 _ _ hm ⟨_, _, _, rfl⟩), ht⟩
      · exact ⟨Run.refl.disarm.act (.plan2 _ _ hm ⟨_, _, _, rfl⟩), ht⟩
    exact .ite (fun _ => (hp.1.answerNow hp.2).path Path.refl.schedule.judgeAlarm) fun _ => hp.1.answerNow hp.2
  | loadPlan p tag rest =>
    cases h
    refine .orderPacket fun x e => ?_
    have hp : Run (.loadPlan p tag rest) s ((s.disarm p).loadMapLatched (s.map.staged (x.num 0)).1 (s.map.staged (x.num 0)).2) := by
      refine Run.refl.disarm.loadMapLatched fun l => ?_
      unfold MapUnit.staged
      split
      · exact l.2.1
      · exact l.2.2
    have ht := loadMap_untagged (s := s.disarm p) (m := (s.map.staged (x.num 0)).1) (o := (s.map.staged (x.num 0)).2)
      (judgeOrder_none (o := loadPlanRule) rfl e).1
    exact (hp.answerNow ht).path Path.refl.schedule.judgeAlarm
  | setMapMode p tag rest =>
    cases h
    exact .orderPacket fun x e =>
      (Run.refl.disarm.act (.mapMode _ _ _ ⟨_, _, _, rfl⟩)).answerNow (judgeOrder_none (o := setMapModeRule) rfl e).1
  | setGuard p tag rest =>
    cases h
    refine .orderPacket fun x e => ?_
    have hg : s.guard.mode ≠ .locked ∧ ¬(s.guard.mode = .keyed ∧ s.lines.guardKey = true) := by
      have e := judgeOrder_own e
      simp only [setGuardRule] at e
      split at e
      · cases e
      · next h1 =>
        split at e
        · cases e
        · next h2 => exact ⟨h1, h2⟩
    exact (Run.refl.disarm.act (.guard _ _ hg ⟨_, _, _, rfl⟩)).answerNow (judgeOrder_none (o := setGuardRule) rfl e).1
  | setSupervision p tag rest =>
    cases h
    exact .orderPacket fun x e =>
      (Run.refl.disarm.act (.interval _ p (x.num 0) _ (fun _ => rfl) ⟨_, _, rfl⟩)).answerNow
        (judgeOrder_none (o := setSupervisionRule) rfl e).1
  | setAlarmLine p tag rest =>
    cases h
    refine .orderPacket fun x e => ?_
    have hp : Run (.setAlarmLine p tag rest) s { s.disarm p with alarms := { (s.disarm p).alarms with
        masked := SourceSet.ofWord (wordAt x.fields 0), follow := decide (x.num 1 = 1),
        source := (Source.ofCode (x.num 2)).getD (s.disarm p).alarms.source } } :=
      Run.refl.disarm.move (.alarms _ _ ⟨rfl, rfl⟩)
    exact (hp.answerNow (judgeOrder_none (o := setAlarmLineRule) rfl e).1).path Path.refl.judgeAlarm
  | clearAlarms p tag rest =>
    cases h
    refine .orderPacket fun x e => ?_
    have ht := (judgeOrder_none (o := clearAlarmsRule) rfl e).1
    have hp : Run (.clearAlarms p tag rest) s (((s.disarm p).clearFlags (SourceSet.ofWord (wordAt x.fields 0))).acknowledgeIf
        (decide (x.num 1 = 1))) ∧ ((((s.disarm p).clearFlags (SourceSet.ofWord (wordAt x.fields 0))).acknowledgeIf
          (decide (x.num 1 = 1))).queues.get p).tagged x.tag = none := by
      unfold State.acknowledgeIf
      split
      · exact ⟨(Run.refl.disarm.act (.clear _ _ ⟨_, _, _, rfl⟩)).act (.acknowledge _), ht⟩
      · exact ⟨Run.refl.disarm.act (.clear _ _ ⟨_, _, _, rfl⟩), ht⟩
    exact (hp.1.answerNow hp.2).path Path.refl.judgeAlarm
  | captureStatistics p tag rest =>
    cases h
    exact .orderPacket fun x e =>
      (Run.refl.disarm.act (.capture _ p ⟨_, _, rfl⟩)).answerNow (judgeOrder_none (o := captureStatisticsRule) rfl e).1
  | readStatistics p tag rest =>
    cases h
    exact .orderPacket fun x e => Run.refl.disarm.answerNow (judgeOrder_none (o := readStatisticsRule) rfl e).1
  | readLabel p tag rest =>
    cases h
    exact .orderPacket fun x e => Run.refl.disarm.answerNow (judgeOrder_none (o := readLabelRule) rfl e).1
  | restartDrive p tag rest =>
    cases h
    refine .orderPacket fun x e => ?_
    have hp : Path (s.disarm p).newMeasurement (s.disarm p).enterSpinningUp := by
      unfold State.enterSpinningUp
      dsimp only
      split
      · exact Path.refl.onDrive.enterFaulted
      · exact Path.refl.onDrive
    exact (Run.refl.disarm.enterSpinningUp.answerNow
      (hp.untagged (judgeOrder_none (o := restartDriveRule) rfl e).1)).path Path.refl.judgeAlarm
  | arm p tag rest => cases h; exact .orderPacket fun x e => Run.refl.disarm.onPort
  | clearPort p tag rest => cases h; exact .orderPacket fun x e => Run.refl.disarm.clearPort
  | unknownKind p code tag rest =>
    cases h
    split
    · split <;> exact Run.refl.refuse
    · exact .refl
  | changeoverStrobe => cases h; exact .ite (fun _ => .refl) fun _ => Run.refl.onLines.strobeEdge
  | planSelectLine x => cases h; exact Run.refl.onLines
  | fixedPlanKeyOn =>
    cases h
    exact .ite (fun _ => .refl) fun _ =>
      (Run.refl.onLines.loadMapLatched fun _ => fixed_conflictFree).path Path.refl.schedule.judgeAlarm
  | fixedPlanKeyOff => cases h; exact Run.refl.onLines
  | guardKeyLine x => cases h; exact Run.refl.onLines
  | alarmAcknowledge =>
    cases h
    exact .ite (fun _ => .refl) fun _ =>
      ((Run.refl.onLines (f := fun l => { l with ack := true })).act (.acknowledge _)).path Path.refl.judgeAlarm
  | flashTimerExpiry =>
    cases h
    exact .ite (fun _ => Run.refl.move (.alarms s (s.alarms.flashed s.tick) ⟨rfl, rfl⟩)) fun _ => .refl
  | presenceTimerExpiry p => cases h; exact .ite (fun _ => Run.refl.losePort) fun _ => .refl
  | dueTickExpiry p tag =>
    cases h
    split
    · exact .ite (fun _ => Path.refl.endSlot.schedule.judgeAlarm.run) fun _ => .refl
    · exact .refl
  | drainLimit p tag =>
    cases h
    split
    · exact .ite (fun _ => Path.refl.endSlot.run) fun _ => .refl
    · exact .refl
  | indexPulse r =>
    cases h
    exact (Run.indexWatch ⟨_, .inl rfl⟩).path (Path.close (x := (State.settled s.indexWatch.testIndex).sectorStart 0 r)
      (Path.sectorStart (Path.settled Path.refl.testIndex)))
  | sectorPulse r =>
    cases h
    refine .ite (fun _ => .refl) fun _ => .ite (fun hlt => ?_) fun _ => Run.extraPulse ⟨_, .inr rfl⟩
    exact (Run.refl.act (.turn s _ ⟨.inl (by show s.pos.sc + 1 ≤ 19; omega), rfl⟩ ⟨_, .inr rfl⟩)).path (Path.close Path.refl.sectorStart)
  | sectorPassEnd d => cases h; exact (Path.close Path.refl.passEnd).run
  | seekArrival =>
    cases h
    split
    · exact .ite (fun _ => Run.refl.onLines.path (Path.close Path.refl.arrive.arrivalBoundary))
        fun _ => Run.refl.onLines
    · exact .refl
  | seekTimeout => cases h; exact .ite (fun _ => Path.refl.seekError.judgeAlarm.run) fun _ => .refl
  | recalibrationComplete =>
    cases h
    refine .ite (fun _ => ?_) fun _ => .refl
    dsimp only
    split
    · exact Run.refl.onLines.path
        (Path.onPos (f := fun y => { y with cyl := some 0, head := 0 }) .refl).enterLabelRead.schedule.judgeAlarm
    · exact Run.refl.onLines.path
        (Path.onPos (f := fun y => { y with cyl := some 0, head := 0 }) .refl).reseek.schedule.judgeAlarm
  | recalibrationLimit => cases h; exact .ite (fun _ => Path.refl.recalibrationFailed.judgeAlarm.run) fun _ => .refl
  | indexLoss => cases h; exact .ite (fun _ => Path.refl.enterFaulted.judgeAlarm.run) fun _ => .refl
  | runConditionHolds cart =>
    cases h
    have hx : cart.isSome = true → putsCartridge (.runConditionHolds cart) = true := by
      cases cart <;> simp [putsCartridge]
    exact .ite (fun _ => .refl) fun _ => (Run.refl.exchange hx).onLines.runHolds.path Path.refl.judgeAlarm
  | runConditionFails x y z =>
    cases h
    exact .ite (fun _ => Run.refl.onLines.path Path.refl.runFails.judgeAlarm) fun _ => Run.refl.onLines
  | writeSupplyLost =>
    cases h; exact Run.refl.onLines.path Path.refl.setReasons.scheduleOnEntry.judgeAlarm
  | writeSupplyGood =>
    cases h; exact Run.refl.onLines.path Path.refl.setReasons.scheduleOnEntry.judgeAlarm
  | overTemperature =>
    cases h
    exact .ite (fun _ => .refl) fun _ =>
      .ite (fun _ => Run.refl.onLines.path Path.refl.enterFaulted.judgeAlarm) fun _ => Run.refl.onLines
  | spinUpTimeout => cases h; exact .ite (fun _ => Path.refl.enterFaulted.judgeAlarm.run) fun _ => .refl
  | runDownTimeout => cases h; exact .ite (fun _ => Run.refl.enterEmpty.path Path.refl.judgeAlarm) fun _ => .refl
  | overTemperatureInactive => cases h; exact Run.refl.onLines
  | changeoverStrobeInactive => cases h; exact Run.refl.onLines
  | alarmAcknowledgeInactive => cases h; exact Run.refl.onLines

/-- A reset is a run from the reset values with the lines, medium, plans and guard it is given. -/
theorem resetTo_run (s : State) (lines : Lines) (disk : Cartridge) (map : MapUnit) (guard : Guard) :
    Run c { State.reset with pending := s.pending, lines := lines, disk := disk, free := s.cutPass.free,
                             map := map, guard := guard } (s.resetTo lines disk map guard) := by
  have one : ∀ u : State, Run c u u.resetLoad := by
    intro u
    refine .ite (fun _ => Run.refl.act (.active u _ _ fun _ => fixed_conflictFree)) fun _ =>
      Run.refl.act (.active u _ _ fun hu => ?_)
    unfold State.selectedPlan
    split
    · exact hu.2.2
    · exact hu.2.1
  exact (one _).judgeRun.path Path.refl.judgeAlarm

/-! ## Every step -/

/-- What every move, act and entry keeps, a run keeps. -/
theorem Run.keeps {I : State → Prop} (hM : ∀ {s t}, Move s t → I s → I t) (hA : ∀ {s t}, Act c s t → I s → I t)
    (hE : ∀ (t : State) (p : Port) (k : Fin 8) (sl : Slot), (t.queues.get p).freeSlot = some k → sl.state = .queued →
      (t.queues.get p).tagged sl.tag = none → I t → I (t.onQueue p fun q => q.enter k sl))
    (hD : ∀ (t : State) (p : Port) (k : Fin 8) (sl : Slot), (t.queues.get p).freeSlot = some k → sl.state = .done →
      (t.queues.get p).tagged sl.tag = none → I t → I (t.onQueue p fun q => (q.enter k sl).answer k))
    {s t : State} (h : Run c s t) (hs : I s) : I t := by
  induction h with
  | refl => exact hs
  | move _ m ih => exact hM m ih
  | act _ m ih => exact hA m ih
  | enter _ p k sl hk hq ht ih => exact hE _ p k sl hk hq ht ih
  | answer _ p k sl hk hq ht ih => exact hD _ p k sl hk hq ht ih

/-- A run changes neither the queue of commands nor the tick count. -/
theorem Run.still {s t : State} (h : Run c s t) : t.pending = s.pending ∧ t.tick = s.tick := by
  induction h with
  | refl => exact ⟨rfl, rfl⟩
  | move _ m ih => exact ⟨m.still.pending.trans ih.1, m.still.tick.trans ih.2⟩
  | act _ m ih => cases m <;> exact ih
  | enter _ p k sl hk hq ht ih => exact ih
  | answer _ p k sl hk hq ht ih => exact ih

/-- What a step can do, said once: a tick on an empty queue, a run from the state with the queue's rest, or a run from
the reset values. -/
theorem step_cases (s t : State) (h : step s = .next t) :
    (s.pending = [] ∧ t = s.clockTick)
    ∨ (∃ c rest, s.pending = c :: rest ∧ isReset c = false ∧ exec c { s with pending := rest } = .next t
        ∧ Run c { s with pending := rest } t)
    ∨ ∃ c rest lines disk map guard, s.pending = c :: rest ∧ isReset c = true
        ∧ (disk = s.cutPass.disk ∨ ∃ l, disk = Cartridge.ofList l)
        ∧ (map = .powerOn ∨ map = { MapUnit.powerOn with plan1 := s.map.plan1, plan2 := s.map.plan2 })
        ∧ Run c { State.reset with pending := rest, lines := lines, disk := disk, free := s.cutPass.free,
                                   map := map, guard := guard } t := by
  unfold step at h
  split at h
  · next e => cases h; exact .inl ⟨e, rfl⟩
  · next c rest e =>
    refine .inr ?_
    by_cases hc : isReset c = false
    · exact .inl ⟨c, rest, e, hc, h, exec_run c _ t hc h⟩
    · have cut : ∀ s : State, ({ s with pending := rest } : State).cutPass.disk = s.cutPass.disk
          ∧ ({ s with pending := rest } : State).cutPass.free = s.cutPass.free := by
        intro s
        unfold State.cutPass
        dsimp only
        split
        · next q hq => split <;> exact ⟨rfl, rfl⟩
        · exact ⟨rfl, rfl⟩
      refine .inr ?_
      have hr : ∀ lines disk map guard,
          Run c { State.reset with pending := rest, lines := lines, disk := disk, free := s.cutPass.free,
                                   map := map, guard := guard } (({ s with pending := rest } : State).resetTo lines disk map guard) := by
        intro lines disk map guard
        have := resetTo_run (c := c) { s with pending := rest } lines disk map guard
        rw [(cut s).2] at this
        exact this
      cases c with
      | powerOn l x =>
        simp only [exec, execPowerOn, Host.Outcome.next.injEq] at h
        refine ⟨_, rest, l, _, _, _, e, rfl, ?_, .inl rfl, h ▸ hr _ _ _ _⟩
        cases x with
        | none => exact .inl (cut s).1
        | some c => exact .inr ⟨c, rfl⟩
      | panelReset =>
        simp only [exec, execPanelReset, Host.Outcome.next.injEq] at h
        exact ⟨_, rest, _, _, _, _, e, rfl, .inl (cut s).1, .inr rfl, h ▸ hr _ _ _ _⟩
      | _ => exact absurd rfl hc

end Sys2Proof.Machine
end

