-- ==== Sys2Proof/Laws/Lawful.lean ====
section
/-! SUPPORT. The laws of the held label over the operations that touch it, and over every command but a reset. -/

namespace Sys2Proof.Machine

-- Every thread of the checker reserves a whole stack: these many short proofs are checked one after another.
set_option Elab.async false

variable {s t u a : State} {p : Port} {k : Fin 8} {sl : Slot} {l : Label}

/-! ### Orders that leave IN SERVICE -/

/-- The slot of an order that has left IN SERVICE. -/
def Left (t : State) (p : Port) (k : Fin 8) : Prop := ∀ y, t.slot p k = some y → y.state ≠ .inService

/-- A slot that has ended is DONE or FREE. -/
theorem finish_left (e : Ending) (fa : Option Addr) : Left (s.onQueue p fun q => q.finish k e fa) p k := by
  intro y hy
  rw [slot_onQueue, if_pos rfl] at hy
  unfold Queue.finish at hy
  split at hy
  · next h => rw [h] at hy; cases hy
  · split at hy
    · rw [drop_slots, if_pos rfl] at hy; cases hy
    · simp only [answer_slots, put_slots, if_true] at hy
      cases hy; simp

theorem Left.same (h : Left s p k) (e : t.queues = s.queues) : Left t p k := fun y hy =>
  h y (by rw [← slot_of_queues s t e]; exact hy)

/-- An ended order is IN SERVICE no more. -/
theorem endSlot_left (e : Ending) (fa : Option Addr) : Left (s.endSlot p k e fa) p k := by
  unfold State.endSlot
  split
  · next h => intro y hy; rw [h] at hy; cases hy
  · next h =>
    split
    · next hd => intro y hy; rw [h] at hy; cases hy; rw [hd]; simp
    · dsimp only
      exact (finish_left e fa).same testRequests_queues

/-- An order that ends at a boundary is IN SERVICE no more. -/
theorem endWith_left {r : Result} : Left (s.endWith p k r).1 p k := by
  unfold State.endWith
  dsimp only
  generalize hu : (if r.ending = .readFault then _ else _ : State) = u
  cases hk : u.slot p k with
  | none => dsimp only; intro y hy; rw [hk] at hy; cases hy
  | some z =>
    dsimp only
    unfold State.endDiskPhase
    split
    · unfold State.startDraining
      intro y hy
      rw [slot_modSlot_same] at hy
      obtain ⟨x, -, rfl⟩ := Option.map_eq_some_iff.mp hy
      simp
    · exact endSlot_left _ _

/-- A withdrawn order that stops leaves its slot FREE (R63). -/
theorem freeWithdrawn_left : Left (s.freeWithdrawn p k) p k := by
  refine Left.same (s := ((s.leaveActuator p k).release p k fun _ => true).onQueue p (·.drop k)) ?_ testRequests_queues
  intro y hy
  rw [slot_onQueue, if_pos rfl, drop_slots, if_pos rfl] at hy; cases hy

/-- A calm change after which the order IN SERVICE has left leaves none. -/
theorem Calm.none_left (h : Calm s t) (g : s.serviceLaw) (hs : s.slot p k = some sl) (hi : sl.state = .inService)
    (hl : Left t p k) : t.inService = none := by
  refine inService_eq_none fun q j y hy hys => ?_
  obtain ⟨x, hx, n⟩ := h.slot q j y hy
  have := numbered_unique g hs hi hx (n.served hys)
  cases this
  exact hl y hy hys

/-- A calm change puts no order IN SERVICE. -/
theorem Calm.stays_none (h : Calm s t) (hn : s.inService = none) : t.inService = none :=
  inService_eq_none fun q j y hy hys => by
    obtain ⟨x, hx, n⟩ := h.slot q j y hy
    exact inService_none hn q j x hx (n.served hys)

/-! ### The laws over the other operations -/

/-- Where no order is IN SERVICE, the laws ask less. -/
theorem Lawful.of_none (hn : t.inService = none) (hl : t.label.law) (hs : ∀ p k y, t.slot p k = some y → y.assignLaw)
    (hp : ∀ q, t.pass = some q → q.kind = .labelRead → t.drive.state = .labelRead) : Lawful t :=
  ⟨service_of_unique fun p k x _ _ _ hx hxs _ _ => absurd hxs (inService_none hn p k x hx), hl, hs,
    fun p k x hx hxs => absurd hxs (inService_none hn p k x hx), hp⟩

/-- The drive or the label changes while no order is IN SERVICE. -/
theorem Lawful.idle (g : Lawful s) (hn : s.inService = none) (hq : t.queues = s.queues) (hl : t.label.law)
    (hp : ∀ q, t.pass = some q → q.kind = .labelRead → t.drive.state = .labelRead) : Lawful t :=
  .of_none (by rw [← hn]; exact inService_of_queues hq) hl
    (fun p k y hy => g.slot p k y (by rw [← slot_of_queues s t hq]; exact hy)) hp

/-- No order is IN SERVICE outside READY and DEGRADED. -/
theorem Lawful.not_serving (g : Lawful s) (h : s.drive.state.serving = false) : s.inService = none :=
  inService_eq_none fun q j y hy hys => by have := (g.served q j y hy hys).1; rw [h] at this; cases this

/-- A label of one entry or one retired spare. -/
theorem labelLaw_first {name : Vector Word 4} {serial gen : Word} (hg : gen ≠ 0) {t : List SubEntry} {r : List Nat}
    (h : (t = [] ∧ r = []) ∨ (r = [] ∧ ∃ e : SubEntry, t = [e] ∧ e.bad.cyl ≤ 383 ∧ e.bad.head ≤ 3 ∧
        e.bad.sector ≤ 19 ∧ e.spare ≤ 79)
      ∨ (t = [] ∧ ∃ n, r = [n] ∧ n ≤ 79)) : (⟨.valid, name, serial, gen, t, r⟩ : Label).law := by
  rcases h with ⟨rfl, rfl⟩ | ⟨rfl, e, rfl, he⟩ | ⟨rfl, n, rfl, hn⟩
  · exact labelLaw_of hg rfl .nil .nil .nil (fun _ h => by cases h) (fun _ h => by cases h) fun _ h => by cases h
  · exact labelLaw_of hg rfl (List.pairwise_singleton _ _) .nil (List.nodup_singleton _) (fun _ _ h => by cases h)
      (fun f hf => by rw [List.mem_singleton.mp hf]; exact he) fun _ h => by cases h
  · exact labelLaw_of hg rfl .nil (List.pairwise_singleton _ _) .nil (fun _ h => by cases h) (fun _ h => by cases h)
      fun m hm => by rw [List.mem_singleton.mp hm]; exact hn

/-- What an order would write over a blank label meets the law. -/
theorem blank_toBe {x : Slot} (hx : x.assignLaw) {st : LabelState} (hst : st ≠ .valid) : (x.labelToBe
    (.blank st)).law := by
  unfold Slot.labelToBe
  cases hp : x.params with
  | label name serial => exact labelLaw_first (by decide) (.inl ⟨rfl, rfl⟩)
  | assign a =>
    cases hm : x.maint with
    | assign c i w =>
      obtain ⟨-, h1, h2, h3⟩ := hx.1 a hp
      obtain ⟨-, -, -, h4, h5⟩ := hx.2 c i w hm
      have hi : i.getD 0 ≤ 79 := by cases i with
        | none => exact Nat.zero_le _
        | some n => exact h4 n rfl
      refine labelLaw_first (nextGen_pos 0) ?_
      cases c with
      | newEntry => exact .inr (.inl ⟨rfl, ⟨a, i.getD 0⟩, rfl, h5 rfl a hp, h2, h3, hi⟩)
      | reSpared => exact .inr (.inr ⟨rfl, 0, rfl, Nat.zero_le _⟩)
      | spareRetired => exact .inr (.inr ⟨rfl, a.head * 20 + a.sector, rfl, by omega⟩)
      | freeRetired => exact .inr (.inr ⟨rfl, a.head * 20 + a.sector, rfl, by omega⟩)
      | noChange => exact .inl ⟨rfl, rfl⟩
    | none => exact labelLaw_blank _ hst
    | test => exact labelLaw_blank _ hst
  | none => exact labelLaw_blank _ hst
  | format => exact labelLaw_blank _ hst
  | test => exact labelLaw_blank _ hst

/-- The held label may be blanked at any moment. -/
theorem Lawful.blank (g : Lawful s) {st : LabelState} (hst : st ≠ .valid) : Lawful (s.setLabel (.blank st)) :=
  ⟨g.one, labelLaw_blank _ hst, g.slot, fun p k x hx hxs => ⟨(g.served p k x hx hxs).1, blank_toBe
      (g.slot p k x hx) hst⟩, g.pass⟩

theorem Lawful.loseLabel (g : Lawful s) {st : LabelState} (hst : st ≠ .valid) : Lawful (s.loseLabel st) := by
  unfold State.loseLabel; dsimp only; split
  · exact Calm.refl.latch.lawful (g.blank hst)
  · exact g.blank hst

theorem Lawful.enterSpinningDown (g : Lawful s) (hn : s.inService = none) : Lawful s.enterSpinningDown := by
  unfold State.enterSpinningDown
  dsimp only
  have g1 : Lawful ({ s.abandonPositioning.onDrive (fun d =>
    { d with state := .spinningDown, speed := false, supply := false, fault := none, stopPending := false,
             spinUp := none, runDown := some (tickAfter s.tick 400), labelFails := 0 }) with pass := none } : State) :=
    Lawful.idle g hn rfl g.label fun q hq => by cases hq
  exact (Calm.refl.endWhere.endWhere.lawful g1).blank (st := .none) (by decide)

/-- No pass is under way after a cut. -/
theorem cutPass_pass (s : State) : s.cutPass.pass = none := by
  unfold State.cutPass
  split
  · split <;> rfl
  · assumption

/-- A fault leaves no order IN SERVICE and no label read under way (R136). -/
theorem Lawful.faultInService (g : Lawful s) : Lawful s.faultInService ∧ s.faultInService.inService = none
    ∧ ∀ q, s.faultInService.pass = some q → q.kind ≠ .labelRead := by
  unfold State.faultInService
  dsimp only
  have g1 : Lawful (if s.labelOpen = true then s.setLabel (.blank .damaged) else s) := by
    split
    · exact g.blank (by decide)
    · exact g
  generalize (if s.labelOpen = true then s.setLabel (.blank .damaged) else s) = u at g1
  have np : ∀ t, Calm u.cutPass t → ∀ q, t.pass = some q → q.kind ≠ .labelRead := fun t h q hq hk => by
    have := h.pass q hq hk; rw [cutPass_pass] at this; cases this
  cases hi : u.inService with
  | none => exact ⟨Calm.refl.cutPass.lawful g1, Calm.refl.cutPass.stays_none hi, np _ .refl⟩
  | some x =>
    obtain ⟨p, k, sl⟩ := x
    obtain ⟨h1, h2⟩ := inService_some hi
    exact ⟨Calm.refl.cutPass.endSlot.lawful g1,
      Calm.refl.cutPass.endSlot.none_left g1.one h1 h2 (endSlot_left _ _), np _ Calm.refl.endSlot⟩

theorem Lawful.enterFaulted (g : Lawful s) (why : FaultReason) : Lawful (s.enterFaulted why) := by
  obtain ⟨g1, hn, hp⟩ := g.faultInService
  unfold State.enterFaulted
  dsimp only
  generalize s.faultInService = u at *
  have c : Calm u ((u.endWhere .a Slot.waits .driveFault).endWhere .b Slot.waits .driveFault).abandonPositioning :=
    Calm.refl.endWhere.endWhere.abandonPositioning
  generalize ((u.endWhere .a Slot.waits .driveFault).endWhere .b Slot.waits .driveFault).abandonPositioning = v at *
  have hv := c.stays_none hn
  have g2 : Lawful ((v.onDrive fun d =>
      { d with state := .faulted, speed := false, supply := false, fault := some why, spinUp := none, labelFails := 0 }).latch .driveFaulted) :=
    Calm.refl.latch.lawful (Lawful.idle (c.lawful g1) hv rfl (c.lawful g1).label fun q hq hk =>
      absurd hk (hp q (c.pass q hq hk)))
  split
  · exact g2.enterSpinningDown hv
  · exact g2

theorem Lawful.enterSpinningUp (g : Lawful s) (hn : s.inService = none) (hd : s.drive.state ≠ .labelRead) :
    Lawful s.enterSpinningUp := by
  unfold State.enterSpinningUp
  dsimp only
  have g1 := Lawful.idle (t := s.newMeasurement.onDrive fun d =>
    { d with state := .spinningUp, spinUp := some (tickAfter s.tick 600000), attempts := 0, stopPending := false,
             fault := none, runDown := none }) g hn rfl g.label fun q hq hk => absurd (g.pass q hq hk) hd
  split
  · exact g1.enterFaulted _
  · exact g1

theorem Lawful.judgeRun (g : Lawful s) (hn : s.inService = none) (hd : s.drive.state ≠ .labelRead) :
    Lawful s.judgeRun := by
  unfold State.judgeRun; split
  · exact g.enterSpinningUp hn hd
  · exact g

theorem Lawful.enterCalibrating (g : Lawful s) (hn : s.inService = none) (hd : s.drive.state ≠ .labelRead) :
    Lawful s.enterCalibrating :=
  Calm.refl.recalibrate.lawful (Lawful.idle g hn rfl g.label fun q hq hk => absurd (g.pass q hq hk) hd)

theorem Lawful.enterLabelRead (g : Lawful s) (hn : s.inService = none) : Lawful s.enterLabelRead :=
  Calm.refl.requestPositioning.lawful (Lawful.idle (t := (s.onDrive fun d =>
    { d with state := .labelRead, labelFails := 0 }).setLabel (.blank .none)) g hn rfl (labelLaw_blank _
        (by decide)) fun _ _ _ => rfl)

theorem Lawful.finishLabelRead (g : Lawful s) {l : Label} (hn : s.inService = none) (hp : s.pass = none) (hl : l.law) :
    Lawful (s.finishLabelRead l) := by
  have hr : ∀ u : State, u.weighReasons.queues = u.queues ∧ u.weighReasons.pass = u.pass ∧
      u.weighReasons.label = u.label := by
    intro u; unfold State.weighReasons; split
    · split <;> exact ⟨rfl, rfl, rfl⟩
    · exact ⟨rfl, rfl, rfl⟩
  unfold State.finishLabelRead; dsimp only
  obtain ⟨r1, r2, r3⟩ := hr (((s.setLabel l).onPos fun x => { x with activity := .idle, target := none, errors :=
      0 }).onDrive
    fun d => { d with speed := !s.pos.inBand, supply := !s.lines.supply, labelFails := 0 })
  split <;> refine Lawful.idle g hn r1
      (by show Label.law (State.label _); first | (rw [r3]; exact hl) | exact r3 ▸ hl) fun q hq => ?_
  · rw [r2] at hq; exact absurd (hp.symm.trans hq) (by simp)
  · have hq : _ = some q := hq
    rw [latch_pass, r2] at hq; exact absurd (hp.symm.trans hq) (by simp)

theorem Lawful.seekError (g : Lawful s) : Lawful s.seekError := by
  unfold State.seekError; dsimp only; split
  · exact (Calm.refl.countBoth.onPos.onPos.recalibrate).lawful g
  · exact ((Calm.refl.countBoth.onPos).lawful g).enterFaulted _

theorem Lawful.headerMismatch (g : Lawful s) {x : Addr} : Lawful (s.headerMismatch x) :=
    (Calm.refl.onPos.lawful g).seekError

theorem Lawful.recalibrationFailed (g : Lawful s) : Lawful s.recalibrationFailed := by
  unfold State.recalibrationFailed; dsimp only
  split
  · split
    · exact (Calm.refl.onPos.onDrive.recalibrate).lawful g
    · exact (Calm.refl.onPos.lawful g).enterFaulted _
  · exact (Calm.refl.onPos.lawful g).seekError


/-! ### The scheduler -/

/-- A waiting order holds no classification, and what it would write meets the law. -/
theorem waiting_toBe {x : Slot} (hx : x.assignLaw) (hw : x.state = .queued ∨ x.state = .suspended) {l : Label} (hl :
    l.law) :
    (x.labelToBe l).law ∧ ∀ c i w, x.maint ≠ .assign c i w := by
  have hm : ∀ c i w, x.maint ≠ .assign c i w := fun c i w h => by
    obtain ⟨-, h1, h2, -⟩ := hx.2 c i w h
    exact hw.elim h1 h2
  refine ⟨?_, hm⟩
  unfold Slot.labelToBe
  cases hp : x.params with
  | label name serial => exact labelLaw_first (by decide) (.inl ⟨rfl, rfl⟩)
  | assign a =>
    cases h : x.maint with
    | assign c i w => exact absurd h (hm c i w)
    | none => exact hl
    | test => exact hl
  | none => exact hl
  | format => exact hl
  | test => exact hl

/-- A waiting order becomes IN SERVICE while none is. -/
theorem Lawful.serve (g : Lawful s) (hn : s.inService = none) (hd : s.drive.state.serving = true) (h :
    s.slot p k = some sl)
    (hw : sl.state = .queued ∨ sl.state = .suspended) : Lawful (s.modSlot p k fun x => { x with state :=
        .inService }) := by
  have e : ∀ q j y, (s.modSlot p k fun x => { x with state := .inService }).slot q j = some y →
      ((q, j) = (p, k) ∧ y = { sl with state := .inService }) ∨ s.slot q j = some y := by
    intro q j y hy
    rw [slot_modSlot] at hy
    split at hy
    · next c =>
      obtain ⟨rfl, rfl⟩ := c
      rw [h] at hy; cases hy; exact .inl ⟨rfl, rfl⟩
    · exact .inr hy
  obtain ⟨hb, hm⟩ := waiting_toBe (g.slot p k sl h) hw g.label
  refine ⟨service_of_unique fun q j x q' j' y hx hxs hy hys => ?_, g.label, fun q j y hy => ?_, fun q j y hy hys =>
      ?_, g.pass⟩
  · rcases e q j x hx with ⟨a, -⟩ | a
    · rcases e q' j' y hy with ⟨b, -⟩ | b
      · exact a.trans b.symm
      · exact absurd hys (inService_none hn _ _ _ b)
    · exact absurd hxs (inService_none hn _ _ _ a)
  · rcases e q j y hy with ⟨-, rfl⟩ | a
    · exact ⟨(g.slot p k sl h).1, fun c i w hc => absurd hc (hm c i w)⟩
    · exact g.slot q j y a
  · rcases e q j y hy with ⟨-, rfl⟩ | a
    · exact ⟨hd, hb⟩
    · exact absurd hys (inService_none hn _ _ _ a)

/-- The record of an order in service takes its classification. -/
theorem classified_slot (c : AssignCase) (i : Option Nat) (w : AssignWrite) (h : s.slot p k = some sl) (q : Port) (j :
    Fin 8) (y : Slot)
    (hy : (s.modSlot p k (·.classified c i w)).slot q j = some y) :
    ((q, j) = (p, k) ∧ y = sl.classified c i w) ∨ s.slot q j = some y := by
  rw [slot_modSlot] at hy
  split at hy
  · next e =>
    obtain ⟨rfl, rfl⟩ := e
    rw [h] at hy; cases hy; exact .inl ⟨rfl, rfl⟩
  · exact .inr hy

/-- An ASSIGN SPARE handed the actuator is classified by the held label, with a free spare (R147, R148). -/
theorem Lawful.beginAssign (g : Lawful s) (h : s.slot p k = some sl) (hs : sl.state = .inService) (hk :
    sl.kind = .assignSpare) :
    Lawful (s.beginAssign p k sl.startAddr).1 := by
  have hx : ∀ a, sl.params = .assign a → a = sl.startAddr ∧ a.cyl ≤ 384 ∧ a.head ≤ 3 ∧ a.sector ≤ 19 := fun a ha => by
    obtain ⟨h1, h2⟩ := (g.slot p k sl h).1 a ha
    exact ⟨by unfold Slot.startAddr; rw [h1]; rfl, h2⟩
  have hnew : classifyTarget s.label sl.startAddr = .newEntry → ∀ a, sl.params = .assign a → a.cyl ≤ 383 :=
      fun hc a ha => by
    obtain ⟨rfl, h2, -⟩ := hx a ha
    unfold classifyTarget at hc
    dsimp only at hc
    split at hc
    · split at hc
      · cases hc
      · split at hc <;> cases hc
    · next hne => omega
  have law : ∀ (i : Option Nat) (w : AssignWrite), (∀ n, i = some n → n ≤ 79) →
      ∀ q j y, (s.modSlot p k (·.classified (classifyTarget s.label sl.startAddr) i w)).slot q j = some y →
          y.assignLaw := by
    intro i w hi q j y hy
    rcases classified_slot _ i w h q j y hy with ⟨-, rfl⟩ | hy
    · refine ⟨(g.slot p k sl h).1, fun c i' w' hm => ?_⟩
      have hm : Maint.assign (classifyTarget s.label sl.startAddr) i w = .assign c i' w' := hm
      cases hm
      exact ⟨hk, by show sl.state ≠ _; rw [hs]; simp, by show sl.state ≠ _; rw [hs]; simp, hi, hnew⟩
    · exact g.slot q j y hy
  have ends : ∀ (w : AssignWrite) e fa, Lawful ((s.modSlot p k (·.classified
      (classifyTarget s.label sl.startAddr) none w)).endSlot p k e fa) := by
    intro w e fa
    have c : Calm (s.modSlot p k (·.classified (classifyTarget s.label sl.startAddr) none w)) _ := Calm.refl.endSlot
        (p := p) (k := k) (e := e) (fa := fa)
    have hm : (s.modSlot p k (·.classified (classifyTarget s.label sl.startAddr) none w)).slot p k
        = some (sl.classified (classifyTarget s.label sl.startAddr) none w) := by rw [slot_modSlot_same, h]; rfl
    have one : (s.modSlot p k (·.classified (classifyTarget s.label sl.startAddr) none w)).serviceLaw := by
      refine service_of_unique fun q j x q' j' y hx hxs hy hys => ?_
      have st : ∀ q j x, (s.modSlot p k (·.classified (classifyTarget s.label sl.startAddr) none w)).slot q j = some x →
          x.state = .inService → ∃ x', s.slot q j = some x' ∧ x'.state = .inService := by
        intro q j x hx hxs
        rcases classified_slot _ none w h q j x hx with ⟨e, rfl⟩ | hx
        · cases e; exact ⟨sl, h, hs⟩
        · exact ⟨x, hx, hxs⟩
      obtain ⟨x', a, b⟩ := st q j x hx hxs
      obtain ⟨y', a', b'⟩ := st q' j' y hy hys
      exact g.unique a b a' b'
    refine .of_none (c.none_left one hm hs (endSlot_left _ _)) (by rw [c.label]; exact g.label) (fun q j y hy =>
        ?_) fun q hq hk => ?_
    · obtain ⟨x, hx, n⟩ := c.slot q j y hy
      exact n.law (law none w (fun _ h => by cases h) q j x hx)
    · have := g.pass q (c.pass q hq hk) hk
      rcases c.drive with e | e
      · exact e.trans this
      · have e := e.1; rw [show (s.modSlot p k _).drive = s.drive from rfl, this] at e; cases e
  have stays : ∀ (i : Option Nat) (w : AssignWrite), s.label.state = .valid → (∀ n, i = some n → n ≤ 79) →
      ((classifyTarget s.label sl.startAddr).takesSpare = true → i.getD 0 ≤ 79 ∧ (∀ e ∈ s.label.table,
          e.spare ≠ i.getD 0) ∧ i.getD 0 ∉ s.label.retired) →
      Lawful (s.modSlot p k (·.classified (classifyTarget s.label sl.startAddr) i w)) := by
    intro i w hv hi hf
    refine ⟨service_of_unique fun q j x q' j' y hx hxs hy hys => ?_, g.label, law i w hi, fun q j y hy hys => ?_,
        g.pass⟩
    · have st : ∀ q j x, (s.modSlot p k (·.classified (classifyTarget s.label sl.startAddr) i w)).slot q j = some x →
          x.state = .inService → ∃ x', s.slot q j = some x' ∧ x'.state = .inService := by
        intro q j x hx hxs
        rcases classified_slot _ i w h q j x hx with ⟨e, rfl⟩ | hx
        · cases e; exact ⟨sl, h, hs⟩
        · exact ⟨x, hx, hxs⟩
      obtain ⟨x', a, b⟩ := st q j x hx hxs
      obtain ⟨y', a', b'⟩ := st q' j' y hy hys
      exact g.unique a b a' b'
    · rcases classified_slot _ i w h q j y hy with ⟨-, rfl⟩ | hy
      · refine ⟨(g.served p k sl h hs).1, ?_⟩
        show ((sl.classified (classifyTarget s.label sl.startAddr) i w).labelToBe s.label).law
        unfold Slot.labelToBe
        rw [show (sl.classified (classifyTarget s.label sl.startAddr) i w).params = sl.params from rfl,
          show (sl.classified (classifyTarget s.label sl.startAddr) i w).maint = .assign
              (classifyTarget s.label sl.startAddr) i w from rfl]
        cases hp : sl.params with
        | label name serial => exact labelLaw_first (gen := 1) (by decide) (.inl ⟨rfl, rfl⟩)
        | assign a =>
          obtain ⟨rfl, h2⟩ := hx a hp
          exact assigned_law g.label h2 rfl hf
        | none => exact g.label
        | format => exact g.label
        | test => exact g.label
      · exact g.served q j y hy hys
  unfold State.beginAssign
  split
  · exact Calm.refl.endSlot.lawful g
  · next hv =>
    have hv : s.label.state = .valid := by simpa using hv
    dsimp only
    split
    · split
      · exact ends _ _ _
      · next i hi =>
        have hf := lowestFree_spec hi
        exact Calm.refl.setProgress.goTo.lawful (stays (some i) .zeroing hv (fun n h =>
            by cases h; exact hf.1) fun _ => hf)
    · next ht =>
      split
      · exact ends _ _ _
      · exact Calm.refl.setProgress.goTo.lawful (stays none .labelWrite hv (fun _ h => by cases h) fun h => absurd h ht)

theorem Lawful.handTo (g : Lawful s) (hn : s.inService = none) (hd : s.drive.state.serving = true) (h :
    s.slot p k = some sl)
    (hw : sl.state = .queued ∨ sl.state = .suspended) : Lawful (s.handTo p k).1 := by
  have g1 : Lawful { s.modSlot p k (fun x => { x with state := .inService }) with sched := { s.sched with last :=
      p } } :=
    (Calm.refl.same (s := s.modSlot p k fun x => { x with state := .inService })).lawful (g.serve hn hd h hw)
  have hs : ({ s.modSlot p k (fun x => { x with state := .inService }) with sched := { s.sched with last := p } } :
      State).slot p k
      = some { sl with state := .inService } := by
    show (s.modSlot p k _).slot p k = _
    rw [slot_modSlot_same, h]; rfl
  unfold State.handTo
  dsimp only
  rw [hs]
  dsimp only
  split
  · exact Calm.refl.setProgress.goTo.lawful g1
  · exact Calm.refl.setProgress.goTo.lawful g1
  · exact Calm.refl.setProgress.goTo.lawful g1
  · next hk => exact g1.beginAssign hs rfl hk
  · exact Calm.refl.beginData.lawful g1

theorem Lawful.select (g : Lawful s) : Lawful s.select.1 := by
  unfold State.select
  split
  · next hm =>
    simp only [State.maySelect, Bool.and_eq_true, Option.isNone_iff_eq_none] at hm
    obtain ⟨⟨⟨hn, hd⟩, -⟩, -⟩ := hm
    dsimp only
    split
    · next e => have := stepOne_some e; exact g.handTo hn hd this.1 (.inl this.2.1)
    · split
      · next e => have := suspendedCandidate_some e; exact g.handTo hn hd this.1 (.inr this.2)
      · split
        · next p k sl e =>
          have := stepThree_some e
          exact Lawful.handTo (s := { s with sched := { s.sched with bypass := s.bypassAfter p } })
            (Calm.refl.same.lawful g) hn hd this.1 (.inl this.2.1)
        · exact g
  · exact g

/-- A suspension hands the actuator on; no ASSIGN SPARE is suspended (R85). -/
theorem Lawful.checkSuspension {pos : Nat} {r : State × Agenda} (g : Lawful s) (hs : Serving s p k)
    (e : s.checkSuspension p k pos = some r) : Lawful r.1 := by
  obtain ⟨sl, hsl, hst⟩ := hs
  unfold State.checkSuspension at e
  rw [hsl] at e
  dsimp only at e
  split at e
  · next q j hq =>
    cases e
    unfold State.suspensionFor at hq
    split at hq
    · next hc =>
      split at hq
      · cases hq
      · next x hx =>
        dsimp only at hq
        split at hq
        · cases hq
          have hx := stepOne_some hx
          have hk : sl.kind ≠ .assignSpare := by
            intro hk; have := hc.2.1; unfold Slot.suspendable at this; rw [hk] at this; cases this
          have hm : ∀ c i w, sl.maint ≠ .assign c i w := fun c i w h => hk ((g.slot p k sl hsl).2 c i w h).1
          have hsv := (g.served p k sl hsl hst).1
          let u : State := ({ s.modSlot p k (fun x => { x with state := .suspended }) with progress := none, pass :=
              none } : State).countBoth .suspensions
          have hu : ∀ q j y, u.slot q j = some y → ((q, j) = (p, k) ∧ y = { sl with state := .suspended }) ∨ ((q, j) ≠
              (p, k) ∧ s.slot q j = some y) := by
            intro q j y hy
            have hy : (s.modSlot p k fun x => { x with state := .suspended }).slot q j = some y := hy
            rw [slot_modSlot] at hy
            split at hy
            · next c => obtain ⟨rfl, rfl⟩ := c; rw [hsl] at hy; cases hy; exact .inl ⟨rfl, rfl⟩
            · next c => exact .inr ⟨fun e => c (by cases e; exact ⟨rfl, rfl⟩), hy⟩
          have un : u.inService = none := inService_eq_none fun q j y hy hys => by
            rcases hu q j y hy with ⟨-, rfl⟩ | ⟨ne, hy⟩
            · cases hys
            · exact ne (g.unique hy hys hsl hst)
          have gu : Lawful u := .of_none un g.label (fun q j y hy => by
            rcases hu q j y hy with ⟨-, rfl⟩ | ⟨-, hy⟩
            · exact ⟨(g.slot p k sl hsl).1, fun c i w h => absurd h (hm c i w)⟩
            · exact g.slot q j y hy) fun q hq => by cases hq
          refine gu.handTo (p := q) (k := j) un hsv (sl := x) ?_ (.inl hx.2.1)
          show (s.modSlot p k _).slot q j = _
          rw [slot_modSlot, if_neg]
          · exact hx.1
          · rintro ⟨rfl, rfl⟩
            have := hx.1; rw [hsl] at this; cases this
            have := hx.2.1; rw [hst] at this; cases this
        · cases hq
    · cases hq
  · cases e

theorem Lawful.dataBoundary {pos : Nat} {r : Option Result} {c : Bool} (g : Lawful s) (hs : Serving s p k) :
    Lawful (s.dataBoundary p k pos r c).1 := by
  unfold State.dataBoundary
  split
  · split
    · exact Calm.refl.freeWithdrawn.lawful g
    · split
      · exact Calm.refl.endWith.lawful g
      · split
        · exact Calm.refl.endWith.lawful g
        · split
          · exact Calm.refl.endWith.lawful g
          · split
            · exact Calm.refl.endWith.lawful g
            · split
              · next e => exact g.checkSuspension hs e
              · split
                · exact Calm.refl.nextSector.lawful g
                · exact g
  · exact g

theorem Lawful.maintThen {pos : Nat} {r : Option Result} {go : State × Agenda} (g : Lawful s) (hs : Serving s p k)
    (hgo : Lawful go.1) : Lawful (s.maintThen p k pos r go).1 := by
  unfold State.maintThen
  split
  · next e => exact (Calm.refl.maintBoundary e).lawful g
  · split
    · next e => exact g.checkSuspension hs e
    · exact hgo


/-! ### The engine -/

theorem Lawful.takePass (g : Lawful s) {x : PassKind} {gr : Progress} {b : Addr} {ws : List Word} {r : HeaderReading}
    (hx : x ≠ .labelRead := by simp) : Lawful (s.takePass p k gr x b ws r).1 := by
  unfold State.takePass
  dsimp only
  split <;> split
  · exact (Calm.refl.modSlot.countBoth.modSlot.lawful g).headerMismatch
  · exact (Calm.refl.modSlot.lawful g).headerMismatch
  · exact (Calm.refl.modSlot.countBoth.modSlot.setPass hx).lawful g
  · exact (Calm.refl.modSlot.setPass hx).lawful g
  · exact (Calm.refl.modSlot.countBoth.modSlot.onPos.setPass hx).lawful g
  · exact (Calm.refl.modSlot.onPos.setPass hx).lawful g

theorem Lawful.startData (g : Lawful s) {sl : Slot} {gr : Progress} {r : HeaderReading} : Lawful
    (s.startData p k sl gr r).1 := by
  have e : ∀ {e b}, Lawful (s.endAtStart p k e b).1 := Calm.refl.endAtStart.lawful g
  have l : ∀ {b}, Lawful (s.slip p k b).1 := Calm.refl.slip.lawful g
  unfold State.startData
  dsimp only
  split
  · split
    · exact l
    · split
      · exact l
      · split
        · exact e
        · exact g.takePass
  · split
    · exact e
    · exact g.takePass
  · split
    · split
      · exact e
      · exact g.takePass
    · split
      · exact l
      · split
        · exact e
        · split
          · exact e
          · split
            · exact e
            · exact g.takePass
  · exact g

theorem Lawful.startFormat (g : Lawful s) {sl : Slot} : Lawful (s.startFormat p k sl).1 := by
  have e : ∀ {e b}, Lawful (s.endAtStart p k e b).1 := Calm.refl.endAtStart.lawful g
  unfold State.startFormat
  dsimp only
  split
  · exact e
  · split
    · exact e
    · split
      · exact e
      · split
        · exact Calm.refl.setPass.lawful (g.loseLabel (by decide))
        · exact Calm.refl.setPass.lawful g

theorem Lawful.startFrozen (g : Lawful s) {x : PassKind} {gr : Progress} {b : Addr} {ws : List Word} {r : HeaderReading}
    (hx : x ≠ .labelRead := by simp) : Lawful (s.startFrozen p k gr x b ws r).1 := by
  unfold State.startFrozen
  split
  · exact Calm.refl.endAtStart.lawful g
  · split
    · exact Calm.refl.endAtStart.lawful g
    · exact g.takePass hx

theorem Lawful.startInService (g : Lawful s) {sl : Slot} {gr : Progress} {n : Nat} {r : HeaderReading} :
    Lawful (s.startInService p k sl gr n r).1 := by
  unfold State.startInService
  split
  · split
    · exact g.startData
    · exact g
  · split
    · exact g.startFormat
    · exact g
  · exact g
  · exact Calm.refl.startTest.lawful g
  · exact Calm.refl.startTest.lawful g
  · split
    · exact g.startFrozen
    · exact g
  · split
    · exact g.startFrozen
    · exact g
  · split
    · exact g.takePass
    · exact g

theorem Lawful.labelPass (g : Lawful s) (hd : s.drive.state = .labelRead) {b : Addr} {v : Verdict} {ws : List Word} :
    Lawful (s.setPass .labelRead b v ws) :=
  ⟨g.one, g.label, g.slot, g.served, fun _ _ _ => hd⟩

theorem Lawful.startLabelRead (g : Lawful s) (hd : s.drive.state = .labelRead) {r : HeaderReading} : Lawful
    (s.startLabelRead r).1 := by
  unfold State.startLabelRead
  dsimp only
  split <;> split
  · exact (Calm.refl.countBoth.lawful g).headerMismatch
  · exact g.headerMismatch
  · exact (Calm.refl.countBoth.lawful g).labelPass hd
  · exact g.labelPass hd
  · exact (Calm.refl.countBoth.onPos.lawful g).labelPass hd
  · exact (Calm.refl.onPos.lawful g).labelPass hd

theorem Lawful.sectorStart (g : Lawful s) {n : Nat} {r : HeaderReading} : Lawful (s.sectorStart n r).1 := by
  unfold State.sectorStart
  split
  · exact g
  · split
    · next hd =>
      split
      · exact g.startLabelRead hd
      · exact g
    · split
      · exact g.startInService
      · exact g

theorem Lawful.endDataPass (g : Lawful s) (hs : Serving s p k) {sl : Slot} {gr : Progress} {x : Pass} {d :
    DataReading} :
    Lawful (s.endDataPass p k sl gr x d).1 := by
  unfold State.endDataPass
  dsimp only
  split
  · exact g.dataBoundary hs
  · split
    · split
      · exact (Calm.refl.sectorDone.count.lawful g).dataBoundary ((hs.sectorDone (g := gr)).keep rfl)
      · exact (Calm.refl.putBuffer.sectorDone.count.lawful g).dataBoundary (((hs.keep (t :=
            s.putBuffer _ _) rfl).sectorDone (g := gr)).keep rfl)
    · exact (Calm.refl.failPass.lawful g).dataBoundary (hs.keep rfl)
  · split
    · exact (Calm.refl.sectorDone.count.lawful g).dataBoundary ((hs.sectorDone (g := gr)).keep rfl)
    · exact (Calm.refl.failPass.lawful g).dataBoundary (hs.keep rfl)
  · split
    · refine (Calm.refl.writeData.putBuffer.sectorDone.count.testRequests.beginVerify.lawful g).dataBoundary
          (Serving.beginVerify ?_)
      refine Serving.keep (s := ((s.writeData x.addr x.words).putBuffer _ _).sectorDone p k gr) ?_
        (by rw [testRequests_queues, count_queues])
      exact Serving.sectorDone (hs.keep rfl)
    · exact (Calm.refl.failPass.lawful g).dataBoundary (hs.keep rfl)
  · split
    · exact (Calm.refl.withProgress.lawful g).dataBoundary (hs.keep rfl)
    · exact g.dataBoundary hs
  · exact g

theorem Lawful.endFormatPass (g : Lawful s) (hs : Serving s p k) {sl : Slot} {x : Pass} : Lawful
    (s.endFormatPass p k sl x).1 :=
  (Calm.refl.putSector.modSlot.lawful g).maintThen ((hs.keep (t := s.putSector x.addr _) rfl).record _ fun _ _ => rfl)
    (Calm.refl.putSector.modSlot.lawful g)

theorem Lawful.endZeroPass (g : Lawful s) (hs : Serving s p k) {gr : Progress} {x : Pass} : Lawful
    (s.endZeroPass p k gr x).1 := by
  unfold State.endZeroPass
  dsimp only
  split
  · refine (Calm.refl.writeData.lawful g).maintThen (hs.keep rfl) ((Calm.refl.writeData.toStage.modSlot fun y _ =>
        ?_).goTo.lawful g)
    split
    · next e => exact ⟨rfl, rfl, rfl, by rw [e]; rfl, .inl rfl⟩
    · exact .refl _
  · exact (Calm.refl.failPass (e := .writeFault) (b := x.addr).lawful g).maintThen (hs.keep rfl)
      (Calm.refl.failPass (e := .writeFault) (b := x.addr).lawful g)

theorem Lawful.endLabelWritePass (g : Lawful s) (hs : Serving s p k) {gr : Progress} {x : Pass} :
    Lawful (s.endLabelWritePass p k gr x).1 := by
  unfold State.endLabelWritePass
  dsimp only
  split
  · exact (Calm.refl.writeData.toStage.lawful g).maintThen (hs.keep rfl) (Calm.refl.writeData.toStage.lawful g)
  · exact (Calm.refl.failPass (e := .writeFault) (b := x.addr).lawful g).maintThen (hs.keep rfl)
      (Calm.refl.failPass (e := .writeFault) (b := x.addr).lawful g)

/-- An order that ends with the label it has written. -/
theorem Lawful.ends_with_label (g : Lawful s) (h : s.slot p k = some sl) (hs : sl.state = .inService) {l : Label}
    (hl : l.law)
    {x : State × Agenda} {r : Result} (e : (s.setLabel l).maintBoundary p k (some r) = some x) : Lawful x.1 := by
  have c : Calm (s.setLabel l) x.1 := Calm.refl.maintBoundary e
  have left : Left x.1 p k := by
    unfold State.maintBoundary at e
    rw [show (s.setLabel l).slot p k = some sl from h] at e
    dsimp only at e
    split at e
    · cases e; exact freeWithdrawn_left
    · split at e
      · cases e; exact endWith_left
      · cases e; exact endWith_left
  refine .of_none (c.none_left (s := s.setLabel l) g.one h hs left) (by rw [c.label]; exact hl) (fun q j y hy =>
      ?_) fun q hq hk => ?_
  · obtain ⟨z, hz, n⟩ := c.slot q j y hy
    exact n.law (g.slot q j z hz)
  · have := g.pass q (c.pass q hq hk) hk
    rcases c.drive with e | e
    · exact e.trans this
    · have e := e.1; rw [show (s.setLabel l).drive = s.drive from rfl, this] at e; cases e

/-- A label write confirmed sets the held label to what the order in service would write (R145). -/
theorem Lawful.endReadBack (g : Lawful s) (h : s.slot p k = some sl) (hs : sl.state = .inService) {x : Pass} {d :
    DataReading} :
    Lawful (s.endReadBack p k sl x d).1 := by
  have g1 : Lawful (s.toStage .labelWrite) := Calm.refl.toStage.lawful g
  have some' : ∀ (u : State) (y : Slot), u.slot p k = some y → ∀ r, ∃ z, u.maintBoundary p k (some r) = some z := by
    intro u y hy r
    unfold State.maintBoundary
    rw [hy]; dsimp only
    split
    · exact ⟨_, rfl⟩
    · split <;> exact ⟨_, rfl⟩
  unfold State.endReadBack
  dsimp only
  split
  · obtain ⟨z, hz⟩ := some' ((s.toStage .labelWrite).setLabel (sl.labelToBe s.label)) sl h
        { ending := .done, sectors := some 1 }
    unfold State.maintThen
    rw [hz]
    exact g1.ends_with_label h hs (g.served p k sl h hs).2 hz
  · have g2 := g1.loseLabel (st := .damaged) (by decide)
    exact g2.maintThen (Serving.keep (s := s) ⟨sl, h, hs⟩ (by rw [loseLabel_queues]; rfl)) g2

theorem Lawful.endTestRead (g : Lawful s) (h : s.slot p k = some sl) (hs : sl.state = .inService) {x : Pass} {d :
    DataReading} :
    Lawful (s.endTestRead p k sl x d).1 := by
  have near := testReadSector_near sl x (d.words s.disk x.addr) (d.passes s.disk x.addr)
  have keep := testReadSector_keeps sl x (d.words s.disk x.addr) (d.passes s.disk x.addr)
  have g1 : Lawful (s.modSlot p k fun _ => (sl.testReadSector x (d.words s.disk x.addr) (d.passes s.disk x.addr)).1) :=
    (Calm.refl.modSlot fun y hy => by rw [h] at hy; cases hy; exact near).lawful g
  have h1 : Serving (s.modSlot p k fun _ => (sl.testReadSector x (d.words s.disk x.addr)
      (d.passes s.disk x.addr)).1) p k :=
    ⟨_, by rw [slot_modSlot_same, h]; rfl, by rw [keep.2.1, hs]⟩
  unfold State.endTestRead
  dsimp only
  split
  · split
    · exact g1.maintThen h1 g1
    · exact g1
  · exact g1

theorem Lawful.endLabelRead (g : Lawful s) (hn : s.inService = none) (hp : s.pass = none) {x : Pass} {d : DataReading} :
    Lawful (s.endLabelRead x d).1 := by
  unfold State.endLabelRead
  split
  · exact g.finishLabelRead hn hp (judgeLabel_law _)
  · split
    · exact g.finishLabelRead hn hp (labelLaw_blank .damaged (by decide))
    · exact (Calm.refl.onDrive (f := fun y => { y with labelFails := y.labelFails + 1 })).lawful g

/-- The end of a pass: a label is read only in LABEL READ, where no order is IN SERVICE. -/
theorem Lawful.passEnd (g : Lawful s) {d : DataReading} : Lawful (s.passEnd d).1 := by
  unfold State.passEnd
  split
  · exact g
  · next q hq =>
    dsimp only
    have g1 : Lawful { s with pass := none } := Calm.refl.noPass.lawful g
    split
    · next hk =>
      have : s.inService = none := g.not_serving (by rw [g.pass q hq hk]; rfl)
      exact g1.endLabelRead ((inService_of_queues rfl).trans this) rfl
    · split
      · next e _ =>
        have hs := Serving.of _ e
        have hi := inService_some e
        split
        · exact g1.endFormatPass hs
        · exact g1.endZeroPass hs
        · exact g1.endLabelWritePass hs
        · exact g1.endReadBack hi.1 hi.2
        · exact Calm.refl.endTestWrite.lawful g1
        · exact g1.endTestRead hi.1 hi.2
        · exact g1.endDataPass hs
      · exact g1

theorem Lawful.testBoundary (g : Lawful s) (hs : Serving s p k) {st : Stage} : Lawful (s.testBoundary p k st).1 := by
  obtain ⟨sl, hsl, hst⟩ := hs
  have keep := closeRevolution_keeps sl st
  have c : Calm s (s.modSlot p k fun _ => sl.closeRevolution st) :=
    Calm.refl.modSlot fun y hy => by rw [hsl] at hy; cases hy; exact closeRevolution_near sl st
  unfold State.testBoundary
  rw [hsl]
  refine (c.lawful g).maintThen ⟨sl.closeRevolution st, ?_, by rw [keep.2.1, hst]⟩ (c.toStage.lawful g)
  rw [slot_modSlot_same, hsl]; rfl

theorem Lawful.testIndex (g : Lawful s) : Lawful s.testIndex.1 := by
  unfold State.testIndex
  split
  · next e _ =>
    split
    · exact (Calm.refl.completeTestWrite.lawful g).testBoundary (Serving.of _ e).completeTestWrite
    · exact g
  · exact g

theorem Lawful.arrivalBoundary (g : Lawful s) : Lawful s.arrivalBoundary.1 := by
  unfold State.arrivalBoundary
  split
  · exact g
  · next e =>
    have hs := Serving.of _ e
    split
    · exact g.dataBoundary hs
    · dsimp only
      split
      · have g1 := (Calm.refl.onPos (f := fun y => { y with activity := .confirmed })).lawful g
        exact g1.maintThen (hs.keep rfl) g1
      · exact g.maintThen hs g

theorem Lawful.stopOrSelect (g : Lawful s) : Lawful s.stopOrSelect.1 := by
  unfold State.stopOrSelect; split
  · next h => exact g.enterSpinningDown h.2
  · exact g.select

theorem Lawful.advance (g : Lawful s) (x : Agenda) : Lawful (s.advance x).1 := by
  cases x with
  | idle => exact g
  | select => exact g.select
  | released => exact g.stopOrSelect
  | arrived => exact g.arrivalBoundary

theorem Lawful.settle (n : Nat) (g : Lawful s) {x : Agenda} : Lawful (settle n (s, x)) := by
  induction n generalizing s x with
  | zero => exact g
  | succ n ih =>
    cases x with
    | idle => exact g
    | select => exact ih (x := (s.advance .select).2) (g.advance .select)
    | released => exact ih (x := (s.advance .released).2) (g.advance .released)
    | arrived => exact ih (x := (s.advance .arrived).2) (g.advance .arrived)

theorem Lawful.settled {x : State × Agenda} (g : Lawful x.1) : Lawful (State.settled x) := g.settle settleLimit
theorem Lawful.schedule (g : Lawful s) : Lawful s.schedule := Lawful.settled (x := (s, .select)) g
theorem Lawful.judgeAlarm (g : Lawful s) : Lawful s.judgeAlarm := Calm.refl.judgeAlarm.lawful g
theorem Lawful.close {x : State × Agenda} (g : Lawful x.1) : Lawful (State.close x) := g.settled.judgeAlarm


/-! ### Commands -/

/-- The laws read the label, the drive state, the pass and the queues alone. -/
theorem Lawful.same (g : Lawful s) (hl : t.label = s.label := by rfl) (hd : t.drive.state = s.drive.state := by rfl)
    (hp : t.pass = s.pass := by rfl) (hq : t.queues = s.queues := by rfl) : Lawful t :=
        (Calm.refl.same hl hd hp hq).lawful g

theorem Lawful.ite {b : Prop} [Decidable b] {x y : State} (h : b → Lawful x) (h' : ¬b → Lawful y) : Lawful
    (if b then x else y) := by
  split
  · next e => exact h e
  · next e => exact h' e

/-- An order enters a FREE slot, and does not yet serve. -/
theorem Lawful.entersWith (g : Lawful s) {f : Queue → Queue} (hq : sl.state ≠ .inService) (hl : sl.assignLaw)
    (hf : ∀ j y, (f (s.queues.get p)).slots[j] = some y → y = sl ∨ s.slot p j = some y) : Lawful (s.onQueue p f) := by
  have old : ∀ q j y, (s.onQueue p f).slot q j = some y → y = sl ∨ s.slot q j = some y := by
    intro q j y hy
    rw [slot_onQueue] at hy
    split at hy
    · next c => subst c; exact hf j y hy
    · exact .inr hy
  refine ⟨service_of_unique fun q j x q' j' y hx hxs hy hys => ?_, g.label, fun q j y hy => ?_, fun q j y hy hys =>
      ?_, g.pass⟩
  · rcases old _ _ _ hx with rfl | hx
    · exact absurd hxs hq
    · rcases old _ _ _ hy with rfl | hy
      · exact absurd hys hq
      · exact g.unique hx hxs hy hys
  · rcases old _ _ _ hy with rfl | hy
    · exact hl
    · exact g.slot _ _ _ hy
  · rcases old _ _ _ hy with rfl | hy
    · exact absurd hys hq
    · exact g.served _ _ _ hy hys

/-- A slot that was taken is the new record or what stood there. -/
theorem enter_old {q : Queue} {k : Fin 8} (j : Fin 8) (y : Slot) (h : (q.enter k sl).slots[j] = some y) : y = sl ∨
    q.slots[j] = some y := by
  unfold Queue.enter at h
  simp only [Fin.getElem_fin, Vector.getElem_set] at h
  split at h
  · cases h; exact .inl rfl
  · exact .inr h

theorem Lawful.enqueue (g : Lawful s) (hq : sl.state = .queued) (hl : sl.assignLaw) : Lawful (s.enqueue p sl) := by
  refine (Lawful.schedule ?_).judgeAlarm
  unfold State.enterSlot
  split
  · exact g.entersWith (by rw [hq]; decide) hl fun j y h => enter_old j y h
  · exact g

/-- A record of another kind meets the law of an ASSIGN SPARE. -/
theorem Slot.assignLaw_of (h1 : ∀ x, sl.params ≠ .assign x) (h2 : ∀ c i w, sl.maint ≠ .assign c i w) : sl.assignLaw :=
  ⟨fun x h => absurd h (h1 x), fun c i w h => absurd h (h2 c i w)⟩

theorem Lawful.answerNow (g : Lawful s) {x : Kind} {tag : Byte} {body : List Word} : Lawful
    (s.answerNow p x tag body) := by
  unfold State.answerNow
  split
  · exact g.entersWith (sl := Slot.immediate x tag s.tick body) (by simp [Slot.immediate])
      (Slot.assignLaw_of (fun _ h => by cases h) fun _ _ _ h => by cases h) fun j y h => enter_old j y h
  · exact g

theorem Lawful.acceptData (g : Lawful s) {x : Kind} {v : Bool} {y : Packet} : Lawful (s.acceptData p x v y) :=
  (Calm.refl.count.lawful g).enqueue rfl (Slot.assignLaw_of (fun _ h => by cases h) fun _ _ _ h => by cases h)

theorem Calm.disarm (h : Calm a s) : Calm a (s.disarm p) := h.same
theorem Calm.answerWord {w : Word} (h : Calm a s) : Calm a (s.answer p w) := h.same
theorem Calm.openExchange {x : ExchangeKind} {w : Word} {r : List Word} (h : Calm a s) : Calm a
    (s.openExchange p x w r) := h.same
theorem Calm.closeExchange (h : Calm a s) : Calm a (s.closeExchange p) := h.same
theorem Calm.refuse {r : Refuse} (h : Calm a s) : Calm a (s.refuse p r) := h.same
theorem Calm.accepted (h : Calm a s) : Calm a (s.accepted p) := h.same
theorem Calm.ite {b : Prop} [Decidable b] {x y : State} (h : b → Calm a x) (h' : ¬b → Calm a y) : Calm a
    (if b then x else y) := by
  split
  · next e => exact h e
  · next e => exact h' e

/-- An order packet is refused, or accepted with its own checks passed. -/
theorem Lawful.orderPacket (g : Lawful s) {o : OrderRule} {tag : Byte} {rest : List Word}
    (h : ∀ x, o.own s p x = none → Lawful (o.accept (s.disarm p) p x)) : Lawful (s.orderPacket p o tag rest) := by
  unfold State.orderPacket
  split
  · split
    · exact Calm.refl.refuse.lawful g
    · split
      · exact Calm.refl.refuse.lawful g
      · next e => exact Calm.refl.accepted.lawful (h _ (judgeOrder_own e))
  · exact g

theorem Calm.loadMap {m : Plan} {o : Origin} (h : Calm a s) : Calm a (s.loadMap m o) :=
  (h.same (t := s.setActive m o)).recheckPort.recheckPort
theorem Calm.loadMapLatched {m : Plan} {o : Origin} (h : Calm a s) : Calm a (s.loadMapLatched m o) :=
    h.loadMap.latch.countBoth
theorem Calm.autoChangeover (h : Calm a s) : Calm a s.autoChangeover := .ite (fun _ => h.loadMapLatched) fun _ => h

theorem Calm.abandon (h : Calm a s) : Calm a (s.abandon p) := by
  unfold State.abandon
  split
  · exact h
  · dsimp only
    split
    · exact h.onPort.count.dropOrphan.testRequests
    · exact h.onPort.count

theorem Calm.openWord (h : Calm a s) : Calm a (s.openWord p) := by
  unfold State.openWord; dsimp only; split
  · exact h.abandon.onPort.testRequests.judgeAlarm
  · exact h.abandon.onPort

theorem Calm.clearSlot (h : Calm a s) : Calm a (s.clearSlot p k) := by
  unfold State.clearSlot
  split
  · exact h
  · split
    · exact h.modSlot.release
    · exact h.release.drop

theorem Lawful.clearPort (g : Lawful s) : Lawful (s.clearPort p) := by
  have one : Calm s (slotNumbers.foldl (fun s k => s.clearSlot p k) s) :=
    Calm.foldl _ _ (fun _ _ => Calm.refl.clearSlot) .refl
  unfold State.clearPort
  dsimp only
  exact ((Calm.onPort (f := fun x => { x.reload s.tick with presence :=
      .present }) one).testRequests.lawful g).schedule.judgeAlarm

theorem Calm.withdrawRequests (h : Calm a s) : Calm a (s.withdrawRequests p) :=
  Calm.foldl _ _ (fun _ _ => Calm.refl.release) h

theorem Lawful.losePort (g : Lawful s) : Lawful (s.losePort p) := by
  unfold State.losePort
  exact ((Calm.onPort (f := fun x => { x with presence := .lost, timer := none, armed := false })
    Calm.refl.abandon).withdrawRequests.endWhere.latch.autoChangeover.testRequests.lawful g).schedule.judgeAlarm

theorem Calm.finishDraining (h : Calm a s) : Calm a (s.finishDraining p k) :=
  (h.modSlot (f := fun sl => { sl with state := .done, drainStart := none })
    fun _ _ => ⟨rfl, rfl, rfl, rfl, .inr (.inr rfl)⟩).answerSlot

theorem Calm.deliver {b : Fin 4} (h : Calm a s) : Calm a (s.deliver b) := by
  unfold State.deliver
  dsimp only
  split
  · exact h.putBuffer
  · split
    · split
      · split
        · exact h.putBuffer.finishDraining
        · exact h.putBuffer.modSlot
      · exact h.putBuffer
    · exact h.putBuffer

theorem Lawful.scheduleOnEntry (g : Lawful s) {d : DriveState} : Lawful (s.scheduleOnEntry d) := .ite (fun _ =>
    g) fun _ => g.schedule

theorem Lawful.verdictChanged (g : Lawful s) : Lawful s.verdictChanged :=
  .ite (fun h => g.enterCalibrating (g.not_serving (by rw [h.1]; rfl)) (by rw [h.1]; decide))
    fun _ => (Calm.refl.setReasons.lawful g).scheduleOnEntry

theorem Lawful.indexWatch (g : Lawful s) : Lawful s.indexWatch := by
  unfold State.indexWatch
  dsimp only
  have g1 : Lawful (if s.countsRevolution = true then s.countBoth .outOfBand else s) := .ite (fun _ =>
      Calm.refl.countBoth.lawful g) fun _ => g
  generalize (if s.countsRevolution = true then s.countBoth .outOfBand else s) = u at g1
  have g2 : Lawful (u.onPos fun x => (x.measure s.tick).atIndex) := Calm.refl.onPos.lawful g1
  generalize u.onPos (fun x => (x.measure s.tick).atIndex) = v at g2
  have g3 : Lawful (if v.pos.inBand = s.pos.inBand then v else v.verdictChanged) := .ite (fun _ => g2) fun _ =>
      g2.verdictChanged
  refine .ite (fun _ => Calm.refl.onDrive.lawful g3) fun _ => g3

theorem Lawful.onLines (g : Lawful s) {f : Lines → Lines} : Lawful (s.onLines f) := Calm.refl.onLines.lawful g

theorem Lawful.runHolds (g : Lawful s) : Lawful s.runHolds :=
  .ite (fun h => g.enterSpinningUp (g.not_serving (by rw [h]; rfl)) (by rw [h]; decide))
    fun _ => Calm.refl.onDrive.lawful g

theorem Lawful.runFails (g : Lawful s) : Lawful s.runFails := by
  unfold State.runFails
  split
  · exact g
  · exact g
  iterate 4 next h => exact g.enterSpinningDown (g.not_serving (by rw [h]; rfl))
  all_goals
    split
    · next h => exact g.enterSpinningDown h
    · exact Calm.refl.onDrive.lawful g

theorem Lawful.enterEmpty (g : Lawful s) (h : s.drive.state = .spinningDown) : Lawful s.enterEmpty := by
  have hn : s.inService = none := g.not_serving (by rw [h]; rfl)
  have hp : ∀ q, s.pass = some q → q.kind ≠ .labelRead := fun q hq hk => by
    have := g.pass q hq hk; rw [h] at this; cases this
  unfold State.enterEmpty
  exact (Lawful.idle (t := s.onDrive fun d => { d with state := .empty, runDown := none }) g hn rfl g.label
    fun q hq hk => absurd hk (hp q hq)).judgeRun hn (by show DriveState.empty ≠ _; decide)

theorem Lawful.writePlan (g : Lawful s) {n : Nat} {m : Plan} : Lawful (s.writePlan n m) := by
  unfold State.writePlan
  split
  · exact Calm.refl.loadMap.lawful g
  · exact g.same
  · exact g.same

/-- What every command but a reset keeps: one order IN SERVICE at most, and the laws of the held label and of the
orders that would write it. -/
theorem exec_lawful (c : Instr) (s t : State) (hc : isReset c = false) (h : exec c s = .next t) (g : Lawful s) :
    Lawful t := by
  have d : ∀ {p}, Lawful (s.disarm p) := Calm.refl.disarm.lawful g
  cases c with
  | powerOn l c => cases hc
  | panelReset => cases hc
  | orderOutOpening p w =>
    cases h
    exact .ite (fun _ => Calm.refl.openWord.refuse.lawful g) fun _ => Calm.refl.openWord.openExchange.lawful g
  | dataOutOpening p w => cases h; exact Calm.refl.openWord.openExchange.lawful g
  | replyIn p w => cases h; exact Calm.refl.openWord.openExchange.lawful g
  | dataIn p w => cases h; exact Calm.refl.openWord.openExchange.lawful g
  | statusIn p w whole =>
    cases h
    exact .ite (fun _ => Calm.refl.openWord.openExchange.onPort.lawful g) fun _ =>
        Calm.refl.openWord.openExchange.lawful g
  | openingWordNoKind p w => cases h; exact Calm.refl.openWord.count.lawful g
  | strayWord p w =>
    cases h
    split
    · exact g
    · exact Calm.refl.onPort.lawful g
  | dataOut p header words =>
    cases h
    split
    · split
      · exact Calm.refl.answerWord.lawful g
      · split
        · exact Calm.refl.putBuffer.answerWord.lawful g
        · exact Calm.refl.answerWord.lawful g
    · exact g
  | replyInComplete p =>
    cases h
    split
    · exact Calm.refl.drop.closeExchange.lawful g
    · exact Calm.refl.closeExchange.lawful g
    · exact g
  | dataInComplete p =>
    cases h
    split
    · exact Calm.refl.deliver.testRequests.closeExchange.lawful g
    · exact Calm.refl.closeExchange.lawful g
    · exact g
  | read p tag rest => cases h; exact g.orderPacket fun x e => d.acceptData
  | write p tag rest => cases h; exact g.orderPacket fun x e => d.acceptData
  | check p tag rest => cases h; exact g.orderPacket fun x e => d.acceptData
  | formatTrack p tag rest =>
    cases h; exact g.orderPacket fun x e => d.enqueue rfl (Slot.assignLaw_of (fun _ h => by cases h) fun _ _ _ h =>
        by cases h)
  | initializeLabel p tag rest =>
    cases h; exact g.orderPacket fun x e => d.enqueue rfl (Slot.assignLaw_of (fun _ h => by cases h) fun _ _ _ h =>
        by cases h)
  | assignSpare p tag rest =>
    cases h
    refine g.orderPacket fun x e => d.enqueue rfl ⟨fun y hy => ?_, fun _ _ _ h => by cases h⟩
    cases hy
    simp only [assignSpareRule, firstOf] at e
    split at e
    · cases e
    · split at e
      · cases e
      · next hb =>
        simp only [Bool.or_eq_true, decide_eq_true_eq, not_or, Nat.not_lt] at hb
        exact ⟨rfl, hb.1.1, hb.1.2, hb.2⟩
  | testTrack p tag rest =>
    cases h; exact g.orderPacket fun x e => d.enqueue rfl (Slot.assignLaw_of (fun _ h => by cases h) fun _ _ _ h =>
        by cases h)
  | readPlan p tag rest => cases h; exact g.orderPacket fun x e => d.answerNow
  | writePlan p tag rest =>
    cases h
    exact g.orderPacket fun x e => .ite (fun _ => d.writePlan.answerNow.schedule.judgeAlarm) fun _ =>
        d.writePlan.answerNow
  | loadPlan p tag rest =>
    cases h
    exact g.orderPacket fun x e => (Lawful.answerNow (Calm.refl.loadMapLatched.lawful d)).schedule.judgeAlarm
  | setMapMode p tag rest =>
    cases h; exact g.orderPacket fun x e => Lawful.answerNow ((d (p := p)).same)
  | setGuard p tag rest => cases h; exact g.orderPacket fun x e => Lawful.answerNow ((d (p := p)).same)
  | setSupervision p tag rest => cases h; exact g.orderPacket fun x e => Lawful.answerNow (Calm.refl.onPort.lawful (d
      (p := p)))
  | setAlarmLine p tag rest => cases h; exact g.orderPacket fun x e => (Lawful.answerNow ((d (p := p)).same)).judgeAlarm
  | clearAlarms p tag rest =>
    cases h
    exact g.orderPacket fun x e => (Lawful.answerNow (.ite (fun _ => (d (p := p)).same) fun _ => (d (p :=
        p)).same)).judgeAlarm
  | captureStatistics p tag rest => cases h; exact g.orderPacket fun x e => Lawful.answerNow ((d (p := p)).same)
  | readStatistics p tag rest => cases h; exact g.orderPacket fun x e => d.answerNow
  | readLabel p tag rest => cases h; exact g.orderPacket fun x e => d.answerNow
  | restartDrive p tag rest =>
    cases h
    refine g.orderPacket fun x e => (Lawful.answerNow ?_).judgeAlarm
    simp only [restartDriveRule] at e
    split at e
    · cases e
    · next h =>
      have h : s.drive.state = .faulted := by simpa using h
      exact d.enterSpinningUp (d.not_serving (by show s.drive.state.serving = false; rw [h]; rfl))
        (by show s.drive.state ≠ _; rw [h]; decide)
  | arm p tag rest => cases h; exact g.orderPacket fun x e => Calm.refl.onPort.lawful d
  | clearPort p tag rest => cases h; exact g.orderPacket fun x e => d.clearPort
  | unknownKind p code tag rest =>
    cases h
    split
    · split <;> exact Calm.refl.refuse.lawful g
    · exact g
  | changeoverStrobe =>
    cases h
    exact .ite (fun _ => g) fun _ => .ite (fun _ =>
        (Calm.refl.loadMapLatched.lawful g.onLines).schedule.judgeAlarm) fun _ => g.onLines
  | planSelectLine x => cases h; exact g.onLines
  | fixedPlanKeyOn =>
    cases h; exact .ite (fun _ => g) fun _ => (Calm.refl.loadMapLatched.lawful g.onLines).schedule.judgeAlarm
  | fixedPlanKeyOff => cases h; exact g.onLines
  | guardKeyLine x => cases h; exact g.onLines
  | alarmAcknowledge => cases h; exact .ite (fun _ => g) fun _ => (g.same).judgeAlarm
  | flashTimerExpiry => cases h; exact .ite (fun _ => g.same) fun _ => g
  | presenceTimerExpiry p => cases h; exact .ite (fun _ => g.losePort) fun _ => g
  | dueTickExpiry p tag =>
    cases h
    split
    · exact .ite (fun _ => (Calm.refl.endSlot.lawful g).schedule.judgeAlarm) fun _ => g
    · exact g
  | drainLimit p tag =>
    cases h
    split
    · exact .ite (fun _ => Calm.refl.endSlot.lawful g) fun _ => g
    · exact g
  | indexPulse r => cases h; exact Lawful.close (Lawful.sectorStart (Lawful.settled g.indexWatch.testIndex))
  | sectorPulse r =>
    cases h
    refine .ite (fun _ => g) fun _ => .ite (fun _ => Lawful.close (Lawful.sectorStart
        (Calm.refl.onPos.lawful g))) fun _ => ?_
    exact .ite (fun _ => Calm.refl.onPos.countBoth.lawful g) fun _ => Calm.refl.onPos.lawful g
  | sectorPassEnd d => cases h; exact Lawful.close g.passEnd
  | seekArrival =>
    cases h
    split
    · exact .ite (fun _ => Lawful.close (Lawful.arrivalBoundary (Calm.refl.onLines.arrive.lawful g))) fun _ => g.onLines
    · exact g
  | seekTimeout => cases h; exact .ite (fun _ => g.seekError.judgeAlarm) fun _ => g
  | recalibrationComplete =>
    cases h
    refine .ite (fun _ => ?_) fun _ => g
    have g1 : Lawful ((s.onLines fun l => { l with onCylinder := true }).onPos
        fun y => { y with cyl := some 0, head := 0 }) :=
      Calm.refl.onLines.onPos.lawful g
    dsimp only
    split
    · next h =>
      exact (g1.enterLabelRead (g1.not_serving
          (by show s.drive.state.serving = false; rw [show s.drive.state = _ from h]; rfl))).schedule.judgeAlarm
    · refine (Lawful.schedule ?_).judgeAlarm
      unfold State.reseek
      split
      · exact Calm.refl.issueSeek.lawful g1
      · exact Calm.refl.onPos.lawful g1
  | recalibrationLimit => cases h; exact .ite (fun _ => g.recalibrationFailed.judgeAlarm) fun _ => g
  | indexLoss => cases h; exact .ite (fun _ => (g.enterFaulted _).judgeAlarm) fun _ => g
  | runConditionHolds cart =>
    cases h
    have gx : Lawful (s.exchange cart) := by
      cases cart with
      | none => exact g
      | some _ => exact .ite (fun _ => g.same) fun _ => g
    exact .ite (fun _ => g) fun _ => gx.onLines.runHolds.judgeAlarm
  | runConditionFails x y z =>
    cases h
    exact .ite (fun _ => g.onLines.runFails.judgeAlarm) fun _ => g.onLines
  | writeSupplyLost => cases h; exact (Calm.refl.setReasons.lawful g.onLines).scheduleOnEntry.judgeAlarm
  | writeSupplyGood => cases h; exact (Calm.refl.setReasons.lawful g.onLines).scheduleOnEntry.judgeAlarm
  | overTemperature =>
    cases h
    exact .ite (fun _ => g) fun _ => .ite (fun _ => (g.onLines.enterFaulted _).judgeAlarm) fun _ => g.onLines
  | spinUpTimeout => cases h; exact .ite (fun _ => (g.enterFaulted _).judgeAlarm) fun _ => g
  | runDownTimeout => cases h; exact .ite (fun h => (g.enterEmpty h.1).judgeAlarm) fun _ => g
  | overTemperatureInactive => cases h; exact g.onLines
  | changeoverStrobeInactive => cases h; exact g.onLines
  | alarmAcknowledgeInactive => cases h; exact g.onLines

end Sys2Proof.Machine
end

