-- ==== Sys2Proof/Laws/Orders.lean ====
section
/-! SUPPORT. What a completed order packet does, said once for the accepted and once for the refused, and what an
acceptance does to the slots. -/

namespace Sys2Proof.Machine

-- Every thread of the checker reserves a whole stack: these many short proofs are checked one after another.
set_option Elab.async false

variable {s : State} {p : Port} {tag : Byte} {w1 w2 : Word} {fields : List Word} {o : OrderRule} {k : Fin 8}

/-- The packet of a tag byte, the two header words and the fields. -/
def packetOf (tag : Byte) (w1 w2 : Word) (fields : List Word) : Packet :=
  ⟨tag, field w1 15 8, field w1 7 0, w2.toNat, fields⟩

/-- A sound packet whose checks all pass has its kind's effect, with the latch cleared, and is counted and answered
ACCEPTED (R51, R55, R56). -/
theorem orderPacket_accepted (hc : s.completes p (fields.length + 3) = true) (hu : field w1 15 8 ≤ 1)
    (hd : field w1 7 0 ≤ 1) (hs : o.shape (packetOf tag w1 w2 fields) = true)
    (hk : o.kind.slotless = true ∨ ∃ k, s.slotFor p tag k)
    (ha : o.needsArm (packetOf tag w1 w2 fields) = false ∨ (s.ports.get p).armed = true)
    (hw : o.own s p (packetOf tag w1 w2 fields) = none) :
    s.orderPacket p o tag (w1 :: w2 :: fields)
      = (o.accept (s.disarm p) p (packetOf tag w1 w2 fields)).accepted p := by
  have hj : s.judgeOrder p o.kind (packetOf tag w1 w2 fields) (o.shape (packetOf tag w1 w2 fields))
      (o.needsArm (packetOf tag w1 w2 fields)) (o.own s p (packetOf tag w1 w2 fields)) = none := by
    unfold State.judgeOrder
    have h1 : ((packetOf tag w1 w2 fields).headerOk && o.shape (packetOf tag w1 w2 fields)) ≠ false := by
      simp [Packet.headerOk, hs]; exact ⟨hu, hd⟩
    rw [if_neg h1]
    have h2 : ¬(o.kind.slotless = false ∧ (s.queues.get p).freeSlot.isNone = true) := by
      rintro ⟨e, f⟩
      rcases hk with hk | ⟨k, hk⟩
      · rw [hk] at e; cases e
      · rw [(slotFor_spec hk).1] at f; cases f
    rw [if_neg h2]
    have h3 : ¬(o.kind.slotless = false ∧ ((s.queues.get p).tagged tag).isSome = true) := by
      rintro ⟨e, f⟩
      rcases hk with hk | ⟨k, hk⟩
      · rw [hk] at e; cases e
      · rw [(slotFor_spec hk).2] at f; cases f
    rw [show (packetOf tag w1 w2 fields).tag = tag from rfl, if_neg h3]
    have h4 : ¬(o.needsArm (packetOf tag w1 w2 fields) = true ∧ (s.ports.get p).armed = false) := by
      rintro ⟨e, f⟩
      rcases ha with ha | ha
      · rw [ha] at e; cases e
      · rw [ha] at f; cases f
    rw [if_neg h4, hw]
  have hc' : s.completes p ((w1 :: w2 :: fields).length + 1) = true := hc
  unfold State.orderPacket
  rw [if_pos hc']
  show (match s.judgeOrder p o.kind ⟨tag, _, _, _, fields⟩ _ _ _ with
    | some r => s.refuse p r
    | none => _) = _
  unfold packetOf at hj
  rw [hj]
  rfl

/-- A packet that a check turns away is refused with that check's code (R51). -/
theorem orderPacket_refused {r : Refuse} (hc : s.completes p (fields.length + 3) = true)
    (hj : s.judgeOrder p o.kind (packetOf tag w1 w2 fields) (o.shape (packetOf tag w1 w2 fields))
      (o.needsArm (packetOf tag w1 w2 fields)) (o.own s p (packetOf tag w1 w2 fields)) = some r) :
    s.orderPacket p o tag (w1 :: w2 :: fields) = s.refuse p r := by
  have hc' : s.completes p ((w1 :: w2 :: fields).length + 1) = true := hc
  unfold State.orderPacket
  rw [if_pos hc']
  show (match s.judgeOrder p o.kind ⟨tag, _, _, _, fields⟩ _ _ _ with
    | some r => s.refuse p r
    | none => _) = _
  unfold packetOf at hj
  rw [hj]

/-- An order enters the FREE slot found. -/
theorem enterSlot_at (hk : s.slotFor p tag k) (sl : Slot) : s.enterSlot p sl = s.slotTaken p k sl := by
  unfold State.enterSlot; rw [(slotFor_spec hk).1]; rfl

/-- An immediate order is answered in the FREE slot found. -/
theorem answerNow_at {t : Byte} (hk : s.slotFor p t k) (x : Kind) (body : List Word) :
    s.answerNow p x tag body = s.slotAnswered p k (Slot.immediate x tag s.tick body) := by
  unfold State.answerNow; rw [(slotFor_spec hk).1]; rfl

/-- The slot an order may take is looked up in the queues alone. -/
theorem slotFor_congr {t : State} (h : t.queues = s.queues) (hk : s.slotFor p tag k) : t.slotFor p tag k := by
  unfold State.slotFor at *
  simp only [slot_of_queues s t h]
  exact hk

end Sys2Proof.Machine
end

