-- ==== Sys2Proof/WellFormed.lean ====
section
/-! DEFINITION. Which command terms the outside can send: the widths and lengths the cables impose on the operands
(12, R171 to R173; 10, R153; 08, R129). -/

namespace Sys2Proof

open Sys2Proof.Machine

/-- Bits 15-13 of an opening word, the exchange kind (12, section 12.1). -/
def openingKind (w : Word) : Nat := (w >>> 13).toNat

/-- A packet's words after word 0: the word count of an opening word is 0-255 (12, section 12.1). -/
def packetFits (rest : List Word) : Bool := rest.length ≤ 254

/-- A cartridge operand lists sectors that exist (01, R1), each with 256 data words. -/
def cartridgeFits : Option Cartridge → Bool
  | none => true
  | some c => c.all fun x => decide (x.1 < 30960) && decide (x.2.data.length = 256)

/-- A data field as read has 256 words (01, section 1.2). -/
def dataReadingFits : DataReading → Bool
  | .stored => true
  | .read ws _ => decide (ws.length = 256)

/-- The command is one the outside can send. -/
def Instr.wellFormed : Instr → Bool
  | .powerOn _ cart => cartridgeFits cart
  | .panelReset => true
  | .orderOutOpening _ w => openingKind w == 1
  | .dataOutOpening _ w => openingKind w == 2
  | .replyIn _ w => openingKind w == 3
  | .dataIn _ w => openingKind w == 4
  | .statusIn _ w _ => openingKind w == 5
  | .openingWordNoKind _ w => openingKind w == 0 || openingKind w == 6 || openingKind w == 7
  | .strayWord _ _ => true
  | .dataOut _ _ ws => decide (ws.length = 256)
  | .replyInComplete _ => true
  | .dataInComplete _ => true
  | .read _ _ rest => packetFits rest
  | .write _ _ rest => packetFits rest
  | .check _ _ rest => packetFits rest
  | .formatTrack _ _ rest => packetFits rest
  | .initializeLabel _ _ rest => packetFits rest
  | .assignSpare _ _ rest => packetFits rest
  | .testTrack _ _ rest => packetFits rest
  | .readPlan _ _ rest => packetFits rest
  | .writePlan _ _ rest => packetFits rest
  | .loadPlan _ _ rest => packetFits rest
  | .setMapMode _ _ rest => packetFits rest
  | .setGuard _ _ rest => packetFits rest
  | .setSupervision _ _ rest => packetFits rest
  | .setAlarmLine _ _ rest => packetFits rest
  | .clearAlarms _ _ rest => packetFits rest
  | .captureStatistics _ _ rest => packetFits rest
  | .readStatistics _ _ rest => packetFits rest
  | .readLabel _ _ rest => packetFits rest
  | .restartDrive _ _ rest => packetFits rest
  | .arm _ _ rest => packetFits rest
  | .clearPort _ _ rest => packetFits rest
  | .unknownKind _ code _ rest => packetFits rest && (code.toNat == 0 || decide (21 < code.toNat))
  | .changeoverStrobe => true
  | .planSelectLine _ => true
  | .fixedPlanKeyOn => true
  | .fixedPlanKeyOff => true
  | .guardKeyLine _ => true
  | .alarmAcknowledge => true
  | .flashTimerExpiry => true
  | .presenceTimerExpiry _ => true
  | .dueTickExpiry _ _ => true
  | .drainLimit _ _ => true
  | .indexPulse _ => true
  | .sectorPulse _ => true
  | .sectorPassEnd d => dataReadingFits d
  | .seekArrival => true
  | .seekTimeout => true
  | .recalibrationComplete => true
  | .recalibrationLimit => true
  | .indexLoss => true
  | .runConditionHolds cart => cartridgeFits cart
  | .runConditionFails c d s => !(c && d && s)
  | .writeSupplyLost => true
  | .writeSupplyGood => true
  | .overTemperature => true
  | .spinUpTimeout => true
  | .runDownTimeout => true
  | .overTemperatureInactive => true
  | .changeoverStrobeInactive => true
  | .alarmAcknowledgeInactive => true

end Sys2Proof
end

