-- ==== Sys2Proof/Tests/Slice0.lean ====
section
/-! SUPPORT. The model's own tests: the well-formedness checks refuse ill-formed commands, single steps on small states,
and a witness for the hypotheses of every statement that has some. -/

open Sys2Proof Sys2Proof.Machine

namespace Sys2Proof.Tests

-- The kernel checks of these many small theorems run one after another, not in one thread each.
set_option Elab.async false

/-! ## Well-formedness: each check refuses an ill-formed command -/

theorem test_wf_sector_number : Instr.wellFormed (.powerOn .quiet (some [(30960, .formatted ⟨0, 0, 0⟩ zeroData)])) = false := by
  decide +kernel

theorem test_wf_sector_words : Instr.wellFormed (.runConditionHolds (some [(0, .formatted ⟨0, 0, 0⟩ [])])) = false := by
  decide +kernel

theorem test_wf_openings :
    [Instr.orderOutOpening .a 0x4000, .dataOutOpening .a 0x2000, .replyIn .a 0x2000, .dataIn .a 0x2000,
      .statusIn .a 0x2000 true, .openingWordNoKind .a 0x2000].all (fun c => !c.wellFormed) = true := by
  decide +kernel

theorem test_wf_block_words : Instr.wellFormed (.dataOut .a 0 []) = false := by decide +kernel

theorem test_wf_packet_words :
    ([Instr.read, .write, .check, .formatTrack, .initializeLabel, .assignSpare, .testTrack, .readPlan, .writePlan,
      .loadPlan, .setMapMode, .setGuard, .setSupervision, .setAlarmLine, .clearAlarms, .captureStatistics,
      .readStatistics, .readLabel, .restartDrive, .arm, .clearPort].all
        fun c => !(c .a 0 (List.replicate 255 0)).wellFormed) = true := by
  decide +kernel

theorem test_wf_unknown_kind : Instr.wellFormed (.unknownKind .a 21 0 [0, 0]) = false := by decide +kernel

theorem test_wf_unknown_words : Instr.wellFormed (.unknownKind .a 22 0 (List.replicate 255 0)) = false := by decide +kernel

theorem test_wf_reading_words : Instr.wellFormed (.sectorPassEnd (.read [0] 0)) = false := by decide +kernel

theorem test_wf_run_fails : Instr.wellFormed (.runConditionFails true true true) = false := by decide +kernel

theorem test_wf_accepts : [Instr.orderOutOpening .b 0x2000, .unknownKind .a 22 0 [], .sectorPassEnd .stored,
    .runConditionFails true true false, .read .a 1 (List.replicate 254 0)].all (·.wellFormed) = true := by
  decide +kernel

/-! ## The table's words -/

theorem test_no_word_spells_a_command (n w : Nat) : decodeTableWord n w = none := rfl

theorem test_no_word_is_put_in_front (n w : Nat) : State.reset.withFetchWord n w = .reset := rfl

/-! ## Small states -/

/-- Both ports PRESENT, the drive READY at cylinder 0 with a VALID label, the position valid, tick 100. -/
def base : State :=
  { State.reset with
      tick := 100
      lines := { Lines.quiet with cartridge := true, door := true, start := true, supply := true }
      ports := ⟨{ PortIf.reset with presence := .present }, { PortIf.reset with presence := .present }⟩
      pos := { Positioner.reset with valid := true, lastIndex := some 100, inBand := true, cyl := some 0 }
      drive := { Supervisor.reset with state := .ready }
      label := { Label.blank .valid with gen := 1 } }

/-- A state at which port A's ORDER OUT of `n` words is complete. -/
def ordering (s : State) (n : Nat) : State := s.onPort .a fun x => { x with exchange := some ⟨.orderOut n, []⟩ }

/-- The same with port A's arm latch set. -/
def armed (s : State) (n : Nat) : State := (ordering s n).onPort .a fun x => { x with armed := true }

/-- A record of a data order of `n` sectors from cylinder 0, head 0, sector 0. -/
def order (kind : Kind) (n : Nat) : Slot :=
  { Slot.fresh kind 7 90 with start := some ⟨0, 0, 0⟩, count := some n }

/-- `base` with a record in slot 0 of port A. -/
def holding (sl : Slot) : State := base.slotTaken .a 0 sl

/-- `base` with a record IN SERVICE in slot 0 of port A, at a stage, its heads on track since tick 90. -/
def serving (sl : Slot) (g : Progress) : State :=
  { holding { sl with state := .inService } with
      progress := some g
      pos := { base.pos with activity := .confirmed, target := some sl.startAddr, arrivalTick := 90, sc := 19 } }

/-- The same with a pass under way at sector 0 of the order's first track. -/
def passing (sl : Slot) (g : Progress) (kind : PassKind) (v : Verdict) : State :=
  { serving sl g with pass := some ⟨kind, sl.startAddr, v, zeroData⟩ }

/-- A reading of the header of an address. -/
def headerOf (x : Addr) : HeaderReading :=
  .read (wordOf x.cyl) (wordOf x.head) (wordOf x.sector) (crc [wordOf x.cyl, wordOf x.head, wordOf x.sector])

/-- What a test looks at after a command. -/
def after {α : Type} (c : Instr) (s : State) (f : State → α) : Option α :=
  match exec c s with
  | .next t => some (f t)
  | _ => none

theorem after_some {α : Type} {c : Instr} {s : State} {f : State → α} {x : α} (h : after c s f = some x) :
    ∃ t, exec c s = .next t ∧ f t = x := by
  unfold after at h
  split at h
  · exact ⟨_, ‹_›, by simpa using h⟩
  · cases h

/-! ## Single steps -/

/-- R3: this register is the one known as CRC-16/CCITT-FALSE, whose value for the bytes "12345678" is A12Bh. -/
theorem test_crc_known_value : crc [0x3132, 0x3334, 0x3536, 0x3738] = 0xA12B := by decide +kernel

/-- R150: word 0 from seed 1. -/
theorem test_pattern_first_word : (patternSector 1 0)[0]? = some 0x002D := by decide +kernel

/-- R74: the seek times it lists. -/
theorem test_seek_times : [1, 16, 17, 30, 110, 386].map seekTicks = [45, 120, 121, 134, 214, 490] := by decide +kernel

/-- R35's table: HALF, LOW, complement on protects 192-383. -/
theorem test_guard_half_low_complement :
    [0, 191, 192, 383, 384].map (Guard.protectsData ⟨.half, true, true, false, .opened⟩)
      = [false, false, true, true, false] := by decide +kernel

/-- R81's worked example: T_pos of A's head is 193, of B's 113. -/
theorem test_routine_choice_times :
    (positionTicks 120 37 ⟨118, 0, 3⟩, positionTicks 120 37 ⟨125, 2, 15⟩) = (193, 113) := by decide +kernel

/-- R93, R94: a tick on an empty queue. -/
theorem test_tick : (match step base with
    | .next t => some (t.tick, t.pos.t, t.pending)
    | _ => none) = some (101, 1, []) := by decide +kernel

/-- R159, R160: a presence timer's expiry joins the queue at its tick. -/
theorem test_presence_timer_falls : (match step (base.onPort .a fun x => { x with timer := some 101 }) with
    | .next t => some t.pending
    | _ => none) = some [.presenceTimerExpiry .a] := by decide +kernel

/-- R51: the first check that fails names the refusal. -/
theorem test_read_malformed : after (.read .a 7 [0x0200, 0, 0, 0, 1]) (ordering base 6) (fun t => t.ports.a.lastWord)
    = some 1 := by decide +kernel

/-- R52: BAD COUNT for 65 sectors. -/
theorem test_read_bad_count : after (.read .a 7 [0, 0, 0, 0, 65]) (ordering base 6) (fun t => t.ports.a.lastWord)
    = some 10 := by decide +kernel

/-- R55, R70: an accepted READ becomes IN SERVICE at once on an idle drive. -/
theorem test_read_accepted : after (.read .a 7 [0, 0, 0, 0, 1]) (ordering base 6)
    (fun t => (t.ports.a.lastWord, t.inService.map (·.2.2.start))) = some (0, some (some ⟨0, 0, 0⟩)) := by decide +kernel

/-- R18: port A holds READ alone on region 1 of the fixed plan. -/
theorem test_write_no_access : after (.write .a 7 [0, 0, 1, 0, 1, 0]) (ordering base 7) (fun t => t.ports.a.lastWord)
    = some 8 := by decide +kernel

/-- R56: ARM sets the latch, and the next order clears it. -/
theorem test_arm : after (.arm .a 7 [0, 0]) (ordering base 3) (fun t => t.ports.a.armed) = some true := by decide +kernel

/-- R44, R51: a SET GUARD without the latch. -/
theorem test_guard_not_armed : after (.setGuard .a 7 [0, 0, 5, 0, 0, 0, 2]) (ordering base 8)
    (fun t => (t.ports.a.lastWord, t.guard)) = some (5, .powerOn) := by decide +kernel

/-- R39: a SET GUARD with the latch. -/
theorem test_guard_set : after (.setGuard .a 7 [0, 0, 5, 1, 0, 1, 2]) (armed base 8) (fun t => t.guard)
    = some ⟨.all, true, false, true, .locked⟩ := by decide +kernel

/-- R22, R15: READ PLAN of the fixed plan; entry 0 is in use, 0-191, A WRITE, B READ. -/
theorem test_read_plan : after (.readPlan .a 7 [0, 0, 3]) (ordering base 4)
    (fun t => (t.slot .a 0).map fun sl => (sl.body.length, sl.body.take 3)) = some (some (48, [0x8009, 0, 191])) := by
  decide +kernel

/-- R23: the strobe's edge with an empty staged plan loads nothing. -/
theorem test_strobe_empty : after .changeoverStrobe base (fun t => (t.map.origin, t.alarms.latched.planLoaded))
    = some (.fixed, false) := by decide +kernel

/-- R25: the key turned ON loads the fixed plan and latches PLAN LOADED. -/
theorem test_key_on : after .fixedPlanKeyOn base (fun t => (t.map.origin, t.alarms.latched.planLoaded, t.alarms.manner))
    = some (.fixed, true, .flashing) := by decide +kernel

/-- R94: the sector after the twentieth is an extra pulse. -/
theorem test_extra_pulse : after (.sectorPulse .stored) { base with pos := { base.pos with sc := 19 } }
    (fun t => (t.pos.sc, t.pos.extra, t.banks.a.live[25])) = some (19, true, 1) := by decide +kernel

/-- R95, R112: sector 0 of a CHECK is taken at the index. -/
theorem test_check_taken : after (.indexPulse (headerOf ⟨0, 0, 0⟩)) (serving (order .check 2) ⟨0, none, 0, .data⟩)
    (fun t => t.pass.map fun q => (q.kind, q.verdict)) = some (some (.check, .matching)) := by decide +kernel

/-- R143: FORMAT TRACK leaves its own header. -/
theorem test_format_header :
    after (.sectorPassEnd .stored) (passing (order .formatTrack 0) ⟨0, none, 0, .format⟩ .format .matching)
      (fun t => ((Cartridge.get t.disk 0).hSector, (t.slot .a 0).map (·.sectorsDone))) = some (0, some 1) := by
  decide +kernel

/-- R62: CLEAR PORT frees a waiting slot and withdraws the order in service. -/
theorem test_clear_port : after (.clearPort .a 9 [0, 0]) (armed (serving (order .check 2) ⟨0, none, 0, .data⟩) 3)
    (fun t => (t.slot .a 0).map (·.withdrawn)) = some (some true) := by decide +kernel

/-- R134: the loss of the write supply in READY. -/
theorem test_supply_lost : after .writeSupplyLost base (fun t => (t.drive.state, t.drive.supply)) = some (.degraded, true) := by
  decide +kernel

/-- R138, R139: the run condition's failing in READY with no order in service. -/
theorem test_run_fails : after (.runConditionFails true true false) base
    (fun t => (t.drive.state, t.drive.runDown, t.label.state)) = some (.spinningDown, some 500, .none) := by decide +kernel

/-- R141, R130: power on with the run condition holding. -/
theorem test_power_on : after (.powerOn base.lines none) base (fun t => (t.drive.state, t.drive.spinUp, t.tick))
    = some (.spinningUp, some 600000, 0) := by decide +kernel

/-! ## Witnesses: what the hypotheses of the statements ask for -/

/-- Every record of the state has a property, as a test that can be run. -/
def allSlots (s : State) (f : Port → Fin 8 → Slot → Bool) : Bool :=
  [Port.a, .b].all fun p => slotNumbers.all fun k => match s.slot p k with
    | some sl => f p k sl
    | none => true

theorem allSlots_spec {s : State} {f : Port → Fin 8 → Slot → Bool} (h : allSlots s f = true) (p : Port) (k : Fin 8)
    (sl : Slot) (hk : s.slot p k = some sl) : f p k sl = true := by
  simp only [allSlots, List.all_cons, List.all_nil, Bool.and_true, Bool.and_eq_true, List.all_eq_true] at h
  have hm : k ∈ slotNumbers := by clear hk; revert k; decide
  cases p
  · simpa [hk] using h.1 k hm
  · simpa [hk] using h.2 k hm

theorem slotFor_of {s : State} {p : Port} {tag : Byte} {k : Fin 8}
    (h : decide (s.slot p k = none ∧ ∀ j, j < k → s.slot p j ≠ none) && allSlots s (fun _ _ sl => decide (sl.tag ≠ tag)) = true) :
    s.slotFor p tag k := by
  simp only [Bool.and_eq_true, decide_eq_true_eq] at h
  exact ⟨h.1.1, h.1.2, fun j sl hj => by simpa using allSlots_spec h.2 p j sl hj⟩

theorem names_of {s : State} {p : Port} {tag : Byte} {k : Fin 8} {sl : Slot} (hk : s.slot p k = some sl) (ht : sl.tag = tag)
    (h : allSlots s (fun q j x => decide (q = p → x.tag = tag → j = k)) = true) : s.names p tag k sl :=
  ⟨hk, ht, fun j x hj hx => of_decide_eq_true (allSlots_spec h p j x hj) rfl hx⟩

/-- The order list and the reply list of each port are true to its slots, as a test that can be run. -/
def listsTrue (s : State) : Bool :=
  [Port.a, .b].all fun p =>
    decide ((s.queues.get p).order.Nodup ∧ (∀ k, k ∈ (s.queues.get p).order ↔ (s.slot p k).isSome = true)
      ∧ (s.queues.get p).replies.Nodup
      ∧ (∀ k, k ∈ (s.queues.get p).replies ↔ (s.slot p k).map (·.state) = some .done)
      ∧ ∀ j k, (s.slot p j).isSome = true → (s.slot p j).map (·.tag) = (s.slot p k).map (·.tag) → j = k)

theorem queueLaw_of {s : State} (h : listsTrue s = true) : s.queueLaw := by
  intro p
  have hp : decide ((s.queues.get p).order.Nodup ∧ (∀ k, k ∈ (s.queues.get p).order ↔ (s.slot p k).isSome = true)
      ∧ (s.queues.get p).replies.Nodup
      ∧ (∀ k, k ∈ (s.queues.get p).replies ↔ (s.slot p k).map (·.state) = some .done)
      ∧ ∀ j k, (s.slot p j).isSome = true → (s.slot p j).map (·.tag) = (s.slot p k).map (·.tag) → j = k) = true := by
    simp only [listsTrue, List.all_cons, List.all_nil, Bool.and_true, Bool.and_eq_true] at h
    cases p
    · exact h.1
    · exact h.2
  obtain ⟨h1, h2, h3, h4, h5⟩ := of_decide_eq_true hp
  refine ⟨h1, h2, h3, fun k => (h4 k).trans ?_, fun j k x y hj hk ht => h5 j k ?_ ?_⟩
  · simp [Option.map_eq_some_iff]
  · simp [hj]
  · simp [hj, hk, ht]

/-! ### The step, the resets and the whole-machine rules -/

theorem witness_AnEmptyQueueStepIsOneTick : base.pending = [] := rfl

/-- A PANEL RESET with the key ON, and with it OFF at each plan-select level, with a staged plan empty or not. -/
theorem witness_ResetsSetEveryBlock :
    { base with lines := { base.lines with fixedKey := true } }.lines.fixedKey = true
      ∧ base.lines.fixedKey = false ∧ base.lines.select = false ∧ base.map.plan1.isEmpty = true
      ∧ { base with lines := { base.lines with select := true } }.lines.select = true
      ∧ { base with map := { base.map with plan1 := Plan.fixed } }.map.plan1.isEmpty = false := by
  decide +kernel

theorem witness_AResetCutsASectorWrite :
    let s := passing (order .write 2) ⟨0, none, 0, .data⟩ (.write 0) .matching
    s.diskLaw ∧ (∃ q, s.pass = some q ∧ q.writes = true) ∧ base.diskLaw ∧ base.pass = none :=
  ⟨by unfold State.diskLaw; decide +kernel, ⟨_, rfl, by decide +kernel⟩, by unfold State.diskLaw; decide +kernel, rfl⟩

/-- A PANEL RESET is a reset and a tick's events are not. -/
theorem witness_EveryCommandAnswersNext : isReset .panelReset = true ∧ isReset .flashTimerExpiry = false := by decide

theorem witness_OnlySetGuardAndPowerOnChangeTheGuard :
    (∃ t, exec (.setGuard .a 7 [0, 0, 5, 1, 0, 1, 2]) (armed base 8) = .next t
      ∧ decide (t.guard = (armed base 8).guard) = false)
    ∧ ∃ t, exec (.powerOn .quiet none) { base with guard := ⟨.all, false, false, true, .locked⟩ } = .next t
      ∧ decide (t.guard = ⟨.all, false, false, true, .locked⟩) = false :=
  ⟨after_some (f := fun t => decide (t.guard = (armed base 8).guard)) (by decide +kernel),
    after_some (f := fun t => decide (t.guard = ⟨.all, false, false, true, .locked⟩)) (by decide +kernel)⟩

theorem witness_TheMapStaysConflictFree :
    base.mapLaw ∧ ∃ t, step { base with pending := [.fixedPlanKeyOn] } = .next t :=
  ⟨by unfold State.mapLaw; decide +kernel, _, rfl⟩

theorem witness_TheOrderListsStayTrue :
    (holding (order .check 2)).queueLaw ∧ ∃ t, step { holding (order .check 2) with pending := [.fixedPlanKeyOn] } = .next t :=
  ⟨queueLaw_of (by decide +kernel), _, rfl⟩

/-- One order IN SERVICE, and one SUSPENDED. -/
theorem witness_AtMostOneOrderIsServedAndOneSuspended :
    (holding { order .check 2 with state := .inService }).serviceLaw
      ∧ (holding { order .check 2 with state := .suspended }).suspensionLaw
      ∧ ∃ t, step { holding (order .check 2) with pending := [.fixedPlanKeyOn] } = .next t :=
  ⟨by unfold State.serviceLaw; decide +kernel, ⟨by decide +kernel, fun p k sl hk hs => of_decide_eq_true (allSlots_spec
    (f := fun _ _ sl => decide (sl.state = .suspended → sl.prompt = false)) (by decide +kernel) p k sl hk) hs⟩, _, rfl⟩

theorem intervals_of {s : State} (h : [Port.a, .b].all (fun p => decide ((s.ports.get p).interval = 0 ∨
    (50 ≤ (s.ports.get p).interval ∧ (s.ports.get p).interval ≤ 5000 ∧ (s.ports.get p).interval % 50 = 0))) = true) :
    s.intervalLaw := by
  intro p
  simp only [List.all_cons, List.all_nil, Bool.and_true, Bool.and_eq_true] at h
  cases p
  · exact of_decide_eq_true h.1
  · exact of_decide_eq_true h.2

/-- Each range at its greatest value: sector 19, 255 ticks, a bypass count of 4, 5,000 ms. -/
theorem witness_CountsAndFormsStayInRange :
    let s : State := { base with
      pos := { base.pos with sc := 19, t := 255 }
      sched := ⟨.a, ⟨4, 0⟩⟩
      ports := ⟨{ base.ports.a with interval := 5000 }, { base.ports.b with interval := 50 }⟩ }
    s.rotationLaw ∧ s.bypassLaw ∧ s.intervalLaw ∧ s.bufferLaw ∧ s.diskLaw
      ∧ ∃ t, step { s with pending := [.sectorPulse .stored] } = .next t :=
  ⟨by unfold State.rotationLaw; decide +kernel, by unfold State.bypassLaw; decide +kernel,
    intervals_of (by decide +kernel), by unfold State.bufferLaw; decide +kernel, by unfold State.diskLaw; decide +kernel,
    _, rfl⟩

/-- An ASSIGN SPARE in service, its label write read back: the generation wraps, an entry stands and a spare is retired,
and the label it would write has a second entry. -/
def respared : Slot :=
  { order .assignSpare 0 with
      start := some ⟨3, 0, 0⟩, params := .assign ⟨3, 0, 0⟩, maint := .assign .newEntry (some 0) .labelWrite }

theorem witness_CountsAndFormsStayInRange_label :
    let s : State := { serving respared ⟨0, none, 0, .readBack⟩ with
      label := { Label.blank .valid with gen := 65535, table := [⟨⟨0, 0, 0⟩, 1⟩], retired := [79] }
      pass := some ⟨.readBack, labelAddr, .matching, []⟩ }
    s.serviceLaw ∧ s.labelLaw ∧ s.assignLaw ∧ ∃ t, step { s with pending := [.sectorPassEnd .stored] } = .next t := by
  intro s
  have one : ∀ p k x, s.slot p k = some x → x = { respared with state := .inService } := fun p k x h =>
    of_decide_eq_true (allSlots_spec (f := fun _ _ x => decide (x = { respared with state := .inService }))
      (by decide +kernel) p k x h)
  refine ⟨by unfold State.serviceLaw; decide +kernel, by unfold State.labelLaw Label.law; decide +kernel,
    ⟨fun p k x h => ?_, fun p k x h _ => ?_, fun q h => ?_⟩, _, rfl⟩
  · obtain rfl := one p k x h
    exact ⟨fun a ha => by cases ha; decide, fun c i w hm => by
      cases hm; exact ⟨rfl, by decide, by decide, fun n hn => by cases hn; decide, fun _ a ha => by cases ha; decide⟩⟩
  · obtain rfl := one p k x h
    exact ⟨.inl rfl, by unfold Label.law; decide +kernel⟩
  · cases h; decide

/-- A flag latched, acknowledged or not; the line steady or flashing; each mode, a source that is an event and one that
is a condition; each condition of R163 met and not met. -/
theorem witness_TheAlarmUnitKeepsItsLaws :
    let s : State := { base with alarms := { Alarms.reset with
      latched := { SourceSet.empty with sectorLost := true }, manner := .flashing, level := true, flash := some 2600 } }
    (s.alarmLaw ∧ s.annunciatorLaw ∧ ∃ t, step { s with pending := [.alarmAcknowledge] } = .next t)
      ∧ s.alarms.follow = false ∧ { s.alarms with follow := true }.follow = true
      ∧ (s.manner = .flashing ∧ { s with alarms := { s.alarms with acked := s.alarms.latched } }.manner = .steady
        ∧ base.manner = .inactive)
      ∧ { s with alarms := { s.alarms with follow := true, source := .sectorLost } }.manner = .steady
      ∧ { s with alarms := { s.alarms with follow := true, source := .driveFaulted } }.manner = .inactive
      ∧ { base with drive := { base.drive with state := .faulted } }.condition .driveFaulted = true
      ∧ { base with label := .blank .absent }.condition .labelNotValid = true
      ∧ base.condition .labelNotValid = false :=
  ⟨⟨fun x => by cases x <;> decide +kernel, by unfold State.annunciatorLaw; decide +kernel, _, rfl⟩, by decide +kernel⟩

theorem counters_of {s : State} (h : [Port.a, .b].all (fun p => decide (∀ i : Fin 26,
    (s.banks.get p).live[i] ≤ 4294967295 ∧ (s.banks.get p).snap[i] ≤ 4294967295)) = true) : s.counterLaw := by
  intro p
  simp only [List.all_cons, List.all_nil, Bool.and_true, Bool.and_eq_true] at h
  cases p
  · exact of_decide_eq_true h.1
  · exact of_decide_eq_true h.2

/-- R83 and R168: the bounds of the buckets. -/
theorem test_buckets :
    [1, 2, 4, 5, 16, 17, 64].map lengthBucket
      = [.length1, .length2to4, .length2to4, .length5to16, .length5to16, .length17to64, .length17to64]
    ∧ [100, 99, 0, -1, -100, -101].map marginBucket = [.early, .close, .close, .late, .late, .veryLate] := by decide

/-- A counter at its ceiling, and a capture of the other bank. -/
theorem witness_CountersNeverDecrease :
    let s : State := { base with banks := ⟨{ Bank.reset with live := Vector.replicate 26 4294967295 }, .reset⟩ }
    s.counterLaw ∧ (∃ t, step { s with pending := [.sectorPulse .stored] } = .next t)
      ∧ isReset (.captureStatistics .b 0 [0, 0]) = false
      ∧ ∀ tag rest, Instr.captureStatistics .b 0 [0, 0] ≠ .captureStatistics .a tag rest :=
  ⟨counters_of (by decide +kernel), ⟨_, rfl⟩, by decide, fun _ _ h => by cases h⟩

theorem witness_OnlyTheSectorBeingWrittenChanges :
    let s := passing (order .formatTrack 0) ⟨0, none, 0, .format⟩ .format .matching
    putsCartridge (.sectorPassEnd .stored) = false ∧ ∃ t, exec (.sectorPassEnd .stored) s = .next t
      ∧ ((Cartridge.get t.disk 0).hCheck == (Cartridge.get s.disk 0).hCheck) = false :=
  ⟨by decide, after_some (f := fun t => (Cartridge.get t.disk 0).hCheck ==
    (Cartridge.get (passing (order .formatTrack 0) ⟨0, none, 0, .format⟩ .format .matching).disk 0).hCheck) (by decide +kernel)⟩

/-- A WRITE of one sector whose block stands in buffer 0. -/
def writing : State :=
  { serving (order .write 1) ⟨0, none, 0, .data⟩ with
      buffers := (Vector.replicate 4 Buffer.empty).set 0 ⟨.fullForDisk, some (.a, 0), 0, zeroData⟩ }

/-- An ASSIGN SPARE about to zero spare 0, and an INITIALIZE LABEL about to write the label. -/
def zeroing : State :=
  serving { order .assignSpare 0 with params := .assign ⟨3, 0, 0⟩, maint := .assign .newEntry (some 0) .zeroing }
    ⟨0, none, 0, .zeroing⟩

def labelling : State :=
  serving { order .initializeLabel 0 with start := some labelAddr, params := .label blankName 9 } ⟨0, none, 0, .labelWrite⟩

theorem passBegins_of {l : List (Instr × State × PassKind)}
    (h : (l.all fun x => decide (x.2.1.pass = none)
      && (after x.1 x.2.1 fun t => t.pass.map fun q => (q.writes, q.kind)) == some (some (true, x.2.2))) = true) :
    ∀ x ∈ l, ∃ t q, exec x.1 x.2.1 = .next t ∧ x.2.1.pass = none ∧ t.pass = some q ∧ q.writes = true ∧ q.kind = x.2.2 := by
  intro x hx
  have h := List.all_eq_true.mp h x hx
  simp only [Bool.and_eq_true, decide_eq_true_eq, beq_iff_eq] at h
  obtain ⟨t, ht, hq⟩ := after_some h.2
  rcases hp : t.pass with _ | q
  · simp [hp] at hq
  · simp only [hp, Option.map_some, Option.some.injEq, Prod.mk.injEq] at hq
    exact ⟨t, q, ht, h.1, hp, hq.1, hq.2⟩

/-- Writing passes of a WRITE, a FORMAT TRACK, the zeroing of a spare and a label write each begin somewhere. -/
theorem witness_NoProtectedWriteBegins :
    ∀ x ∈ [(Instr.indexPulse (headerOf ⟨0, 0, 0⟩), writing, PassKind.write 0),
        (.indexPulse .stored, serving (order .formatTrack 0) ⟨0, none, 0, .format⟩, .format),
        (.indexPulse (headerOf ⟨384, 0, 0⟩), zeroing, .zero),
        (.indexPulse (headerOf ⟨386, 0, 0⟩), labelling, .labelWrite)],
      ∃ t q, exec x.1 x.2.1 = .next t ∧ x.2.1.pass = none ∧ t.pass = some q ∧ q.writes = true ∧ q.kind = x.2.2 :=
  passBegins_of (by decide +kernel)

/-! ### Exchanges -/

/-- `base` with an open exchange on port A. -/
def open_ (k : ExchangeKind) : State := base.onPort .a fun x => { x with exchange := some ⟨k, []⟩ }

/-- A word count of 1 and of 0. -/
theorem witness_AnOutExchangeOpens :
    (base.ports.get .a).exchange = none ∧ (base.ports.get .a).presence ≠ .lost ∧ field 0x2001 7 0 ≠ 0
      ∧ field 0x2000 7 0 = 0 := by decide +kernel

/-- `base` with a READ in slot 0 of port A, DRAINING or DONE, that owns buffer 0 with a block. -/
def draining : State :=
  { holding { order .read 1 with state := .draining, outcome := some .done, sectorsDone := 1 } with
      buffers := (Vector.replicate 4 Buffer.empty).set 0 ⟨.fullForHost, some (.a, 0), 0, zeroData⟩ }

def replied : State :=
  (holding { order .read 1 with state := .done, outcome := some .done }).onQueue .a fun q => { q with replies := [0] }

/-- A reply list and a stream, empty and not; a slot with an outcome, and a buffer with its owner and the last index. -/
theorem witness_AnInExchangeFixesItsContent :
    (base.queues.get .a).replies = [] ∧ base.stream .a = []
      ∧ (replied.queues.get .a).replies = [0] ∧ (replied.slot .a 0).isSome = true
      ∧ (replied.ports.get .a).exchange = none ∧ (replied.ports.get .a).presence ≠ .lost
      ∧ draining.stream .a = [0] ∧ (draining.ports.get .a).exchange = none
      ∧ (draining.ports.get .a).presence ≠ .lost
      ∧ (replied.slot .a 0).map (fun x => decide (x.outcome ≠ none)) = some true
      ∧ draining.buffers[(0 : Fin 4)].owner = some (.a, 0)
      ∧ draining.slot .a 0 = some { order .read 1 with state := .draining, outcome := some .done, sectorsDone := 1 }
      ∧ { draining.buffers[(0 : Fin 4)] with index := 63 }.index ≤ 63 := by
  decide +kernel

theorem witness_WordsThatOpenNothing :
    (base.ports.get .a).exchange = none ∧ (base.ports.get .a).presence ≠ .lost
      ∧ ((open_ .dataOut).ports.get .a).exchange = some ⟨.dataOut, []⟩ := by decide +kernel

/-- An exchange that delivers no buffer, one whose buffer has an owner, one whose buffer has none, by an opening word
and by the port's loss; and a LOST port. -/
theorem witness_AnOpeningWordSettlesThePort :
    opens (.dataIn .a 0x8000) = some .a ∧ ((open_ .dataOut).ports.get .a).exchange = some ⟨.dataOut, []⟩
      ∧ ((draining.onPort .a fun x => { x with exchange := some ⟨.dataIn (some 0), []⟩ }).ports.get .a).exchange
          = some ⟨.dataIn (some 0), []⟩
      ∧ draining.buffers[(0 : Fin 4)].owner ≠ none ∧ base.buffers[(0 : Fin 4)].owner = none
      ∧ (let s := (open_ .dataOut).onPort .a fun x => { x with timer := some 100 }
         (s.ports.get .a).presence = .present ∧ (s.ports.get .a).timer = some 100 ∧ ((100 : Tick) - s.tick).toInt ≤ 0)
      ∧ ((base.onPort .a fun x => { x with presence := .lost }).ports.get .a).presence = .lost
      ∧ ((base.onPort .a fun x => { x with presence := .lost }).ports.get .a).exchange = none := by
  decide +kernel

/-- A WRITE of 64 sectors with tag 7 that has requested the last two. -/
def wanting : State :=
  { open_ .dataOut with
      queues := (serving (order .write 64) ⟨62, none, 0, .data⟩).queues
      buffers := ((Vector.replicate 4 Buffer.empty).set 0 ⟨.filling, some (.a, 0), 62, []⟩).set 1
        ⟨.filling, some (.a, 0), 63, []⟩ }

theorem wanting_not_61 : ∀ (k : Fin 8) (b : Fin 4), wanting.buffers[b].owner = some (.a, k)
    ∧ wanting.buffers[b].state = .filling → wanting.buffers[b].index ≠ field 0x073D 5 0 := by decide +kernel

theorem witness_ADataBlockIsJudged :
    wanting.queueLaw
      ∧ (zeroData.length = 256 ∧ ((open_ .dataOut).ports.get .a).exchange = some ⟨.dataOut, []⟩
        ∧ (open_ .dataOut).requests .a = [] ∧ (wanting.ports.get .a).exchange = some ⟨.dataOut, []⟩
        ∧ (wanting.slot .a 0).map (·.tag.toNat) = some (field 0x073E 15 8)
        ∧ wanting.buffers[(0 : Fin 4)].owner = some (.a, 0) ∧ wanting.buffers[(0 : Fin 4)].state = .filling
        ∧ wanting.buffers[(0 : Fin 4)].index = field 0x073E 5 0
        ∧ (∀ b : Fin 4, wanting.buffers[b].owner = some (.a, 0) ∧ wanting.buffers[b].state = .filling → b ≠ 0 →
            wanting.buffers[(0 : Fin 4)].index < wanting.buffers[b].index)
        ∧ wanting.requests .a ≠ [])
      ∧ ∀ k sl (b : Fin 4), wanting.slot .a k = some sl → sl.tag.toNat = field 0x073D 15 8 →
          wanting.buffers[b].owner = some (.a, k) ∧ wanting.buffers[b].state = .filling →
          wanting.buffers[b].index = field 0x073D 5 0 → False :=
  ⟨queueLaw_of (by decide +kernel), by decide +kernel, fun k _ b _ _ h => wanting_not_61 k b h⟩

/-- A reply, no reply, no block, and a buffer with no owner, of a DRAINING READ with and without another buffer, and of
an order IN SERVICE. -/
theorem witness_WhatIsFetchedBecomesFree :
    ((open_ (.replyIn (some 7))).ports.get .a).exchange = some ⟨.replyIn (some 7), []⟩
      ∧ ((open_ (.replyIn none)).ports.get .a).exchange = some ⟨.replyIn none, []⟩
      ∧ ((open_ (.dataIn none)).ports.get .a).exchange = some ⟨.dataIn none, []⟩
      ∧ ((open_ (.dataIn (some 3))).ports.get .a).exchange = some ⟨.dataIn (some 3), []⟩
      ∧ (open_ (.dataIn (some 3))).buffers[(3 : Fin 4)].owner = none
      ∧ draining.buffers[(0 : Fin 4)].owner = some (.a, 0) ∧ (draining.slot .a 0).map (·.state) = some .draining
      ∧ (∀ b : Fin 4, b ≠ 0 → draining.buffers[b].owner ≠ some (.a, 0))
      ∧ (let s := draining.putBuffer 3 ⟨.fullForHost, some (.a, 0), 1, []⟩
         ∃ b : Fin 4, b ≠ 0 ∧ s.buffers[b].owner = some (.a, 0))
      ∧ (wanting.slot .a 0).map (·.state) = some .inService ∧ wanting.buffers[(0 : Fin 4)].owner = some (.a, 0) := by
  decide +kernel

/-- A WRITE IN SERVICE at its last sectors; one of a CHECK; no order at all. -/
theorem witness_RequestsRunThreeSectorsAhead :
    wanting.bufferLaw ∧ (wanting.inService.map fun x => (x.1, x.2.1, x.2.2.kind, x.2.2.verifyPhase, x.2.2.withdrawn))
      = some (.a, 0, .write, false, false) ∧ (wanting.ports.get .a).presence ≠ .lost
      ∧ ((serving (order .check 2) ⟨0, none, 0, .data⟩).inService.map fun x => x.2.2.kind) = some .check
      ∧ base.inService = none :=
  ⟨by unfold State.bufferLaw; decide +kernel, by decide +kernel⟩

/-! ### Orders: acceptance -/

/-- Region 0 of `base`'s active map. -/
theorem base_region : base.map.active.toList[(0 : Word).toNat]? = some ⟨true, 0, 191, .write, .read⟩ := by decide +kernel

/-- The last 64 blocks of region 0; PROMPT, one track. -/
theorem witness_AReadOrCheckIsAccepted :
    (ordering base 6).slotFor .a 7 0 ∧ (ordering base 6).completes .a 6 = true ∧ field 0x0101 15 8 ≤ 1
      ∧ field 0x0101 7 0 ≤ 1 ∧ (ordering base 6).drive.state = .ready
      ∧ (ordering base 6).map.active.toList[(0 : Word).toNat]? = some ⟨true, 0, 191, .write, .read⟩
      ∧ (64 : Word).toNat ≤ 64 ∧ 1 ≤ (64 : Word).toNat ∧ (15296 : Word).toNat + (64 : Word).toNat ≤ (191 + 1 - 0) * 80
      ∧ field 0x0001 15 8 ≠ 1 ∧ (20 : Word).toNat % 20 + (20 : Word).toNat ≤ 20 :=
  ⟨slotFor_of (by decide +kernel), by decide +kernel⟩

theorem witness_AWriteIsAccepted :
    (ordering base 7).slotFor .a 7 0 ∧ (ordering base 7).completes .a 7 = true ∧ field 0x0101 15 8 ≤ 1
      ∧ field 0x0101 7 0 ≤ 1 ∧ (1 : Word).toNat ≤ 1 ∧ (ordering base 7).drive.state = .ready
      ∧ (ordering base 7).map.active.toList[(0 : Word).toNat]? = some ⟨true, 0, 191, .write, .read⟩
      ∧ 1 ≤ (20 : Word).toNat ∧ (20 : Word).toNat ≤ 64 ∧ (15340 : Word).toNat + (20 : Word).toNat ≤ (191 + 1 - 0) * 80
      ∧ (15340 : Word).toNat % 20 + (20 : Word).toNat ≤ 20
      ∧ (∀ i, i < (20 : Word).toNat → (ordering base 7).guard.protectsData (0 + ((15340 : Word).toNat + i) / 80) = false)
      ∧ (ordering base 7).label.state = .valid :=
  ⟨slotFor_of (by decide +kernel), by decide +kernel⟩

/-- FORMAT TRACK of a data cylinder and of cylinder 386, INITIALIZE LABEL, ASSIGN SPARE of a spare, TEST TRACK with the
longest window. -/
theorem witness_MaintenanceOrdersAreAccepted :
    (armed base 5).slotFor .a 7 0 ∧ field 0x0101 15 8 ≤ 1 ∧ field 0x0101 7 0 ≤ 1 ∧ (armed base 5).drive.state = .ready
      ∧ (armed base 5).completes .a 5 = true ∧ ((armed base 5).ports.get .a).armed = true
      ∧ (386 : Word).toNat ≤ 386 ∧ (3 : Word).toNat ≤ 3 ∧ base.map.active.rightOn .a 191 = .write
      ∧ base.guard.protectsFormat 191 = false ∧ base.guard.protectsFormat 386 = false
      ∧ (armed base 8).completes .a 8 = true ∧ base.guard.freeze = false
      ∧ (armed base 6).completes .a 6 = true ∧ (384 : Word).toNat ≤ 384 ∧ (19 : Word).toNat ≤ 19
      ∧ base.label.state = .valid ∧ base.label.table.length + base.label.retired.length < 80
      ∧ (ordering base 7).completes .a 7 = true ∧ 1 ≤ (255 : Word).toNat ∧ (255 : Word).toNat ≤ 255
      ∧ (1 : Word).toNat ≤ 1 :=
  ⟨slotFor_of (by decide +kernel), by decide +kernel⟩

/-- One packet length for each clause, with the greatest codes of their fields. -/
theorem witness_ImmediateOrdersAreAnswered :
    (armed base 5).slotFor .a 7 0 ∧ field 0x0101 15 8 ≤ 1 ∧ field 0x0101 7 0 ≤ 1
      ∧ (ordering base 3).completes .a 3 = true ∧ (ordering base 4).completes .a 4 = true
      ∧ (armed base 5).completes .a 5 = true ∧ ((armed base 5).ports.get .a).armed = true
      ∧ (ordering base 6).completes .a 6 = true ∧ (3 : Word).toNat ≤ 3
      ∧ [MapMode.direct, .lineStrobe, .orderStrobe][(2 : Word).toNat]? = some .orderStrobe ∧ (1 : Word).toNat ≤ 1
      ∧ sourcesByNumber[(6 : Word).toNat]? = some .sectorLost
      ∧ base.map.active.toList[15]? = some .empty ∧ base.map.active.toList[1]? = some ⟨true, 192, 383, .read, .write⟩ :=
  ⟨slotFor_of (by decide +kernel), by decide +kernel⟩

/-- Each guard mode, with the key at both levels in KEYED. -/
theorem witness_SetGuardFollowsTheModeAndTheKey :
    (armed base 8).slotFor .a 7 0 ∧ (armed base 8).completes .a 8 = true ∧ ((armed base 8).ports.get .a).armed = true
      ∧ field 0x0101 15 8 ≤ 1 ∧ field 0x0101 7 0 ≤ 1 ∧ [Span.none, .sixteenth, .eighth, .quarter, .half, .all][(5 : Word).toNat]? = some .all
      ∧ [GuardMode.opened, .keyed, .locked][(2 : Word).toNat]? = some .locked ∧ (1 : Word).toNat ≤ 1
      ∧ (armed base 8).guard.mode = .opened
      ∧ { armed base 8 with guard := { base.guard with mode := .keyed } }.guard.mode = .keyed
      ∧ { armed base 8 with guard := { base.guard with mode := .locked } }.guard.mode = .locked
      ∧ base.lines.guardKey = false ∧ { base.lines with guardKey := true }.guardKey = true :=
  ⟨slotFor_of (by decide +kernel), by decide +kernel⟩

/-- Words of one entry with a right of 3 and with rights of 2; an entry put last; a plan whose cylinders are and are not
covered. -/
theorem witness_APlanIsWritten_entries :
    let ws : List Word := [0x800C, 0, 383]
    3 * 1 ≤ ws.length ∧ field (wordAt ws (3 * 0)) 3 2 = 3 ∧ planEntriesOf 1 ws = none
      ∧ (field (wordAt [(0x800A : Word), 0, 383] (3 * 0)) 3 2 ≠ 3 ∧ field (wordAt [(0x800A : Word), 0, 383] (3 * 0)) 1 0 ≠ 3)
      ∧ 15 + [PlanEntry.empty].length ≤ 16 ∧ (∀ i : Fin 16, Plan.fixed[i].first ≤ Plan.fixed[i].last)
      ∧ Plan.fixed.conflictFree = true
      ∧ (Plan.fixed[(0 : Fin 16)].inUse = true ∧ Plan.fixed[(0 : Fin 16)].first ≤ 191 ∧ 191 ≤ Plan.fixed[(0 : Fin 16)].last)
      ∧ (∀ i : Fin 16, ¬(Plan.empty[i].inUse = true ∧ Plan.empty[i].first ≤ 191 ∧ 191 ≤ Plan.empty[i].last)) := by
  decide +kernel

/-- R172: a right of 3 in a plan entry, and a span above 5, are MALFORMED. -/
theorem test_codes_past_the_last :
    (after (.writePlan .a 7 [0, 0, 1, 0, 1, 0x800C, 0, 383]) (ordering base 9) fun t => t.ports.a.lastWord) = some 1
    ∧ (after (.setGuard .a 7 [0, 0, 6, 0, 0, 0, 2]) (armed base 8) fun t => t.ports.a.lastWord) = some 1 := by
  decide +kernel

/-- One entry, in use, written to entry 15 of plan 1, of plan 2 and, in DIRECT mode, of an active map without entries. -/
theorem witness_APlanIsWritten :
    let s : State := { armed base 9 with map := { base.map with mode := .direct, active := .empty } }
    let ws : List Word := [0x8009, 0, 383]
    let es : List PlanEntry := [⟨true, 0, 383, .write, .read⟩]
    s.slotFor .a 7 0
      ∧ ((s.onPort .a fun x => { x with armed := false }).setActive (s.map.active.putFrom 15 es) .edited).recheck.slotFor
          .a 7 0
      ∧ s.completes .a (ws.length + 6) = true ∧ field 0x0101 15 8 ≤ 1 ∧ field 0x0101 7 0 ≤ 1
      ∧ 1 ≤ (1 : Word).toNat ∧ (1 : Word).toNat ≤ 16 ∧ (15 : Word).toNat + (1 : Word).toNat ≤ 16
      ∧ ws.length = 3 * (1 : Word).toNat ∧ planEntriesOf (1 : Word).toNat ws = some es
      ∧ (∀ e ∈ es, e.first ≤ e.last ∧ e.last ≤ 383)
      ∧ (s.map.plan1.putFrom 15 es).conflictFree = true ∧ (s.map.plan2.putFrom 15 es).conflictFree = true
      ∧ (s.map.active.putFrom 15 es).conflictFree = true ∧ (s.ports.get .a).armed = true ∧ s.map.mode = .direct
      ∧ s.lines.fixedKey = false :=
  ⟨slotFor_of (by decide +kernel), slotFor_of (by decide +kernel), by decide +kernel⟩

/-- Plan 1 and plan 2, in ORDER STROBE mode. -/
theorem witness_AStagedPlanIsLoaded :
    let s : State := { armed base 4 with map := { base.map with mode := .orderStrobe, plan1 := .fixed, plan2 := .fixed } }
    s.slotFor .a 7 0
      ∧ ((((s.onPort .a fun x => { x with armed := false }).setActive .fixed .plan2).recheck.latch .planLoaded).countBoth
          .planLoads).slotFor .a 7 0
      ∧ s.completes .a 4 = true ∧ (s.ports.get .a).armed = true ∧ field 0x0101 15 8 ≤ 1
      ∧ field 0x0101 7 0 ≤ 1 ∧ s.map.mode = .orderStrobe ∧ s.lines.fixedKey = false ∧ s.map.plan1.isEmpty = false
      ∧ s.map.plan2.isEmpty = false :=
  ⟨slotFor_of (by decide +kernel), slotFor_of (by decide +kernel), by decide +kernel⟩

theorem witness_ARestartSpinsUp :
    let s : State := { armed base 3 with drive := { base.drive with state := .faulted, fault := some .seek } }
    s.slotFor .a 7 0 ∧ s.completes .a 3 = true ∧ (s.ports.get .a).armed = true ∧ field 0x0101 15 8 ≤ 1
      ∧ field 0x0101 7 0 ≤ 1 ∧ s.drive.state = .faulted ∧ s.lines.overTemp = false :=
  ⟨slotFor_of (by decide +kernel), by decide +kernel⟩

theorem witness_ArmSetsTheLatchAndUnknownKindsAreRefused :
    field 0x0101 15 8 ≤ 1 ∧ field 0x0101 7 0 ≤ 1 ∧ field 0xFFFF 15 8 = 255 ∧ (ordering base 3).completes .a 3 = true
      ∧ (ordering base 4).completes .a ([(0 : Word)].length + 3) = true
      ∧ [(0 : Word)].length ≤ 1 ∧ (ordering base 2).completes .a ([(0 : Word)].length + 1) = true := by
  decide +kernel

theorem witness_ClearPortFreesThePort :
    let s := armed wanting 3
    s.queueLaw ∧ s.completes .a 3 = true ∧ (s.ports.get .a).armed = true ∧ field 0x0101 15 8 ≤ 1
      ∧ field 0x0101 7 0 ≤ 1 :=
  ⟨queueLaw_of (by decide +kernel), by decide +kernel⟩

/-! ### Orders: refusal -/

/-- Eight live slots. -/
def full : State :=
  slotNumbers.foldl (fun s k => s.slotTaken .a k { order .check 2 with tag := BitVec.ofNat 8 k.val }) (ordering base 6)

/-- A packet with no due word, with an urgency and a drop-if-late of 2, with a field too many; eight live slots, a tag in
use, and no latch. -/
theorem witness_TheGeneralChecksRefuseInOrder :
    (ordering base 8).slotFor .a 7 0
      ∧ (ordering base 2).completes .a 2 = true ∧ 1 < field 0x0200 15 8 ∧ 1 < field 0x0002 7 0
      ∧ Kind.read.sound [0, 0, 1, 0] = false ∧ Kind.read.sound [0, 0, 1] = true
      ∧ Kind.read.slotless = false ∧ full.completes .a 6 = true ∧ (∀ k, full.slot .a k ≠ none)
      ∧ (∃ k, ((ordering base 6).slotTaken .a 0 (order .check 2)).slot .a k = none)
      ∧ (((ordering base 6).slotTaken .a 0 (order .check 2)).slot .a 0).map (·.tag) = some 7
      ∧ Kind.clearPort.slotless = true ∧ Kind.clearPort.sound [] = true ∧ Kind.clearPort.arms [] = true
      ∧ ((ordering base 3).ports.get .a).armed = false
      ∧ Kind.setGuard.sound [5, 1, 1, 1, 2] = true ∧ Kind.setGuard.arms [5, 1, 1, 1, 2] = true :=
  ⟨slotFor_of (by decide +kernel), by decide +kernel⟩

/-- Each check at the first value that fails it: no drive, 0 and 65 sectors, a region not in use and one past the last,
a right too small, a block past the end, a track crossed, a guarded cylinder, no label. -/
theorem witness_DataOrdersAreRefusedInOrder :
    (ordering base 7).slotFor .a 7 0
      ∧ (∃ i, i < (1 : Word).toNat ∧ Guard.protectsData ⟨.all, false, false, false, .opened⟩ (0 + ((0 : Word).toNat + i) / 80)
          = true)
      ∧ (ordering base 7).completes .a ([(0 : Word), 0, 1, 1].length + 3) = true
      ∧ { base with drive := .reset }.drive.state = .empty ∧ ¬(1 ≤ (0 : Word).toNat) ∧ ¬((65 : Word).toNat ≤ 64)
      ∧ (base.map.active.toList[(2 : Word).toNat]?).map (·.inUse) = some false
      ∧ base.map.active.toList[(16 : Word).toNat]? = none
      ∧ base.map.active.toList[(1 : Word).toNat]? = some ⟨true, 192, 383, .read, .write⟩
      ∧ PlanEntry.right ⟨true, 192, 383, .read, .write⟩ .a ≠ .write
      ∧ ¬((15360 : Word).toNat + (1 : Word).toNat ≤ (191 + 1 - 0) * 80)
      ∧ ¬((19 : Word).toNat % 20 + (2 : Word).toNat ≤ 20)
      ∧ { base with label := .blank .damaged }.label.state ≠ .valid :=
  ⟨slotFor_of (by decide +kernel), ⟨0, by decide +kernel⟩, by decide +kernel⟩

/-- Each check at the first value that fails it. -/
theorem witness_OtherOrdersAreRefusedInOrder :
    (armed base 5).slotFor .a 7 0 ∧ (armed base 5).completes .a ([(387 : Word), 0].length + 3) = true
      ∧ Kind.formatTrack.sound [387, 0] = true ∧ Kind.initializeLabel.sound [0, 0, 0, 0, 0] = true
      ∧ Kind.assignSpare.sound [385, 0, 0] = true ∧ Kind.testTrack.sound [4, 0, 0, 1] = true
      ∧ ((armed base 5).ports.get .a).armed = true ∧ base.drive.state = .ready
      ∧ ({ base with map := { base.map with active := .empty } }.map.active.toList.find? fun e => PlanEntry.covers e 383) = none
      ∧ (base.map.active.toList.find? fun e => PlanEntry.covers e 192) = some ⟨true, 192, 383, .read, .write⟩
      ∧ Guard.protectsFormat ⟨.none, false, false, true, .opened⟩ 386 = true
      ∧ base.map.mode ≠ .direct ∧ Kind.writePlan.sound [0, 15, 1, 0x8009, 0, 384] = true
      ∧ planEntriesOf 1 [0x8009, 0, 384] = some [⟨true, 0, 384, .write, .read⟩]
      ∧ planEntriesOf 1 [0x8009, 0, 0] = some [⟨true, 0, 0, .write, .read⟩]
      ∧ (base.map.active.putFrom 15 [⟨true, 0, 0, .write, .read⟩]).conflictFree = false
      ∧ Kind.loadPlan.sound [1] = true ∧ base.map.mode ≠ .orderStrobe ∧ base.map.plan1.isEmpty = true
      ∧ Kind.restartDrive.sound [] = true ∧ base.drive.state ≠ .faulted :=
  ⟨slotFor_of (by decide +kernel), by decide +kernel⟩

/-! ### The panel, the map, the timers -/

theorem witness_ThePanelLinesActAtTheirEdges :
    base.lines.strobe = false ∧ { base.lines with strobe := true }.strobe = true ∧ base.map.mode = .lineStrobe
      ∧ base.lines.fixedKey = false ∧ { base.lines with fixedKey := true }.fixedKey = true
      ∧ base.lines.select = false ∧ { base.lines with select := true }.select = true
      ∧ { base.map with mode := .direct }.mode ≠ .lineStrobe ∧ Plan.empty.isEmpty = true ∧ Plan.fixed.isEmpty = false := by
  decide +kernel

/-- A QUEUED WRITE that port A may not make on cylinder 192, one of cylinder 0, a SUSPENDED CHECK, a FORMAT TRACK, and an
order IN SERVICE. -/
theorem witness_TheRecheckEndsTheOrdersThatFail :
    let sl : Slot := { order .write 2 with start := some ⟨191, 3, 19⟩ }
    (holding sl).queueLaw ∧ (holding sl).slot .a 0 = some sl ∧ (sl.state = .queued ∧ sl.kind.isData = true)
      ∧ ((holding sl).map.active.rightOn .a (sl.sectorAddr 0).cyl).allows true = true
      ∧ ¬((holding sl).map.active.rightOn .a (sl.sectorAddr 1).cyl).allows true = true
      ∧ (holding sl).slot .b 0 = none
      ∧ { order .check 2 with state := .suspended, sectorsDone := 1 }.state = .suspended
      ∧ (order .formatTrack 0).kind = .formatTrack ∧ (order .formatTrack 0).state = .queued :=
  ⟨queueLaw_of (by decide +kernel), by decide +kernel⟩

/-- After which a WRITE IN SERVICE may ask for a block in a FREE buffer, and after which nothing may. -/
theorem witness_TheRecheckEndsTheOrdersThatFail_buffers :
    wanting.bufferLaw ∧ wanting.mayAsk .a 0 { order .write 64 with state := .inService }
      ∧ (wanting.bufferLeft wanting 3).state = .free ∧ (wanting.bufferLeft wanting 0).state ≠ .free
      ∧ ∀ p k sl, ¬base.mayAsk p k sl :=
  ⟨by unfold State.bufferLaw; decide +kernel, by unfold State.mayAsk; decide +kernel, by decide +kernel,
    by decide +kernel, fun p k sl h => by
      have := h.1
      rw [show base.inService = none by decide +kernel] at this
      cases this⟩

theorem witness_AcknowledgingStopsTheFlashing :
    let s : State := { base with alarms := { Alarms.reset with
      latched := { SourceSet.empty with sectorLost := true }, manner := .flashing, level := true, flash := some 100 } }
    s.lines.ack = false ∧ { base.lines with ack := true }.ack = true ∧ s.alarms.flash = some 100
      ∧ s.alarms.manner = .flashing ∧ ((100 : Tick) - s.tick).toInt ≤ 0 ∧ 0 < ((101 : Tick) - s.tick).toInt
      ∧ s.alarms.follow = false := by
  decide +kernel

theorem witness_ASilentPortIsLost :
    let s := (holding (order .check 2)).onPort .a fun x => { x with timer := some 100 }
    s.queueLaw ∧ (s.ports.get .a).presence = .present ∧ (s.ports.get .a).timer = some 100
      ∧ ((100 : Tick) - s.tick).toInt ≤ 0 ∧ (s.ports.get .a).exchange = none ∧ 0 < ((101 : Tick) - s.tick).toInt
      ∧ State.reset.ports.a.presence ≠ .present :=
  ⟨queueLaw_of (by decide +kernel), by decide +kernel⟩

theorem witness_LateOrdersExpireAndFullDrainsStall :
    let late : Slot := { order .check 2 with prompt := true, dropIfLate := true, dueTick := some 100 }
    let full : Slot := { order .read 1 with state := .draining, drainStart := some (100 - 1000) }
    (holding late).names .a 7 0 late ∧ (holding full).names .a 7 0 full
      ∧ (∀ k sl, base.slot .a k = some sl → sl.tag ≠ 7)
      ∧ (late.state = .queued ∧ late.prompt = true ∧ late.dropIfLate = true)
      ∧ ((100 : Tick) - (holding late).tick).toInt ≤ 0 ∧ full.state = .draining
      ∧ (tickAfter (100 - 1000) 1000 - (holding full).tick).toInt ≤ 0 :=
  ⟨names_of rfl rfl (by decide +kernel), names_of rfl rfl (by decide +kernel), fun k sl h => by
      simpa using allSlots_spec (s := base) (f := fun _ _ sl => decide (sl.tag ≠ 7)) (by decide +kernel) .a k sl h,
    by decide +kernel⟩

/-! ### Pulses and sector passes -/

/-- The bounds of the band, the eighth in-band revolution in SPINNING UP, and a drive that runs down; the third revolution
out of band in READY, and the eighth in band in DEGRADED. -/
theorem witness_AnIndexClosesARevolution :
    let up : State := { base with
      tick := 300, drive := { base.drive with state := .spinningUp }
      pos := { base.pos with inBand := false, inRun := 7, lastIndex := some 100 } }
    let slow : State := { base with tick := 305, pos := { base.pos with outRun := 2, lastIndex := some 100 } }
    let even : State := { up with drive := { base.drive with state := .degraded, speed := true } }
    up.pos.lastIndex = some 100 ∧ (up.tick - (100 : Tick)).toInt = 200 ∧ up.pos.inBand = false
      ∧ (after (.indexPulse .stored) up fun t => t.pos.inBand) = some true ∧ State.reset.pos.lastIndex = none
      ∧ ((196 : Tick) - 0).toInt = 196 ∧ ((205 : Tick) - 0).toInt = 205
      ∧ { base with drive := { base.drive with state := .spinningDown } }.drive.state = .spinningDown
      ∧ base.inService = none ∧ 204 < (slow.tick - (100 : Tick)).toInt ∧ slow.pos.extra = false
      ∧ (after (.indexPulse .stored) slow fun t => (t.pos.inBand, t.drive.state, t.drive.speed, t.banks.b.live[25]))
          = some (false, .degraded, true, 1)
      ∧ (after (.indexPulse .stored) even fun t => (t.pos.inBand, t.drive.state, t.drive.speed))
          = some (true, .ready, false) := by
  decide +kernel

/-- A TEST TRACK of two read revolutions that stops at the first failure, in its second. -/
def tester : Slot :=
  { order .testTrack 0 with start := some ⟨385, 1, 0⟩, params := .test 1 0 2 true, maint := .test true 1 0 0 0 }

/-- A TEST TRACK whose write of sector 0 an index finds under way. -/
def earlyIndex (v : Verdict) : State :=
  { serving { tester with maint := .test false 0 0 0 0 } ⟨0, none, 0, .testWriting⟩ with
      pass := some ⟨.testWrite, ⟨385, 1, 0⟩, v, [1]⟩ }

/-- A TEST TRACK at the index that closes its last read revolution, one that has still to write, one that waits for its
first index, and one with a pass under way. -/
theorem witness_AnIndexClosesARevolution_test :
    let s := serving tester ⟨0, none, 0, .testReading⟩
    let w := serving { tester with maint := .test false 0 0 0 0 } ⟨0, none, 0, .testWriting⟩
    s.serviceLaw ∧ w.serviceLaw ∧ s.inService = some (.a, 0, { tester with state := .inService })
      ∧ s.progress = some ⟨0, none, 0, .testReading⟩ ∧ s.drive.state = .ready ∧ s.pos.activity = .confirmed
      ∧ 0 < (s.tick - s.pos.arrivalTick).toInt ∧ s.pass = none ∧ s.pos.cyl = some 0 ∧ 2 ≤ 1 + 1
      ∧ (w.inService.map fun x => x.2.2.maint) = some (.test false 0 0 0 0) ∧ w.lines.supply = true
      ∧ ((passing tester ⟨0, none, 0, .testReading⟩ .testRead .matching).pass.map (·.kind)) = some .testRead
      ∧ ((earlyIndex .matching).pass.map fun q => (q.kind, q.verdict)) = some (.testWrite, .matching)
      ∧ ((earlyIndex .mismatched).pass.map fun q => (q.kind, q.verdict)) = some (.testWrite, .mismatched) :=
  ⟨by unfold State.serviceLaw; decide +kernel, by unfold State.serviceLaw; decide +kernel, by decide +kernel⟩

/-- An early index that finds a write under way: the sector written is whole and counted, and the first read revolution
begins; a write whose header did not match is counted as a write failure (R142, R151; assumption 36). -/
theorem test_an_early_index_completes_a_write :
    (after (.indexPulse .stored) (earlyIndex .matching) fun t =>
        (t.disk.map (·.1), t.pass.map (·.kind), (t.slot .a 0).map fun x => (x.sectorsDone, x.maint)))
      = some ([Addr.linear ⟨385, 1, 0⟩], some .testRead, some (1, .test true 0 0 0 0))
    ∧ (after (.indexPulse .stored) (earlyIndex .mismatched) fun t => (t.disk, (t.slot .a 0).map (·.maint)))
      = some ([], some (.test true 0 1 0 0)) := by
  decide +kernel

theorem witness_ASectorPulseCounts :
    State.reset.pos.valid = false ∧ base.pos.valid = true ∧ base.pos.sc < 19
      ∧ 19 ≤ { base.pos with sc := 19 }.sc ∧ base.pos.activity ≠ .arrived ∧ base.pos.activity ≠ .confirmed := by
  decide +kernel

/-- Sector 1 of an order on track since tick 90. -/
def starting (sl : Slot) (g : Progress) : State :=
  { serving sl g with pos := { (serving sl g).pos with sc := 0 } }

/-- An order at its second sector, which a sector pulse begins, and at its first, which an index begins; where a block is
FULL FOR DISK and where none is; the third error of a positioning. -/
theorem witness_ASectorOfADataOrderBegins :
    let g : Progress := ⟨1, none, 0, .data⟩
    let s := starting (order .write 2) g
    let sl : Slot := { order .write 2 with state := .inService }
    let r := serving (order .read 2) ⟨0, none, 0, .data⟩
    let h := headerOf ⟨0, 0, 1⟩
    (s.serviceLaw ∧ r.serviceLaw) ∧ (s.queueLaw ∧ r.queueLaw) ∧ (s.onTarget ∧ r.onTarget)
      ∧ s.begins { s with pos := { s.pos with sc := 1, t := 0 } } 1 h (.sectorPulse h)
      ∧ r.begins r.indexWatch 0 h (.indexPulse h)
      ∧ s.drive.state ≠ .labelRead ∧ s.inService = some (.a, 0, sl) ∧ s.progress = some g
      ∧ (sl.sectorAddr g.next).sector = 1 ∧ (sl.sectorAddr 0).sector = 0
      ∧ h.verdict s.disk ⟨0, 0, 1⟩ = .matching ∧ (headerOf ⟨0, 0, 2⟩).verdict s.disk ⟨0, 0, 1⟩ = .mismatched
      ∧ HeaderReading.stored.verdict s.disk ⟨0, 0, 1⟩ = .unreadable
      ∧ s.map.active.rightOn .a 0 = .write ∧ s.map.active.rightOn .a 384 = .none ∧ s.lines.supply = true
      ∧ (s.owned .a 0).length < 3 ∧ (∀ b : Fin 4, s.buffers[b].state = .free)
      ∧ r.inService = some (.a, 0, { order .read 2 with state := .inService })
      ∧ (starting (order .check 2) g).inService = some (.a, 0, { order .check 2 with state := .inService })
      ∧ (let x := s.putBuffer 3 ⟨.fullForDisk, some (.a, 0), 1, zeroData⟩
         x.buffers[(3 : Fin 4)].owner = some (.a, 0) ∧ x.buffers[(3 : Fin 4)].state = .fullForDisk
         ∧ x.buffers[(3 : Fin 4)].index = g.next)
      ∧ 2 ≤ { s.pos with activity := .arrived, errors := 2 }.errors
      ∧ { s.pos with activity := .arrived, errors := 2 }.activity ≠ .confirmed :=
  ⟨by unfold State.serviceLaw; decide +kernel, ⟨queueLaw_of (by decide +kernel), queueLaw_of (by decide +kernel)⟩,
    by unfold State.onTarget; decide +kernel, .inr ⟨rfl, by decide +kernel, by decide +kernel, by decide +kernel, rfl⟩,
    .inl ⟨rfl, rfl, by decide +kernel, rfl⟩, by decide +kernel⟩

/-- A data field that passes, and one that fails. -/
def goodData : DataReading := .read [] (crc (fit256 []))
def badData : DataReading := .read [] (~~~ (crc (fit256 [])))

theorem good_passes (d : Cartridge) (x : Addr) : goodData.passes d x = true := by
  simp [goodData, DataReading.passes]

theorem bad_fails (d : Cartridge) (x : Addr) : badData.passes d x = false := by
  have h : ∀ w : Word, ~~~ w ≠ w := by
    intro w e
    have := congrArg BitVec.toNat e
    simp only [BitVec.toNat_not] at this
    omega
  simp [badData, DataReading.passes, h]

/-- A CHECK IN SERVICE on port A at its second sector, with a PROMPT CHECK on port B that is due at a tick. -/
def pressed (due : Tick) : State :=
  (passing (order .check 60) ⟨0, none, 0, .data⟩ .check .matching).slotTaken .b 0
    { order .check 2 with prompt := true, dueTick := some due }

/-- F_susp is tick 320: a PROMPT order due then sets the order in service aside, and one due a tick earlier does not. -/
theorem yields_and_keeps (sl : Slot) (h : sl = { order .check 60 with state := .inService }) :
    (pressed 320).yields sl 0 0 .b 0 ∧ (pressed 319).keeps sl 0 0 := by
  subst h
  refine ⟨(suspensionFor_iff ..).mp (by decide +kernel), fun q j hy => ?_⟩
  have := (suspensionFor_iff ..).mpr hy
  revert this
  rw [show (pressed 319).suspensionFor { order .check 60 with state := .inService } 0 0 = none by decide +kernel]
  simp

/-- A good pass with another sector to do; an order withdrawn, one whose port is LOST, one whose next sector is not granted,
one set aside and one that goes on; a next sector on the track, on another, and listed. -/
theorem witness_AGoodPassGoesOnToTheNextSector :
    let s := passing (order .check 2) ⟨0, none, 0, .data⟩ .check .matching
    let sl : Slot := { order .check 2 with state := .inService }
    s.serviceLaw ∧ ((pressed 320).yields { order .check 60 with state := .inService } 0 0 .b 0
        ∧ (pressed 319).keeps { order .check 60 with state := .inService } 0 0)
      ∧ goodData.passes s.disk ⟨0, 0, 0⟩ = true
      ∧ s.pass = some ⟨.check, ⟨0, 0, 0⟩, .matching, zeroData⟩ ∧ s.inService = some (.a, 0, sl)
      ∧ s.progress = some ⟨0, none, 0, .data⟩ ∧ sl.withdrawn = false ∧ { sl with withdrawn := true }.withdrawn = true
      ∧ (s.ports.get .a).presence ≠ .lost ∧ { s.ports.a with presence := .lost }.presence = .lost
      ∧ 0 + 1 < sl.n ∧ (s.map.active.rightOn .a (sl.sectorAddr 1).cyl).allows false = true
      ∧ (Plan.empty.rightOn .a (sl.sectorAddr 1).cyl).allows false = false
      ∧ lookupSpare s.label.table (sl.sectorAddr 1) = none ∧ s.pos.cyl = some (sl.sectorAddr 1).cyl
      ∧ s.pos.head = (sl.sectorAddr 1).head ∧ ({ sl with start := some ⟨0, 0, 19⟩ }.sectorAddr 1).head ≠ s.pos.head
      ∧ ({ sl with start := some ⟨0, 3, 19⟩ }.sectorAddr 1).cyl = 1
      ∧ lookupSpare [⟨⟨0, 0, 1⟩, 79⟩] (sl.sectorAddr 1) = some 79 :=
  ⟨by unfold State.serviceLaw; decide +kernel, yields_and_keeps _ rfl, good_passes _ _, by decide +kernel⟩

theorem witness_TheLastSectorEndsTheOrder :
    let s := passing (order .write 1) ⟨0, none, 0, .data⟩ (.write 0) .matching
    let sl : Slot := { order .write 1 with state := .inService }
    s.serviceLaw ∧ goodData.passes s.disk ⟨0, 0, 0⟩ = true
      ∧ s.pass = some ⟨.write 0, ⟨0, 0, 0⟩, .matching, zeroData⟩ ∧ s.inService = some (.a, 0, sl)
      ∧ s.progress = some ⟨0, none, 0, .data⟩ ∧ sl.withdrawn = false ∧ (s.ports.get .a).presence ≠ .lost
      ∧ 0 + 1 = sl.n ∧ sl.verify = false ∧ sl.sectorsDone = 0
      ∧ (passing (order .read 1) ⟨0, none, 0, .data⟩ (.read 0) .matching).inService
          = some (.a, 0, { order .read 1 with state := .inService })
      ∧ (passing (order .check 1) ⟨0, none, 0, .data⟩ .check .matching).inService
          = some (.a, 0, { order .check 1 with state := .inService })
      ∧ { sl with verify := true }.verify = true ∧ s.map.active.rightOn .a (sl.sectorAddr 0).cyl = .write
      ∧ lookupSpare s.label.table (sl.sectorAddr 0) = none ∧ s.pos.cyl = some (sl.sectorAddr 0).cyl
      ∧ s.pos.head = (sl.sectorAddr 0).head :=
  ⟨by unfold State.serviceLaw; decide +kernel, good_passes _ _, by decide +kernel⟩

/-- The fourth and the fifth failed pass, and the eighth slip in a row. -/
theorem witness_FailedPassesAreTriedFiveTimes :
    let s := passing (order .read 2) ⟨0, none, 4, .data⟩ (.read 0) .unreadable
    let sl : Slot := { order .read 2 with state := .inService }
    s.serviceLaw ∧ badData.passes s.disk ⟨0, 0, 0⟩ = false ∧ s.pass = some ⟨.read 0, ⟨0, 0, 0⟩, .unreadable, zeroData⟩
      ∧ s.inService = some (.a, 0, sl) ∧ s.progress = some ⟨0, none, 4, .data⟩ ∧ sl.withdrawn = false
      ∧ (s.ports.get .a).presence ≠ .lost ∧ 0 < sl.n
      ∧ (s.map.active.rightOn .a (sl.sectorAddr 0).cyl).allows false = true ∧ s.ownedIn .a 0 .fullForHost = []
      ∧ draining.ownedIn .a 0 .fullForHost ≠ []
      ∧ (passing (order .read 2) ⟨0, none, 3, .data⟩ (.read 0) .unreadable).progress = some ⟨0, none, 3, .data⟩
      ∧ 8 ≤ { sl with consSlips := 8 }.consSlips ∧ { sl with consSlips := 7 }.consSlips < 8 :=
  ⟨by unfold State.serviceLaw; decide +kernel, bad_fails _ _, by decide +kernel⟩

/-- The starts of the maintenance orders' sectors: the twentieth of a FORMAT TRACK and the label's own, a zeroing, a label
write and a read-back, TEST TRACK's nineteenth; each guarded, no longer granted, without the supply, and free. -/
theorem witness_MaintenancePassesWriteTheirSectors_starts :
    let f : Slot := { order .formatTrack 0 with sectorsDone := 19 }
    let s : State := { serving f ⟨0, none, 0, .format⟩ with pos := { (serving f ⟨0, none, 0, .format⟩).pos with sc := 18 } }
    (s.serviceLaw ∧ zeroing.serviceLaw ∧ labelling.serviceLaw) ∧ (s.queueLaw ∧ zeroing.queueLaw ∧ labelling.queueLaw)
      ∧ (s.onTarget ∧ zeroing.onTarget ∧ labelling.onTarget)
      ∧ s.begins { s with pos := { s.pos with sc := 19, t := 0 } } 19 .stored (.sectorPulse .stored)
      ∧ labelling.begins labelling.indexWatch 0 .stored (.indexPulse .stored)
      ∧ s.inService = some (.a, 0, { f with state := .inService }) ∧ s.drive.state ≠ .labelRead
      ∧ s.guard.protectsData 0 = false ∧ Guard.protectsData ⟨.all, false, false, true, .opened⟩ 0 = true
      ∧ s.map.active.rightOn .a 0 = .write ∧ Plan.empty.rightOn .a 0 ≠ .write ∧ s.lines.supply = true
      ∧ { s.lines with supply := false }.supply = false ∧ s.guard.freeze = false
      ∧ ({ ({ f with start := some ⟨386, 0, 0⟩ }.startAddr) with sector := 0 } : Addr) = ⟨386, 0, 0⟩
      ∧ (zeroing.inService.map fun x => x.2.2.maint) = some (.assign .newEntry (some 0) .zeroing)
      ∧ (zeroing.progress.map (·.stage)) = some .zeroing ∧ (labelling.progress.map (·.stage)) = some .labelWrite
      ∧ tester.params = .test 1 0 2 true :=
  ⟨by unfold State.serviceLaw; decide +kernel,
    ⟨queueLaw_of (by decide +kernel), queueLaw_of (by decide +kernel), queueLaw_of (by decide +kernel)⟩,
    by unfold State.onTarget; decide +kernel, .inr ⟨rfl, by decide +kernel, by decide +kernel, by decide +kernel, rfl⟩,
    .inl ⟨rfl, rfl, by decide +kernel, rfl⟩, by decide +kernel⟩

/-- The nineteenth and the twentieth sector of a FORMAT TRACK, TEST TRACK's revolutions, a zeroing, a label write; the
fourth and the fifth failed pass; a withdrawn order. -/
theorem witness_MaintenancePassesWriteTheirSectors :
    let f : Slot := { order .formatTrack 0 with sectorsDone := 19 }
    let s := passing f ⟨0, none, 4, .format⟩ .format .matching
    s.serviceLaw ∧ s.queueLaw ∧ s.pass = some ⟨.format, ⟨0, 0, 0⟩, .matching, zeroData⟩
      ∧ s.inService = some (.a, 0, { f with state := .inService }) ∧ s.progress = some ⟨0, none, 4, .format⟩
      ∧ Stage.format ≠ .readBack ∧ f.withdrawn = false ∧ { f with withdrawn := true }.withdrawn = true
      ∧ (s.ports.get .a).presence ≠ .lost ∧ { f with sectorsDone := 18 }.sectorsDone < 19 ∧ s.pos.cyl = some 0
      ∧ { zeroing with pass := some ⟨.zero, ⟨384, 0, 0⟩, .matching, [0]⟩ }.pass = some ⟨.zero, ⟨384, 0, 0⟩, .matching, [0]⟩
      ∧ (zeroing.inService.map fun x => x.2.2.maint) = some (.assign .newEntry (some 0) .zeroing)
      ∧ (labelling.inService.map fun x => x.2.2.kind) = some .initializeLabel
      ∧ tester.maint = .test true 1 0 0 0 ∧ (fit256 []).length = 256 ∧ 3 < 4 :=
  ⟨by unfold State.serviceLaw; decide +kernel, queueLaw_of (by decide +kernel), by decide +kernel⟩

/-- A read revolution: a header that does not match, a check word that fails, words that differ from the pattern, none. -/
theorem test_test_track_read :
    [(Verdict.unreadable, true), (.matching, false), (.matching, true)].map (fun x =>
        ((tester.testReadSector ⟨.testRead, ⟨385, 1, 3⟩, x.1, []⟩ zeroData x.2).2.map fun w => w.drop 1))
      = [some [3, 0, 0xFFFF], some [3, 1, 0], some [3, 2, 0]]
    ∧ (tester.testReadSector ⟨.testRead, ⟨385, 1, 3⟩, .matching, []⟩ (patternSector 0 3) true).2 = none := by
  decide +kernel

/-- INITIALIZE LABEL's read-back, and the four cases of ASSIGN SPARE that write the label. -/
theorem witness_TheReadBackDecidesTheLabel :
    let s : State := { labelling with pass := some ⟨.readBack, labelAddr, .matching, []⟩,
                                      progress := some ⟨0, none, 0, .readBack⟩ }
    let l : Label := { Label.blank .valid with gen := 65535, table := [⟨⟨0, 0, 0⟩, 1⟩], retired := [5] }
    s.serviceLaw ∧ (goodData.passes s.disk labelAddr = true ∧ badData.passes s.disk labelAddr = false)
      ∧ (s.pass.map fun q => (q.kind, q.verdict)) = some (.readBack, .matching)
      ∧ (s.inService.map fun x => (x.1, x.2.1, x.2.2.kind, x.2.2.params, x.2.2.withdrawn))
          = some (.a, 0, .initializeLabel, .label blankName 9, false)
      ∧ s.progress = some ⟨0, none, 0, .readBack⟩ ∧ (s.ports.get .a).presence ≠ .lost
      ∧ (zeroing.inService.map fun x => (x.2.2.kind, x.2.2.params)) = some (.assignSpare, .assign ⟨3, 0, 0⟩)
      ∧ l.table.Pairwise (fun e f => e.bad.linear < f.bad.linear) ∧ l.retired.Pairwise (· < ·)
      ∧ (∀ e ∈ l.table, e.bad.linear ≠ (⟨3, 0, 0⟩ : Addr).linear) ∧ ⟨⟨0, 0, 0⟩, 1⟩ ∈ l.table :=
  ⟨by unfold State.serviceLaw; decide +kernel, ⟨good_passes _ _, bad_fails _ _⟩, by decide +kernel⟩

/-- The first good pass, the fourth and the fifth failed one; the index that begins a pass and a sector pulse that does
not. -/
theorem witness_TheLabelReadMakesTheDriveReady :
    let s : State := { base with
      drive := { base.drive with state := .labelRead, labelFails := 4 }
      pass := some ⟨.labelRead, labelAddr, .matching, []⟩ }
    let r : State := { s with pass := none, pos := { base.pos with activity := .arrived, arrivalTick := 90 } }
    (goodData.passes s.disk labelAddr = true ∧ badData.passes s.disk labelAddr = false)
      ∧ r.serviceLaw ∧ r.queueLaw ∧ r.onTarget ∧ r.begins r.indexWatch 0 .stored (.indexPulse .stored)
      ∧ r.begins { r with pos := { r.pos with sc := 1, t := 0 } } 1 .stored (.sectorPulse .stored)
      ∧ r.inService = none
      ∧ s.pass = some ⟨.labelRead, labelAddr, .matching, []⟩ ∧ s.drive.state = .labelRead
      ∧ 4 ≤ s.drive.labelFails ∧ base.drive.labelFails < 4 :=
  ⟨⟨good_passes _ _, bad_fails _ _⟩, by unfold State.serviceLaw; decide +kernel, queueLaw_of (by decide +kernel),
    by unfold State.onTarget; decide +kernel, .inl ⟨rfl, rfl, by decide +kernel, rfl⟩,
    .inr ⟨rfl, by decide +kernel, by decide +kernel, by decide +kernel, rfl⟩, by decide +kernel⟩

/-! ### Seeks, recalibrations and the drive -/

/-- A seek of T_seek 45 issued at tick 55 and at tick 56, and one whose timeout falls now and a tick later; for a data
order, for a maintenance order before a label write and between it and its verdict. -/
theorem witness_SeeksArriveOrTimeOut :
    let s : State := { serving (order .check 2) ⟨0, none, 0, .data⟩ with
      pos := { base.pos with activity := .seeking, target := some ⟨1, 0, 0⟩, seekStart := 55, seekTime := 45 } }
    s.serviceLaw ∧ s.queueLaw ∧ s.pos.activity = .seeking ∧ s.pos.target = some ⟨1, 0, 0⟩
      ∧ (tickAfter 55 45 - s.tick).toInt ≤ 0 ∧ 0 < (tickAfter 56 45 - s.tick).toInt
      ∧ (tickAfter (100 - 245) (45 + 200) - s.tick).toInt ≤ 0 ∧ 0 < (tickAfter (101 - 245) (45 + 200) - s.tick).toInt
      ∧ s.pos.errors < 2 ∧ 2 ≤ { s.pos with errors := 2 }.errors ∧ base.pos.activity ≠ .seeking
      ∧ base.inService = none ∧ (s.inService.map fun x => x.2.2) = some { order .check 2 with state := .inService }
      ∧ s.progress = some ⟨0, none, 0, .data⟩ ∧ s.pass = none
      ∧ (s.ports.get .a).presence ≠ .lost ∧ 0 < (order .check 2).n
      ∧ (s.map.active.rightOn .a ((order .check 2).sectorAddr 0).cyl).allows false = true
      ∧ (serving (order .testTrack 0) ⟨0, none, 0, .testWaiting⟩).inService.isSome = true
      ∧ (labelling.inService.map fun x => x.2.2.kind) = some .initializeLabel
      ∧ (labelling.progress.map (·.stage)) = some .labelWrite :=
  ⟨by unfold State.serviceLaw; decide +kernel, queueLaw_of (by decide +kernel), by decide +kernel⟩

theorem witness_RecalibrationsCompleteOrFail :
    let s : State := { base with
      drive := { base.drive with state := .calibrating, attempts := 3 }
      pos := { base.pos with activity := .recalibrating, target := some ⟨5, 1, 2⟩, recalStart := 100 - 1000, errors := 2 } }
    s.serviceLaw ∧ s.queueLaw ∧ s.pos.activity = .recalibrating ∧ s.lines.onCylinder = false
      ∧ s.pos.limitTaken = false ∧ { s.pos with limitTaken := true }.limitTaken = true
      ∧ s.drive.state = .calibrating ∧ base.drive.state ≠ .calibrating ∧ s.pos.target = some ⟨5, 1, 2⟩
      ∧ (tickAfter s.pos.recalStart 1000 - s.tick).toInt ≤ 0
      ∧ 0 < (tickAfter (101 - 1000) 1000 - s.tick).toInt ∧ 3 ≤ s.drive.attempts ∧ base.drive.attempts < 3
      ∧ 2 ≤ s.pos.errors ∧ base.pos.errors < 2 ∧ base.pos.activity ≠ .recalibrating :=
  ⟨by unfold State.serviceLaw; decide +kernel, queueLaw_of (by decide +kernel), by decide +kernel⟩

/-- R103: the limit taken first, a rise in the same tick completes nothing, and one in a later tick does. -/
theorem test_limit_before_the_rise :
    let s : State := { base with
      pos := { base.pos with activity := .recalibrating, target := some ⟨5, 1, 2⟩, recalStart := 100 - 1000 } }
    let failed : Option State := after .recalibrationLimit s id
    (failed.bind fun t => after .recalibrationComplete t (·.pos.activity)) = some .recalibrating
      ∧ (failed.bind fun t => match step t with
        | .next u => after .recalibrationComplete u (·.pos.activity)
        | _ => none) = some .seeking := by
  decide +kernel

/-- R154, R173: a further fetch after the acceptance word returns the empty word. -/
theorem test_fetch_after_acceptance : after (.arm .a 7 [0, 0]) (ordering base 3) (fun t => [0, 1, 2].map (t.fetch .a))
    = some [0, 0xFFFF, 0xFFFF] := by decide +kernel

theorem witness_TheDriveFaults :
    let s : State := { base with tick := 500, pos := { base.pos with lastIndex := some 100 } }
    let up : State := { base with drive := { base.drive with state := .spinningUp, spinUp := some 100 } }
    (s.serviceLaw ∧ up.serviceLaw) ∧ (s.queueLaw ∧ up.queueLaw) ∧ s.drive.state = .ready ∧ s.pos.lastIndex = some 100
      ∧ (tickAfter 100 400 - s.tick).toInt ≤ 0 ∧ 0 < (tickAfter 101 400 - s.tick).toInt
      ∧ up.drive.state = .spinningUp ∧ up.drive.spinUp = some 100
      ∧ ((100 : Tick) - up.tick).toInt ≤ 0 ∧ 0 < ((101 : Tick) - up.tick).toInt ∧ s.lines.overTemp = false
      ∧ { s.lines with overTemp := true }.overTemp = true ∧ State.reset.drive.state = .empty :=
  ⟨by unfold State.serviceLaw; decide +kernel, ⟨queueLaw_of (by decide +kernel), queueLaw_of (by decide +kernel)⟩,
    by decide +kernel⟩

/-- A run-down whose time has come with the run condition holding, with the over-temperature line inactive and active. -/
theorem witness_TheRunConditionStartsAndStopsTheDrive :
    let down : State := { base with drive := { base.drive with state := .spinningDown, runDown := some 100 } }
    let hot : State := { down with lines := { down.lines with overTemp := true } }
    (base.serviceLaw ∧ hot.serviceLaw) ∧ (down.queueLaw ∧ base.queueLaw ∧ hot.queueLaw)
      ∧ State.reset.lines.run = false ∧ base.lines.run = true ∧ base.drive.state = .ready
      ∧ State.reset.drive.state = .empty ∧ (true && true && false) = false ∧ base.inService = none
      ∧ (serving (order .check 2) ⟨0, none, 0, .data⟩).inService ≠ none ∧ down.drive.state = .spinningDown
      ∧ down.drive.runDown = some 100 ∧ ((100 : Tick) - down.tick).toInt ≤ 0 ∧ 0 < ((101 : Tick) - down.tick).toInt
      ∧ down.lines.run = true ∧ base.lines.overTemp = false ∧ hot.lines.run = true ∧ hot.lines.overTemp = true :=
  ⟨by unfold State.serviceLaw; decide +kernel,
    ⟨queueLaw_of (by decide +kernel), queueLaw_of (by decide +kernel), queueLaw_of (by decide +kernel)⟩,
    by decide +kernel⟩

/-- R14: the condition comes to hold again while a stop is pending: the cartridge of the held label stays in place. -/
theorem test_no_exchange_while_the_label_is_held :
    let s : State := { base with
      lines := { base.lines with start := false }
      drive := { base.drive with stopPending := true } }
    let other : Option Cartridge := some [(0, .formatted ⟨0, 0, 0⟩ zeroData)]
    (after (.runConditionHolds other) s fun t => (t.drive.state, t.drive.stopPending, t.disk.map (·.1)))
      = some (.ready, false, [])
    ∧ (after (.runConditionHolds other) State.reset fun t => (t.drive.state, t.disk.map (·.1))) = some (.spinningUp, [0]) := by
  decide +kernel

/-- READY without a reason, DEGRADED by its supply alone and by its speed, and EMPTY. -/
theorem witness_TheWriteSupplyDegradesTheDrive :
    base.drive.state = .ready ∧ base.drive.speed = false
      ∧ { base.drive with state := .degraded, supply := true }.state = .degraded
      ∧ { base.drive with state := .degraded, speed := true }.speed = decide (DriveState.degraded = .degraded)
      ∧ State.reset.drive.state = .empty := by
  decide +kernel

/-! ### Selection and arithmetic -/

/-- A pending stop with no order in service; an arrival's order that stops, one that is not granted, one that is set aside
and one that goes on; a FORMAT TRACK no longer granted, and a label order between its write and its verdict. -/
theorem witness_ASelectionTakesPromptOrdersFirst_arrival :
    let stop : State := { base with drive := { base.drive with stopPending := true } }
    let g : Progress := ⟨0, none, 0, .data⟩
    let s := serving (order .check 2) g
    let f := serving (order .formatTrack 0) ⟨0, none, 0, .format⟩
    (stop.queueLaw ∧ s.serviceLaw ∧ f.serviceLaw ∧ labelling.serviceLaw)
      ∧ ((pressed 320).yields { order .check 60 with state := .inService } 0 0 .b 0
        ∧ (pressed 319).keeps { order .check 60 with state := .inService } 0 0)
      ∧ stop.drive.stopPending = true ∧ stop.inService = none ∧ base.drive.stopPending = false ∧ s.pos.cyl = some 0
      ∧ s.inService = some (.a, 0, { order .check 2 with state := .inService }) ∧ s.progress = some g ∧ s.pass = none
      ∧ { order .check 2 with withdrawn := true }.withdrawn = true ∧ (s.ports.get .a).presence ≠ .lost
      ∧ g.next < (order .check 2).n ∧ s.map.active.rightOn .a 0 = .write ∧ Plan.empty.rightOn .a 0 = .none
      ∧ (f.inService.map fun x => x.2.2.kind) = some .formatTrack ∧ f.pass = none ∧ Stage.format ≠ .readBack
      ∧ (labelling.inService.map fun x => x.2.2.kind) = some .initializeLabel ∧ labelling.pass = none
      ∧ (serving (order .initializeLabel 0) ⟨0, none, 0, .readBack⟩).progress = some ⟨0, none, 0, .readBack⟩ :=
  ⟨⟨queueLaw_of (by decide +kernel), by unfold State.serviceLaw; decide +kernel, by unfold State.serviceLaw; decide +kernel,
    by unfold State.serviceLaw; decide +kernel⟩, yields_and_keeps _ rfl, by decide +kernel⟩

/-- Two PROMPT offers of port A that are due at the same tick: the older is the candidate (R71). -/
theorem test_the_older_of_two_due_at_once :
    let x (tag : Byte) : Slot := { order .check 2 with prompt := true, dueTick := some 300, tag := tag }
    (((holding (x 7)).slotTaken .a 1 (x 8)).promptCandidate .a).map (·.1) = some 0 := by
  decide +kernel

/-- A PROMPT candidate on each port at the bounds of signed differences, a SUSPENDED order, and two ROUTINE heads of which
one was passed over four times; two orders of cylinder 0 that write and do not. -/
theorem witness_ASelectionTakesPromptOrdersFirst :
    let prompt : Slot := { order .check 2 with prompt := true, dueTick := some 300 }
    let both := (holding prompt).slotTaken .b 0 prompt
    let heads : State := { (holding (order .check 2)).slotTaken .b 0 (order .check 2) with sched := ⟨.b, ⟨4, 0⟩⟩ }
    let held := holding { order .check 2 with state := .suspended }
    both.queueLaw ∧ heads.bypassLaw
      ∧ both.pos.cyl = some 0 ∧ both.inService = none ∧ both.drive.state = .ready ∧ both.drive.stopPending = false
      ∧ both.promptCandidate .a = some (0, prompt) ∧ both.promptCandidate .b = some (0, prompt)
      ∧ both.sched.last ≠ .a ∧ (∀ x ∈ both.promptOffers .a, -1073741824 < signedDiff x.2.due 300
          ∧ signedDiff x.2.due 300 < 1073741824)
      ∧ heads.promptOffers .a = [] ∧ heads.promptOffers .b = [] ∧ heads.suspended = none
      ∧ heads.routineHead .a = some (0, order .check 2) ∧ heads.routineHead .b = some (0, order .check 2)
      ∧ heads.sched.bypass.get .a = 4 ∧ heads.sched.bypass.get .b ≠ 4
      ∧ (held.suspended.map fun x => x.2.2.kind) = some .check ∧ held.promptOffers .a = [] ∧ held.promptOffers .b = []
      ∧ { both.drive with stopPending := true }.stopPending = true ∧ State.reset.pos.cyl = none
      ∧ 0 < (order .write 1).extent ∧ 0 < (order .check 2).extent ∧ (order .write 1).clashes (order .check 2) = true
      ∧ (order .check 1).clashes (order .check 2) = false :=
  ⟨queueLaw_of (by decide +kernel), by unfold State.bypassLaw; decide +kernel, by decide +kernel⟩

/-- What an order handed the actuator can find: its sector listed and not; the label VALID and not; each case of an ASSIGN
SPARE, with a spare left and with none. -/
theorem witness_ASelectionTakesPromptOrdersFirst_hand :
    let l : Label := { Label.blank .valid with gen := 1, table := [⟨⟨0, 0, 0⟩, 79⟩], retired := [0] }
    let s : State := { holding (order .check 2) with label := l }
    let none80 : Label := { l with retired := (List.range 79) }
    s.slot .a 0 = some (order .check 2) ∧ s.inService = none ∧ (∀ e ∈ base.label.table, e.bad ≠ ⟨0, 0, 0⟩)
      ∧ (∀ f ∈ s.label.table, f.bad = ⟨0, 0, 0⟩ → f = ⟨⟨0, 0, 0⟩, 79⟩)
      ∧ l.state = .valid ∧ (Label.blank .damaged).state ≠ .valid
      ∧ (∀ e ∈ l.table, e.bad ≠ ⟨383, 3, 19⟩) ∧ (∃ e ∈ l.table, e.bad = ⟨0, 0, 0⟩)
      ∧ 0 * 20 + 0 ∈ l.retired ∧ 3 * 20 + 19 ∉ l.retired ∧ (∃ e ∈ l.table, e.spare = 3 * 20 + 19)
      ∧ 0 * 20 + 1 ∉ l.retired ∧ (∀ e ∈ l.table, e.spare ≠ 0 * 20 + 1)
      ∧ (∀ i, i < 80 → ¬((∀ e ∈ none80.table, e.spare ≠ i) ∧ i ∉ none80.retired)) := by
  decide +kernel

theorem witness_TheCheckWordIsTheStatedRegister : zeroData.length = 256 := by decide +kernel

theorem witness_TheTestPatternIsTheStatedRegister : (1 : Word) ≠ 0 ∧ 255 < 256 := by decide

/-- A protected run's two ends. -/
theorem witness_TheGuardedRangeIsTheStatedOne :
    (0 ≤ 10 ∧ 10 ≤ 191) ∧ Guard.protectsData ⟨.half, false, true, false, .opened⟩ 0 = true
      ∧ Guard.protectsData ⟨.half, false, true, false, .opened⟩ 191 = true := by decide

theorem witness_TheModelTimesAreTheStatedOnes : 19 ≤ 19 ∧ 199 ≤ 199 ∧ (199 + 191) % 200 = 10 * 19 := by decide

/-- The words of a label sector without the mark, of one with E + R of 81, of one whose generation is 0, and of a sound one
whose two entries and two retired spares stand in descending order. -/
theorem witness_ALabelReadsBackAsWritten_words :
    let words (l : List Word) : List Word := l ++ List.replicate (256 - l.length) 0
    let few := words [0x6B1D, 0, 0, 0, 0, 0, 0, 0, 0]
    let many := words [0x6B1D, 0, 0, 0, 0, 0, 1, 1, 80]
    let good := words [0x6B1D, 0, 0, 0, 0, 9, 1, 2, 2, 383, 0x3983, 0, 1, 5, 2]
    [[], many, few, good].all (fun l => (words l).length = 256) = true
      ∧ (wordAt (words []) 0 ≠ 0x6B1D ∧ wordAt many 0 = 0x6B1D)
      ∧ 80 < (wordAt many 7).toNat + (wordAt many 8).toNat ∧ wordAt few 6 = 0
      ∧ (wordAt good 0 = 0x6B1D ∧ (wordAt good 7).toNat + (wordAt good 8).toNat ≤ 80)
      ∧ judgeLabel good = ⟨.valid, #v[0, 0, 0, 0], 9, 1, [⟨⟨0, 0, 0⟩, 1⟩, ⟨⟨383, 3, 19⟩, 3⟩], [2, 5]⟩
      ∧ (judgeLabel many).state = .damaged ∧ (judgeLabel few).state = .damaged
      ∧ (judgeLabel (words [])).state = .absent := by
  decide +kernel

/-- A label with two entries and a retired spare. -/
theorem witness_ALabelReadsBackAsWritten :
    let l : Label := ⟨.valid, blankName, 9, 65535, [⟨⟨0, 0, 0⟩, 1⟩, ⟨⟨383, 3, 19⟩, 79⟩], [0]⟩
    l.state = .valid ∧ l.table.length + l.retired.length ≤ 80 ∧ labelSound l.gen l.table l.retired = true
      ∧ l.table.Pairwise (fun x y => x.bad.linear < y.bad.linear) ∧ l.retired.Pairwise (· < ·) := by
  decide +kernel

end Sys2Proof.Tests
end

/-! The resets and the reset state (O3, O4, O5). -/

namespace Sys2Proof.Machine

/-- The reset values of every block, with the operands of a reset. -/
def resetWith (s : State) (lines : Lines) (disk : Cartridge) (map : MapUnit) (guard : Guard) : State :=
  { State.reset with
      pending := s.pending, lines := lines, disk := disk, free := s.cutPass.free, map := map, guard := guard }

theorem resetLoad_eq (s : State) : s.resetLoad = { s with map := s.resetLoad.map } := by
  unfold State.resetLoad
  split <;> rfl

theorem tickAfter_zero (n : Nat) : tickAfter 0 n = BitVec.ofNat 32 n := BitVec.zero_add _

theorem endWhere_empty {s : State} {p : Port} (P : Slot → Bool) (e : Ending) (h : (s.queues.get p).order = []) :
    s.endWhere p P e = s := by
  unfold State.endWhere
  rw [h]
  rfl

theorem cutPass_none {s : State} (h : s.pass = none) : s.cutPass = s := by
  unfold State.cutPass; rw [h]

theorem faultInService_idle {s : State} (hi : s.inService = none) (hg : s.progress = none) (hq : s.pass = none) :
    s.faultInService = s := by
  have hl : s.labelOpen = false := by unfold State.labelOpen; rw [hg, hq]; rfl
  unfold State.faultInService
  simp only [hl, Bool.false_eq_true, if_false, hi, cutPass_none hq]

theorem reset_slot (p : Port) (k : Fin 8) : State.reset.slot p k = none := by
  cases p <;> exact Vector.getElem_replicate ..

theorem reset_inService : State.reset.inService = none :=
  inService_eq_none fun p k y h => by rw [reset_slot] at h; cases h

theorem resetWith_enterFaulted (s : State) (l : Lines) (d : Cartridge) (m : MapUnit) (g : Guard) (x : Supervisor)
    (hx : x.stopPending = false) :
    ({ resetWith s l d m g with drive := x } : State).enterFaulted .overtemp
      = { resetWith s l d m g with
            drive := { x with state := .faulted, speed := false, supply := false, fault := some .overtemp,
                              spinUp := none, labelFails := 0 }
            alarms := (resetWith s l d m g).latch .driveFaulted |>.alarms } := by
  unfold State.enterFaulted
  have hi : ({ resetWith s l d m g with drive := x } : State).inService = none := reset_inService
  simp only [faultInService_idle hi rfl rfl]
  rw [endWhere_empty (p := .a) _ _ rfl, endWhere_empty (p := .b) _ _ rfl]
  exact if_neg (by rw [show (State.drive _).stopPending = x.stopPending from rfl, hx]; decide)

/-- A line that is judged flashing and did not flash becomes active, and its flash timer starts (R167). -/
theorem judgeAlarm_flashing {s : State} (h : s.manner = .flashing) (hm : s.alarms.manner ≠ .flashing) :
    s.judgeAlarm = { s with alarms :=
      { s.alarms with manner := .flashing, level := true, flash := some (tickAfter s.tick 2500) } } := by
  unfold State.judgeAlarm
  simp only [h, if_true, if_neg hm]

/-- What judging the run condition leaves of the reset values (R130, R135, R141). -/
theorem resetWith_judgeRun (s : State) (l : Lines) (d : Cartridge) (m : MapUnit) (g : Guard) :
    (resetWith s l d m g).judgeRun.judgeAlarm
      = { resetWith s l d m g with drive := l.resetDrive, alarms := l.resetAlarms } := by
  unfold State.judgeRun Lines.resetDrive Lines.resetAlarms
  cases hr : l.run with
  | false => rw [if_neg (by simp [resetWith, hr])]; rfl
  | true =>
    rw [if_pos (by simp [resetWith, hr])]
    unfold State.enterSpinningUp
    rw [show (resetWith s l d m g).tick = 0 from rfl, tickAfter_zero]
    cases ho : l.overTemp with
    | false => rw [if_neg (by simp [resetWith, State.newMeasurement, ho])]; rfl
    | true =>
      rw [if_pos (by simp [resetWith, State.newMeasurement, ho])]
      refine (congrArg State.judgeAlarm (resetWith_enterFaulted s l d m g _ rfl)).trans ?_
      rw [judgeAlarm_flashing rfl (show Manner.inactive ≠ .flashing by decide),
        show State.tick _ = 0 from rfl, tickAfter_zero]
      rfl

theorem resetTo_eq (s : State) (l : Lines) (d : Cartridge) (m : MapUnit) (g : Guard) :
    s.resetTo l d m g = { resetWith s l d (resetWith s l d m g).resetLoad.map g with
        drive := l.resetDrive, alarms := l.resetAlarms } := by
  rw [← resetWith_judgeRun]
  exact congrArg (fun x => (State.judgeRun x).judgeAlarm) (resetLoad_eq (resetWith s l d m g))

/-- The reset load takes the fixed plan with the key ON, or where the plan selected is empty (R27). -/
theorem resetLoad_fixed {s : State} (h : s.lines.fixedKey = true ∨ s.selectedPlan.1.isEmpty = true) :
    s.resetLoad = s.setActive .fixed .fixed := if_pos h

/-- The reset load takes the plan selected where the key is OFF and the plan is not empty (R27). -/
theorem resetLoad_selected {s : State} (h : s.lines.fixedKey = false) (he : s.selectedPlan.1.isEmpty = false) :
    s.resetLoad = s.setActive s.selectedPlan.1 s.selectedPlan.2 := if_neg (by simp [h, he])

theorem empty_isEmpty : Plan.isEmpty .empty = true := by decide

/-- The reset load sets the active map and its origin alone (R27). -/
theorem resetLoad_keeps (s : State) : s.resetLoad.map.plan1 = s.map.plan1 ∧ s.resetLoad.map.plan2 = s.map.plan2
    ∧ s.resetLoad.map.mode = s.map.mode ∧ s.resetLoad.map.auto = s.map.auto := by
  unfold State.resetLoad
  split <;> exact ⟨rfl, rfl, rfl, rfl⟩

theorem resetLoad_keyed {s : State} (hk : s.lines.fixedKey = true) :
    s.resetLoad.map.active = .fixed ∧ s.resetLoad.map.origin = .fixed := by
  rw [resetLoad_fixed (.inl hk)]; exact ⟨rfl, rfl⟩

/-- The active map and its origin after the reset load, where `m` is the plan selected and `o` its origin (R27). -/
theorem resetLoad_choice {s : State} {m : Plan} {o : Origin} (hk : s.lines.fixedKey = false)
    (hp : s.selectedPlan = (m, o)) : if m.isEmpty then
      s.resetLoad.map.active = .fixed ∧ s.resetLoad.map.origin = .fixed
    else s.resetLoad.map.active = m ∧ s.resetLoad.map.origin = o := by
  split
  · next he => rw [resetLoad_fixed (.inr (by rw [hp]; exact he))]; exact ⟨rfl, rfl⟩
  · next he => rw [resetLoad_selected hk (by rw [hp]; simpa using he), hp]; exact ⟨rfl, rfl⟩

/-- Settles O3: a reset is the reset load and the judgement of the run condition on the reset values. -/
theorem resetsSetEveryBlock : Obligations.ResetsSetEveryBlock := by
  intro s
  constructor
  · intro l c
    have hp : ∀ d, (resetWith s l d .powerOn .powerOn).resetLoad.map = .powerOn := by
      intro d
      have he : (resetWith s l d .powerOn .powerOn).selectedPlan.1.isEmpty = true := by
        unfold State.selectedPlan
        split <;> exact empty_isEmpty
      rw [resetLoad_fixed (.inr he)]
      rfl
    simp only [exec, execPowerOn, resetTo_eq, hp]
    cases c <;> rfl
  · have hm := resetTo_eq s s.lines s.cutPass.disk
      { MapUnit.powerOn with plan1 := s.map.plan1, plan2 := s.map.plan2 } s.guard
    obtain ⟨h1, h2, hmode, hauto⟩ := resetLoad_keeps (resetWith s s.lines s.cutPass.disk
      { MapUnit.powerOn with plan1 := s.map.plan1, plan2 := s.map.plan2 } s.guard)
    refine ⟨_, h1, h2, hmode, hauto, ?_, ?_, ?_, by simp only [exec, execPanelReset]; exact congrArg _ hm⟩
    · exact fun hk => resetLoad_keyed hk
    · intro hk hl
      exact resetLoad_choice hk (if_neg (ne_true_of_eq_false hl))
    · intro hk hl
      exact resetLoad_choice hk (if_pos hl)

/-- Settles O4: the disk after such a reset is that of the cut pass. -/
theorem aResetCutsASectorWrite : Obligations.AResetCutsASectorWrite := by
  intro s c hd hc
  have ht : ∃ t, exec c s = .next t ∧ t.disk = s.cutPass.disk := by
    rcases hc with rfl | ⟨l, rfl⟩
    · exact ⟨_, rfl, by rw [resetTo_eq]; rfl⟩
    · exact ⟨_, rfl, by rw [resetTo_eq]; rfl⟩
  obtain ⟨t, hx, ht⟩ := ht
  refine ⟨t, hx, fun q hq hw => ?_, fun hn => ?_⟩
  · rw [ht, show s.cutPass.disk = Cartridge.put s.disk q.addr.linear
      ((Cartridge.get s.disk q.addr.linear).cut s.free) by unfold State.cutPass; rw [hq]; simp [hw]]
    refine ⟨?_, fun n hn => get_put_other_sector _ _ _ _ hn⟩
    rw [get_put_same_sector _ _ _ hd]
    obtain ⟨h1, h2, h3, h4⟩ := cut_header (Cartridge.get s.disk q.addr.linear) s.free
    exact ⟨h1, h2, h3, h4, cut_fails _ _⟩
  · rw [ht]
    unfold State.cutPass
    split
    · next q hq => rw [hn q hq]; rfl
    · rfl

theorem reset_slot_ne {p : Port} {k : Fin 8} {sl : Slot} : State.reset.slot p k ≠ some sl := by
  simp [reset_slot]

theorem reset_queueLaw : State.reset.queueLaw := by
  intro p
  have ho : (State.reset.queues.get p).order = [] ∧ (State.reset.queues.get p).replies = [] := by
    cases p <;> exact ⟨rfl, rfl⟩
  rw [ho.1, ho.2]
  simp [reset_slot]

theorem reset_serviceLaw : State.reset.serviceLaw := service_of_unique fun _ _ _ _ _ _ h => absurd h reset_slot_ne

theorem reset_suspensionLaw : State.reset.suspensionLaw := by
  have hn : ∀ p, State.reset.numbered p .suspended = [] := fun p =>
    List.eq_nil_iff_forall_not_mem.mpr fun k hk =>
      let ⟨_, hx, _⟩ := mem_numbered.mp hk
      reset_slot_ne hx
  exact ⟨by simp [hn], fun p k sl h => absurd h reset_slot_ne⟩

theorem reset_rotationLaw : State.reset.rotationLaw := by unfold State.rotationLaw; decide

theorem reset_bypassLaw : State.reset.bypassLaw := by unfold State.bypassLaw; decide

theorem reset_counterLaw : State.reset.counterLaw := by
  intro p i
  cases p <;> simp [State.reset, Bank.reset, PerPort.get]

theorem reset_intervalLaw : State.reset.intervalLaw := by
  intro p
  cases p <;> exact .inl rfl

theorem reset_bufferLaw : State.reset.bufferLaw := by
  intro b _
  simp [State.reset, Buffer.empty]

/-- Settles O5, law by law: no slot is live, no flag latched, and every count is 0. -/
theorem theResetStateMeetsTheLaws : Obligations.TheResetStateMeetsTheLaws := by
  have hmap : State.reset.mapLaw := by unfold State.mapLaw; decide
  have halarm : State.reset.alarmLaw := by intro x h; cases x <;> cases h
  have hannunciator : State.reset.annunciatorLaw := by unfold State.annunciatorLaw; decide
  have hlabel : State.reset.labelLaw := labelLaw_blank _ (by decide)
  have hassign : State.reset.assignLaw :=
    ⟨fun p k sl h => absurd h reset_slot_ne, fun p k sl h => absurd h reset_slot_ne, fun q h => by cases h⟩
  exact ⟨hmap, reset_queueLaw, reset_serviceLaw, reset_suspensionLaw, reset_rotationLaw, reset_bypassLaw, halarm,
    hannunciator, reset_counterLaw, reset_disk_wf, reset_intervalLaw, reset_bufferLaw, hlabel, hassign⟩

end Sys2Proof.Machine

/-! The laws of counts and forms, kept by every step (O11). -/

namespace Sys2Proof.Machine

/-- A law that looks neither at the queues nor at the waiting commands is kept by every step, where a tick, the reset
values, every move and every act keep it. -/
theorem step_keeps {I : State → Prop} (hP : ∀ s l, I s → I { s with pending := l }) (hT : ∀ s, I s → I s.advanceTick)
    (hR : ∀ s pending lines disk map guard, (disk = s.cutPass.disk ∨ ∃ l, disk = Cartridge.ofList l) → I s →
      I { State.reset with pending := pending, lines := lines, disk := disk, free := s.cutPass.free, map := map,
                           guard := guard })
    (hM : ∀ {s t}, Move s t → I s → I t) (hA : ∀ {c s t}, Act c s t → I s → I t)
    (hQ : ∀ s p f, I s → I (s.onQueue p f)) {s t : State} (h : step s = .next t) (hs : I s) : I t := by
  have run : ∀ {c u}, Run c u t → I u → I t := fun r hu =>
    r.keeps hM hA (fun _ _ _ _ _ _ _ h => hQ _ _ _ h) (fun _ _ _ _ _ _ _ h => hQ _ _ _ h) hu
  rcases step_cases s t h with ⟨-, rfl⟩ | ⟨c, rest, -, -, -, r⟩ | ⟨c, rest, lines, disk, map, guard, -, -, hd, -, r⟩
  · exact hP _ _ (hT s hs)
  · exact run r (hP _ _ hs)
  · exact run r (hR s _ _ _ _ _ hd hs)

/-- The rotational position is below 200 where the sector count is below 20 (R94). -/
theorem rotationLaw_of {s : State} (hc : s.pos.sc ≤ 19) (ht : s.pos.t ≤ 255) : s.rotationLaw := by
  refine ⟨hc, ht, ?_⟩
  unfold Positioner.position
  split <;> omega

theorem step_rotationLaw {s t : State} (h : step s = .next t) (hs : s.rotationLaw) : t.rotationLaw := by
  refine step_keeps (I := State.rotationLaw) (fun _ _ h => h) ?_ ?_ ?_ ?_ (fun _ _ _ h => h) h hs
  · intro s ⟨hc, ht, _⟩
    exact rotationLaw_of hc (by simp only [State.advanceTick]; omega)
  · intro s _ _ _ _ _ _ _
    exact reset_rotationLaw
  · intro s t m ⟨hc, ht, _⟩
    have ht' := m.still.turn
    simp only [Positioner.turn, Prod.mk.injEq] at ht'
    exact rotationLaw_of (by omega) (by omega)
  · intro c s t m hs
    cases m with
    | turn f hf _ =>
      obtain ⟨hc, ht, _⟩ := hs
      exact rotationLaw_of (by simp only [onPos_pos]; omega) (by simp only [onPos_pos]; omega)
    | _ => exact hs

/-- The bypass counts after a step-3 selection keep their law: the count of the port taken is 0 (R81). -/
theorem bypassAfter_law {s : State} (h : s.bypassLaw) (p : Port) :
    ({ s with sched := { s.sched with bypass := s.bypassAfter p } } : State).bypassLaw := by
  obtain ⟨ha, hb, _⟩ := h
  unfold State.bypassLaw State.bypassAfter
  cases p <;> dsimp only <;> split <;> omega

theorem step_bypassLaw {s t : State} (h : step s = .next t) (hs : s.bypassLaw) : t.bypassLaw := by
  refine step_keeps (I := State.bypassLaw) (fun _ _ h => h) (fun _ h => h) ?_ ?_ ?_ (fun _ _ _ h => h) h hs
  · intro _ _ _ _ _ _ _ _
    exact reset_bypassLaw
  · intro s t m hs
    cases m with
    | bypass p => exact bypassAfter_law hs p
    | _ => exact hs
  · intro c s t m hs
    cases m <;> exact hs

/-- A presence interval is 0 or 50-5000 ms in steps of 50 (R159). -/
def intervalOk (n : Nat) : Prop := n = 0 ∨ (50 ≤ n ∧ n ≤ 5000 ∧ n % 50 = 0)

theorem clampInterval_ok (n : Nat) : intervalOk (clampInterval n) := by
  unfold intervalOk clampInterval
  split
  · exact .inl rfl
  · split
    · omega
    · split <;> omega

/-- A port interface whose interval is in its range keeps the law of intervals. -/
theorem onPort_intervalLaw {s : State} (hs : s.intervalLaw) (p : Port) (f : PortIf → PortIf)
    (hf : intervalOk (f (s.ports.get p)).interval) : (s.onPort p f).intervalLaw := by
  intro q
  rw [onPort_ports, get_modify]
  split
  · exact hf
  · exact hs q

theorem step_intervalLaw {s t : State} (h : step s = .next t) (hs : s.intervalLaw) : t.intervalLaw := by
  refine step_keeps (I := State.intervalLaw) (fun _ _ h => h) (fun _ h => h) ?_ ?_ ?_ (fun _ _ _ h => h) h hs
  · intro _ _ _ _ _ _ _ _
    exact reset_intervalLaw
  · intro s t m hs
    unfold State.intervalLaw
    rw [m.still.ports]
    exact hs
  · intro c s t m hs
    cases m with
    | port p f hf => exact onPort_intervalLaw hs p f (by rw [hf]; exact hs p)
    | interval p n f hf _ => exact onPort_intervalLaw hs p f (by rw [hf]; exact clampInterval_ok n)
    | _ => exact hs

theorem step_bufferLaw {s t : State} (h : step s = .next t) (hs : s.bufferLaw) : t.bufferLaw := by
  refine step_keeps (I := State.bufferLaw) (fun _ _ h => h) (fun _ h => h) ?_ ?_ ?_ (fun _ _ _ h => h) h hs
  · intro _ _ _ _ _ _ _ _
    exact reset_bufferLaw
  · intro s t m hs
    cases m with
    | buffers v hv => exact hv hs
    | _ => exact hs
  · intro c s t m hs
    cases m <;> exact hs

theorem step_diskLaw {s t : State} (h : step s = .next t) (hs : s.diskLaw) : t.diskLaw := by
  refine step_keeps (I := State.diskLaw) (fun _ _ h => h) (fun _ h => h) ?_ ?_ ?_ (fun _ _ _ h => h) h hs
  · rintro s _ _ _ _ _ (rfl | ⟨l, rfl⟩) hs
    · exact cutPass_wf s hs
    · exact ofList_wf l
  · intro s t m hs
    cases m with
    | sector x y => exact putSector_wf _ x y hs
    | _ => exact hs
  · intro c s t m hs
    cases m with
    | cartridge l _ => exact ofList_wf l
    | _ => exact hs

/-- After a reset no order is live and no label is held. -/
theorem resetTo_lawful (s : State) (l : Lines) (d : Cartridge) (m : MapUnit) (g : Guard) :
    Lawful (s.resetTo l d m g) := by
  rw [resetTo_eq]
  exact Lawful.of_none reset_inService (labelLaw_blank _ (by decide))
    (fun _ _ _ h => absurd h reset_slot_ne) fun q h => by cases h

theorem exec_keeps_lawful {c : Instr} {s t : State} (h : exec c s = .next t) (g : Lawful s) : Lawful t := by
  by_cases hc : isReset c = false
  · exact exec_lawful c s t hc h g
  · cases c with
    | powerOn l x => cases h; exact resetTo_lawful ..
    | panelReset => cases h; exact resetTo_lawful ..
    | _ => exact absurd rfl hc

theorem step_lawful {s t : State} (h : step s = .next t) (g : Lawful s) : Lawful t := by
  unfold step at h
  split at h
  · cases h; exact g.same
  · exact exec_keeps_lawful h g.same

/-- Settles O11: each law over every move and act of a step, the label's over every command. -/
theorem countsAndFormsStayInRange : Obligations.CountsAndFormsStayInRange := fun _ _ h =>
  ⟨step_rotationLaw h, step_bypassLaw h, step_intervalLaw h, step_bufferLaw h, step_diskLaw h, fun h1 h2 h3 =>
    (lawful_iff.mp (step_lawful h (lawful_iff.mpr ⟨h1, h2, h3⟩))).2⟩

end Sys2Proof.Machine

/-! What a command leaves of the cartridge and of the pass under way (O14, O15): but for the pulses that begin a pass,
every operation leaves the pass or drops it, and changes no sector but the one being written. -/

namespace Sys2Proof.Machine

variable {a s t u : State} {p : Port} {k : Fin 8}

/-- Sector `n` is being written by the pass under way. -/
def State.writing (s : State) (n : Nat) : Prop := ∃ q, s.pass = some q ∧ q.writes = true ∧ n = q.addr.linear

/-- From `s` to `t` no pass has begun, and no sector has changed but the one that was being written. -/
structure Spares (s t : State) : Prop where
  pass : ∀ q, t.pass = some q → s.pass = some q
  disk : ∀ n, Cartridge.get t.disk n ≠ Cartridge.get s.disk n → s.writing n

theorem Spares.refl : Spares s s := ⟨fun _ h => h, fun _ h => absurd rfl h⟩

theorem Spares.trans (h : Spares s t) (h' : Spares t u) : Spares s u := by
  refine ⟨fun q hq => h.pass q (h'.pass q hq), fun n hn => ?_⟩
  by_cases hd : Cartridge.get u.disk n = Cartridge.get t.disk n
  · exact h.disk n fun e => hn (hd.trans e)
  · obtain ⟨q, hq, hw, e⟩ := h'.disk n hd
    exact ⟨q, h.pass q hq, hw, e⟩

/-- An operation that leaves the pass and the cartridge. -/
theorem Spares.same (h : Spares a s) (hp : t.pass = s.pass := by rfl) (hd : t.disk = s.disk := by rfl) : Spares a t :=
  h.trans ⟨fun q hq => by rw [← hp]; exact hq, fun n hn => absurd (by rw [hd]) hn⟩

/-- An operation that drops the pass and leaves the cartridge. -/
theorem Spares.dropped (h : Spares a s) (hp : t.pass = none := by rfl) (hd : t.disk = s.disk := by rfl) : Spares a t :=
  h.trans ⟨fun q hq => absurd (hp.symm.trans hq) (by simp), fun n hn => absurd (by rw [hd]) hn⟩

theorem Spares.noPass (h : Spares a s) : Spares a { s with pass := none } := h.dropped

/-- The sector that is being written is replaced. -/
theorem Spares.putSector {q : Pass} {y : Sector} (h : Spares a s) (hq : a.pass = some q) (hw : q.writes = true) :
    Spares a (s.putSector q.addr y) := by
  refine ⟨h.pass, fun n hn => ?_⟩
  by_cases e : n = q.addr.linear
  · exact ⟨q, hq, hw, e⟩
  · rw [putSector_disk, get_put_other_sector _ _ _ _ e] at hn
    exact h.disk n hn

theorem Spares.writeData {q : Pass} {ws : List Word} (h : Spares a s) (hq : a.pass = some q) (hw : q.writes = true) :
    Spares a (s.writeData q.addr ws) := h.putSector hq hw

theorem Spares.ite {c : Prop} [Decidable c] (h : c → Spares a s) (h' : ¬c → Spares a t) :
    Spares a (if c then s else t) := by
  split
  · next hc => exact h hc
  · next hc => exact h' hc

theorem Spares.foldl {α : Type} (l : List α) (f : State → α → State) (hf : ∀ s x, Spares s (f s x)) (h : Spares a s) :
    Spares a (l.foldl f s) := by
  induction l generalizing s with
  | nil => exact h
  | cons x l ih => exact ih (h.trans (hf s x))

/-! ### The basic updates -/

theorem Spares.onPos {f : Positioner → Positioner} (h : Spares a s) : Spares a (s.onPos f) := h.same
theorem Spares.onPort {f : PortIf → PortIf} (h : Spares a s) : Spares a (s.onPort p f) := h.same
theorem Spares.onQueue {f : Queue → Queue} (h : Spares a s) : Spares a (s.onQueue p f) := h.same
theorem Spares.onDrive {f : Supervisor → Supervisor} (h : Spares a s) : Spares a (s.onDrive f) := h.same
theorem Spares.onLines {f : Lines → Lines} (h : Spares a s) : Spares a (s.onLines f) := h.same
theorem Spares.count {c : Counter} (h : Spares a s) : Spares a (s.count p c) := h.same
theorem Spares.countBoth {c : Counter} (h : Spares a s) : Spares a (s.countBoth c) := h.same
theorem Spares.modSlot {f : Slot → Slot} (h : Spares a s) : Spares a (s.modSlot p k f) := h.same
theorem Spares.putBuffer {b : Fin 4} {x : Buffer} (h : Spares a s) : Spares a (s.putBuffer b x) := h.same
theorem Spares.release {P : BufState → Bool} (h : Spares a s) : Spares a (s.release p k P) := h.same
theorem Spares.latch {x : Source} (h : Spares a s) : Spares a (s.latch x) := h.same
theorem Spares.judgeAlarm (h : Spares a s) : Spares a s.judgeAlarm := h.same
theorem Spares.setLabel {l : Label} (h : Spares a s) : Spares a (s.setLabel l) := h.same
theorem Spares.setProgress {n : Nat} {d : Option Nat} {st : Stage} (h : Spares a s) : Spares a (s.setProgress n d st) :=
  h.same
theorem Spares.toStage {st : Stage} (h : Spares a s) : Spares a (s.toStage st) := h.same
theorem Spares.failPass {g : Progress} {e : Ending} {b : Addr} (h : Spares a s) : Spares a (s.failPass g e b).1 := h.same
theorem Spares.sectorDone {g : Progress} (h : Spares a s) : Spares a (s.sectorDone p k g) := h.same
theorem Spares.abandonPositioning (h : Spares a s) : Spares a s.abandonPositioning := h.same
theorem Spares.issueSeek {x : Addr} (h : Spares a s) : Spares a (s.issueSeek x) := h.same
theorem Spares.arrive {x : Addr} (h : Spares a s) : Spares a (s.arrive x) := h.same
theorem Spares.recalibrate (h : Spares a s) : Spares a s.recalibrate := h.same
theorem Spares.enterCalibrating (h : Spares a s) : Spares a s.enterCalibrating := h.same
theorem Spares.finishDraining (h : Spares a s) : Spares a (s.finishDraining p k) := h.same
theorem Spares.testRequests (h : Spares a s) : Spares a s.testRequests := by rw [testRequests_buffers]; exact h.same

theorem Spares.dropOrphan {b : Fin 4} (h : Spares a s) : Spares a (s.dropOrphan b) := .ite (fun _ => h.same) fun _ => h

/-! ### Endings -/

theorem Spares.leaveActuator (h : Spares a s) : Spares a (s.leaveActuator p k) := by
  unfold State.leaveActuator
  split
  · exact h
  · dsimp only
    split <;> exact h.dropped

theorem Spares.countEnding {e : Ending} (h : Spares a s) : Spares a (s.countEnding p e) := by
  unfold State.countEnding
  split <;> exact h.same

theorem Spares.endSlot {e : Ending} {fa : Option Addr} (h : Spares a s) : Spares a (s.endSlot p k e fa) := by
  unfold State.endSlot
  split
  · exact h
  · exact .ite (fun _ => h) fun _ => (Spares.onQueue
      (Spares.ite (fun _ => h.leaveActuator) fun _ => h).release.countEnding).testRequests

theorem Spares.endDiskPhase {sl : Slot} {e : Ending} {fa : Option Addr} (h : Spares a s) :
    Spares a (s.endDiskPhase p k sl e fa) := .ite (fun _ => h.leaveActuator.modSlot) fun _ => h.endSlot

theorem Spares.freeWithdrawn (h : Spares a s) : Spares a (s.freeWithdrawn p k) :=
  h.leaveActuator.release.onQueue.testRequests

theorem Spares.endWhere {P : Slot → Bool} {e : Ending} (h : Spares a s) : Spares a (s.endWhere p P e) := by
  refine Spares.foldl _ _ (fun s k => ?_) h
  split
  · exact .ite (fun _ => Spares.refl.endSlot) fun _ => .refl
  · exact .refl

theorem Spares.recheckPort (h : Spares a s) : Spares a (s.recheckPort p) := by
  refine Spares.foldl _ _ (fun s k => ?_) h
  split
  · split
    · exact Spares.refl.endSlot
    · exact .refl
  · exact .refl

theorem Spares.loadMapLatched {m : Plan} {o : Origin} (h : Spares a s) : Spares a (s.loadMapLatched m o) :=
  (h.same (t := s.setActive m o)).recheckPort.recheckPort.latch.countBoth

theorem Spares.autoChangeover (h : Spares a s) : Spares a s.autoChangeover := .ite (fun _ => h.loadMapLatched) fun _ => h

theorem Spares.endWith {r : Result} (h : Spares a s) : Spares a (s.endWith p k r).1 := by
  unfold State.endWith
  dsimp only
  split <;> split
  · exact h.modSlot.latch.countBoth.endDiskPhase
  · exact h.modSlot.endDiskPhase
  · exact h.modSlot.latch.countBoth
  · exact h.modSlot

/-! ### The positioner and the supervisor -/

theorem Spares.cutPass (h : Spares a s) : Spares a s.cutPass := by
  refine h.trans ?_
  unfold State.cutPass
  split
  · next q hq => exact .ite (fun hw => (Spares.refl.putSector hq hw).dropped) fun _ => Spares.refl.dropped
  · exact .refl

theorem Spares.requestPositioning {x : Addr} (h : Spares a s) : Spares a (s.requestPositioning x) :=
  .ite (fun _ => h.onPos.arrive) fun _ => h.onPos.issueSeek

theorem Spares.loseLabel {st : LabelState} (h : Spares a s) : Spares a (s.loseLabel st) :=
  .ite (fun _ => h.setLabel.latch) fun _ => h.setLabel

theorem Spares.enterSpinningDown (h : Spares a s) : Spares a s.enterSpinningDown :=
  (Spares.endWhere (Spares.endWhere h.abandonPositioning.onDrive.noPass)).setLabel

theorem Spares.faultInService (h : Spares a s) : Spares a s.faultInService := by
  have hl : Spares a (if s.labelOpen then s.setLabel (.blank .damaged) else s) := .ite (fun _ => h.setLabel) fun _ => h
  unfold State.faultInService
  dsimp only
  split
  · exact hl.cutPass.endSlot
  · exact hl.cutPass

theorem Spares.enterFaulted {why : FaultReason} (h : Spares a s) : Spares a (s.enterFaulted why) := by
  have hf := (Spares.endWhere (p := .b) (P := Slot.waits) (e := .driveFault)
    (h.faultInService.endWhere (p := .a) (P := Slot.waits) (e := .driveFault))).abandonPositioning.onDrive (f := fun d =>
      { d with state := .faulted, speed := false, supply := false, fault := some why, spinUp := none, labelFails := 0 })
  exact .ite (fun _ => hf.latch.enterSpinningDown) fun _ => hf.latch

theorem Spares.enterSpinningUp (h : Spares a s) : Spares a s.enterSpinningUp :=
  .ite (fun _ => (h.same (t := s.newMeasurement)).onDrive.enterFaulted) fun _ => (h.same (t := s.newMeasurement)).onDrive

theorem Spares.judgeRun (h : Spares a s) : Spares a s.judgeRun := .ite (fun _ => h.enterSpinningUp) fun _ => h

theorem Spares.enterLabelRead (h : Spares a s) : Spares a s.enterLabelRead := h.onDrive.setLabel.requestPositioning

theorem Spares.weighReasons (h : Spares a s) : Spares a s.weighReasons :=
  .ite (fun _ => .ite (fun _ => h) fun _ => h.onDrive.latch) fun _ => h.onDrive

theorem Spares.finishLabelRead {l : Label} (h : Spares a s) : Spares a (s.finishLabelRead l) :=
  .ite (fun _ => h.setLabel.onPos.onDrive.weighReasons) fun _ => h.setLabel.onPos.onDrive.weighReasons.latch

theorem Spares.setReasons {x y : Bool} (h : Spares a s) : Spares a (s.setReasons x y) :=
  .ite (fun _ => h.onDrive.weighReasons) fun _ => h

theorem Spares.seekError (h : Spares a s) : Spares a s.seekError :=
  .ite (fun _ => h.countBoth.onPos.onPos.recalibrate) fun _ => h.countBoth.onPos.enterFaulted

theorem Spares.headerMismatch {x : Addr} (h : Spares a s) : Spares a (s.headerMismatch x) := h.onPos.seekError

theorem Spares.recalibrationFailed (h : Spares a s) : Spares a s.recalibrationFailed :=
  .ite (fun _ => .ite (fun _ => h.onPos.onDrive.recalibrate) fun _ => h.onPos.enterFaulted) fun _ => h.onPos.seekError

/-! ### The scheduler -/

theorem Spares.goTo {x : Addr} (h : Spares a s) : Spares a (s.goTo x).1 := h.requestPositioning

theorem Spares.beginData {sl : Slot} (h : Spares a s) : Spares a (s.beginData sl).1 := by
  unfold State.beginData
  split
  · exact h.setProgress.testRequests.countBoth.goTo
  · exact h.setProgress.testRequests.goTo

theorem Spares.beginAssign {x : Addr} (h : Spares a s) : Spares a (s.beginAssign p k x).1 := by
  unfold State.beginAssign
  split
  · exact h.endSlot
  · dsimp only
    split
    · split
      · exact h.modSlot.endSlot
      · exact h.modSlot.setProgress.goTo
    · split
      · exact h.modSlot.endSlot
      · exact h.modSlot.setProgress.goTo

theorem Spares.handTo (h : Spares a s) : Spares a (s.handTo p k).1 := by
  have h1 : Spares a { s.modSlot p k (fun x => { x with state := .inService }) with sched := { s.sched with last := p } } :=
    h.same
  unfold State.handTo
  dsimp only
  split
  · exact h1
  · split
    · exact h1.setProgress.goTo
    · exact h1.setProgress.goTo
    · exact h1.setProgress.goTo
    · exact h1.beginAssign
    · exact h1.beginData

theorem Spares.select (h : Spares a s) : Spares a s.select.1 := by
  unfold State.select
  split
  · dsimp only
    split
    · exact h.handTo
    · split
      · exact h.handTo
      · split
        · exact Spares.handTo h.same
        · exact h
  · exact h

theorem Spares.checkSuspension {pos : Nat} {r : State × Agenda} (h : Spares a s)
    (e : s.checkSuspension p k pos = some r) : Spares a r.1 := by
  unfold State.checkSuspension at e
  split at e
  · cases e
  · split at e
    · cases e
      have hd : Spares a { s.modSlot p k (fun x => { x with state := .suspended }) with progress := none, pass := none } :=
        h.dropped
      exact hd.countBoth.handTo
    · cases e

/-! ### Boundaries -/

theorem Spares.nextSector {sl : Slot} {g : Progress} (h : Spares a s) : Spares a (s.nextSector sl g).1 := by
  unfold State.nextSector
  split
  · exact h.setProgress.countBoth.goTo
  · dsimp only
    split
    · exact h.setProgress
    · exact h.setProgress.goTo

theorem Spares.dataBoundary {pos : Nat} {r : Option Result} {c : Bool} (h : Spares a s) :
    Spares a (s.dataBoundary p k pos r c).1 := by
  unfold State.dataBoundary
  split
  · split
    · exact h.freeWithdrawn
    · split
      · exact h.endWith
      · split
        · exact h.endWith
        · split
          · exact h.endWith
          · split
            · exact h.endWith
            · split
              · next e => exact h.checkSuspension e
              · split
                · exact h.nextSector
                · exact h
  · exact h

theorem Spares.maintBoundary {r : Option Result} {x : State × Agenda} (h : Spares a s)
    (e : s.maintBoundary p k r = some x) : Spares a x.1 := by
  unfold State.maintBoundary at e
  split at e
  · cases e
  · split at e
    · cases e; exact h.freeWithdrawn
    · split at e
      · cases e; exact h.endWith
      · split at e
        · cases e; exact h.endWith
        · split at e
          · cases e; exact h.endWith
          · cases e

theorem Spares.maintThen {pos : Nat} {r : Option Result} {go : State × Agenda} (h : Spares a s)
    (hgo : Spares a go.1) : Spares a (s.maintThen p k pos r go).1 := by
  unfold State.maintThen
  split
  · next e => exact h.maintBoundary e
  · split
    · next e => exact h.checkSuspension e
    · exact hgo

/-! ### The ends of passes -/

theorem Spares.beginVerify (h : Spares a s) : Spares a (s.beginVerify p k) := by
  unfold State.beginVerify
  split
  · exact .ite (fun _ => h.same) fun _ => h
  · exact h

theorem Spares.endDataPass {sl : Slot} {g : Progress} {q : Pass} {d : DataReading} (h : Spares a s)
    (hq : a.pass = some q) : Spares a (s.endDataPass p k sl g q d).1 := by
  unfold State.endDataPass
  dsimp only
  split
  · exact h.dataBoundary
  · split
    · exact Spares.dataBoundary (Spares.count (Spares.sectorDone (.ite (fun _ => h) fun _ => h.putBuffer)))
    · exact h.failPass.dataBoundary
  · split
    · exact h.sectorDone.count.dataBoundary
    · exact h.failPass.dataBoundary
  · next b hk =>
    split
    · next hv =>
      have hw : q.writes = true := by unfold Pass.writes; rw [hk]; exact decide_eq_true hv
      exact (h.writeData hq hw).putBuffer.sectorDone.count.testRequests.beginVerify.dataBoundary
    · exact h.failPass.dataBoundary
  · split
    · exact Spares.dataBoundary h.same
    · exact h.dataBoundary
  · exact h

theorem Spares.endFormatPass {sl : Slot} {q : Pass} (h : Spares a s) (hq : a.pass = some q) (hk : q.kind = .format) :
    Spares a (s.endFormatPass p k sl q).1 :=
  have hw : q.writes = true := by unfold Pass.writes; rw [hk]
  (h.putSector hq hw).modSlot.maintThen (h.putSector hq hw).modSlot

theorem Spares.endZeroPass {g : Progress} {q : Pass} (h : Spares a s) (hq : a.pass = some q) (hk : q.kind = .zero) :
    Spares a (s.endZeroPass p k g q).1 := by
  unfold State.endZeroPass
  dsimp only
  split
  · next hv =>
    have hw : q.writes = true := by unfold Pass.writes; rw [hk]; exact decide_eq_true hv
    exact (h.writeData hq hw).maintThen (h.writeData hq hw).toStage.modSlot.goTo
  · exact h.failPass.maintThen (h.failPass (e := .writeFault) (b := q.addr))

theorem Spares.endLabelWritePass {g : Progress} {q : Pass} (h : Spares a s) (hq : a.pass = some q)
    (hk : q.kind = .labelWrite) : Spares a (s.endLabelWritePass p k g q).1 := by
  unfold State.endLabelWritePass
  dsimp only
  split
  · next hv =>
    have hw : q.writes = true := by unfold Pass.writes; rw [hk]; exact decide_eq_true hv
    exact (h.writeData hq hw).toStage.maintThen (h.writeData hq hw).toStage
  · exact h.failPass.maintThen (h.failPass (e := .writeFault) (b := q.addr))

theorem Spares.endReadBack {sl : Slot} {q : Pass} {d : DataReading} (h : Spares a s) :
    Spares a (s.endReadBack p k sl q d).1 := by
  unfold State.endReadBack
  dsimp only
  split
  · exact h.toStage.setLabel.maintThen h.toStage.setLabel
  · exact h.toStage.loseLabel.maintThen h.toStage.loseLabel

theorem Spares.endTestWrite {q : Pass} (h : Spares a s) (hq : a.pass = some q) (hk : q.kind = .testWrite) :
    Spares a (s.endTestWrite p k q) :=
  .ite (fun hv => (h.writeData hq (by unfold Pass.writes; rw [hk]; exact decide_eq_true hv)).modSlot) fun _ => h.modSlot

theorem Spares.endTestRead {sl : Slot} {q : Pass} {d : DataReading} (h : Spares a s) :
    Spares a (s.endTestRead p k sl q d).1 := by
  unfold State.endTestRead
  dsimp only
  split
  · split
    · exact h.modSlot.maintThen h.modSlot
    · exact h.modSlot
  · exact h.modSlot

theorem Spares.endLabelRead {q : Pass} {d : DataReading} (h : Spares a s) : Spares a (s.endLabelRead q d).1 := by
  unfold State.endLabelRead
  split
  · exact h.finishLabelRead (l := judgeLabel _)
  · split
    · exact h.finishLabelRead (l := .blank .damaged)
    · exact h.onDrive (f := fun x => { x with labelFails := x.labelFails + 1 })

theorem passEnd_spares (s : State) (d : DataReading) : Spares s (s.passEnd d).1 := by
  unfold State.passEnd
  split
  · exact .refl
  · next q hq =>
    have h : Spares s { s with pass := none } := Spares.refl.dropped
    dsimp only
    split
    · exact h.endLabelRead
    · split
      · split
        · next hk => exact h.endFormatPass hq hk
        · next hk => exact h.endZeroPass hq hk
        · next hk => exact h.endLabelWritePass hq hk
        · exact h.endReadBack
        · next hk => exact h.endTestWrite hq hk
        · exact h.endTestRead
        · exact h.endDataPass hq
      · exact h

/-! ### Indexes, arrivals, and the end of a step -/

theorem completeTestWrite_spares (s : State) (p : Port) (k : Fin 8) : Spares s (s.completeTestWrite p k) := by
  unfold State.completeTestWrite
  split
  · next q hq => exact .ite (fun hk => Spares.endTestWrite (Spares.refl.dropped) hq hk) fun _ => .refl
  · exact .refl

theorem Spares.testBoundary {st : Stage} (h : Spares a s) : Spares a (s.testBoundary p k st).1 := by
  unfold State.testBoundary
  split
  · exact h
  · exact h.modSlot.maintThen h.modSlot.toStage

theorem Spares.testIndex (h : Spares a s) : Spares a s.testIndex.1 := by
  unfold State.testIndex
  split
  · split
    · exact (h.trans (completeTestWrite_spares ..)).testBoundary
    · exact h
  · exact h

theorem Spares.arrivalBoundary (h : Spares a s) : Spares a s.arrivalBoundary.1 := by
  unfold State.arrivalBoundary
  split
  · exact h
  · split
    · exact h.dataBoundary
    · dsimp only
      split
      · exact h.onPos.maintThen (h.onPos (f := fun y => { y with activity := .confirmed }))
      · exact h.maintThen h

theorem Spares.stopOrSelect (h : Spares a s) : Spares a s.stopOrSelect.1 := by
  unfold State.stopOrSelect
  split
  · exact h.enterSpinningDown
  · exact h.select

theorem Spares.settle (n : Nat) {x : Agenda} (h : Spares a s) : Spares a (settle n (s, x)) := by
  induction n generalizing s x with
  | zero => exact h
  | succ n ih =>
    cases x with
    | idle => exact h
    | select => exact ih (x := s.select.2) h.select
    | released => exact ih (x := s.stopOrSelect.2) h.stopOrSelect
    | arrived => exact ih (x := s.arrivalBoundary.2) h.arrivalBoundary

theorem Spares.settled {x : State × Agenda} (h : Spares a x.1) : Spares a (State.settled x) := h.settle settleLimit
theorem Spares.schedule (h : Spares a s) : Spares a s.schedule := Spares.settled (x := (s, .select)) h
theorem Spares.close {x : State × Agenda} (h : Spares a x.1) : Spares a (State.close x) := h.settled.judgeAlarm

theorem Spares.scheduleOnEntry {d : DriveState} (h : Spares a s) : Spares a (s.scheduleOnEntry d) :=
  .ite (fun _ => h) fun _ => h.schedule

theorem Spares.verdictChanged (h : Spares a s) : Spares a s.verdictChanged :=
  .ite (fun _ => h.enterCalibrating) fun _ => h.setReasons.scheduleOnEntry

theorem Spares.indexWatch (h : Spares a s) : Spares a s.indexWatch := by
  have hc : Spares a (if s.countsRevolution then s.countBoth .outOfBand else s) :=
    .ite (fun _ => h.countBoth) fun _ => h
  have hm := hc.onPos (f := fun x => (x.measure s.tick).atIndex)
  unfold State.indexWatch
  dsimp only
  exact .ite (fun _ => (Spares.ite (fun _ => hm) fun _ => hm.verdictChanged).onDrive) fun _ =>
    .ite (fun _ => hm) fun _ => hm.verdictChanged

end Sys2Proof.Machine

/-! The pulses that begin a pass, and every command (O14, O15). -/

namespace Sys2Proof.Machine

variable {s t u v : State} {p : Port} {k : Fin 8} {sl : Slot} {g : Progress}

/-! ### The order in service over a change of its record -/

/-- A search that meets `k` first still does where only what stands at `k` has changed. -/
theorem findSome_update {β : Type} {f f' : Fin 8 → Option (Fin 8 × β)} {x y : β} (hf : ∀ j z, f j = some z → z.1 = j)
    (hs : ∀ j, j ≠ k → f' j = f j) (hk : f' k = some (k, y)) (l : List (Fin 8)) (h : l.findSome? f = some (k, x)) :
    l.findSome? f' = some (k, y) := by
  induction l with
  | nil => cases h
  | cons j l ih =>
    rw [List.findSome?_cons] at h ⊢
    by_cases hj : j = k
    · rw [hj, hk]
    · rw [hs j hj]
      cases hz : f j with
      | some z => rw [hz] at h; cases h; exact absurd (hf j _ hz).symm hj
      | none => rw [hz] at h; exact ih h

/-- The slot found keeps its place in the search where its new record has the property too. -/
theorem find_put {q : Queue} {P : Slot → Bool} {y : Slot} (h : q.find P = some (k, sl)) (hy : P y = true) :
    (q.put k (some y)).find P = some (k, y) := by
  refine findSome_update (fun j z hz => ?_) (fun j hj => ?_) ?_ slotNumbers h
  · split at hz
    · split at hz
      · cases hz; rfl
      · cases hz
    · cases hz
  · rw [put_slots, if_neg hj]
  · rw [put_slots, if_pos rfl]
    exact if_pos hy

/-- The order IN SERVICE stays it where its record changes and its state does not. -/
theorem inService_modSlot {f : Slot → Slot} (h : s.inService = some (p, k, sl)) (hf : (f sl).state = .inService) :
    (s.modSlot p k f).inService = some (p, k, f sl) := by
  have hk := (inService_some h).1
  have hy : decide ((f sl).state = .inService) = true := decide_eq_true hf
  unfold State.inService State.findSlot at h ⊢
  rw [modSlot_queues]
  cases p with
  | a =>
    split at h
    · next j x e =>
      cases h
      simp only [PerPort.modify, show s.queues.a.slots[k] = some sl from hk, Option.map_some]
      rw [find_put e hy]
    · next e =>
      rw [Option.map_eq_some_iff] at h
      obtain ⟨x, -, hx⟩ := h
      cases hx
  | b =>
    split at h
    · next e => cases h
    · next e =>
      rw [Option.map_eq_some_iff] at h
      obtain ⟨⟨j, x⟩, hx, he⟩ := h
      simp only [Prod.mk.injEq, true_and] at he
      obtain ⟨rfl, rfl⟩ := he
      simp only [PerPort.modify, e, show s.queues.b.slots[j] = some x from hk, Option.map_some]
      rw [find_put hx hy]
      rfl

/-! ### What a writing pass needs -/

/-- The guard, the write supply and, for a WRITE, the active map let a writing pass go on over its sector (R12, R37,
R43, R112). -/
def State.permits (t : State) (q : Pass) : Prop :=
  t.lines.supply = true
    ∧ (q.kind = .format → t.guard.protectsFormat q.addr.cyl = false)
    ∧ (q.kind = .zero ∨ q.kind = .labelWrite → t.guard.freeze = false)
    ∧ ∀ b, q.kind = .write b → ∃ p k sl g, t.inService = some (p, k, sl) ∧ t.progress = some g
        ∧ t.guard.protectsData (sl.sectorAddr g.next).cyl = false ∧ t.grants p true (sl.sectorAddr g.next).cyl = true

/-- What a sector start leaves: no pass begun, or one that is all the pulse brings, permitted where it writes. -/
def State.starts (u : State) (x : State × Agenda) : Prop :=
  Spares u x.1 ∨ (x.2 = .idle ∧ x.1.disk = u.disk ∧ ∃ q, x.1.pass = some q ∧ (q.writes = true → x.1.permits q))

/-- A pass that begins and does not write. -/
theorem starts_reading {x : PassKind} {a : Addr} {w : Verdict} {ws : List Word} (hd : v.disk = u.disk)
    (hw : (⟨x, a, w, ws⟩ : Pass).writes = false) : u.starts (v.setPass x a w ws, .idle) :=
  .inr ⟨rfl, hd, _, rfl, fun e => by rw [hw] at e; cases e⟩

/-- A pass over a header that does not match writes nothing, but for FORMAT TRACK's (R2). -/
theorem writes_unmatched {x : PassKind} {a : Addr} {w : Verdict} {ws : List Word} (hx : x ≠ .format)
    (hw : w ≠ .matching) : (⟨x, a, w, ws⟩ : Pass).writes = false := by
  cases x with
  | format => exact absurd rfl hx
  | write b => exact decide_eq_false hw
  | zero => exact decide_eq_false hw
  | labelWrite => exact decide_eq_false hw
  | testWrite => exact decide_eq_false hw
  | _ => rfl

/-- What the start of a pass is judged on, at the state before its counts are taken. -/
def State.lets (u : State) (p : Port) (sl : Slot) (g : Progress) (x : PassKind) : Prop :=
  u.lines.supply = true ∧ (x = .zero ∨ x = .labelWrite → u.guard.freeze = false)
    ∧ ∀ b, x = .write b → u.guard.protectsData (sl.sectorAddr g.next).cyl = false
        ∧ u.grants p true (sl.sectorAddr g.next).cyl = true

/-- The counts that taking a pass raises: a re-read after a failed pass, and the row of slips ended (R115, R122). -/
def State.passCounted (u : State) (p : Port) (k : Fin 8) (g : Progress) : State :=
  (if 0 < g.failed then (u.modSlot p k fun y => { y with retries := sat16 y.retries 1 }).countBoth .reReads
    else u).modSlot p k fun y => { y with consSlips := 0 }

theorem takePass_eq (x : PassKind) (a : Addr) (ws : List Word) (h : HeaderReading) :
    u.takePass p k g x a ws h = match h.verdict u.disk a with
      | .mismatched => ((u.passCounted p k g).headerMismatch a, .idle)
      | .unreadable => ((u.passCounted p k g).setPass x a .unreadable ws, .idle)
      | .matching =>
        (((u.passCounted p k g).onPos fun y => { y with activity := .confirmed }).setPass x a .matching ws, .idle) := rfl

theorem passCounted_frame (u : State) (p : Port) (k : Fin 8) (g : Progress) : u.passCounted p k g
    = { u with queues := (u.passCounted p k g).queues, banks := (u.passCounted p k g).banks } := by
  unfold State.passCounted
  split <;> rfl

theorem passCounted_inService (hi : u.inService = some (p, k, sl)) :
    ∃ y, (u.passCounted p k g).inService = some (p, k, y) ∧ ∀ i, y.sectorAddr i = sl.sectorAddr i := by
  have hs := (inService_some hi).2
  unfold State.passCounted
  split
  · have hr := inService_modSlot (f := fun y => { y with retries := sat16 y.retries 1 }) hi hs
    have hb : ((u.modSlot p k fun y => { y with retries := sat16 y.retries 1 }).countBoth .reReads).inService = _ :=
      (inService_of_queues rfl).trans hr
    exact ⟨_, inService_modSlot hb hs, fun _ => rfl⟩
  · exact ⟨_, inService_modSlot hi hs, fun _ => rfl⟩

/-- A taken pass begins, is a seek error, or, where it writes, was let begin. -/
theorem takePass_starts {x : PassKind} {a : Addr} {ws : List Word} {h : HeaderReading}
    (hi : u.inService = some (p, k, sl)) (hg : u.progress = some g) (hx : x ≠ .format)
    (hl : (⟨x, a, .matching, ws⟩ : Pass).writes = true → u.lets p sl g x) : u.starts (u.takePass p k g x a ws h) := by
  obtain ⟨y, hw, hy⟩ := passCounted_inService (g := g) hi
  have hu := passCounted_frame u p k g
  rw [takePass_eq]
  generalize u.passCounted p k g = w at hu hw
  have same : Spares u w := Spares.refl.same (by rw [hu]) (by rw [hu])
  split
  · exact .inl same.headerMismatch
  · exact starts_reading (by rw [hu]) (writes_unmatched hx (by decide))
  · refine .inr ⟨rfl, by rw [hu]; rfl, _, rfl, fun hq => ?_⟩
    obtain ⟨hsup, hfr, hwr⟩ := hl hq
    refine ⟨by rw [hu]; exact hsup, fun e => absurd e hx, fun e => by rw [hu]; exact hfr e, fun b e => ?_⟩
    obtain ⟨hp, hr⟩ := hwr b e
    rw [← hy] at hp hr
    exact ⟨p, k, y, g, hw, by rw [hu]; exact hg, by rw [hu]; exact hp, by rw [hu]; exact hr⟩

theorem endAtStart_starts {e : Ending} {a : Addr} : u.starts (u.endAtStart p k e a) := .inl Spares.refl.endWith

theorem slip_starts {a : Addr} : u.starts (u.slip p k a) := starts_reading (v := State.count _ p .slips) rfl rfl

theorem startData_starts {h : HeaderReading} (hi : u.inService = some (p, k, sl)) (hg : u.progress = some g) :
    u.starts (u.startData p k sl g h) := by
  unfold State.startData
  dsimp only
  split
  · split
    · exact slip_starts
    · split
      · exact slip_starts
      · split
        · exact endAtStart_starts
        · exact takePass_starts hi hg (by simp) fun e => by cases e
  · split
    · exact endAtStart_starts
    · exact takePass_starts hi hg (by simp) fun e => by cases e
  · split
    · split
      · exact endAtStart_starts
      · exact takePass_starts hi hg (by simp) fun e => by cases e
    · split
      · exact slip_starts
      · split
        · exact endAtStart_starts
        · next hp =>
          split
          · exact endAtStart_starts
          · next hr =>
            split
            · exact endAtStart_starts
            · next hsup =>
              exact takePass_starts hi hg (by simp) fun _ => ⟨by simpa using hsup, by simp,
                fun _ _ => ⟨by simpa using hp, by simpa using hr⟩⟩
  · exact .inl .refl

theorem startFormat_starts : u.starts (u.startFormat p k sl) := by
  unfold State.startFormat
  dsimp only
  split
  · exact endAtStart_starts
  · next hp =>
    split
    · exact endAtStart_starts
    · split
      · exact endAtStart_starts
      · next hsup =>
        have hc : ∀ c : Prop, [Decidable c] → (if c then u.loseLabel .absent else u).lines = u.lines
            ∧ (if c then u.loseLabel .absent else u).guard = u.guard
            ∧ (if c then u.loseLabel .absent else u).disk = u.disk := by
          intro c _
          unfold State.loseLabel
          dsimp only
          split
          · split <;> exact ⟨rfl, rfl, rfl⟩
          · exact ⟨rfl, rfl, rfl⟩
        obtain ⟨hlines, hguard, hdisk⟩ := hc ({ sl.startAddr with sector := sl.sectorsDone } = labelAddr)
        refine .inr ⟨rfl, hdisk, _, rfl, fun _ => ⟨?_, fun _ => ?_, by simp, by simp⟩⟩
        · simpa [State.setPass, hlines] using hsup
        · simpa [State.setPass, hguard] using hp

theorem startFrozen_starts {x : PassKind} {a : Addr} {ws : List Word} {h : HeaderReading}
    (hi : u.inService = some (p, k, sl)) (hg : u.progress = some g) (hx : x = .zero ∨ x = .labelWrite) :
    u.starts (u.startFrozen p k g x a ws h) := by
  unfold State.startFrozen
  split
  · exact endAtStart_starts
  · next hf =>
    split
    · exact endAtStart_starts
    · next hsup =>
      refine takePass_starts hi hg (by rcases hx with rfl | rfl <;> simp) fun _ =>
        ⟨by simpa using hsup, fun _ => by simpa using hf, fun b e => ?_⟩
      rcases hx with rfl | rfl <;> cases e

theorem startTest_starts {n : Nat} {w : Bool} {h : HeaderReading} : u.starts (u.startTest p k sl n w h) := by
  unfold State.startTest
  dsimp only
  split
  · split
    · split
      · exact endAtStart_starts
      · next hsup =>
        exact .inr ⟨rfl, rfl, _, rfl, fun _ => ⟨by simpa using hsup, by simp, by simp, by simp⟩⟩
    · exact starts_reading rfl rfl
  · exact .inl .refl

theorem startInService_starts {n : Nat} {h : HeaderReading} (hi : u.inService = some (p, k, sl))
    (hg : u.progress = some g) : u.starts (u.startInService p k sl g n h) := by
  unfold State.startInService
  split
  · split
    · exact startData_starts hi hg
    · exact .inl .refl
  · split
    · exact startFormat_starts
    · exact .inl .refl
  · exact .inl .refl
  · exact startTest_starts
  · exact startTest_starts
  · split
    · exact startFrozen_starts hi hg (.inl rfl)
    · exact .inl .refl
  · split
    · exact startFrozen_starts hi hg (.inr rfl)
    · exact .inl .refl
  · split
    · exact takePass_starts hi hg (by simp) fun e => by cases e
    · exact .inl .refl

theorem startLabelRead_starts {h : HeaderReading} : u.starts (u.startLabelRead h) := by
  have hc : Spares u (if 0 < u.drive.labelFails then u.countBoth .reReads else u)
      ∧ (if 0 < u.drive.labelFails then u.countBoth .reReads else u).disk = u.disk := by
    split
    · exact ⟨Spares.refl.countBoth, rfl⟩
    · exact ⟨.refl, rfl⟩
  unfold State.startLabelRead
  dsimp only
  split
  · exact .inl hc.1.headerMismatch
  · exact starts_reading hc.2 rfl
  · exact starts_reading hc.2 rfl

theorem sectorStart_starts {n : Nat} {h : HeaderReading} : u.starts (u.sectorStart n h) := by
  unfold State.sectorStart
  split
  · exact .inl .refl
  · split
    · split
      · exact startLabelRead_starts
      · exact .inl .refl
    · split
      · next hi hg => exact startInService_starts hi hg
      · exact .inl .refl

/-! ### What orders and exchanges share -/

theorem Spares.disarm {a : State} (h : Spares a s) : Spares a (s.disarm p) := h.same
theorem Spares.refuse {a : State} {r : Refuse} (h : Spares a s) : Spares a (s.refuse p r) := h.same
theorem Spares.accepted {a : State} (h : Spares a s) : Spares a (s.accepted p) := h.same
theorem Spares.answer {a : State} {w : Word} (h : Spares a s) : Spares a (s.answer p w) := h.same
theorem Spares.openExchange {a : State} {x : ExchangeKind} {w : Word} {r : List Word} (h : Spares a s) :
    Spares a (s.openExchange p x w r) := h.same
theorem Spares.closeExchange {a : State} (h : Spares a s) : Spares a (s.closeExchange p) := h.same

theorem Spares.abandon {a : State} (h : Spares a s) : Spares a (s.abandon p) := by
  unfold State.abandon
  split
  · exact h
  · dsimp only
    split
    · exact h.onPort.count.dropOrphan.testRequests
    · exact h.onPort.count

theorem Spares.openWord {a : State} (h : Spares a s) : Spares a (s.openWord p) :=
  .ite (fun _ => h.abandon.onPort.testRequests.judgeAlarm) fun _ => h.abandon.onPort

theorem Spares.enterSlot {a : State} (h : Spares a s) : Spares a (s.enterSlot p sl) := by
  unfold State.enterSlot
  split
  · exact h.onQueue
  · exact h

theorem Spares.enqueue {a : State} (h : Spares a s) : Spares a (s.enqueue p sl) := h.enterSlot.schedule.judgeAlarm

theorem Spares.answerNow {a : State} {x : Kind} {tag : Byte} {body : List Word} (h : Spares a s) :
    Spares a (s.answerNow p x tag body) := by
  unfold State.answerNow
  split
  · exact h.onQueue
  · exact h

theorem Spares.acceptData {a : State} {x : Kind} {v : Bool} {y : Packet} (h : Spares a s) :
    Spares a (s.acceptData p x v y) := h.count.enqueue

/-- A completed order packet begins no pass and writes no sector where its kind's acceptance does not. -/
theorem orderPacket_spares {o : OrderRule} {tag : Byte} {rest : List Word}
    (h : ∀ x, Spares (s.disarm p) (o.accept (s.disarm p) p x)) : Spares s (s.orderPacket p o tag rest) := by
  unfold State.orderPacket
  split
  · split
    · exact Spares.refl.refuse
    · split
      · exact Spares.refl.refuse
      · exact (Spares.refl.disarm.trans (h _)).accepted
  · exact .refl

theorem Spares.clearPort {a : State} (h : Spares a s) : Spares a (s.clearPort p) := by
  have one : ∀ (s : State) k, Spares s (s.clearSlot p k) := by
    intro s k
    unfold State.clearSlot
    split
    · exact .refl
    · exact .ite (fun _ => Spares.refl.modSlot.release) fun _ => Spares.refl.release.onQueue
  have all : Spares a (slotNumbers.foldl (fun s k => s.clearSlot p k) s) := Spares.foldl slotNumbers _ one h
  unfold State.clearPort
  dsimp only
  generalize slotNumbers.foldl (fun s k => s.clearSlot p k) s = u at all
  exact (Spares.onPort (f := fun x => { x.reload s.tick with presence := .present }) all).testRequests.schedule.judgeAlarm

theorem Spares.losePort {a : State} (h : Spares a s) : Spares a (s.losePort p) := by
  have withdrawn : ∀ {s : State}, Spares s (s.withdrawRequests p) :=
    Spares.foldl slotNumbers _ (fun _ _ => Spares.refl.release) .refl
  exact (h.abandon.onPort.trans withdrawn).endWhere.latch.autoChangeover.testRequests.schedule.judgeAlarm

theorem Spares.deliver {a : State} {b : Fin 4} (h : Spares a s) : Spares a (s.deliver b) := by
  unfold State.deliver
  dsimp only
  split
  · exact h.putBuffer
  · split
    · split
      · split
        · exact h.putBuffer.finishDraining
        · exact h.putBuffer.modSlot
      · exact h.putBuffer
    · exact h.putBuffer

theorem Spares.writePlan {a : State} {n : Nat} {m : Plan} (h : Spares a s) : Spares a (s.writePlan n m) := by
  unfold State.writePlan
  split
  · exact (h.same (t := s.setActive m .edited)).recheckPort.recheckPort
  · exact h.same
  · exact h.same

theorem Spares.runHolds {a : State} (h : Spares a s) : Spares a s.runHolds :=
  .ite (fun _ => h.enterSpinningUp) fun _ => h.onDrive

theorem Spares.runFails {a : State} (h : Spares a s) : Spares a s.runFails := by
  unfold State.runFails
  split
  iterate 2 exact h
  iterate 4 exact h.enterSpinningDown
  all_goals exact .ite (fun _ => h.enterSpinningDown) fun _ => h.onDrive

theorem Spares.reseek {a : State} (h : Spares a s) : Spares a s.reseek := by
  unfold State.reseek
  split
  · exact h.issueSeek
  · exact h.onPos

theorem Spares.enterEmpty {a : State} (h : Spares a s) : Spares a s.enterEmpty := h.onDrive.judgeRun

/-! ### Every command -/

/-- What a command leaves of the pass and the cartridge: no pass begun, or a pulse's pass, permitted where it writes. -/
def State.leaves (s t : State) : Prop :=
  Spares s t ∨ ∃ u, Spares s u ∧ t.disk = u.disk ∧ ∃ q, t.pass = some q ∧ (q.writes = true → t.permits q)

/-- A pulse closes what its sector start left. -/
theorem Spares.pulse {n : Nat} {h : HeaderReading} (hs : Spares s u) : s.leaves (State.close (u.sectorStart n h)) := by
  rcases sectorStart_starts (u := u) (n := n) (h := h) with hx | ⟨ha, hd, q, hq, hw⟩
  · exact .inl (hs.trans hx).close
  · have e : State.close (u.sectorStart n h) = (u.sectorStart n h).1.judgeAlarm := by
      generalize u.sectorStart n h = x at ha
      obtain ⟨x, y⟩ := x
      cases ha
      rfl
    rw [e]
    exact .inr ⟨u, hs, hd, q, hq, hw⟩

/-- Every command but the resets, from the state in which another cartridge is in place where it puts one there. -/
theorem exec_leaves {c : Instr} (hc : isReset c = false) (h : exec c s = .next t) :
    ∃ u : State, u.pass = s.pass ∧ (putsCartridge c = false → u = s) ∧ u.leaves t := by
  have keep : Spares s t → ∃ u : State, u.pass = s.pass ∧ (putsCartridge c = false → u = s) ∧ u.leaves t :=
    fun x => ⟨s, rfl, fun _ => rfl, .inl x⟩
  have r : Spares s s := .refl
  cases c with
  | powerOn l c => cases hc
  | panelReset => cases hc
  | orderOutOpening p w =>
    cases h; exact keep (.ite (fun _ => r.openWord.refuse) fun _ => r.openWord.openExchange)
  | dataOutOpening p w => cases h; exact keep r.openWord.openExchange
  | replyIn p w => cases h; exact keep r.openWord.openExchange
  | dataIn p w => cases h; exact keep r.openWord.openExchange
  | statusIn p w whole =>
    cases h; exact keep (.ite (fun _ => r.openWord.openExchange.onPort) fun _ => r.openWord.openExchange)
  | openingWordNoKind p w => cases h; exact keep r.openWord.count
  | strayWord p w =>
    cases h
    refine keep ?_
    split
    · exact r
    · exact r.onPort
  | dataOut p header words =>
    cases h
    refine keep ?_
    split
    · split
      · exact r.answer
      · split
        · exact r.putBuffer.answer
        · exact r.answer
    · exact r
  | replyInComplete p =>
    cases h
    refine keep ?_
    split
    · exact r.onQueue.closeExchange
    · exact r.closeExchange
    · exact r
  | dataInComplete p =>
    cases h
    refine keep ?_
    split
    · exact r.deliver.testRequests.closeExchange
    · exact r.closeExchange
    · exact r
  | read p tag rest => cases h; exact keep (orderPacket_spares fun x => Spares.refl.acceptData)
  | write p tag rest => cases h; exact keep (orderPacket_spares fun x => Spares.refl.acceptData)
  | check p tag rest => cases h; exact keep (orderPacket_spares fun x => Spares.refl.acceptData)
  | formatTrack p tag rest => cases h; exact keep (orderPacket_spares fun x => Spares.refl.enqueue)
  | initializeLabel p tag rest => cases h; exact keep (orderPacket_spares fun x => Spares.refl.enqueue)
  | assignSpare p tag rest => cases h; exact keep (orderPacket_spares fun x => Spares.refl.enqueue)
  | testTrack p tag rest => cases h; exact keep (orderPacket_spares fun x => Spares.refl.enqueue)
  | readPlan p tag rest => cases h; exact keep (orderPacket_spares fun x => Spares.refl.answerNow)
  | writePlan p tag rest =>
    cases h
    exact keep (orderPacket_spares fun x =>
      .ite (fun _ => Spares.refl.writePlan.answerNow.schedule.judgeAlarm) fun _ => Spares.refl.writePlan.answerNow)
  | loadPlan p tag rest =>
    cases h; exact keep (orderPacket_spares fun x => Spares.refl.loadMapLatched.answerNow.schedule.judgeAlarm)
  | setMapMode p tag rest => cases h; exact keep (orderPacket_spares fun x => Spares.answerNow Spares.refl.same)
  | setGuard p tag rest => cases h; exact keep (orderPacket_spares fun x => Spares.answerNow Spares.refl.same)
  | setSupervision p tag rest => cases h; exact keep (orderPacket_spares fun x => Spares.refl.onPort.answerNow)
  | setAlarmLine p tag rest =>
    cases h; exact keep (orderPacket_spares fun x => (Spares.answerNow Spares.refl.same).judgeAlarm)
  | clearAlarms p tag rest =>
    cases h
    exact keep (orderPacket_spares fun x =>
      (Spares.answerNow (.ite (fun _ => Spares.refl.same) fun _ => Spares.refl.same)).judgeAlarm)
  | captureStatistics p tag rest => cases h; exact keep (orderPacket_spares fun x => Spares.answerNow Spares.refl.same)
  | readStatistics p tag rest => cases h; exact keep (orderPacket_spares fun x => Spares.refl.answerNow)
  | readLabel p tag rest => cases h; exact keep (orderPacket_spares fun x => Spares.refl.answerNow)
  | restartDrive p tag rest =>
    cases h; exact keep (orderPacket_spares fun x => Spares.refl.enterSpinningUp.answerNow.judgeAlarm)
  | arm p tag rest => cases h; exact keep (orderPacket_spares fun x => Spares.refl.onPort)
  | clearPort p tag rest => cases h; exact keep (orderPacket_spares fun x => Spares.refl.clearPort)
  | unknownKind p code tag rest =>
    cases h
    refine keep ?_
    split
    · split <;> exact r.refuse
    · exact r
  | changeoverStrobe =>
    cases h
    exact keep (.ite (fun _ => r) fun _ => .ite (fun _ => r.onLines.loadMapLatched.schedule.judgeAlarm) fun _ => r.onLines)
  | planSelectLine x => cases h; exact keep r.onLines
  | fixedPlanKeyOn => cases h; exact keep (.ite (fun _ => r) fun _ => r.onLines.loadMapLatched.schedule.judgeAlarm)
  | fixedPlanKeyOff => cases h; exact keep r.onLines
  | guardKeyLine x => cases h; exact keep r.onLines
  | alarmAcknowledge => cases h; exact keep (.ite (fun _ => r) fun _ => Spares.judgeAlarm r.same)
  | flashTimerExpiry => cases h; exact keep (.ite (fun _ => r.same) fun _ => r)
  | presenceTimerExpiry p => cases h; exact keep (.ite (fun _ => r.losePort) fun _ => r)
  | dueTickExpiry p tag =>
    cases h
    refine keep ?_
    split
    · exact .ite (fun _ => r.endSlot.schedule.judgeAlarm) fun _ => r
    · exact r
  | drainLimit p tag =>
    cases h
    refine keep ?_
    split
    · exact .ite (fun _ => r.endSlot) fun _ => r
    · exact r
  | indexPulse x => cases h; exact ⟨s, rfl, fun _ => rfl, r.indexWatch.testIndex.settled.pulse⟩
  | sectorPulse x =>
    cases h
    suffices s.leaves _ from ⟨s, rfl, fun _ => rfl, this⟩
    split
    · exact .inl r
    · split
      · exact r.onPos.pulse
      · exact .inl (.ite (fun _ => r.onPos.countBoth) fun _ => r.onPos)
  | sectorPassEnd d => cases h; exact keep (Spares.close (passEnd_spares s d))
  | seekArrival =>
    cases h
    refine keep ?_
    split
    · exact .ite (fun _ => r.onLines.arrive.arrivalBoundary.close) fun _ => r.onLines
    · exact r
  | seekTimeout => cases h; exact keep (.ite (fun _ => r.seekError.judgeAlarm) fun _ => r)
  | recalibrationComplete =>
    cases h
    exact keep (.ite (fun _ => Spares.judgeAlarm (Spares.schedule
      (.ite (fun _ => r.onLines.onPos.enterLabelRead) fun _ => r.onLines.onPos.reseek))) fun _ => r)
  | recalibrationLimit => cases h; exact keep (.ite (fun _ => r.recalibrationFailed.judgeAlarm) fun _ => r)
  | indexLoss => cases h; exact keep (.ite (fun _ => r.enterFaulted.judgeAlarm) fun _ => r)
  | runConditionHolds cart =>
    cases h
    by_cases hr : s.lines.run = true
    · exact keep (by rw [if_pos hr]; exact r)
    · have hx : (s.exchange cart).pass = s.pass
          ∧ (putsCartridge (.runConditionHolds cart) = false → s.exchange cart = s) := by
        cases cart with
        | none => exact ⟨rfl, fun _ => rfl⟩
        | some l =>
          refine ⟨?_, fun e => by cases e⟩
          unfold State.exchange
          dsimp only
          split <;> rfl
      exact ⟨s.exchange cart, hx.1, hx.2, .inl (by rw [if_neg hr]; exact Spares.refl.onLines.runHolds.judgeAlarm)⟩
  | runConditionFails x y z => cases h; exact keep (.ite (fun _ => r.onLines.runFails.judgeAlarm) fun _ => r.onLines)
  | writeSupplyLost => cases h; exact keep r.onLines.setReasons.scheduleOnEntry.judgeAlarm
  | writeSupplyGood => cases h; exact keep r.onLines.setReasons.scheduleOnEntry.judgeAlarm
  | overTemperature =>
    cases h
    exact keep (.ite (fun _ => r) fun _ => .ite (fun _ => r.onLines.enterFaulted.judgeAlarm) fun _ => r.onLines)
  | spinUpTimeout => cases h; exact keep (.ite (fun _ => r.enterFaulted.judgeAlarm) fun _ => r)
  | runDownTimeout => cases h; exact keep (.ite (fun _ => r.enterEmpty.judgeAlarm) fun _ => r)
  | overTemperatureInactive => cases h; exact keep r.onLines
  | changeoverStrobeInactive => cases h; exact keep r.onLines
  | alarmAcknowledgeInactive => cases h; exact keep r.onLines

/-- A reset leaves no pass, and of the disk, where no other cartridge is put in place, what the cut write leaves. -/
theorem reset_leaves {c : Instr} (hc : isReset c ≠ false) (h : exec c s = .next t) :
    t.pass = none ∧ (putsCartridge c = false → t.disk = s.cutPass.disk) := by
  cases c with
  | powerOn l x =>
    cases h
    rw [resetTo_eq]
    cases x with
    | none => exact ⟨rfl, fun _ => rfl⟩
    | some d => exact ⟨rfl, fun e => by cases e⟩
  | panelReset => cases h; rw [resetTo_eq]; exact ⟨rfl, fun _ => rfl⟩
  | _ => exact absurd rfl hc

/-- Settles O14: a command but a reset spares every sector that is not being written, and a reset cuts the write. -/
theorem onlyTheSectorBeingWrittenChanges : Obligations.OnlyTheSectorBeingWrittenChanges := by
  intro c s t n h hp hn
  by_cases hc : isReset c = false
  · obtain ⟨u, -, hu, hl⟩ := exec_leaves hc h
    cases hu hp
    rcases hl with x | ⟨u, x, hd, -⟩
    · exact x.disk n hn
    · exact x.disk n (by rw [← hd]; exact hn)
  · rw [(reset_leaves hc h).2 hp] at hn
    exact Spares.refl.cutPass.disk n hn

/-- Settles O15: a pass that was not under way is that of a pulse, and a pulse's writing pass was permitted. -/
theorem noProtectedWriteBegins : Obligations.NoProtectedWriteBegins := by
  intro c s t q h hs ht hw
  by_cases hc : isReset c = false
  · obtain ⟨u, hu, -, hl⟩ := exec_leaves hc h
    rcases hl with x | ⟨_, -, -, q', hq', hp⟩
    · exact absurd (x.pass q ht) (by simp [hu, hs])
    · cases ht.symm.trans hq'
      exact hp hw
  · rw [(reset_leaves hc h).1] at ht
    cases ht

end Sys2Proof.Machine

/-! ## The check register (R3) -/

namespace Sys2Proof.Machine

/-- The check register after the first `n` bits of a word, most significant bit first. -/
def crcBits (r w : Word) (n : Nat) : Word :=
  (List.range n).foldl (fun r i => crcBit r (w.getLsbD (15 - i))) r

theorem crcBits_succ (r w : Word) (n : Nat) :
    crcBits r w (n + 1) = crcBit (crcBits r w n) (w.getLsbD (15 - n)) := by
  simp [crcBits, List.range_succ]

theorem crcWord_eq_crcBits (r w : Word) : crcWord r w = crcBits r w 16 := rfl

theorem crc_append (ws : List Word) (w : Word) : crc (ws ++ [w]) = crcWord (crc ws) w := by
  simp [crc]

/-- The register's step on a bit of 0: what is shifted out alone decides the inversion. -/
def crcShift (r : Word) : Word := crcBit r false

/-- A bit that enters the register's end acts as one xored onto the bit shifted out. -/
theorem crcBit_msb (x v : Word) : crcBit (x ^^^ v) v.msb = crcShift x ^^^ v <<< 1 := by
  unfold crcShift crcBit
  rw [BitVec.msb_xor, Bool.xor_assoc, Bool.xor_self]
  cases x.msb
  · simp [BitVec.shiftLeft_xor_distrib]
  · simp [BitVec.shiftLeft_xor_distrib, BitVec.xor_assoc, BitVec.xor_comm (0x1021#16)]

theorem msb_shiftLeft_eq {w : Word} {n : Nat} (h : n < 16) : (w <<< n).msb = w.getLsbD (15 - n) := by
  rw [BitVec.msb_eq_getLsbD_last, BitVec.getLsbD_shiftLeft]
  simp; omega

/-- So the bits passed are those of the word xored onto the register, shifted through it. -/
theorem crcBits_eq (r w : Word) : ∀ n ≤ 16, crcBits r w n = crcShift^[n] (r ^^^ w) ^^^ w <<< n := by
  intro n
  induction n with
  | zero => intro _; simp [crcBits]
  | succ n ih =>
    intro h
    rw [crcBits_succ, ih (by omega), ← msb_shiftLeft_eq (by omega), crcBit_msb, Function.iterate_succ_apply',
      BitVec.shiftLeft_add]

/-- The register's step loses nothing: bit 0 after it tells whether the inversion took place. -/
theorem crcShift_eq_zero {x : Word} (h : crcShift x = 0) : x = 0 := by
  have bit (i : Nat) : (crcShift x).getLsbD i = false := by rw [h]; simp
  have hm : x.msb = false := by
    cases hx : x.msb with
    | false => rfl
    | true => exact absurd (bit 0) (by simp [crcShift, crcBit, hx])
  have shifted : x <<< 1 = 0 := by simpa [crcShift, crcBit, hm] using h
  rw [BitVec.msb_eq_decide, decide_eq_false_iff_not] at hm
  have := congrArg BitVec.toNat shifted
  rw [BitVec.toNat_shiftLeft, Nat.shiftLeft_eq] at this
  apply BitVec.eq_of_toNat_eq
  simp only [BitVec.ofNat_eq_ofNat, BitVec.toNat_ofNat] at *
  have hx := x.isLt
  omega

theorem crcShift_iterate_eq_zero {n : Nat} {x : Word} : crcShift^[n] x = 0 ↔ x = 0 := by
  induction n with
  | zero => rfl
  | succ n ih =>
    rw [Function.iterate_succ_apply', ← ih]
    exact ⟨crcShift_eq_zero, fun h => by rw [h]; rfl⟩

/-- A word leaves the register at 0 exactly where it is what the register held. -/
theorem crcWord_eq_zero (r w : Word) : crcWord r w = 0 ↔ w = r := by
  have gone : w <<< 16 = 0#16 := BitVec.shiftLeft_eq_zero (by decide)
  rw [crcWord_eq_crcBits, crcBits_eq r w 16 (by omega), gone, BitVec.xor_zero, crcShift_iterate_eq_zero]
  exact BitVec.xor_eq_zero_iff.trans eq_comm

/-- Exactly 256 words are neither cut nor filled. -/
theorem fit256_of_length {ws : List Word} (h : ws.length = 256) : fit256 ws = ws := by
  rw [fit256, List.take_append_of_le_length (by omega), List.take_of_length_le (by omega)]

/-- Settles O56: the register loses no value, so a check word of 0 tells the word that was passed last. -/
theorem theCheckWordIsTheStatedRegister : Obligations.TheCheckWordIsTheStatedRegister := by
  refine ⟨rfl, fun ws w => ?_, fun ws w => ?_, fun c h s k x => ?_, fun d x => ?_, fun d x ws k hl => ?_⟩
  · refine ⟨fun i => crcBits (crc ws) w i, rfl, ?_, fun i => ?_⟩
    · rw [crc_append]; rfl
    · simp only [Fin.val_succ, Fin.val_castSucc, crcBits_succ]
      unfold crcBit
      rw [BitVec.msb_eq_getLsbD_last]
      simp only [bne_iff_ne, ne_eq]
  · rw [crc_append, crcWord_eq_zero]
  · unfold classify
    split
    · next hk => simp_all
    · next hk => split <;> simp_all
  · simp [DataReading.passes]
  · simp [DataReading.passes, fit256_of_length hl]

end Sys2Proof.Machine

/-! ## Labels as words (R6 to R9) -/

namespace Sys2Proof.Machine

/-! ### The lists a label's words hold -/

/-- The entries read from words, each from its two words. -/
theorem subEntriesOf_eq : ∀ (n : Nat) (ws : List Word), 2 * n ≤ ws.length →
    subEntriesOf n ws
      = (List.range n).map fun i => SubEntry.ofWords (wordAt ws (2 * i)) (wordAt ws (2 * i + 1)) := by
  intro n
  induction n with
  | zero => intro ws _; rfl
  | succ n ih =>
    intro ws h
    match ws, h with
    | w0 :: w1 :: rest, h =>
      rw [List.range_succ_eq_map, List.map_cons, List.map_map, subEntriesOf,
        ih rest (by simp only [List.length_cons] at h; omega)]
      rfl

/-- The retired indices read from words, each from its word. -/
theorem retiredOf_eq {ws : List Word} {a r : Nat} (h : a + r ≤ ws.length) :
    ((ws.drop a).take r).map (·.toNat) = (List.range r).map fun i => (wordAt ws (a + i)).toNat := by
  apply List.ext_getElem
  · simp; omega
  · intro i h1 h2
    simp only [List.length_map, List.length_range] at h2
    simp [wordAt, List.getElem?_eq_getElem (show a + i < ws.length by omega)]

/-- A word beyond the first `a` of them. -/
theorem wordAt_drop (ws : List Word) (a i : Nat) : wordAt (ws.drop a) i = wordAt ws (a + i) := by
  simp [wordAt, List.getElem?_drop]

/-- Indexed values are distinct where no earlier one is met again. -/
theorem nodup_range_map {α : Type} (f : Nat → α) (n : Nat) :
    ((List.range n).map f).Nodup ↔ ∀ i < n, ∀ j < i, f i ≠ f j := by
  rw [List.nodup_map_iff_inj_on List.nodup_range]
  simp only [List.mem_range]
  constructor
  · intro h i hi j hj e
    exact absurd (h i hi j (by omega) e) (by omega)
  · intro h i hi j hj e
    rcases Nat.lt_trichotomy i j with hij | hij | hij
    · exact absurd e.symm (h j hj i hij)
    · exact hij
    · exact absurd e (h i hi j hij)

/-! ### The conditions of R8 -/

/-- The conditions of R8 as propositions. -/
theorem labelSound_iff (gen : Word) (t : List SubEntry) (r : List Nat) : labelSound gen t r = true ↔
    gen ≠ 0 ∧ (∀ x ∈ t, x.bad.cyl ≤ 383 ∧ x.bad.head ≤ 3 ∧ x.bad.sector ≤ 19) ∧ (∀ x ∈ t, x.spare < 80)
      ∧ (∀ i ∈ r, i < 80) ∧ (t.map (·.bad.linear)).Nodup ∧ (t.map (·.spare)).Nodup ∧ r.Nodup
      ∧ ∀ x ∈ t, x.spare ∉ r := by
  unfold labelSound
  simp only [Bool.and_eq_true, decide_eq_true_eq, List.all_eq_true, distinct_iff, Bool.not_eq_true',
    List.contains_eq_mem, decide_eq_false_iff_not, and_assoc]

/-- Entries on sectors of the data zone are distinct by linear address exactly where they are distinct. -/
theorem linear_ne_iff {x y : Addr} (hx : x.head ≤ 3 ∧ x.sector ≤ 19) (hy : y.head ≤ 3 ∧ y.sector ≤ 19) :
    x.linear ≠ y.linear ↔ x ≠ y :=
  not_congr ⟨linear_inj hx hy, fun e => e ▸ rfl⟩

/-- The conditions of R8 for entries and retired indices read one by one. -/
theorem labelSound_range (gen : Word) (f : Nat → SubEntry) (g : Nat → Nat) (e r : Nat) :
    labelSound gen ((List.range e).map f) ((List.range r).map g) = true ↔
      gen ≠ 0 ∧ (∀ i < e, (f i).bad.cyl ≤ 383 ∧ (f i).bad.head ≤ 3 ∧ (f i).bad.sector ≤ 19)
        ∧ (∀ i < e, (f i).spare < 80) ∧ (∀ i < r, g i < 80)
        ∧ (∀ i < e, ∀ j < i, (f i).bad ≠ (f j).bad) ∧ (∀ i < e, ∀ j < i, (f i).spare ≠ (f j).spare)
        ∧ (∀ i < r, ∀ j < i, g i ≠ g j) ∧ ∀ i < e, ∀ j < r, (f i).spare ≠ g j := by
  rw [labelSound_iff, List.map_map, List.map_map, nodup_range_map, nodup_range_map, nodup_range_map]
  simp only [List.mem_map, List.mem_range, forall_exists_index, and_imp, forall_apply_eq_imp_iff₂, Function.comp_apply,
    not_exists, not_and]
  refine and_congr_right fun _ => and_congr_right fun zone => and_congr_right fun _ => and_congr_right fun _ =>
    and_congr ?_ (and_congr_right fun _ => and_congr_right fun _ => ?_)
  · exact forall₄_congr fun i hi j hj => linear_ne_iff (zone i hi).2 (zone j (by omega)).2
  · exact forall₄_congr fun i _ j _ => ne_comm

/-! ### The verdict -/

section
variable {ws : List Word} (h0 : wordAt ws 0 = labelMark)
include h0

theorem judgeLabel_overfull (h : 80 < (wordAt ws 7).toNat + (wordAt ws 8).toNat) :
    judgeLabel ws = .blank .damaged := by
  unfold judgeLabel
  dsimp only
  rw [if_neg (not_not_intro h0), if_pos h]

variable (hn : (wordAt ws 7).toNat + (wordAt ws 8).toNat ≤ 80)
  {table : List SubEntry} (ht : subEntriesOf (wordAt ws 7).toNat (ws.drop 9) = table)
  {retired : List Nat}
  (hr : ((ws.drop (9 + 2 * (wordAt ws 7).toNat)).take (wordAt ws 8).toNat).map (·.toNat) = retired)
include hn ht hr

/-- A marked label's verdict turns on its lists and its generation. -/
theorem judgeLabel_marked : judgeLabel ws = if labelSound (wordAt ws 6) table retired then
      { state := .valid, name := #v[wordAt ws 1, wordAt ws 2, wordAt ws 3, wordAt ws 4], serial := wordAt ws 5,
        gen := wordAt ws 6, table := table.foldl (fun t x => insertEntry x t) [],
        retired := retired.foldl (fun t x => insertRetired x t) [] }
    else .blank .damaged := by
  unfold judgeLabel
  dsimp only
  rw [if_neg (not_not_intro h0), if_neg (by omega), ht, hr]

/-- A sound label is VALID with its lists in ascending order, whatever order its words had. -/
theorem judgeLabel_valid (hs : labelSound (wordAt ws 6) table retired = true) : ∃ t r,
    judgeLabel ws = ⟨.valid, #v[wordAt ws 1, wordAt ws 2, wordAt ws 3, wordAt ws 4], wordAt ws 5, wordAt ws 6, t, r⟩
      ∧ t.Pairwise (fun x y => x.bad.linear < y.bad.linear) ∧ (∀ x, x ∈ t ↔ x ∈ table)
      ∧ r.Pairwise (· < ·) ∧ ∀ i, i ∈ r ↔ i ∈ retired := by
  obtain ⟨-, -, -, -, distinct, -⟩ := (labelSound_iff _ _ _).mp hs
  obtain ⟨ascending, members⟩ := foldRetired retired [] .nil
  refine ⟨_, _, (judgeLabel_marked h0 hn ht hr).trans (if_pos hs), sortedEntries table [] .nil (by simpa using distinct),
    fun x => ?_, ascending, fun i => ?_⟩
  · rw [(foldEntries table []).mem_iff, List.append_nil, List.mem_reverse]
  · rw [members]; simp

end

/-! ### Reading back what was written -/

/-- An entry with its fields in range reads back from its two words. -/
theorem SubEntry.ofWords_words {x : SubEntry} (hc : x.bad.cyl ≤ 383) (hh : x.bad.head ≤ 3) (hs : x.bad.sector ≤ 19)
    (hi : x.spare < 80) :
    SubEntry.ofWords (wordOf x.bad.cyl) (wordOf (4096 * x.bad.head + 128 * x.bad.sector + x.spare)) = x := by
  obtain ⟨⟨c, h, s⟩, i⟩ := x
  simp only at hc hh hs hi
  simp only [SubEntry.ofWords, field, wordOf, BitVec.toNat_ofNat, Nat.shiftRight_eq_div_pow, SubEntry.mk.injEq,
    Addr.mk.injEq]
  omega

/-- Entries with their fields in range read back from their words, whatever follows them. -/
theorem subEntriesOf_flatMap (rest : List Word) : ∀ t : List SubEntry,
    (∀ x ∈ t, x.bad.cyl ≤ 383 ∧ x.bad.head ≤ 3 ∧ x.bad.sector ≤ 19) → (∀ x ∈ t, x.spare < 80) →
    subEntriesOf t.length (t.flatMap SubEntry.words ++ rest) = t := by
  intro t
  induction t with
  | nil => intro _ _; rfl
  | cons x t ih =>
    intro zone spare
    obtain ⟨hc, hh, hs⟩ := zone x (.head _)
    have hi := spare x (.head _)
    have tail := ih (fun y hy => zone y (.tail _ hy)) fun y hy => spare y (.tail _ hy)
    simp only [List.flatMap_cons, SubEntry.words, List.cons_append, List.nil_append, List.length_cons, subEntriesOf,
      SubEntry.ofWords_words hc hh hs hi, tail]

theorem length_flatMap_words (t : List SubEntry) : (t.flatMap SubEntry.words).length = 2 * t.length := by
  induction t with
  | nil => rfl
  | cons x t ih => simp only [List.flatMap_cons, List.length_append, ih, SubEntry.words, List.length_cons]; simp; omega

/-- An entry that follows all others is placed last. -/
theorem insertEntry_last {x : SubEntry} : ∀ t : List SubEntry, (∀ y ∈ t, y.bad.linear < x.bad.linear) →
    insertEntry x t = t ++ [x] := by
  intro t
  induction t with
  | nil => intro _; rfl
  | cons y t ih =>
    intro h
    have := h y (.head _)
    rw [insertEntry, if_neg (by omega), ih fun z hz => h z (.tail _ hz), List.cons_append]

/-- An index that follows all others is placed last. -/
theorem insertRetired_last {i : Nat} : ∀ t : List Nat, (∀ j ∈ t, j < i) → insertRetired i t = t ++ [i] := by
  intro t
  induction t with
  | nil => intro _; rfl
  | cons j t ih =>
    intro h
    have := h j (.head _)
    rw [insertRetired, if_neg (by omega), if_neg (by omega), ih fun z hz => h z (.tail _ hz), List.cons_append]

/-- Placing the members of an ascending list one by one gives the list. -/
theorem foldl_insert_ascending {α : Type} {lt : α → α → Prop} {insert : α → List α → List α}
    (last : ∀ x t, (∀ y ∈ t, lt y x) → insert x t = t ++ [x]) :
    ∀ l t : List α, (t ++ l).Pairwise lt → l.foldl (fun t x => insert x t) t = t ++ l := by
  intro l
  induction l with
  | nil => intro t _; simp
  | cons x l ih =>
    intro t h
    have before : ∀ y ∈ t, lt y x := fun y hy => (List.pairwise_append.mp h).2.2 y hy x (.head _)
    rw [List.foldl_cons, last x t before, ih (t ++ [x]) (by simpa using h)]
    simp

theorem toNat_wordOf {n : Nat} (h : n < 65536) : (wordOf n).toNat = n := by
  rw [wordOf, BitVec.toNat_ofNat]; exact Nat.mod_eq_of_lt h

/-- A label's words: its own nine, those of its entries, those of its retired indices, and zeros (R6). -/
theorem labelWords_eq {l : Label} (hn : l.table.length + l.retired.length ≤ 80) : ∃ fill,
    labelWords l = labelMark :: l.name[0] :: l.name[1] :: l.name[2] :: l.name[3] :: l.serial :: l.gen
      :: wordOf l.table.length :: wordOf l.retired.length
      :: (l.table.flatMap SubEntry.words ++ (l.retired.map wordOf ++ fill)) := by
  obtain ⟨state, ⟨⟨names⟩, four⟩, serial, gen, table, retired⟩ := l
  match names, four with
  | [n0, n1, n2, n3], four =>
  simp only at hn
  refine ⟨(List.replicate 256 0).take (247 - (table.flatMap SubEntry.words ++ retired.map wordOf).length), ?_⟩
  have short : (table.flatMap SubEntry.words ++ retired.map wordOf).length ≤ 247 := by
    rw [List.length_append, length_flatMap_words, List.length_map]; omega
  show (([labelMark, n0, n1, n2, n3, serial, gen, wordOf table.length, wordOf retired.length]
    ++ table.flatMap SubEntry.words ++ retired.map wordOf) ++ List.replicate 256 0).take 256 = _
  simp only [List.cons_append, List.nil_append, List.take_succ_cons, List.append_assoc]
  rw [← List.append_assoc, List.take_append, List.take_of_length_le short, List.append_assoc]
  rfl

/-- A sound label of at most 80 entries and retired spares is judged as it was written (R6, R8). -/
theorem judgeLabel_labelWords {l : Label} (hv : l.state = .valid) (hn : l.table.length + l.retired.length ≤ 80)
    (hs : labelSound l.gen l.table l.retired = true)
    (ht : l.table.Pairwise fun x y => x.bad.linear < y.bad.linear) (hr : l.retired.Pairwise (· < ·)) :
    judgeLabel (labelWords l) = l := by
  obtain ⟨-, zone, spare, gone, -⟩ := (labelSound_iff _ _ _).mp hs
  obtain ⟨fill, words⟩ := labelWords_eq hn
  have he : (wordAt (labelWords l) 7).toNat = l.table.length := by
    rw [words]; exact toNat_wordOf (by omega)
  have hr8 : (wordAt (labelWords l) 8).toNat = l.retired.length := by
    rw [words]; exact toNat_wordOf (by omega)
  have entries : subEntriesOf (wordAt (labelWords l) 7).toNat ((labelWords l).drop 9) = l.table := by
    rw [he, words]; exact subEntriesOf_flatMap _ _ zone spare
  have indices : (((labelWords l).drop (9 + 2 * (wordAt (labelWords l) 7).toNat)).take
      (wordAt (labelWords l) 8).toNat).map (·.toNat) = l.retired := by
    rw [he, hr8, words, Nat.add_comm 9]
    simp only [List.drop_succ_cons]
    rw [List.drop_left' (length_flatMap_words _), List.take_left' (List.length_map _), List.map_map]
    refine (List.map_congr_left fun i hi => ?_).trans (List.map_id _)
    have := gone i hi
    exact toNat_wordOf (by omega)
  have gen : wordAt (labelWords l) 6 = l.gen := by rw [words]; rfl
  rw [judgeLabel_marked (by rw [words]; rfl) (by rw [he, hr8]; exact hn) entries indices, gen, if_pos hs, words,
    foldl_insert_ascending (fun _ => insertEntry_last) l.table [] ht,
    foldl_insert_ascending (fun _ => insertRetired_last) l.retired [] hr]
  obtain ⟨state, ⟨⟨names⟩, four⟩, serial, gen, table, retired⟩ := l
  match names, four with
  | [n0, n1, n2, n3], four => cases hv; rfl

/-- Settles O60: the verdict follows the order of the conditions of R8, and a label's words give back its fields. -/
theorem aLabelReadsBackAsWritten : Obligations.ALabelReadsBackAsWritten := by
  refine ⟨fun ws hl => ?_, fun l hv hn hs ht hr => judgeLabel_labelWords hv hn hs ht hr⟩
  intro x e r bad spare gone blank sound
  have entries (h : e + r ≤ 80) : subEntriesOf e (ws.drop 9) = (List.range e).map fun i => ⟨bad i, spare i⟩ := by
    rw [subEntriesOf_eq e _ (by rw [List.length_drop]; omega)]
    refine List.map_congr_left fun i _ => ?_
    rw [wordAt_drop, wordAt_drop, show 9 + (2 * i + 1) = 10 + 2 * i by omega]
    rfl
  have indices (h : e + r ≤ 80) : ((ws.drop (9 + 2 * e)).take r).map (·.toNat) = (List.range r).map gone :=
    retiredOf_eq (by omega)
  refine ⟨fun h0 => if_pos h0, fun h0 h => ?_, fun h0 hn hs => ?_⟩
  · by_cases hn : e + r ≤ 80
    · have unsound : ¬ sound := h.resolve_left (by omega)
      rw [judgeLabel_marked h0 hn (entries hn) (indices hn), if_neg (mt (labelSound_range _ _ _ _ _).mp unsound)]
      rfl
    · exact judgeLabel_overfull h0 (by show 80 < e + r; omega)
  · obtain ⟨t, u, judged, ht, mt, hu, mu⟩ :=
      judgeLabel_valid h0 hn (entries hn) (indices hn) ((labelSound_range _ _ _ _ _).mpr hs)
    refine ⟨t, u, judged, ht, fun y => ?_, hu, fun y => ?_⟩
    · rw [mt]; simp [eq_comm]
    · rw [mu]; simp [eq_comm]

end Sys2Proof.Machine

/-! ## The immediate orders (R9, R19, R22, R57, R159, R165, R166, R169) -/

namespace Sys2Proof.Machine

variable {s : State} {p : Port} {tag : Byte} {w1 w2 : Word} {k : Fin 8}

/-! ### The words of a reply body -/

/-- Word `j` of the `i`-th block, where every member of a list has a block of `c` words. -/
theorem wordAt_flatMap {α : Type} (f : α → List Word) {c : Nat} (rest : List Word) {x : α} {j : Nat} (hj : j < c) :
    ∀ (l : List α) (i : Nat), (∀ y ∈ l, (f y).length = c) → l[i]? = some x →
      wordAt (l.flatMap f ++ rest) (c * i + j) = wordAt (f x) j := by
  intro l
  induction l with
  | nil => intro i _ h; cases h
  | cons y l ih =>
    intro i hf h
    have hy := hf y (.head _)
    have tail := ih (i - 1) fun z hz => hf z (.tail _ hz)
    simp only [wordAt, List.getD_eq_getElem?_getD, List.flatMap_cons, List.append_assoc] at tail ⊢
    cases i with
    | zero =>
      cases h
      rw [List.getElem?_append_left (by omega)]
      simp
    | succ i =>
      rw [List.getElem?_append_right (by rw [hy, Nat.mul_succ]; omega), hy, Nat.mul_succ,
        show c * i + c + j - c = c * i + j by omega]
      exact tail h

theorem length_flatMap_const {α : Type} (f : α → List Word) {c : Nat} : ∀ l : List α, (∀ y ∈ l, (f y).length = c) →
    (l.flatMap f).length = c * l.length := by
  intro l
  induction l with
  | nil => intro _; rfl
  | cons y l ih =>
    intro h
    rw [List.flatMap_cons, List.length_append, h y (.head _), ih fun z hz => h z (.tail _ hz), List.length_cons,
      Nat.mul_succ, Nat.add_comm]

/-- The three words of a plan entry tell it, and the bits of the first that name nothing are 0 (12, section 12.3). -/
theorem PlanEntry.inWords_words {e : PlanEntry} (hf : e.first ≤ 65535) (hl : e.last ≤ 65535) :
    e.inWords (wordAt e.words 0) (wordAt e.words 1) (wordAt e.words 2) ∧ field (wordAt e.words 0) 14 4 = 0 := by
  obtain ⟨inUse, first, last, ra, rb⟩ := e
  have h1 : (wordOf first).toNat = first := toNat_wordOf (by simp only at hf; omega)
  have h2 : (wordOf last).toNat = last := toNat_wordOf (by simp only at hl; omega)
  have h0 : ∀ (b : Bool) (x y : Right), let w := wordOf (32768 * bitOf b + 4 * x.code + y.code)
      let rights : List Right := [.none, .read, .write]
      w.getLsbD 15 = b ∧ rights[field w 3 2]? = some x ∧ rights[field w 1 0]? = some y ∧ field w 14 4 = 0 := by
    intro b x y
    cases b <;> cases x <;> cases y <;> decide
  obtain ⟨use, right_a, right_b, rest⟩ := h0 inUse ra rb
  exact ⟨⟨use, right_a, right_b, h1, h2⟩, rest⟩

/-- The body of READ LABEL tells the label's fields, its entries and its retired spares (12, section 12.5). -/
theorem Label.toldBy_bodyWords {l : Label}
    (he : ∀ e ∈ l.table, e.bad.cyl ≤ 383 ∧ e.bad.head ≤ 3 ∧ e.bad.sector ≤ 19 ∧ e.spare < 80)
    (hr : ∀ i ∈ l.retired, i < 80) (hn : l.table.length + l.retired.length ≤ 80) : l.toldBy l.bodyWords := by
  obtain ⟨state, ⟨⟨names⟩, four⟩, serial, gen, table, retired⟩ := l
  match names, four with
  | [n0, n1, n2, n3], four =>
  simp only at he hr hn
  have words (i : Nat) : wordAt (Label.bodyWords ⟨state, ⟨⟨[n0, n1, n2, n3]⟩, four⟩, serial, gen, table, retired⟩) (9 + i)
      = wordAt (table.flatMap SubEntry.words ++ retired.map wordOf) i := by
    rw [← wordAt_drop]; rfl
  have lengths : (wordOf table.length).toNat = table.length ∧ (wordOf retired.length).toNat = retired.length :=
    ⟨toNat_wordOf (by omega), toNat_wordOf (by omega)⟩
  refine ⟨?_, by cases state <;> rfl, ?_, rfl, rfl, lengths.1, lengths.2, ?_, ?_⟩
  · show (([wordOf state.code] ++ [n0, n1, n2, n3] ++ [serial, gen, wordOf table.length, wordOf retired.length])
      ++ table.flatMap SubEntry.words ++ retired.map wordOf).length = 9 + 2 * table.length + retired.length
    rw [List.length_append, List.length_append, length_flatMap_words, List.length_map]
    rfl
  · intro i; fin_cases i <;> rfl
  · intro i e hi
    obtain ⟨hc, hh, hs, hj⟩ := he e (List.mem_of_getElem? hi)
    have w0 := wordAt_flatMap SubEntry.words (retired.map wordOf) (show 0 < 2 by decide) table i (fun _ _ => rfl) hi
    have w1 := wordAt_flatMap SubEntry.words (retired.map wordOf) (show 1 < 2 by decide) table i (fun _ _ => rfl) hi
    have back := SubEntry.ofWords_words hc hh hs hj
    dsimp only
    rw [show 10 + 2 * i = 9 + (2 * i + 1) by omega, words, words, w1, ← Nat.add_zero (2 * i), w0]
    obtain ⟨⟨c, h, s⟩, j⟩ := e
    simp only [SubEntry.ofWords, SubEntry.mk.injEq, Addr.mk.injEq] at back
    obtain ⟨⟨b0, b1, b2⟩, b3⟩ := back
    exact ⟨b0, b1, b2, b3⟩
  · intro i r hi
    have := hr r (List.mem_of_getElem? hi)
    show (wordAt _ (9 + 2 * table.length + i)).toNat = r
    rw [Nat.add_assoc, words, wordAt, List.getD_eq_getElem?_getD,
      List.getElem?_append_right (by rw [length_flatMap_words]; omega), length_flatMap_words, Nat.add_sub_cancel_left,
      List.getElem?_map, hi]
    exact toNat_wordOf (by omega)

/-! ### The answer -/

/-- A sound packet whose order is carried out at once: its slot is DONE, what its kind does is done, and it is
answered ACCEPTED (R55, R57). -/
theorem orderPacket_answered (o : OrderRule) (fields : List Word) (after : State → State) {u : State}
    {body : List Word}
    (hk : s.slotFor p tag k) (hc : s.completes p (fields.length + 3) = true) (hu : field w1 15 8 ≤ 1)
    (hd : field w1 7 0 ≤ 1) (hs : o.shape (packetOf tag w1 w2 fields) = true)
    (ha : o.needsArm (packetOf tag w1 w2 fields) = false ∨ (s.ports.get p).armed = true)
    (hw : o.own s p (packetOf tag w1 w2 fields) = none)
    (he : o.accept (s.disarm p) p (packetOf tag w1 w2 fields) = after (u.answerNow p o.kind tag body))
    (hq : u.queues = s.queues) (ht : u.tick = s.tick) :
    (.next (s.orderPacket p o tag (w1 :: w2 :: fields)) : Host.Outcome State Fault Refusal) = .next ((after (u.slotAnswered p k
      { Slot.entered o.kind tag s.tick with state := .done, outcome := some .done, body := body })).acceptedWith p) := by
  rw [orderPacket_accepted hc hu hd hs (.inr ⟨k, hk⟩) ha hw, he, answerNow_at (slotFor_congr hq hk), ht]
  rfl

theorem named_eq (m : MapUnit) {a : Word} (h : a.toNat ≤ 3) :
    m.named a.toNat = if a = 0 then m.active else if a = 1 then m.plan1 else if a = 2 then m.plan2 else .fixed := by
  have eq (n : Nat) : a.toNat = n → a = BitVec.ofNat 16 n := fun e => by
    rw [← e, BitVec.ofNat_toNat, BitVec.setWidth_eq]
  match hn : a.toNat, h with
  | 0, _ => rw [eq 0 hn]; rfl
  | 1, _ => rw [eq 1 hn]; rfl
  | 2, _ => rw [eq 2 hn]; rfl
  | 3, _ => rw [eq 3 hn]; rfl

/-- The interval is clamped to its range and cut to a step of 50 (R159). -/
theorem clampInterval_eq (ms : Nat) : clampInterval ms
    = if ms = 0 then 0 else if ms < 50 then 50 else if 5000 < ms then 5000 else ms - ms % 50 := by
  unfold clampInterval
  have := Nat.div_add_mod ms 50
  rw [show ms / 50 * 50 = ms - ms % 50 by omega]

theorem toNat_eq_one {b : Word} : b.toNat = 1 ↔ b = 1 :=
  ⟨fun h => BitVec.eq_of_toNat_eq h, fun h => by rw [h]; rfl⟩

theorem mapMode_ofCode (n : Nat) : MapMode.ofCode n = [MapMode.direct, .lineStrobe, .orderStrobe][n]? := by
  rcases n with _ | _ | _ | n <;> rfl

theorem source_ofCode (n : Nat) : Source.ofCode n = sourcesByNumber[n]? := by
  rcases n with _ | _ | _ | _ | _ | _ | _ | n <;> rfl

theorem get_ofWord {a : Word} {i : Nat} {x : Source} (h : sourcesByNumber[i]? = some x) :
    (SourceSet.ofWord a).get x = a.getLsbD i := by
  rw [← source_ofCode] at h
  unfold Source.ofCode at h
  split at h <;> cases h <;> rfl

/-- The flags that CLEAR ALARMS leaves latched and acknowledged, from the conditions as they stand (R165). -/
def State.clearedAlarms (s : State) (clear : SourceSet) (ack : Bool) : Alarms :=
  ((s.clearFlags clear).acknowledgeIf ack).alarms

theorem condition_disarm : (s.disarm p).condition = s.condition := by
  funext i; cases i <;> cases p <;> rfl

theorem clearFlags_disarm (clear : SourceSet) (ack : Bool) : ((s.disarm p).clearFlags clear).acknowledgeIf ack
    = { s.disarm p with alarms := s.clearedAlarms clear ack } := by
  unfold State.clearedAlarms State.clearFlags State.acknowledgeIf
  rw [condition_disarm]
  cases ack <;> rfl

theorem clearedAlarms_latched (clear : SourceSet) (ack : Bool) (i : Source) :
    (s.clearedAlarms clear ack).latched.get i = (s.alarms.latched.get i && !(clear.get i && !s.condition i)) := by
  unfold State.clearedAlarms State.clearFlags State.acknowledgeIf
  cases ack <;> exact get_of _ i

/-- What is latched still is acknowledged where the order says so, with what was acknowledged and is not cleared. -/
theorem clearedAlarms_acked (clear : SourceSet) (ack : Bool) (i : Source) :
    (s.clearedAlarms clear ack).acked.get i
      = if ack then (s.clearedAlarms clear ack).latched.get i || (s.alarms.acked.get i && !(clear.get i && !s.condition i))
        else s.alarms.acked.get i && !(clear.get i && !s.condition i) := by
  rw [clearedAlarms_latched]
  cases ack with
  | false => exact get_of _ i
  | true =>
    refine (get_of _ i).trans ?_
    show ((SourceSet.of _).get i || (SourceSet.of _).get i) = _
    rw [get_of, get_of, Bool.or_comm]
    rfl

/-- Settles O26: each immediate order passes its checks and is answered with its effect on the controller's items. -/
theorem immediateOrdersAreAnswered : Obligations.ImmediateOrdersAreAnswered := by
  intro s p tag w1 w2 a b c k hk hu hd u
  refine ⟨fun i x => get_ofWord, ?_⟩
  intro done
  refine ⟨fun hc ha => ?_, fun mode hc harm hm hb => ?_, fun hc => ?_, fun src hc hb hsrc => ?_, fun hc hb => ?_,
    fun hc => ⟨?_, ?_, ?_, ?_⟩⟩
  · intro m body
    refine ⟨?_, ?_, ?_⟩
    · rw [show body = (s.map.named a.toNat).toList.flatMap PlanEntry.words by rw [named_eq _ ha]]
      exact orderPacket_answered readPlanRule [a] id hk hc hu hd (decide_eq_true ha) (.inl rfl) rfl
        rfl rfl rfl
    · exact (length_flatMap_const PlanEntry.words (c := 3) _ fun _ _ => rfl).trans (by rw [Vector.length_toList])
    · intro i e hi hf hl
      have block (j : Nat) (hj : j < 3) := wordAt_flatMap PlanEntry.words [] hj m.toList i (fun _ _ => rfl) hi
      simp only [List.append_nil] at block
      rw [show 3 * i = 3 * i + 0 from rfl, block 0 (by decide), block 1 (by decide), block 2 (by decide)]
      exact PlanEntry.inWords_words hf hl
  · have code : MapMode.ofCode a.toNat = some mode := (mapMode_ofCode _).trans hm
    refine (orderPacket_answered setMapModeRule [a, b] id hk hc hu hd ?_ (.inr harm) rfl ?_ rfl rfl)
    · simp [setMapModeRule, packetOf, Packet.num, wordAt, code, hb]
    · simp [setMapModeRule, packetOf, Packet.num, wordAt, code, toNat_eq_one]; rfl
  · intro i
    refine (orderPacket_answered setSupervisionRule [a] id hk hc hu hd rfl (.inl rfl) rfl ?_ rfl
      rfl)
    rw [show i = clampInterval a.toNat from (clampInterval_eq _).symm]
    rfl
  · have code : Source.ofCode c.toNat = some src := (source_ofCode _).trans hsrc
    refine (orderPacket_answered setAlarmLineRule [a, b, c] State.judgeAlarm hk hc hu hd ?_ (.inl rfl)
      rfl ?_ rfl rfl)
    · simp [setAlarmLineRule, packetOf, Packet.num, wordAt, code, hb]
    · simp [setAlarmLineRule, packetOf, Packet.num, wordAt, code, toNat_eq_one]; rfl
  · refine ⟨s.clearedAlarms (SourceSet.ofWord a) (decide (b.toNat = 1)), clearedAlarms_latched _ _, fun i => ?_, ?_, ?_⟩
    · rw [clearedAlarms_acked]
      simp only [decide_eq_true_eq, toNat_eq_one]
    · unfold State.clearedAlarms State.acknowledgeIf
      cases decide (b.toNat = 1) <;> rfl
    · refine orderPacket_answered clearAlarmsRule [a, b] State.judgeAlarm hk hc hu hd (decide_eq_true hb) (.inl rfl) rfl
        ?_ rfl rfl
      exact congrArg (fun t : State => (t.answerNow p .clearAlarms tag []).judgeAlarm) (clearFlags_disarm _ _)
  · exact (orderPacket_answered captureStatisticsRule [] id hk hc hu hd rfl (.inl rfl) rfl rfl
      rfl rfl)
  · exact (orderPacket_answered readStatisticsRule [] id hk hc hu hd rfl (.inl rfl) rfl
      rfl rfl rfl)
  · exact (orderPacket_answered readLabelRule [] id hk hc hu hd rfl (.inl rfl) rfl
      rfl rfl rfl)
  · exact Label.toldBy_bodyWords

end Sys2Proof.Machine

/-! ## The label: the read-back of a written label, and the label read -/

namespace Sys2Proof.Machine

variable {s u : State} {p : Port} {k : Fin 8} {sl : Slot} {g : Progress} {q : Pass} {d : DataReading}

/-! ### A boundary with a result -/

/-- A maintenance order whose work has a result stops or ends with it at its boundary, and what it leaves does not
depend on its progress record (R142). -/
theorem maintThen_result_progress {pos : Nat} {go : State × Agenda} {r : Result} {o : Host.Outcome State Fault Refusal}
    {x : State} {progress : Option Progress} (hx : x = { s with progress := progress }) (hs : s.serviceLaw)
    (h : s.inService = some (p, k, sl)) (hl : x.labelOpen = false)
    (ho : o = State.answers (x.maintThen p k pos (some r) go)) (hk : sl.kind ≠ .read) (hr : r.ending ≠ .readFault) :
    s.stops p k sl o ∧ (sl.withdrawn = false ∧ (s.ports.get p).presence ≠ .lost →
      s.ends p k { sl with sectorsDone := r.sectors.getD sl.sectorsDone, body := r.body.getD sl.body } r.ending r.fault
        o) := by
  have base : x = { s.modSlot p k (fun _ => sl) with progress := x.progress, pass := x.pass } := by
    rw [modSlot_self (inService_some h).1, hx]
  obtain ⟨stops, ends⟩ := maintThen_result (s := x) (by subst hx; exact hs) (by subst hx; exact h) hl ho hk hr
  exact ⟨stops_base base stops, fun free => ends_base base (ends free.1 (by rw [hx]; exact free.2))⟩

/-! ### The label an ASSIGN SPARE makes (R10, R147, R148) -/

/-- Of entries in ascending order at most one is for an address, and its spare is the one looked up. -/
theorem lookupSpare_of_mem {t : List SubEntry} (ht : t.Pairwise fun e f => e.bad.linear < f.bad.linear) {e : SubEntry}
    (he : e ∈ t) : lookupSpare t e.bad = some e.spare := by
  induction t with
  | nil => cases he
  | cons f t ih =>
    obtain ⟨first, rest⟩ := List.pairwise_cons.mp ht
    unfold lookupSpare at ih ⊢
    rcases List.mem_cons.mp he with rfl | he
    · simp
    · have : f.bad ≠ e.bad := fun h => by have := first e he; rw [h] at this; omega
      rw [List.find?_cons_of_neg (by simpa using this)]
      exact ih rest he

theorem labelToBe_assign {x : Addr} {c : AssignCase} {i : Option Nat} {r : AssignWrite} (hp : sl.params = .assign x)
    (hm : sl.maint = .assign c i r) (l : Label) : sl.labelToBe l = { l with
      state := .valid, gen := if l.gen = 65535 then 1 else l.gen + 1,
      table := (assignChange l x c (i.getD 0)).1, retired := (assignChange l x c (i.getD 0)).2 } := by
  unfold Slot.labelToBe; rw [hp, hm]; rfl

/-! ### The read-back (R145) -/

/-- With no pass under way and the stage not that of the read-back, no label write awaits its verdict. -/
theorem labelOpen_stage (hp : s.pass = none) {st : Stage} (hst : st ≠ .readBack) (next : Nat) (dest : Option Nat)
    (failed : Nat) : ({ s with progress := some ⟨next, dest, failed, st⟩ } : State).labelOpen = false := by
  unfold State.labelOpen; dsimp only; rw [hp]; simpa using hst

theorem toStage_eq (h : s.progress = some g) (st : Stage) :
    s.toStage st = { s with progress := some { g with stage := st, failed := 0 } } := by
  unfold State.toStage; rw [h]; rfl

theorem loseLabel_progress (s : State) (x : Option Progress) (st : LabelState) :
    ({ s with progress := x } : State).loseLabel st = { s.loseLabel st with progress := x } := by
  unfold State.loseLabel; dsimp only; split <;> rfl

section
variable (hs : s.serviceLaw) (hp : s.pass = none) (hi : s.inService = some (p, k, sl)) (hg : s.progress = some g)
  (hk : sl.kind ≠ .read) {o : Host.Outcome State Fault Refusal} (ho : o = State.answers (s.endReadBack p k sl q d))
include hs hp hi hg hk ho

/-- A good read-back makes the label; then the order stops, or ends DONE with one sector. -/
theorem endReadBack_good (good : q.verdict = .matching ∧ d.passes s.disk q.addr = true) :
    ({ s with label := sl.labelToBe s.label } : State).stops p k sl o
      ∧ (sl.withdrawn = false ∧ (s.ports.get p).presence ≠ .lost →
        ({ s with label := sl.labelToBe s.label } : State).ends p k { sl with sectorsDone := 1 } .done none o) := by
  unfold State.endReadBack at ho
  rw [if_pos good, toStage_eq hg] at ho
  dsimp only [State.setLabel] at ho
  generalize hl : sl.labelToBe s.label = l at ho ⊢
  have closed := labelOpen_stage (s := { s with label := l }) hp (st := .labelWrite) (by simp) g.next g.dest 0
  have done_or_stops := maintThen_result_progress (s := { s with label := l }) rfl hs hi closed ho hk (by simp)
  exact done_or_stops

/-- Any other read-back leaves the label DAMAGED; then the order stops, or ends WRITE FAULT. -/
theorem endReadBack_bad (bad : ¬(q.verdict = .matching ∧ d.passes s.disk q.addr = true)) :
    (s.loseLabel .damaged).stops p k sl o
      ∧ (sl.withdrawn = false ∧ (s.ports.get p).presence ≠ .lost →
        (s.loseLabel .damaged).ends p k sl .writeFault (some labelAddr) o) := by
  unfold State.endReadBack at ho
  rw [if_neg bad, toStage_eq hg] at ho
  dsimp only at ho
  rw [loseLabel_progress] at ho
  have same : (s.loseLabel .damaged).pass = s.pass ∧ (s.loseLabel .damaged).ports = s.ports := by
    unfold State.loseLabel; split <;> exact ⟨rfl, rfl⟩
  have closed := labelOpen_stage (same.1.trans hp) (st := .labelWrite) (by simp) g.next g.dest 0
  obtain ⟨stops, ends⟩ := maintThen_result_progress rfl (serviceLaw_of_queues hs loseLabel_queues)
    ((inService_of_queues loseLabel_queues).trans hi) closed ho hk (by simp)
  exact ⟨stops, fun free => ends ⟨free.1, by rw [same.2]; exact free.2⟩⟩

end

/-- Settles O48: the held label is what the order was to make of it, by the case of its assignment. -/
theorem theReadBackDecidesTheLabel : Obligations.TheReadBackDecidesTheLabel := by
  intro s u p k sl g q d hs hp hi hg hq hk hu o good free held
  have ho : o = State.answers (u.endReadBack p k sl q d) := (passEnd_maint hp hu hi hg d).2.2.2.1 hq
  have hr : sl.kind ≠ .read := by rcases hk with h | h <;> rw [h] <;> simp
  have makes (hgood : good) {l : Label} (hl : sl.labelToBe s.label = l) : held l := by
    subst hu hl
    exact ⟨rfl, endReadBack_good (s := { s with pass := none }) hs rfl hi hg hr ho hgood⟩
  refine ⟨fun name serial hp hgood => makes hgood ?_, fun x c i r hp hm hgood ht hret => ?_, fun hbad => ?_⟩
  · unfold Slot.labelToBe; rw [hp]; rfl
  · intro j made retires
    have assigns {t : List SubEntry} {ret : List Nat} (h : assignChange s.label x c (i.getD 0) = (t, ret)) : made t ret :=
      makes hgood (by rw [labelToBe_assign hp hm, h])
    have retiring {t : List SubEntry} {n : Nat}
        (h : assignChange s.label x c (i.getD 0) = (t, insertRetired n s.label.retired)) : retires t n :=
      ⟨_, assigns h, insertRetired_spec _ n hret⟩
    refine ⟨fun n hc hn hfree => ?_, fun n e hc hn he hx => ?_, fun n hc hn => ?_, fun hc => ?_⟩
    · subst hc hn
      exact ⟨_, assigns rfl, insertEntry_spec s.label.table ⟨x, n⟩ ht hfree⟩
    · subst hc hn hx
      exact retiring (by simp only [assignChange, lookupSpare_of_mem ht he, Option.getD_some])
    · subst hc hn; exact retiring rfl
    · subst hc; exact retiring rfl
  · subst hu
    intro x
    have hx : State.loseLabel { s with pass := none } .damaged = x := by
      unfold State.loseLabel; dsimp only
      by_cases hv : s.label.state = LabelState.valid ∧ s.drive.state.serving = true
      · rw [if_pos hv]; exact congrArg (fun y => ({ x with alarms := y } : State)) (if_pos hv).symm
      · rw [if_neg hv]; exact congrArg (fun y => ({ x with alarms := y } : State)) (if_neg hv).symm
    rw [← hx]
    exact endReadBack_bad (s := { s with pass := none }) hs rfl hi hg hr ho hbad

end Sys2Proof.Machine

/-! ## The label read (R7, R95, R101, R133) -/

namespace Sys2Proof.Machine

variable {s u : State} {q : Pass} {d : DataReading}

/-! ### The index in LABEL READ -/

/-- What an index measures leaves the positioning. -/
theorem measure_atIndex (x : Positioner) (now : Tick) :
    (x.measure now).atIndex.activity = x.activity ∧ (x.measure now).atIndex.arrivalTick = x.arrivalTick := by
  unfold Positioner.measure Positioner.atIndex Positioner.judgeRevolution
  cases x.closes now with
  | none => exact ⟨rfl, rfl⟩
  | some len => dsimp only; split <;> exact ⟨rfl, rfl⟩

theorem verdictChanged_labelRead (h : s.drive.state = .labelRead) : s.verdictChanged = s := by
  unfold State.verdictChanged
  rw [if_neg (by rw [h]; simp)]
  unfold State.setReasons
  rw [if_neg (by rw [h]; simp [DriveState.serving])]
  exact if_pos rfl

/-- In LABEL READ an index changes the position, the speed monitor and the counts alone. -/
theorem indexWatch_labelRead (h : s.drive.state = .labelRead) :
    s.indexWatch = { s with pos := (s.pos.measure s.tick).atIndex, banks := s.indexWatch.banks } := by
  have counted : (if s.countsRevolution then s.countBoth .outOfBand else s)
      = { s with banks := (if s.countsRevolution then s.countBoth .outOfBand else s).banks } := by split <;> rfl
  unfold State.indexWatch
  dsimp only
  rw [counted]
  generalize (if s.countsRevolution then s.countBoth .outOfBand else s).banks = banks
  rw [verdictChanged_labelRead (by exact h), ite_self, if_neg (by show s.drive.state ≠ _; rw [h]; simp)]
  rfl

theorem mayTake_of (hp : s.pass = none) (ha : s.pos.activity = .arrived ∨ s.pos.activity = .confirmed)
    (ht : 0 < (s.tick - s.pos.arrivalTick).toInt) : s.mayTake = true := by
  unfold State.mayTake
  rw [hp, decide_eq_true ha, decide_eq_true (show 0 < signedDiff s.tick s.pos.arrivalTick from ht)]
  rfl

/-- A pulse in LABEL READ leaves all but the position and the counts, and only sector 0 begins a pass (R7, R95). -/
theorem begins_labelRead {n : Nat} {h : HeaderReading} {c : Instr} (hd : s.drive.state = .labelRead) (ht : s.onTarget)
    (hi : s.inService = none) (hb : s.begins u n h c) :
    u = { s with pos := u.pos, banks := u.banks }
      ∧ exec c s = State.answers (if n = 0 then u.startLabelRead h else (u, .idle)) := by
  obtain ⟨hp, ha, hk⟩ := ht
  rcases hb with ⟨rfl, rfl, -, rfl⟩ | ⟨rfl, rfl, hv, hsc, rfl⟩
  · have hw := indexWatch_labelRead hd
    obtain ⟨same, arrival⟩ := measure_atIndex s.pos s.tick
    show s.indexWatch = _ ∧ Host.Outcome.next (State.close (State.sectorStart (State.settled s.indexWatch.testIndex) 0 h)) = _
    generalize s.indexWatch = w at hw ⊢
    have untested : w.testIndex = (w, .idle) := by
      unfold State.testIndex
      rw [show w.inService = none from (inService_of_queues (by rw [hw])).trans hi]
    have may : w.mayTake = true := by
      rw [hw]; exact mayTake_of hp (by rw [same]; exact ha) (by rw [arrival]; exact hk)
    refine ⟨by rw [hw], ?_⟩
    rw [untested]
    show Host.Outcome.next (State.close (w.sectorStart 0 h)) = _
    unfold State.sectorStart
    rw [if_neg (by rw [may]; simp), if_pos (by rw [hw]; exact hd)]
    rfl
  · refine ⟨rfl, ?_⟩
    show Host.Outcome.next (if s.pos.valid = false then s else if s.pos.sc < 19 then _ else _) = _
    rw [if_neg (by rw [hv]; simp), if_pos hsc]
    unfold State.sectorStart
    have may := mayTake_of (s := s.onPos fun x => { x with sc := x.sc + 1, t := 0 }) hp ha hk
    rw [if_neg (by rw [may]; simp), if_pos (by exact hd)]
    rfl

/-! ### The end of the label read -/

/-- The drive is served once its label is judged: READY, or DEGRADED with its reasons (R133, R134). -/
theorem finishLabelRead_eq (hd : s.drive.state = .labelRead) (l : Label) :
    let degraded : Bool := !s.pos.inBand || !s.lines.supply
    let v : State := { s with
      label := l, pos := { s.pos with activity := .idle, target := none, errors := 0 },
      drive := { s.drive with
        state := if degraded then .degraded else .ready, speed := !s.pos.inBand, supply := !s.lines.supply,
        labelFails := 0 } }
    let w := if degraded then v.latch .driveDegraded else v
    s.finishLabelRead l = if l.state = .valid then w else w.latch .labelNotValid := by
  intro degraded v w
  unfold State.finishLabelRead
  dsimp only
  have weighed : (((s.setLabel l).onPos fun x => { x with activity := .idle, target := none, errors := 0 }).onDrive
      fun d => { d with speed := !s.pos.inBand, supply := !s.lines.supply, labelFails := 0 }).weighReasons = w := by
    unfold State.weighReasons
    show (if degraded = true then if s.drive.state = .degraded then _ else _ else _) = _
    rw [hd]
    cases hdeg : degraded <;> simp only [w, v, hdeg] <;> rfl
  rw [weighed]

/-- Settles O49: only sector 0 begins a pass of the label read, whose end serves the drive or tries again. -/
theorem theLabelReadMakesTheDriveReady : Obligations.TheLabelReadMakesTheDriveReady := by
  intro s hd
  refine ⟨fun u n h c hs hq ht hi hb => ?_, fun q d hp hk => ?_⟩
  · obtain ⟨hu, ho⟩ := begins_labelRead hd ht hi hb
    refine ⟨fun hn => by rw [ho, if_neg hn]; rfl, fun hn => ?_⟩
    rw [if_pos hn] at ho
    have queues : (if 0 < s.drive.labelFails then u.countBoth .reReads else u).queues = s.queues := by
      rw [hu]; split <;> rfl
    have disk : (if 0 < s.drive.labelFails then u.countBoth .reReads else u).disk = u.disk := by split <;> rfl
    have fails : u.drive.labelFails = s.drive.labelFails := by rw [hu]
    refine reads_of (serviceLaw_of_queues hs queues) (fun p => (Listed.of hq p).congr (by rw [queues])) (ho.trans ?_)
    unfold State.startLabelRead
    rw [disk, fails]
    rfl
  · intro good degraded served
    have ho : exec (.sectorPassEnd d) s = State.answers (({ s with pass := none } : State).endLabelRead q d) := by
      show Host.Outcome.next (State.close (s.passEnd d)) = _
      unfold State.passEnd
      rw [hp]; dsimp only; rw [hk]; rfl
    unfold State.endLabelRead at ho
    have serves (l : Label)
        (h : exec (.sectorPassEnd d) s = State.answers (State.finishLabelRead { s with pass := none } l, .select)) :
        served l := by
      refine ⟨_, _, rfl, rfl, h.trans ?_⟩
      rw [finishLabelRead_eq (by exact hd)]
      rfl
    refine ⟨fun hg => serves _ ?_, fun hb hf => serves _ ?_, fun hb hf => ?_⟩
    · rw [if_pos (by exact hg)] at ho; exact ho
    · rw [if_neg (by exact hb), if_pos (by show 5 ≤ s.drive.labelFails + 1; omega)] at ho; exact ho
    · rw [if_neg (by exact hb), if_neg (by show ¬ 5 ≤ s.drive.labelFails + 1; omega)] at ho; exact ho

end Sys2Proof.Machine

/-! ## Good passes of data orders (R111, R113, R118, R121) -/

namespace Sys2Proof.Machine

variable {s x m : State} {p : Port} {k : Fin 8} {sl : Slot} {g : Progress} {q : Pass} {d : DataReading}

/-- The record of a data order with one sector more done (R113, R118). -/
def Slot.oneMore (sl : Slot) : Slot := { sl with sectorsDone := sl.sectorsDone + 1, consSlips := 0 }

/-- The progress record at the sector after the one just done. -/
def Progress.oneMore (g : Progress) : Progress := { g with next := g.next + 1, failed := 0 }

/-- A sector done is counted in the record of its order and in the progress record. -/
theorem sectorDone_eq (h : s.slot p k = some sl) :
    s.sectorDone p k g = ({ s with progress := some g.oneMore } : State).modSlot p k fun _ => sl.oneMore := by
  have moved := mod_eq h (f := Slot.oneMore) (f' := fun _ => sl.oneMore) rfl
  exact congrArg (fun t : State => { t with progress := some g.oneMore }) moved

/-- While a sector is left to be written no verify pass begins (R121). -/
theorem beginVerify_early (h : s.slot p k = some sl) (hg : s.progress = some g) (hn : g.next < sl.n) :
    s.beginVerify p k = s := by
  unfold State.beginVerify
  rw [h, hg]
  exact if_neg fun hv => by omega

/-! ### What a good pass leaves to its boundary -/

section
variable (h : s.slot p k = some sl) (good : q.verdict = .matching ∧ d.passes s.disk q.addr = true)
include h good

theorem endDataPass_read {b : Fin 4} (hk : q.kind = .read b) : s.endDataPass p k sl g q d =
    (((({ (if sl.withdrawn then s else s.putBuffer b ⟨.fullForHost, some (p, k), g.next, d.words s.disk q.addr⟩) with
      progress := some g.oneMore } : State).modSlot p k fun _ => sl.oneMore).count p .sectorsRead).dataBoundary p k
        (endPosition q.addr.sector) none true) := by
  unfold State.endDataPass
  rw [hk]
  dsimp only
  rw [if_pos (by simpa using good)]
  have slot : (if sl.withdrawn then s else s.putBuffer b ⟨.fullForHost, some (p, k), g.next, d.words s.disk q.addr⟩).slot
      p k = some sl := by split <;> exact h
  rw [sectorDone_eq slot]

theorem endDataPass_check (hk : q.kind = .check) : s.endDataPass p k sl g q d =
    ((({ s with progress := some g.oneMore } : State).modSlot p k fun _ => sl.oneMore).count p .sectorsRead).dataBoundary
      p k (endPosition q.addr.sector) none true := by
  unfold State.endDataPass
  rw [hk]
  dsimp only
  rw [if_pos (by simpa using good), sectorDone_eq h]

end

theorem endDataPass_verify (good : q.verdict = .matching ∧ d.passes s.disk q.addr = true) (hk : q.kind = .verify) :
    s.endDataPass p k sl g q d =
      ({ s with progress := some { g with next := g.next + 1 } } : State).dataBoundary p k (endPosition q.addr.sector) none
        true := by
  unfold State.endDataPass
  rw [hk]
  dsimp only
  rw [if_pos (by simpa using good)]

theorem endDataPass_write (h : s.slot p k = some sl) (hm : q.verdict = .matching) {b : Fin 4} (hk : q.kind = .write b)
    (hn : g.next + 1 < sl.n) : s.endDataPass p k sl g q d =
    ((({ (s.writeData q.addr q.words).putBuffer b .empty with
      progress := some g.oneMore } : State).modSlot p k fun _ => sl.oneMore).count p .sectorsWritten).testRequests.dataBoundary
        p k (endPosition q.addr.sector) none true := by
  unfold State.endDataPass
  rw [hk]
  dsimp only
  rw [if_pos hm, sectorDone_eq (s := (s.writeData q.addr q.words).putBuffer b .empty) (sl := sl) h,
    beginVerify_early (sl := sl.oneMore) (g := g.oneMore)]
  · rw [slot_testRequests]
    show (State.modSlot _ p k fun _ => sl.oneMore).slot p k = _
    rw [slot_modSlot_same]
    show (s.slot p k).map _ = _
    rw [h]; rfl
  · rw [testRequests_progress]; rfl
  · exact hn

/-! ### Its boundary -/

/-- At the boundary of an order whose record has changed, the order with the new record stops, ends or goes on. -/
theorem boundary_goes_changed {y : Slot} {pos : Nat} {o : Host.Outcome State Fault Refusal} (hs : s.serviceLaw)
    (hi : s.inService = some (p, k, sl)) (hd : y.kind = .read ∨ y.kind = .write ∨ y.kind = .check)
    (hy : y.state = sl.state) (hm : m.queues = (s.modSlot p k fun _ => y).queues) (hg : m.progress = some g)
    (ho : o = State.answers (m.dataBoundary p k pos none true)) :
    m.atBoundary p k y pos g.next o (m.goesOn p k y g.next o) := by
  obtain ⟨law, service⟩ := modSlot_service (u := s) (f := fun _ => y) hs hi rfl (hy.trans (inService_some hi).2)
  exact boundary_goes (serviceLaw_of_queues law hm) ((inService_of_queues hm).trans service) hg hd ho

/-- Settles O44: what each kind of good pass leaves meets its boundary with one sector more done. -/
theorem aGoodPassGoesOnToTheNextSector : Obligations.AGoodPassGoesOnToTheNextSector := by
  intro s p k sl g q d hs hp hi hg hd hm hn o u sl' moved goesOn
  have slot : State.slot { s with pass := none } p k = some sl := (inService_some hi).1
  have ends (hk : (∃ b, q.kind = .read b) ∨ q.kind = .check ∨ (∃ b, q.kind = .write b) ∨ q.kind = .verify ∨ q.kind = .slip) :
      o = State.answers (State.endDataPass { s with pass := none } p k sl g q d) := passEnd_data hp hi hg d hk
  have goes {m : State} (hq : m.queues = (s.modSlot p k fun _ => sl').queues) (hg : m.progress = some g.oneMore)
      (ho : o = State.answers (m.dataBoundary p k (endPosition q.addr.sector) none true)) : goesOn m sl' :=
    boundary_goes_changed (y := sl') hs hi hd rfl hq hg ho
  refine ⟨fun b hk hpass => ?_, fun hk hpass => ?_, fun b hk => ?_, fun hk hpass => ?_⟩
  · have ho := ends (.inl ⟨b, hk⟩)
    rw [endDataPass_read slot ⟨hm, hpass⟩ hk] at ho
    by_cases hw : sl.withdrawn = true
    · rw [if_pos hw] at ho ⊢
      exact goes rfl rfl ho
    · rw [if_neg hw] at ho ⊢
      exact goes rfl rfl ho
  · have ho := ends (.inr (.inl hk))
    rw [endDataPass_check slot ⟨hm, hpass⟩ hk] at ho
    exact goes rfl rfl ho
  · have ho := ends (.inr (.inr (.inl ⟨b, hk⟩)))
    rw [endDataPass_write slot hm hk hn] at ho
    exact goes testRequests_queues (testRequests_progress _) ho
  · have ho := ends (.inr (.inr (.inr (.inl hk))))
    rw [endDataPass_verify (s := { s with pass := none }) ⟨hm, hpass⟩ hk] at ho
    exact boundary_goes (s := { s with pass := none, progress := some { g with next := g.next + 1 } }) hs hi rfl hd ho

end Sys2Proof.Machine

/-! ## Sector starts of the maintenance orders (R14, R42, R95, R142, R143, R145, R148, R151) -/

namespace Sys2Proof.Machine

variable {s u : State} {p : Port} {k : Fin 8} {sl : Slot} {g : Progress} {o : Host.Outcome State Fault Refusal}

theorem protectsFormat_iff (x : Guard) (c : Nat) : x.protectsFormat c = true ↔
    if c ≤ 383 then x.protectsData c = true else (c = 384 ∨ c = 386) ∧ x.freeze = true := by
  unfold Guard.protectsFormat
  split <;> simp

theorem formatBarred_iff : s.formatBarred p sl = true ↔ sl.kind = .formatTrack ∧ sl.startAddr.cyl ≤ 383
    ∧ s.map.active.rightOn p sl.startAddr.cyl ≠ .write := by
  unfold State.formatBarred State.grants
  cases s.map.active.rightOn p sl.startAddr.cyl <;> simp [Right.allows]

/-- A label formatted over, or not confirmed, is blank, and its alarm latches where a VALID one was served. -/
theorem loseLabel_eq (s : State) (st : LabelState) : s.loseLabel st = { s with
    label := ⟨st, Vector.replicate 4 0x2020, 0, 0, [], []⟩
    alarms := if s.label.state = .valid ∧ s.drive.state.serving = true then (s.latch .labelNotValid).alarms
      else s.alarms } := by
  unfold State.loseLabel
  split <;> rfl

/-- A sector of FORMAT TRACK begins, unless it is guarded, no longer granted or without the write supply. -/
theorem startFormat_spec (hs : s.serviceLaw) (hi : s.inService = some (p, k, sl))
    (ho : o = State.answers (s.startFormat p k sl)) {a : Addr} (ha : a = { sl.startAddr with sector := sl.sectorsDone })
    {guarded barred : Prop} (hg : s.guard.protectsFormat a.cyl = true ↔ guarded)
    (hb : s.formatBarred p sl = true ↔ barred) :
    (guarded → s.ends p k sl .guarded (some a) o) ∧ (¬guarded → barred → s.ends p k sl .mapChanged (some a) o)
      ∧ (¬guarded → ¬barred → s.lines.supply = false → s.ends p k sl .writeInhibited (some a) o)
      ∧ (¬guarded → ¬barred → s.lines.supply = true → o = .next (((if a = labelAddr then s.loseLabel .absent else s).setPass
          .format a .matching zeroData).judgeAlarm)) := by
  subst ha
  rw [← hg, ← hb]
  unfold State.startFormat at ho
  refine ⟨fun hg => ?_, fun hg hb => ?_, fun hg hb hl => ?_, fun hg hb hl => ?_⟩
  · exact endAtStart_spec hs hi (by simp) (by simp) (ho.trans (by rw [if_pos hg]))
  · exact endAtStart_spec hs hi (by simp) (by simp) (ho.trans (by rw [if_neg hg, if_pos hb]))
  · exact endAtStart_spec hs hi (by simp) (by simp) (ho.trans (by rw [if_neg hg, if_neg hb, if_pos hl]))
  · rw [ho, if_neg hg, if_neg hb, if_neg (by rw [hl]; simp)]
    rfl

/-- A write on a frozen cylinder begins, unless guard freeze or the write supply forbids it. -/
theorem startFrozen_spec (hs : s.serviceLaw) (hi : s.inService = some (p, k, sl)) (hl : ∀ q, Listed s q) {x : PassKind}
    {a : Addr} {ws : List Word} {h : HeaderReading} (ho : o = State.answers (s.startFrozen p k g x a ws h)) :
    (s.guard.freeze = true → s.ends p k sl .guarded (some a) o)
      ∧ (s.guard.freeze = false → s.lines.supply = false → s.ends p k sl .writeInhibited (some a) o)
      ∧ (s.guard.freeze = false → s.lines.supply = true → s.takes p k g x a ws h o) := by
  unfold State.startFrozen at ho
  refine ⟨fun hf => ?_, fun hf hw => ?_, fun hf hw => ?_⟩
  · exact endAtStart_spec hs hi (by simp) (by simp) (ho.trans (by rw [if_pos hf]))
  · exact endAtStart_spec hs hi (by simp) (by simp) (ho.trans (by rw [if_neg (by rw [hf]; simp), if_pos hw]))
  · exact takePass_spec hs hi hl (ho.trans (by rw [if_neg (by rw [hf]; simp), if_neg (by rw [hw]; simp)]))

/-- Every sector of a revolution of TEST TRACK begins, a written one with the write supply. -/
theorem startTest_spec (hs : s.serviceLaw) (hi : s.inService = some (p, k, sl)) {hd window n : Nat} {seed : Word}
    {first writing : Bool} (hp : sl.params = .test hd seed window first) {h : HeaderReading}
    (ho : o = State.answers (s.startTest p k sl n writing h)) :
    let a : Addr := { sl.startAddr with sector := n }
    let begins (x : PassKind) (ws : List Word) : Prop :=
      o = .next { s with pass := some ⟨x, a, h.verdict s.disk a, ws⟩ }.judgeAlarm
    (writing = false → begins .testRead [])
      ∧ (writing = true → s.lines.supply = true → begins .testWrite (patternSector seed n))
      ∧ (writing = true → s.lines.supply = false → s.ends p k sl .writeInhibited (some a) o) := by
  intro a begins
  unfold State.startTest at ho
  rw [hp] at ho
  dsimp only at ho
  refine ⟨fun hw => ?_, fun hw hl => ?_, fun hw hl => ?_⟩
  · rw [if_neg (by rw [hw]; simp)] at ho; exact ho
  · rw [if_pos hw, if_neg (by rw [hl]; simp)] at ho; exact ho
  · exact endAtStart_spec hs hi (by simp) (by simp) (ho.trans (by rw [if_pos hw, if_pos hl]))

/-! ### What each stage takes at a sector start -/

section
variable (n : Nat) (h : HeaderReading)

theorem startInService_format (hst : g.stage = .format) :
    s.startInService p k sl g n h = if sl.sectorsDone = n then s.startFormat p k sl else (s, .idle) := by
  unfold State.startInService; rw [hst]

theorem startInService_zeroing {c : AssignCase} {i : Nat} {r : AssignWrite} (hst : g.stage = .zeroing)
    (hm : sl.maint = .assign c (some i) r) : s.startInService p k sl g n h
      = if i % 20 = n then s.startFrozen p k g .zero (spareAddr i) zeroData h else (s, .idle) := by
  unfold State.startInService Slot.newSpare; rw [hst, hm]; rfl

theorem startInService_labelWrite (hst : g.stage = .labelWrite) : s.startInService p k sl g n h
      = if n = 0 then s.startFrozen p k g .labelWrite labelAddr (labelWords (sl.labelToBe s.label)) h else (s, .idle) := by
  unfold State.startInService; rw [hst]

theorem startInService_readBack (hst : g.stage = .readBack) :
    s.startInService p k sl g n h = if n = 0 then s.takePass p k g .readBack labelAddr [] h else (s, .idle) := by
  unfold State.startInService; rw [hst]

theorem startInService_testWaiting (hst : g.stage = .testWaiting) : s.startInService p k sl g n h = (s, .idle) := by
  unfold State.startInService; rw [hst]

theorem startInService_testReading (hst : g.stage = .testReading) :
    s.startInService p k sl g n h = s.startTest p k sl n false h := by
  unfold State.startInService; rw [hst]

theorem startInService_testWriting (hst : g.stage = .testWriting) :
    s.startInService p k sl g n h = s.startTest p k sl n true h := by
  unfold State.startInService; rw [hst]

end

/-- Where an order looks for its sector at another place, a sector start answers nothing more. -/
theorem answers_other {c : Prop} [Decidable c] {x : State × Agenda} (hc : ¬c)
    (ho : o = State.answers (if c then x else (s, .idle))) : o = .next s.judgeAlarm := by
  rw [if_neg hc] at ho; exact ho

/-- The pulse at which a sector begins leaves the order in service, the queues and what its checks look at, and has the
order take its sector (R94, R95). -/
theorem begins_starts {n : Nat} {h : HeaderReading} {c : Instr} (hs : s.serviceLaw) (hq : s.queueLaw)
    (hi : s.inService = some (p, k, sl)) (hg : s.progress = some g) (ht : s.onTarget) (hd : s.drive.state ≠ .labelRead)
    (hb : s.begins u n h c) :
    u = { s with pos := u.pos, drive := u.drive, alarms := u.alarms, banks := u.banks }
      ∧ u.serviceLaw ∧ u.inService = some (p, k, sl) ∧ (∀ q, Listed u q)
      ∧ (g.stage.isTest = false ∨ n ≠ 0 → exec c s = State.answers (u.startInService p k sl g n h)) := by
  obtain ⟨hu, activity, arrival, -, reading, start⟩ := begins_spec hi hg hb
  obtain ⟨hp, ha, hk⟩ := ht
  have queues : u.queues = s.queues := by rw [hu]
  have hi' : u.inService = some (p, k, sl) := (inService_of_queues queues).trans hi
  refine ⟨hu, serviceLaw_of_queues hs queues, hi', fun q => (Listed.of hq q).congr (by rw [queues]), fun hn => ?_⟩
  rw [start hn, sectorStart_spec hi' (by rw [hu]; exact hg) ⟨by rw [hu]; exact hp, by rw [activity]; exact ha, ?_⟩
    (mt reading.mp hd)]
  rw [arrival, hu]; exact hk

end Sys2Proof.Machine

/-! ## Pass ends of the maintenance orders (R142, R143, R145, R148, R151, R152) -/

namespace Sys2Proof.Machine

variable {s u : State} {p : Port} {k : Fin 8} {sl y : Slot} {g : Progress} {q : Pass} {d : DataReading}
  {o : Host.Outcome State Fault Refusal}

/-! ### A boundary after the record has changed -/

/-- A maintenance order with a changed record stops, or ends with its result. -/
theorem maintThen_result_changed {x : State} {pos : Nat} {go : State × Agenda} {r : Result} (hs : s.serviceLaw)
    (hi : s.inService = some (p, k, sl)) (hx : x.queues = (s.modSlot p k fun _ => y).queues) (hy : y.state = sl.state)
    (hl : x.labelOpen = false) (ho : o = State.answers (x.maintThen p k pos (some r) go)) (hk : y.kind ≠ .read)
    (hr : r.ending ≠ .readFault) :
    x.stops p k y o ∧ (y.withdrawn = false → (x.ports.get p).presence ≠ .lost →
      x.ends p k { y with sectorsDone := r.sectors.getD y.sectorsDone, body := r.body.getD y.body } r.ending r.fault o) := by
  obtain ⟨law, service⟩ := modSlot_service (u := s) (f := fun _ => y) hs hi rfl (hy.trans (inService_some hi).2)
  exact maintThen_result (serviceLaw_of_queues law hx) ((inService_of_queues hx).trans service) hl ho hk hr

/-- The same of a result that leaves the record's counts and its reply body. -/
theorem maintThen_ends_changed {x : State} {pos : Nat} {go : State × Agenda} {e : Ending} {fault : Option Addr}
    (hs : s.serviceLaw) (hi : s.inService = some (p, k, sl)) (hx : x.queues = (s.modSlot p k fun _ => y).queues)
    (hy : y.state = sl.state) (hl : x.labelOpen = false)
    (ho : o = State.answers (x.maintThen p k pos (some { ending := e, fault := fault }) go)) (hk : y.kind ≠ .read)
    (hr : e ≠ .readFault) :
    x.stops p k y o ∧ (y.withdrawn = false → (x.ports.get p).presence ≠ .lost → x.ends p k y e fault o) := by
  have ended := maintThen_result_changed hs hi hx hy hl ho hk hr
  exact ended

/-- A maintenance order with a changed record stops, ends, is set aside or goes on. -/
theorem maintThen_changed {x : State} {pos : Nat} {go : State × Agenda} {goes : Prop} (hs : s.serviceLaw)
    (hi : s.inService = some (p, k, sl)) (hx : x.queues = (s.modSlot p k fun _ => y).queues) (hy : y.state = sl.state)
    (hl : x.labelOpen = false) (ho : o = State.answers (x.maintThen p k pos none go)) (hgo : o = State.answers go → goes) :
    x.atMaintenance p k y pos o goes := by
  obtain ⟨law, service⟩ := modSlot_service (u := s) (f := fun _ => y) hs hi rfl (hy.trans (inService_some hi).2)
  exact maintThen_spec (serviceLaw_of_queues law hx) ((inService_of_queues hx).trans service) hl ho hgo

section
variable (hs : s.serviceLaw) (hi : s.inService = some (p, k, sl)) (hl : s.labelOpen = false)
include hs hi hl

/-- A formatted sector has its header and the pass's words, and the twentieth ends the order. -/
theorem endFormatPass_spec (hk : sl.kind ≠ .read) (ho : o = State.answers (s.endFormatPass p k sl q)) :
    let pos := endPosition q.addr.sector
    let y : Slot := { sl with sectorsDone := sl.sectorsDone + 1 }
    let x : State := (s.putSector q.addr (.formatted q.addr q.words)).modSlot p k fun _ => y
    (sl.sectorsDone < 19 → x.atMaintenance p k y pos o (o = .next x.judgeAlarm))
      ∧ (19 ≤ sl.sectorsDone → x.stops p k y o ∧ (sl.withdrawn = false → (s.ports.get p).presence ≠ .lost →
          x.ends p k y .done none o)) := by
  intro pos y x
  unfold State.endFormatPass at ho
  rw [mod_eq (s := s.putSector q.addr (.formatted q.addr q.words)) (inService_some hi).1 (f' := fun _ => y) rfl] at ho
  dsimp only at ho
  refine ⟨fun hn => ?_, fun hn => ?_⟩
  · rw [if_neg (by omega)] at ho
    exact maintThen_changed hs hi rfl rfl hl ho id
  · rw [if_pos (by omega)] at ho
    exact maintThen_ends_changed hs hi rfl rfl hl ho hk (by simp)

/-- A failed write pass of a maintenance order is tried again, the fifth ends it WRITE FAULT. -/
theorem failPass_spec {pos : Nat} (hk : sl.kind ≠ .read) (hg : s.progress = some g)
    (ho : o = State.answers ((s.failPass g .writeFault q.addr).1.maintThen p k pos (s.failPass g .writeFault q.addr).2
      ((s.failPass g .writeFault q.addr).1, .idle))) :
    let v : State := { s with progress := some { g with failed := g.failed + 1 } }
    (g.failed < 4 → v.atMaintenance p k sl pos o (o = .next v.judgeAlarm))
      ∧ (4 ≤ g.failed → v.stops p k sl o ∧ (sl.withdrawn = false → (s.ports.get p).presence ≠ .lost →
          v.ends p k sl .writeFault (some q.addr) o)) := by
  intro v
  have closed : v.labelOpen = false := by
    unfold State.labelOpen at hl ⊢; rw [hg] at hl; exact hl
  unfold State.failPass at ho
  dsimp only at ho
  refine ⟨fun hn => ?_, fun hn => ?_⟩
  · rw [if_neg (by omega)] at ho
    exact maintThen_spec (s := v) hs hi closed ho id
  · rw [if_pos (by omega)] at ho
    exact maintThen_ends_changed hs hi (congrArg State.queues (modSlot_self (inService_some hi).1)).symm rfl closed ho hk
      (by simp)

/-- A zeroed spare leads to the label (R148). -/
theorem endZeroPass_matching {c : AssignCase} {i : Option Nat} {reached : AssignWrite} (hg : s.progress = some g)
    (hm : sl.maint = .assign c i reached) (hv : q.verdict = .matching) (ho : o = State.answers (s.endZeroPass p k g q)) :
    let w : State := s.writeData q.addr q.words
    let x : State := { w.modSlot p k (fun _ => { sl with maint := .assign c i .labelWrite }) with
      progress := some { g with stage := .labelWrite, failed := 0 } }
    w.atMaintenance p k sl (endPosition q.addr.sector) o (o = State.answers (x.positioned labelAddr, x.follows 386)) := by
  intro w x
  have slot : w.slot p k = some sl := (inService_some hi).1
  unfold State.endZeroPass at ho
  rw [if_pos hv] at ho
  dsimp only at ho
  rw [toStage_eq (s := s.writeData q.addr q.words) hg, mod_eq (f' := fun _ => { sl with maint := .assign c i .labelWrite })
    (by exact slot) (by rw [hm]), goTo_eq] at ho
  exact maintThen_spec (s := w) hs hi hl ho id

end

/-- From a label write to its read-back's verdict nothing stops the order (R145). -/
theorem maintThen_open (hi : s.inService = some (p, k, sl)) (hl : s.labelOpen = true)
    (hk : sl.kind = .initializeLabel ∨ sl.kind = .assignSpare) (pos : Nat) (go : State × Agenda) :
    s.maintThen p k pos none go = go := by
  have slot := (inService_some hi).1
  have unbarred : s.formatBarred p sl = false := by
    unfold State.formatBarred; rcases hk with h | h <;> rw [h] <;> rfl
  have fixed : sl.suspendable = false := by
    unfold Slot.suspendable; rcases hk with h | h <;> rw [h]
  unfold State.maintThen State.maintBoundary
  rw [slot]
  dsimp only
  rw [if_neg (by rw [hl]; simp), if_neg (by rw [hl]; simp), if_neg (by rw [unbarred]; simp)]
  dsimp only
  rw [checkSuspension_kind slot fixed]

/-- A written label waits for its read-back, at whose verdict its boundary comes (R145). -/
theorem endLabelWritePass_matching (hi : s.inService = some (p, k, sl)) (hg : s.progress = some g)
    (hk : sl.kind = .initializeLabel ∨ sl.kind = .assignSpare) (hv : q.verdict = .matching)
    (ho : o = State.answers (s.endLabelWritePass p k g q)) :
    o = .next ({ s.writeData q.addr q.words with
      progress := some { g with stage := .readBack, failed := 0 } } : State).judgeAlarm := by
  unfold State.endLabelWritePass at ho
  rw [if_pos hv] at ho
  dsimp only at ho
  rw [toStage_eq (s := s.writeData q.addr q.words) hg] at ho
  rw [maintThen_open (by exact hi) rfl hk] at ho
  exact ho

theorem ne_read_of_label (hk : sl.kind = .initializeLabel ∨ sl.kind = .assignSpare) : sl.kind ≠ .read := by
  rcases hk with h | h <;> rw [h] <;> simp

/-! ### The revolutions of TEST TRACK (R150 to R152) -/

theorem endTestWrite_matching (h : s.slot p k = some sl) (hv : q.verdict = .matching) : s.endTestWrite p k q
    = (s.writeData q.addr q.words).modSlot p k fun _ => { sl with sectorsDone := sl.sectorsDone + 1 } := by
  unfold State.endTestWrite
  rw [if_pos hv, mod_eq (s := s.writeData q.addr q.words) (sl := sl) h
    (f' := fun _ => { sl with sectorsDone := sl.sectorsDone + 1 }) rfl]

theorem endTestWrite_fails (h : s.slot p k = some sl) {w : Bool} {r f m e : Nat} (hm : sl.maint = .test w r f m e)
    (hv : q.verdict ≠ .matching) :
    s.endTestWrite p k q = s.modSlot p k fun _ => { sl with maint := .test w r (f + 1) m e } := by
  unfold State.endTestWrite
  rw [if_neg hv, mod_eq h (f' := fun _ => { sl with maint := .test w r (f + 1) m e }) (by rw [hm])]

theorem length_patternWords : ∀ (n : Nat) (r : Word), (patternWords n r).length = n
  | 0, _ => rfl
  | n + 1, _ => congrArg (· + 1) (length_patternWords n _)

theorem length_patternSector (seed : Word) (n : Nat) : (patternSector seed n).length = 256 := length_patternWords 256 _

/-- The words of a sector that differ from its pattern. -/
def differingWords (ws : List Word) (seed : Word) (n : Nat) : List Nat :=
  (List.range 256).filter fun i => decide (wordAt ws i ≠ wordAt (patternSector seed n) i)

theorem compareWords_pattern {ws : List Word} (h : ws.length = 256) (seed : Word) (n : Nat) :
    compareWords 0 ws (patternSector seed n)
      = ((differingWords ws seed n).length, (differingWords ws seed n).head?) := by
  rw [compareWords_spec 0 ws _ (h.trans (length_patternSector seed n).symm), h]
  simp [differingWords, wordAt]

/-- The record of a TEST TRACK after a sector of a read revolution, by whether its header was read and its data check
failed (R151). -/
def Slot.testCounted (sl : Slot) (w : Bool) (r f m e : Nat) (read bad : Bool) (differing : List Nat) : Slot :=
  let words := if read then min (m + differing.length) 65535 else m
  let sectors := if read = false ∨ bad = true then min (e + 1) 65535 else e
  { sl with maint := .test w r f words sectors }

section
variable {hd window : Nat} {seed : Word} {first w : Bool} {r f m e : Nat}

/-- What a sector of a read revolution counts, and its stop record: cause 0 for a header not matched, 1 for a failing
data check and 2 for words that differ alone. -/
theorem testReadSector_eq (hp : sl.params = .test hd seed window first) (hm : sl.maint = .test w r f m e)
    {ws : List Word} {passes : Bool} (hw : ws.length = 256) :
    let differing := differingWords ws seed q.addr.sector
    let y := sl.testCounted w r f m e (decide (q.verdict = .matching)) (!passes) differing
    sl.testReadSector q ws passes =
      if q.verdict ≠ .matching then (y, some (stopWords (r + 1) q.addr.sector 0 none))
      else if passes = false then (y, some (stopWords (r + 1) q.addr.sector 1 differing.head?))
      else if differing ≠ [] then (y, some (stopWords (r + 1) q.addr.sector 2 differing.head?))
      else (y, none) := by
  intro differing y
  unfold Slot.testReadSector
  rw [hp, hm]
  dsimp only
  rw [compareWords_pattern hw]
  by_cases hv : q.verdict = .matching
  · have some_differ : 0 < differing.length ↔ differing ≠ [] := List.length_pos_iff
    simp only [hv, ne_eq, not_true_eq_false, if_false, y, Slot.testCounted, sat16]
    cases passes <;> simp [differing, some_differ, hp]
  · simp [hv, y, Slot.testCounted, sat16, hp]

/-- The word of a stop record that tells the first differing word, all ones where none is told (R152). -/
def firstDiffering : Option Nat → Word
  | some i => wordOf i
  | none => 0xFFFF

/-- The reply body of a TEST TRACK that stopped at its first failure (R152). -/
theorem testBody_stopWords (hy : y.params = .test hd seed window true) (hm : y.maint = .test w r f m e)
    (sec cause : Nat) (word : Option Nat) : y.testBody (stopWords (r + 1) sec cause word)
      = [1, if seed = 0 then 1 else seed, wordOf window, wordOf r, wordOf f, wordOf m, wordOf e, wordOf (r + 1), wordOf sec,
        wordOf cause, firstDiffering word] := by
  unfold Slot.testBody
  rw [hy, hm]
  cases word <;> rfl

end

/-- A sector of a read revolution that showed no failure is counted, and that is all (R151). -/
theorem endTestRead_passes (ho : o = State.answers (s.endTestRead p k sl q d))
    (hy : sl.testReadSector q (d.words s.disk q.addr) (d.passes s.disk q.addr) = (y, none)) :
    o = .next (s.modSlot p k fun _ => y).judgeAlarm := by
  unfold State.endTestRead at ho
  rw [hy] at ho
  exact ho

/-- One that showed a failure ends a TEST TRACK that stops at the first, with its stop record (R151, R152). -/
theorem endTestRead_stop {hd window : Nat} {seed : Word} {first w : Bool} {r f m e sec cause : Nat} {word : Option Nat}
    (hs : s.serviceLaw) (hi : s.inService = some (p, k, sl)) (hl : s.labelOpen = false) (hk : sl.kind ≠ .read)
    (hp : sl.params = .test hd seed window first) (hy : y = { sl with maint := .test w r f m e })
    (ho : o = State.answers (s.endTestRead p k sl q d))
    (hsec : sl.testReadSector q (d.words s.disk q.addr) (d.passes s.disk q.addr)
      = (y, some (stopWords (r + 1) sec cause word))) :
    (first = false → o = .next (s.modSlot p k fun _ => y).judgeAlarm)
      ∧ (first = true → (s.modSlot p k fun _ => y).stops p k y o
        ∧ (y.withdrawn = false → (s.ports.get p).presence ≠ .lost → (s.modSlot p k fun _ => y).ends p k { y with body :=
          [1, if seed = 0 then 1 else seed, wordOf window, wordOf r, wordOf f, wordOf m, wordOf e, wordOf (r + 1),
            wordOf sec, wordOf cause, firstDiffering word] } .done none o)) := by
  have stopsFirst : sl.stopsFirst = first := by unfold Slot.stopsFirst; rw [hp]
  have body (hf : first = true) := testBody_stopWords (y := y) (by rw [hy, ← hf]; exact hp) (by rw [hy]) sec cause word
  have state : y.state = sl.state := by rw [hy]
  have kind : y.kind ≠ .read := by rw [hy]; exact hk
  unfold State.endTestRead at ho
  rw [hsec] at ho
  dsimp only at ho
  rw [stopsFirst] at ho
  refine ⟨fun hf => ?_, fun hf => ?_⟩
  · rw [if_neg (by rw [hf]; simp)] at ho
    exact ho
  · rw [if_pos hf, body hf] at ho
    have ended := maintThen_result_changed hs hi rfl state hl ho kind (by simp)
    exact ended

end Sys2Proof.Machine

/-! ## The passes of the maintenance orders -/

namespace Sys2Proof.Machine

variable {s u : State} {p : Port} {k : Fin 8} {sl y : Slot} {g : Progress} {q : Pass} {d : DataReading}
  {o : Host.Outcome State Fault Refusal}

/-- Settles O47: each stage's sector start and pass end, from the rules of the stages. -/
theorem maintenancePassesWriteTheirSectors : Obligations.MaintenancePassesWriteTheirSectors := by
  intro s u p k sl g hs hq hi hg
  refine ⟨fun n h c ht hd hb => ?_, fun q d v hp hu hv hstage => ?_⟩
  · obtain ⟨hu, law, service, listed, start⟩ := begins_starts hs hq hi hg ht hd hb
    have guard : u.guard = s.guard := by rw [hu]
    have map : u.map = s.map := by rw [hu]
    have lines : u.lines = s.lines := by rw [hu]
    have disk : u.disk = s.disk := by rw [hu]
    clear hu hb
    intro o a ends frozen guarded barred cleared
    have frozen_of {x : PassKind} {b : Addr} {ws : List Word} (ho : o = State.answers (u.startFrozen p k g x b ws h)) :
        frozen b (u.takes p k g x b ws h o) := by
      have := startFrozen_spec law service listed ho
      rw [guard, lines] at this
      exact this
    have at_stage (hst : g.stage.isTest = false) : o = State.answers (u.startInService p k sl g n h) := start (.inl hst)
    refine ⟨fun hst => ?_, fun d i r hst hm => ?_, fun hst hn => ?_, fun hst hn => ?_, fun hst hn => ?_,
      fun hd seed window first hn hpar => ?_⟩
    · have ho := at_stage (by rw [hst]; rfl)
      rw [startInService_format n h hst] at ho
      refine ⟨fun hn => answers_other hn ho, fun hn => ?_⟩
      rw [if_pos hn] at ho
      subst hn
      have spec := startFormat_spec law service ho rfl (protectsFormat_iff u.guard _) formatBarred_iff
      rw [guard, lines, map, loseLabel_eq] at spec
      exact spec
    · have ho := at_stage (by rw [hst]; rfl)
      rw [startInService_zeroing n h hst hm] at ho
      refine ⟨fun hn => answers_other hn ho, fun hn => ?_⟩
      rw [if_pos hn] at ho
      subst hn
      exact frozen_of ho
    · rcases hst with hst | hst
      · have ho := at_stage (by rw [hst]; rfl)
        rw [startInService_labelWrite n h hst] at ho
        exact answers_other hn ho
      · have ho := at_stage (by rw [hst]; rfl)
        rw [startInService_readBack n h hst] at ho
        exact answers_other hn ho
    · have ho := at_stage (by rw [hst]; rfl)
      rw [startInService_labelWrite n h hst, if_pos hn] at ho
      exact frozen_of ho
    · have ho := at_stage (by rw [hst]; rfl)
      rw [startInService_readBack n h hst, if_pos hn] at ho
      exact takePass_spec law service listed ho
    · have ho : o = State.answers (u.startInService p k sl g n h) := start (.inr hn)
      rw [← disk, ← lines]
      intro begins
      refine ⟨fun hst => ?_, fun hst => ?_, fun hst => ?_⟩
      · rw [startInService_testWaiting n h hst] at ho
        exact ho
      · rw [startInService_testReading n h hst] at ho
        exact (startTest_spec law service hpar ho).1 rfl
      · rw [startInService_testWriting n h hst] at ho
        obtain ⟨-, writes, inhibited⟩ := startTest_spec law service hpar ho
        exact ⟨writes rfl, inhibited rfl⟩
  · have service : u.inService = some (p, k, sl) := by rw [hu]; exact hi
    have law : u.serviceLaw := by rw [hu]; exact hs
    have progress : u.progress = some g := by rw [hu]; exact hg
    have closed : u.labelOpen = false := by
      unfold State.labelOpen; rw [progress, hu]; simpa using hstage
    have disk : u.disk = s.disk := by rw [hu]
    have ports : u.ports = s.ports := by rw [hu]
    obtain ⟨formats, zeroes, writes, -, tests, reads⟩ := passEnd_maint hp hu hi hg d
    clear hu
    rw [← disk, ← ports]
    intro o pos ends goesOn fails written
    have fails_of (hk : sl.kind ≠ .read)
        (ho : o = State.answers ((u.failPass g .writeFault q.addr).1.maintThen p k pos (u.failPass g .writeFault q.addr).2
          ((u.failPass g .writeFault q.addr).1, .idle))) :
        (g.failed < 4 → goesOn v sl) ∧ (4 ≤ g.failed → ends v sl sl.body .writeFault (some q.addr)) := by
      rw [hv]
      exact failPass_spec law service closed hk progress ho
    refine ⟨fun hk hkind => ?_, fun hd seed window first w r f m e hpar hm => ⟨fun hk hver => ?_, fun hk hver => ?_,
      fun hk hkind hlen => ?_⟩, fun c i r hk hkind hm => ⟨fun hver => ?_, fun hver => ?_⟩,
      fun hk hkind => ⟨fun hver => ?_, fun hver => ?_⟩⟩
    · exact endFormatPass_spec law service closed (by rw [hkind]; simp) (formats hk)
    · have ho := tests hk
      rw [endTestWrite_matching (inService_some service).1 hver] at ho
      exact ho
    · have ho := tests hk
      rw [endTestWrite_fails (inService_some service).1 hm hver] at ho
      exact ho
    · have ho := reads hk
      have notRead : sl.kind ≠ .read := by rw [hkind]; simp
      intro differing bad read m' e' y x stop
      have sector : sl.testReadSector q (d.words u.disk q.addr) (d.passes u.disk q.addr)
          = if q.verdict ≠ .matching then (y, some (stopWords (r + 1) q.addr.sector 0 none))
            else if d.passes u.disk q.addr = false then (y, some (stopWords (r + 1) q.addr.sector 1 differing.head?))
            else if differing ≠ [] then (y, some (stopWords (r + 1) q.addr.sector 2 differing.head?))
            else (y, none) := testReadSector_eq hpar hm hlen
      have read_iff : read = true ↔ q.verdict = .matching := decide_eq_true_iff
      have unread_iff : read = false ↔ q.verdict ≠ .matching := decide_eq_false_iff_not
      have bad_iff : bad = true ↔ d.passes u.disk q.addr = false := by simp [bad]
      have fine_iff : bad = false ↔ d.passes u.disk q.addr = true := by simp [bad]
      clear_value m' e' differing
      have stops_at (cause : Nat) (word : Option Nat) (hsec : sl.testReadSector q (d.words u.disk q.addr)
          (d.passes u.disk q.addr) = (y, some (stopWords (r + 1) q.addr.sector cause word))) :
          stop (BitVec.ofNat 16 cause) word := by
        have stopped := endTestRead_stop law service closed notRead hpar rfl ho hsec
        cases word <;> exact stopped
      clear_value stop
      refine ⟨fun hr => stops_at 0 none ?_, fun hr hb => stops_at 1 differing.head? ?_,
        fun hr hb hd => stops_at 2 differing.head? ?_, fun hr hb hd => endTestRead_passes ho ?_⟩
      · rw [sector, if_pos (unread_iff.mp hr)]
      · rw [sector, if_neg (not_not_intro (read_iff.mp hr)), if_pos (bad_iff.mp hb)]
      · rw [sector, if_neg (not_not_intro (read_iff.mp hr)), if_neg (by rw [fine_iff.mp hb]; simp), if_pos hd]
      · rw [sector, if_neg (not_not_intro (read_iff.mp hr)), if_neg (by rw [fine_iff.mp hb]; simp),
          if_neg (not_not_intro hd)]
    · have ho := zeroes hk
      unfold State.endZeroPass at ho
      rw [if_neg (by rw [hver]; simp)] at ho
      exact fails_of (by rw [hkind]; simp) ho
    · exact endZeroPass_matching law service closed progress hm hver (zeroes hk)
    · have ho := writes hk
      unfold State.endLabelWritePass at ho
      rw [if_neg (by rw [hver]; simp)] at ho
      exact fails_of (ne_read_of_label hkind) ho
    · exact endLabelWritePass_matching service progress hkind hver (writes hk)

end Sys2Proof.Machine

/-! ## The candidates of a selection (R60, R71 to R73) -/

namespace Sys2Proof.Machine

variable {s : State} {p : Port} {k : Fin 8} {sl : Slot}

/-! ### Hazards -/

theorem writeClass_iff (z : Kind) : z.writeClass = true ↔
    (z = .write ∨ z = .formatTrack ∨ z = .assignSpare ∨ z = .initializeLabel ∨ z = .testTrack) := by
  cases z <;> simp [Kind.writeClass]

/-- Two spans share a sector exactly where neither lies wholly before the other. -/
theorem spans_meet {a b m n : Nat} (hm : 0 < m) (hn : 0 < n) :
    (a < b + n ∧ b < a + m) ↔ ∃ i < m, ∃ j < n, a + i = b + j := by
  constructor
  · rintro ⟨h1, h2⟩
    rcases Nat.le_total a b with h | h
    · exact ⟨b - a, by omega, 0, hn, by omega⟩
    · exact ⟨0, hm, a - b, by omega, by omega⟩
  · rintro ⟨i, hi, j, hj, e⟩
    omega

theorem clashes_iff (x y : Slot) (hx : 0 < x.extent) (hy : 0 < y.extent) : x.clashes y = true ↔
    (∃ z ∈ [x.kind, y.kind], z = .write ∨ z = .formatTrack ∨ z = .assignSpare ∨ z = .initializeLabel ∨ z = .testTrack)
      ∧ ∃ i < x.extent, ∃ j < y.extent, x.startAddr.linear + i = y.startAddr.linear + j := by
  rw [← spans_meet hx hy]
  unfold Slot.clashes
  simp only [Bool.and_eq_true, Bool.or_eq_true, decide_eq_true_eq, writeClass_iff, List.mem_cons, List.not_mem_nil,
    or_false, exists_eq_or_imp, exists_eq_left, and_assoc]

theorem extent_eq (x : Slot) : x.extent = if x.kind = .read ∨ x.kind = .write ∨ x.kind = .check then x.n
    else if x.kind = .formatTrack ∨ x.kind = .testTrack then 20 else 1 := by
  unfold Slot.extent
  cases x.kind <;> rfl

/-! ### The order list with what is older -/

/-- An order stands with the orders older than it exactly where the list is cut at it. -/
theorem mem_withOlder_iff {α : Type} (f : α → Option (Fin 8 × Slot)) {x : Fin 8 × Slot} {ol : List (Fin 8 × Slot)} :
    ∀ (o : List α) (older : List (Fin 8 × Slot)), (x, ol) ∈ withOlder older (o.filterMap f) ↔
      ∃ l a l', o = l ++ a :: l' ∧ f a = some x ∧ ol = older ++ l.filterMap f := by
  intro o
  induction o with
  | nil => intro older; simp [withOlder]
  | cons b o ih =>
    intro older
    cases hb : f b with
    | none =>
      rw [List.filterMap_cons_none hb, ih]
      constructor
      · rintro ⟨l, a, l', rfl, ha, hol⟩
        exact ⟨b :: l, a, l', rfl, ha, by rw [List.filterMap_cons_none hb]; exact hol⟩
      · rintro ⟨l, a, l', ho, ha, hol⟩
        cases l with
        | nil => cases ho; rw [hb] at ha; cases ha
        | cons c l =>
          cases ho
          exact ⟨l, a, l', rfl, ha, by rw [List.filterMap_cons_none hb] at hol; exact hol⟩
    | some y =>
      rw [List.filterMap_cons_some hb, withOlder, List.mem_cons, ih]
      constructor
      · rintro (h | ⟨l, a, l', rfl, ha, hol⟩)
        · cases h; exact ⟨[], b, o, rfl, hb, by simp⟩
        · exact ⟨b :: l, a, l', rfl, ha, by rw [List.filterMap_cons_some hb, hol]; simp⟩
      · rintro ⟨l, a, l', ho, ha, hol⟩
        cases l with
        | nil => cases ho; rw [hb] at ha; cases ha; exact .inl (by rw [hol]; simp)
        | cons c l =>
          cases ho
          exact .inr ⟨l, a, l', rfl, ha, by rw [hol, List.filterMap_cons_some hb]; simp⟩

/-- The record of a slot with its number. -/
def State.numberedSlot (s : State) (p : Port) (k : Fin 8) : Option (Fin 8 × Slot) := (s.slot p k).map fun sl => (k, sl)

theorem ordered_eq (s : State) (p : Port) : (s.queues.get p).ordered = (s.queues.get p).order.filterMap (s.numberedSlot p) :=
  rfl

theorem numberedSlot_some {x : Fin 8 × Slot} : s.numberedSlot p k = some x ↔ x.1 = k ∧ s.slot p k = some x.2 := by
  unfold State.numberedSlot
  cases s.slot p k with
  | none => simp
  | some y =>
    constructor
    · intro h; cases h; exact ⟨rfl, rfl⟩
    · rintro ⟨rfl, h⟩; cases h; rfl

/-- What holds of the older orders holds of the live slots that stand before in the list. -/
theorem all_filterMap_numberedSlot {P : Slot → Prop} {l : List (Fin 8)} :
    (∀ y ∈ l.filterMap (s.numberedSlot p), P y.2) ↔ ∀ j ∈ l, ∀ x, s.slot p j = some x → P x := by
  simp only [List.mem_filterMap, forall_exists_index, and_imp]
  constructor
  · intro h j hj x hx
    exact h (j, x) j hj (numberedSlot_some.mpr ⟨rfl, hx⟩)
  · intro h y j hj hy
    exact h j hj y.2 (numberedSlot_some.mp hy).2

/-! ### The PROMPT candidates (R60, R71) -/

/-- A write-class order while DEGRADED is no candidate (R73). -/
def State.barsKind (s : State) (sl : Slot) : Prop := s.drive.state = .degraded ∧ sl.kind.writeClass = true

theorem hazardFree_iff {l : List (Fin 8)} : hazardFree sl (l.filterMap (s.numberedSlot p)) = true ↔
    ∀ j ∈ l, ∀ x, s.slot p j = some x → x.state = .queued ∨ x.state = .inService ∨ x.state = .suspended →
      x.clashes sl = false := by
  rw [← all_filterMap_numberedSlot]
  unfold hazardFree Slot.holdsBack
  simp only [List.all_eq_true, Bool.not_eq_true', Bool.and_eq_false_imp, decide_eq_true_eq]

theorem mem_promptOffers_iff : (k, sl) ∈ s.promptOffers p ↔ ∃ l l', (s.queues.get p).order = l ++ k :: l'
    ∧ s.slot p k = some sl ∧ sl.state = .queued ∧ sl.prompt = true ∧ ¬s.barsKind sl
    ∧ ∀ j ∈ l, ∀ x, s.slot p j = some x → x.state = .queued ∨ x.state = .inService ∨ x.state = .suspended →
        x.clashes sl = false := by
  unfold State.promptOffers State.barsKind
  simp only [List.mem_map, List.mem_filter, Bool.and_eq_true, decide_eq_true_eq, Bool.not_eq_true', Prod.exists,
    exists_and_right, exists_eq_right, ordered_eq, mem_withOlder_iff, List.nil_append]
  constructor
  · rintro ⟨ol, ⟨l, j, ⟨l', ho⟩, hj, rfl⟩, ⟨⟨hq, hp⟩, hf⟩, hb⟩
    obtain ⟨rfl, hs⟩ := numberedSlot_some.mp hj
    exact ⟨l, ⟨l', ho⟩, hs, hq, hp, by simpa using hb, hazardFree_iff.mp hf⟩
  · rintro ⟨l, ⟨l', ho⟩, hs, hq, hp, hb, hf⟩
    exact ⟨_, ⟨l, k, ⟨l', ho⟩, numberedSlot_some.mpr ⟨rfl, hs⟩, rfl⟩, ⟨⟨hq, hp⟩, hazardFree_iff.mpr hf⟩, by simpa using hb⟩

/-- The offers stand in the order of the order list. -/
theorem promptOffers_sublist (s : State) (p : Port) : ((s.promptOffers p).map (·.1)).Sublist (s.queues.get p).order := by
  have firsts : ∀ (l older : List (Fin 8 × Slot)), (withOlder older l).map (·.1) = l := by
    intro l
    induction l with
    | nil => intro older; rfl
    | cons x l ih => intro older; rw [withOlder, List.map_cons, ih]
  have numbers : ∀ l : List (Fin 8), ((l.filterMap (s.numberedSlot p)).map (·.1)).Sublist l := by
    intro l
    induction l with
    | nil => exact .slnil
    | cons j l ih =>
      cases hj : s.numberedSlot p j with
      | none => rw [List.filterMap_cons_none hj]; exact ih.cons j
      | some x =>
        rw [List.filterMap_cons_some hj, List.map_cons, (numberedSlot_some.mp hj).1]
        exact ih.cons_cons j
  have offers : (s.promptOffers p).Sublist (s.queues.get p).ordered := by
    rw [← firsts (s.queues.get p).ordered []]
    exact List.filter_sublist.map _
  exact (offers.map _).trans (numbers _)

/-! ### The one due first (R71) -/

/-- Within half of the signed range of a tick, a signed difference is the difference of the two from that tick. -/
theorem signedDiff_within {u v b : Tick} (hu : -1073741824 < signedDiff u b ∧ signedDiff u b < 1073741824)
    (hv : -1073741824 < signedDiff v b ∧ signedDiff v b < 1073741824) :
    signedDiff u v = signedDiff u b - signedDiff v b := by
  have cancel : u - v = (u - b) - (v - b) := by bv_omega
  unfold signedDiff at *
  rw [cancel, BitVec.toInt_sub]
  exact Int.bmod_eq_of_le (by omega) (by omega)

/-- The member that a pass over a list keeps is the first of those with the least key. -/
theorem foldl_least {α : Type} (d : α → Int) : ∀ (rest pre mid : List α) (best : α),
    (∀ y ∈ pre, d best < d y) → (∀ y ∈ mid, d best ≤ d y) →
    ∃ l l', pre ++ best :: mid ++ rest = l ++ rest.foldl (fun best y => if d y < d best then y else best) best :: l'
      ∧ (∀ y ∈ l, d (rest.foldl (fun best y => if d y < d best then y else best) best) < d y)
      ∧ ∀ y ∈ l', d (rest.foldl (fun best y => if d y < d best then y else best) best) ≤ d y := by
  intro rest
  induction rest with
  | nil => intro pre mid best hp hm; exact ⟨pre, mid, by simp, hp, hm⟩
  | cons z rest ih =>
    intro pre mid best hp hm
    rw [List.foldl_cons]
    by_cases hz : d z < d best
    · rw [if_pos hz]
      have below : ∀ y ∈ pre ++ best :: mid, d z < d y := by
        intro y hy
        rcases List.mem_append.mp hy with hy | hy
        · have := hp y hy; omega
        · rcases List.mem_cons.mp hy with rfl | hy
          · exact hz
          · have := hm y hy; omega
      have := ih (pre ++ best :: mid) [] z below fun _ h => by cases h
      simpa using this
    · rw [if_neg hz]
      have within : ∀ y ∈ mid ++ [z], d best ≤ d y := by
        intro y hy
        rcases List.mem_append.mp hy with hy | hy
        · exact hm y hy
        · rw [List.mem_singleton.mp hy]; omega
      have := ih pre (mid ++ [z]) best hp within
      simpa using this

/-- Where two keys order the members of a list alike, a pass over it keeps the same one. -/
theorem foldl_congr_mem {α : Type} {f g : α → α → α} : ∀ (l : List α) (best : α),
    (∀ x ∈ best :: l, ∀ y ∈ l, f x y = g x y) → (∀ x y, g x y = x ∨ g x y = y) → l.foldl f best = l.foldl g best := by
  intro l
  induction l with
  | nil => intro best _ _; rfl
  | cons z l ih =>
    intro best h hg
    rw [List.foldl_cons, List.foldl_cons, h best (.head _) z (.head _)]
    refine ih _ (fun x hx y hy => ?_) hg
    rcases List.mem_cons.mp hx with rfl | hx
    · rcases hg best z with e | e <;> rw [e]
      · exact h best (.head _) y (.tail _ hy)
      · exact h z (.tail _ (.head _)) y (.tail _ hy)
    · exact h x (.tail _ (.tail _ hx)) y (.tail _ hy)

/-- Of offers whose due ticks lie within half of the signed range, the candidate is due first, the oldest of those. -/
theorem earliestDue_first {l : List (Fin 8 × Slot)} {x : Fin 8 × Slot} {b : Tick} (h : earliestDue l = some x)
    (hb : ∀ y ∈ l, -1073741824 < signedDiff y.2.due b ∧ signedDiff y.2.due b < 1073741824) :
    ∃ older newer, l = older ++ x :: newer ∧ (∀ y ∈ older, 0 < signedDiff y.2.due x.2.due)
      ∧ ∀ y ∈ newer, 0 ≤ signedDiff y.2.due x.2.due := by
  cases l with
  | nil => cases h
  | cons z l =>
    simp only [earliestDue, Option.some.injEq] at h
    rw [foldl_congr_mem (g := fun best y => if signedDiff y.2.due b < signedDiff best.2.due b then y else best) l z
      (fun x hx y hy => ?_) (fun x y => ?_)] at h
    · obtain ⟨older, newer, e, ho, hn⟩ := foldl_least (fun y : Fin 8 × Slot => signedDiff y.2.due b) l [] [] z
        (fun _ h => by cases h) fun _ h => by cases h
      rw [h] at e ho hn
      simp only [List.nil_append, List.singleton_append] at e
      have hx := hb x (by rw [e]; simp)
      refine ⟨older, newer, e, fun y hy => ?_, fun y hy => ?_⟩
      · have := ho y hy
        rw [signedDiff_within (hb y (by rw [e]; simp [hy])) hx]; omega
      · have := hn y hy
        rw [signedDiff_within (hb y (by rw [e]; simp [hy])) hx]; omega
    · rw [signedDiff_within (hb y (.tail _ hy)) (hb x hx)]
      exact if_congr (by omega) rfl rfl
    · exact (ite_eq_or_eq _ y x).symm

theorem promptCandidate_first {b : Tick} (h : s.promptCandidate p = some (k, sl))
    (hb : ∀ x ∈ s.promptOffers p, -1073741824 < signedDiff x.2.due b ∧ signedDiff x.2.due b < 1073741824) :
    (k, sl) ∈ s.promptOffers p ∧ (∀ x ∈ s.promptOffers p, 0 ≤ signedDiff x.2.due sl.due)
      ∧ ∃ older newer, (s.queues.get p).order = older ++ k :: newer
        ∧ ∀ x ∈ s.promptOffers p, x.2.due = sl.due → x.1 = k ∨ x.1 ∈ newer := by
  obtain ⟨before, after, e, hbefore, hafter⟩ := earliestDue_first h hb
  have self : signedDiff sl.due sl.due = 0 := by unfold signedDiff; simp
  have cut := promptOffers_sublist s p
  rw [e, List.map_append, List.map_cons] at cut
  obtain ⟨r1, r2, ho, -, h2⟩ := List.append_sublist_iff.mp cut
  obtain ⟨r3, r4, rfl, hk, h4⟩ := List.cons_sublist_iff.mp h2
  obtain ⟨u, v, rfl⟩ := List.append_of_mem hk
  refine ⟨earliestDue_mem h, fun x hx => ?_, r1 ++ u, v ++ r4, by rw [ho]; simp, fun x hx hd => ?_⟩
  · rw [e] at hx
    rcases List.mem_append.mp hx with hx | hx
    · exact Int.le_of_lt (hbefore x hx)
    · rcases List.mem_cons.mp hx with rfl | hx
      · exact Int.le_of_eq self.symm
      · exact hafter x hx
  · rw [e] at hx
    rcases List.mem_append.mp hx with hx | hx
    · have := hbefore x hx
      rw [hd, self] at this; omega
    · rcases List.mem_cons.mp hx with rfl | hx
      · exact .inl rfl
      · exact .inr (List.mem_append_right _ (h4.subset (List.mem_map_of_mem hx)))

theorem promptCandidate_none_iff : s.promptCandidate p = none ↔ s.promptOffers p = [] := by
  unfold State.promptCandidate earliestDue
  cases s.promptOffers p <;> simp

/-! ### The ROUTINE heads (R60, R72) -/

theorem suspendedOn_iff : s.suspendedOn p = false ↔ ∀ x, s.suspended = some x → x.1 ≠ p := by
  unfold State.suspendedOn
  cases s.suspended with
  | none => simp
  | some x => simp

theorem oldestRoutine_iff {older : List (Fin 8 × Slot)} : s.oldestRoutine p = some ((k, sl), older) ↔
    ∃ l l', (s.queues.get p).order = l ++ k :: l' ∧ s.slot p k = some sl ∧ sl.state = .queued ∧ sl.prompt = false
      ∧ older = l.filterMap (s.numberedSlot p)
      ∧ ∀ j ∈ l, ∀ x, s.slot p j = some x → x.state = .queued → x.prompt = true := by
  unfold State.oldestRoutine
  rw [ordered_eq, find_withOlder (s.numberedSlot p) (fun j x h => (numberedSlot_some.mp h).1)
    (fun x => decide (x.2.state = .queued) && !x.2.prompt)]
  refine exists_congr fun l => exists_congr fun l' => and_congr_right fun _ => ?_
  simp only [numberedSlot_some, true_and, List.nil_append, Bool.and_eq_true, decide_eq_true_eq, Bool.not_eq_true',
    and_assoc, Bool.and_eq_false_imp, Bool.not_eq_false']
  refine and_congr_right fun _ => and_congr_right fun _ => and_congr_right fun _ => and_congr_right fun _ => ?_
  exact ⟨fun h j hj x hx => h j hj (j, x) ⟨rfl, hx⟩, fun h j hj x hx => h j hj x.2 hx.2⟩

theorem routineHead_iff : s.routineHead p = some (k, sl) ↔ ∃ l l', (s.queues.get p).order = l ++ k :: l'
    ∧ s.slot p k = some sl ∧ sl.state = .queued ∧ sl.prompt = false ∧ ¬s.barsKind sl
    ∧ (∀ x, s.suspended = some x → x.1 ≠ p)
    ∧ ∀ j ∈ l, ∀ x, s.slot p j = some x → x.state = .queued → x.prompt = true ∧ x.clashes sl = false := by
  have unheld (l : List (Fin 8)) :
      ((l.filterMap (s.numberedSlot p)).any fun y => decide (y.2.state = .queued) && y.2.prompt && y.2.clashes sl) = false
        ↔ ∀ j ∈ l, ∀ x, s.slot p j = some x → x.state = .queued → x.prompt = true → x.clashes sl = false := by
    rw [← all_filterMap_numberedSlot (P := fun x => x.state = .queued → x.prompt = true → x.clashes sl = false)]
    simp only [List.any_eq_false, Bool.and_eq_true, decide_eq_true_eq, not_and, Bool.not_eq_true, and_imp]
  constructor
  · intro h
    unfold State.routineHead at h
    split at h
    · cases h
    · next x older hold =>
      obtain ⟨j, y⟩ := x
      split at h
      · cases h
      · next hfree =>
        split at h
        · cases h
        · next hsusp =>
          split at h
          · cases h
          · next hbar =>
            cases h
            obtain ⟨l, l', ho, hs, hq, hp, rfl, hl⟩ := oldestRoutine_iff.mp hold
            have free := (unheld l).mp (Bool.not_eq_true _ ▸ hfree)
            exact ⟨l, l', ho, hs, hq, hp, hbar, suspendedOn_iff.mp (Bool.not_eq_true _ ▸ hsusp),
              fun j hj x hx hst => ⟨hl j hj x hx hst, free j hj x hx hst (hl j hj x hx hst)⟩⟩
  · rintro ⟨l, l', ho, hs, hq, hp, hbar, hsusp, hl⟩
    unfold State.routineHead
    rw [oldestRoutine_iff.mpr ⟨l, l', ho, hs, hq, hp, rfl, fun j hj x hx hst => (hl j hj x hx hst).1⟩]
    dsimp only
    rw [(unheld l).mpr fun j hj x hx hst _ => (hl j hj x hx hst).2, suspendedOn_iff.mpr hsusp, if_neg (by simp),
      if_neg (by simp)]
    exact if_neg hbar

end Sys2Proof.Machine

/-! ## The three steps of a selection (R69, R79 to R81), and arrivals (R84, R98, R101) -/

namespace Sys2Proof.Machine

variable {s : State} {p : Port} {k j : Fin 8} {sl x : Slot} {c pos : Nat}

/-! ### The three steps -/

/-- A selection is made with no order in service, the drive served, and no stop pending (R69). -/
def State.mayChoose (s : State) : Prop :=
  s.inService = none ∧ (s.drive.state = .ready ∨ s.drive.state = .degraded) ∧ s.drive.stopPending = false

theorem maySelect_iff : s.maySelect = true ↔ s.mayChoose ∧ s.pos.cyl ≠ none := by
  unfold State.maySelect State.mayChoose
  rw [Bool.and_eq_true, Bool.and_eq_true, Bool.and_eq_true, Option.isNone_iff_eq_none, serving_iff, Bool.not_eq_true',
    Option.isSome_iff_ne_none]
  simp only [and_assoc]

theorem select_not (h : ¬(s.mayChoose ∧ s.pos.cyl ≠ none)) : s.select = (s, .idle) :=
  if_neg (mt maySelect_iff.mp h)

section
variable (hm : s.mayChoose) (hc : s.pos.cyl = some c)
include hm hc

theorem select_eq : s.select = match s.stepOne c s.pos.position with
    | some (p, k, _) => s.handTo p k
    | none =>
      match s.suspendedCandidate with
      | some (p, k, _) => s.handTo p k
      | none =>
        match s.stepThree c s.pos.position with
        | some (p, k, _) => { s with sched := { s.sched with bypass := s.bypassAfter p } }.handTo p k
        | none => (s, .idle) := by
  unfold State.select
  rw [if_pos (maySelect_iff.mpr ⟨hm, by rw [hc]; simp⟩), hc]
  rfl

theorem select_stepOne (h : s.firstPrompt c s.pos.position p k sl) : s.select = s.handTo p k := by
  rw [select_eq hm hc, (stepOne_iff ..).mpr h]

variable (h1 : s.stepOne c s.pos.position = none)
include h1

theorem select_stepTwo (h : s.suspendedCandidate = some (p, k, sl)) : s.select = s.handTo p k := by
  rw [select_eq hm hc, h1, h]

variable (h2 : s.suspendedCandidate = none)
include h2

theorem select_stepThree (h : s.stepThree c s.pos.position = some (p, k, sl)) :
    s.select = { s with sched := { s.sched with bypass := s.bypassAfter p } }.handTo p k := by
  rw [select_eq hm hc, h1, h2, h]

theorem select_nothing (h : s.stepThree c s.pos.position = none) : s.select = (s, .idle) := by
  rw [select_eq hm hc, h1, h2, h]

end

/-- Step 1 finds nothing exactly where no port offers a PROMPT order. -/
theorem stepOne_none_iff : s.stepOne c pos = none ↔ ∀ p, s.promptOffers p = [] := by
  have both : (∀ p, s.promptOffers p = []) ↔ s.promptCandidate .a = none ∧ s.promptCandidate .b = none := by
    rw [promptCandidate_none_iff, promptCandidate_none_iff]
    exact ⟨fun h => ⟨h .a, h .b⟩, fun h p => by cases p; exacts [h.1, h.2]⟩
  rw [both]
  unfold State.stepOne
  cases s.promptCandidate .a with
  | none => cases s.promptCandidate .b <;> simp
  | some x =>
    cases s.promptCandidate .b with
    | none => simp
    | some y =>
      simp only [reduceCtorEq, false_and, iff_false]
      split
      · simp
      · split
        · simp
        · split <;> simp

theorem suspendedCandidate_of (h : s.suspended = some (p, k, sl)) (hb : ¬s.barsKind sl) :
    s.suspendedCandidate = some (p, k, sl) := by
  unfold State.suspendedCandidate; rw [h]; exact if_neg hb

theorem suspendedCandidate_none (h : ∀ p k sl, s.suspended = some (p, k, sl) → s.barsKind sl) :
    s.suspendedCandidate = none := by
  unfold State.suspendedCandidate
  cases hs : s.suspended with
  | none => rfl
  | some x => exact if_pos (h x.1 x.2.1 x.2.2 hs)

/-! ### Step 3 (R81) -/

theorem stepThree_none (h : ∀ p, s.routineHead p = none) : s.stepThree c pos = none := by
  unfold State.stepThree; rw [h .a, h .b]

theorem stepThree_alone (h : s.routineHead p = some (k, sl)) (ho : s.routineHead p.other = none) :
    s.stepThree c pos = some (p, k, sl) := by
  unfold State.stepThree
  cases p <;> simp only [Port.other] at ho <;> rw [h, ho]

section
variable (h : s.routineHead p = some (k, sl)) (ho : s.routineHead p.other = some (j, x))
include h ho

theorem stepThree_passedOver (law : ¬(s.sched.bypass.a = 4 ∧ s.sched.bypass.b = 4)) (h4 : s.sched.bypass.get p = 4) :
    s.stepThree c pos = some (p, k, sl) := by
  unfold State.stepThree
  cases p with
  | a =>
    simp only [Port.other, PerPort.get] at ho h4
    rw [h, ho]
    exact if_pos h4
  | b =>
    simp only [Port.other, PerPort.get] at ho h4
    rw [h, ho]
    exact (if_neg fun ha => law ⟨ha, h4⟩).trans (if_pos h4)

theorem stepThree_sooner (hp : s.sched.bypass.get p ≠ 4) (hq : s.sched.bypass.get p.other ≠ 4)
    (hw : positionTicks c pos sl.estimateTarget < positionTicks c pos x.estimateTarget
      ∨ (positionTicks c pos sl.estimateTarget = positionTicks c pos x.estimateTarget ∧ p ≠ s.sched.last)) :
    s.stepThree c pos = some (p, k, sl) := by
  unfold State.stepThree
  cases p with
  | a =>
    simp only [Port.other, PerPort.get] at ho hp hq
    rw [h, ho]
    dsimp only
    rw [if_neg hp, if_neg hq]
    rcases hw with hw | ⟨hw, hl⟩
    · exact if_pos hw
    · rw [if_neg (by omega), if_neg (by omega), if_neg (Ne.symm hl)]
  | b =>
    simp only [Port.other, PerPort.get] at ho hp hq
    rw [h, ho]
    dsimp only
    rw [if_neg hq, if_neg hp]
    rcases hw with hw | ⟨hw, hl⟩
    · rw [if_neg (by omega), if_pos hw]
    · have last : s.sched.last = .a := by cases e : s.sched.last with
        | a => rfl
        | b => exact absurd e.symm hl
      rw [if_neg (by omega), if_neg (by omega), if_pos last]

end

/-- A selection of step 3 clears the count of the port taken and counts the head it passes over (R81). -/
theorem bypassAfter_get (s : State) (p : Port) : (s.bypassAfter p).get p = 0 ∧ (s.bypassAfter p).get p.other
    = if (s.routineHead p.other).isSome then min (s.sched.bypass.get p.other + 1) 4 else s.sched.bypass.get p.other := by
  cases p <;> exact ⟨rfl, rfl⟩

/-! ### The boundary of an arrival (R84, R98, R101) -/

section
variable {g : Progress} {u : State}

/-- What a boundary at which the order goes on makes of it: it is set aside, or it goes on as it is. -/
theorem checkSuspension_goesOn (hk : u.slot p k = some sl) (hc : u.pos.cyl = some c) (r : State × Agenda)
    (hr : r = match u.checkSuspension p k pos with
      | some x => x
      | none => (u, .idle)) :
    (∀ q j, u.yields sl c pos q j → r = (u.setAside p k).handTo q j) ∧ (u.keeps sl c pos → r = (u, .idle)) := by
  refine ⟨fun q j hy => ?_, fun hy => ?_⟩
  · rw [hr, checkSuspension_yields hk hc hy]
  · rw [hr, checkSuspension_keeps hk hc hy]

/-- A withdrawn order, or one whose port is LOST, stops. -/
theorem stopped_of (hs : s.serviceLaw) (hi : s.inService = some (p, k, sl)) {r : State × Agenda}
    (hw : sl.withdrawn = true → r = (s.freeWithdrawn p k, .released))
    (hl : sl.withdrawn = false → (s.ports.get p).presence = .lost → r = s.endWith p k { ending := .portLost }) :
    sl.withdrawn = true ∨ (s.ports.get p).presence = .lost → ∃ t, s.stopsService t p k sl ∧ r = (t, .released) := by
  intro stopped
  by_cases withdrawn : sl.withdrawn = true
  · exact ⟨_, ⟨fun _ => freeWithdrawn_stops hs hi withdrawn, fun h => by rw [withdrawn] at h; cases h⟩, hw withdrawn⟩
  · obtain ⟨t, ended, e⟩ := endWith_ends hs hi { ending := .portLost } (by simp) (by simp)
    have standing : sl.withdrawn = false := by simpa using withdrawn
    exact ⟨t, ⟨fun h => absurd h withdrawn, fun _ => ended⟩, (hl standing (stopped.resolve_left withdrawn)).trans e⟩

/-- An order no longer granted ends MAP CHANGED. -/
theorem changed_of (hs : s.serviceLaw) (hi : s.inService = some (p, k, sl)) {r : State × Agenda} {a : Addr}
    (h : r = s.endWith p k { ending := .mapChanged, fault := some a }) :
    ∃ t, s.endsService t p k sl .mapChanged (some a) ∧ r = (t, .released) := by
  obtain ⟨t, ended, e⟩ := endWith_ends hs hi { ending := .mapChanged, fault := some a } (by simp) (by simp)
  exact ⟨t, ended, h.trans e⟩

/-- A data order arrives: it stops, ends MAP CHANGED, is set aside or goes on (R84, R111). -/
theorem arrivalBoundary_data (hs : s.serviceLaw) (hi : s.inService = some (p, k, sl)) (hg : s.progress = some g)
    (hc : s.pos.cyl = some c) (hd : sl.kind.isData = true) :
    let stopped : Prop := sl.withdrawn = true ∨ (s.ports.get p).presence = .lost
    let granted : Prop := s.grants p sl.needsWrite (sl.sectorAddr g.next).cyl = true
    (stopped → ∃ t, s.stopsService t p k sl ∧ s.arrivalBoundary = (t, .released))
      ∧ (¬stopped → g.next < sl.n →
        (¬granted → ∃ t, s.endsService t p k sl .mapChanged (some (sl.sectorAddr g.next))
          ∧ s.arrivalBoundary = (t, .released))
        ∧ (granted → (∀ q j, s.yields sl c s.pos.position q j → s.arrivalBoundary = (s.setAside p k).handTo q j)
          ∧ (s.keeps sl c s.pos.position → s.arrivalBoundary = (s, .idle)))) := by
  intro stopped granted
  have slot := (inService_some hi).1
  have arrived : s.arrivalBoundary = s.dataBoundary p k s.pos.position none false := by
    unfold State.arrivalBoundary; rw [hi]; exact if_pos hd
  unfold State.dataBoundary at arrived
  rw [slot, hg] at arrived
  dsimp only at arrived
  refine ⟨stopped_of hs hi (fun hw => by rw [arrived, if_pos hw])
    fun hw hl => by rw [arrived, if_neg (by simp [hw]), if_pos (by simp [State.lost, hl])], fun free hn => ?_⟩
  obtain ⟨hw, hl⟩ := not_or.mp free
  rw [if_neg hw, if_neg (by simpa [State.lost] using hl), if_neg (by omega)] at arrived
  refine ⟨fun barred => ?_, fun granted => ?_⟩
  · rw [if_pos (by simpa [granted] using barred)] at arrived
    exact changed_of hs hi arrived
  · rw [if_neg (by rw [granted]; simp)] at arrived
    exact checkSuspension_goesOn slot hc _ arrived

/-- Where a maintenance order stands after its arrival: FORMAT TRACK and TEST TRACK are confirmed by it. -/
def State.arrivedFor (s : State) (sl : Slot) : State :=
  if sl.kind = .formatTrack ∨ sl.kind = .testTrack then s.onPos fun y => { y with activity := .confirmed } else s

theorem arrivalBoundary_maint (hi : s.inService = some (p, k, sl)) (hd : sl.kind.isData = false) :
    s.arrivalBoundary = (s.arrivedFor sl).maintThen p k (s.arrivedFor sl).pos.position none (s.arrivedFor sl, .idle) := by
  unfold State.arrivalBoundary
  rw [hi]
  exact if_neg (by rw [hd]; simp)

/-- A boundary of a maintenance order with no label write unjudged: it stops, ends MAP CHANGED, is set aside or goes on. -/
theorem maintThen_arrival (hs : s.serviceLaw) (hi : s.inService = some (p, k, sl)) (hl : s.labelOpen = false)
    (hc : s.pos.cyl = some c) {r : State × Agenda} (hr : r = s.maintThen p k pos none (s, .idle)) :
    let stopped : Prop := sl.withdrawn = true ∨ (s.ports.get p).presence = .lost
    let barred : Prop := s.formatBarred p sl = true
    (stopped → ∃ t, s.stopsService t p k sl ∧ r = (t, .released))
      ∧ (¬stopped →
        (barred → ∃ t, s.endsService t p k sl .mapChanged (some { sl.startAddr with sector := sl.sectorsDone })
          ∧ r = (t, .released))
        ∧ (¬barred → (∀ q j, s.yields sl c pos q j → r = (s.setAside p k).handTo q j)
          ∧ (s.keeps sl c pos → r = (s, .idle)))) := by
  intro stopped barred
  have slot := (inService_some hi).1
  unfold State.maintThen State.maintBoundary at hr
  rw [slot] at hr
  dsimp only at hr
  refine ⟨stopped_of hs hi (fun hw => by rw [hr, if_pos ⟨hw, hl⟩])
    fun hw hlost => by rw [hr, if_neg (by simp [hw]), if_pos ⟨by simp [State.lost, hlost], hl⟩], fun free => ?_⟩
  obtain ⟨hw, hlost⟩ := not_or.mp free
  rw [if_neg fun h => hw h.1, if_neg fun h => hlost (by simpa [State.lost] using h.1)] at hr
  refine ⟨fun hb => ?_, fun hb => ?_⟩
  · rw [if_pos hb] at hr
    exact changed_of hs hi hr
  · rw [if_neg hb] at hr
    exact checkSuspension_goesOn slot hc _ hr

end

end Sys2Proof.Machine

/-! ## Handing the actuator to an order (R70, R90, R110, R147) -/

namespace Sys2Proof.Machine

variable {s t : State} {p : Port} {k : Fin 8} {sl : Slot}

/-- The record of an order that the actuator is handed to. -/
def Slot.serving (sl : Slot) : Slot := { sl with state := .inService }

/-- The actuator is the order's: it is IN SERVICE and its port the one last granted. -/
def State.handed (s : State) (p : Port) (k : Fin 8) (sl : Slot) : State :=
  { s.modSlot p k (fun _ => sl.serving) with sched := { s.sched with last := p } }

/-- A positioning begins at the state's own cylinder, whatever else has been set. -/
theorem goTo_of_pos (h : t.pos = s.pos) (x : Addr) : t.goTo x = (t.positioned x, s.follows x.cyl) := by
  rw [goTo_eq]; unfold State.follows; rw [h]

section
variable (h : s.slot p k = some sl)
include h

theorem slot_handed : (s.handed p k sl).slot p k = some sl.serving := slot_mod h

/-- What handing over begins, by the order's kind. -/
theorem handTo_eq :
    (sl.kind = .formatTrack → s.handTo p k = ((s.handed p k sl).setProgress 0 none .format).goTo sl.startAddr)
    ∧ (sl.kind = .testTrack → s.handTo p k = ((s.handed p k sl).setProgress 0 none .testWaiting).goTo sl.startAddr)
    ∧ (sl.kind = .initializeLabel → s.handTo p k = ((s.handed p k sl).setProgress 0 none .labelWrite).goTo labelAddr)
    ∧ (sl.kind = .assignSpare → s.handTo p k = (s.handed p k sl).beginAssign p k sl.startAddr)
    ∧ (sl.kind = .read ∨ sl.kind = .write ∨ sl.kind = .check → s.handTo p k = (s.handed p k sl).beginData sl.serving) := by
  have moved : (s.modSlot p k fun x => { x with state := .inService }) = s.modSlot p k fun _ => sl.serving := mod_eq h rfl
  have slot := slot_handed h
  unfold State.handTo
  rw [moved]
  dsimp only
  unfold State.handed at slot ⊢
  rw [slot]
  dsimp only
  refine ⟨fun hk => ?_, fun hk => ?_, fun hk => ?_, fun hk => ?_, fun hk => ?_⟩
  · rw [show sl.serving.kind = _ from hk]; rfl
  · rw [show sl.serving.kind = _ from hk]; rfl
  · rw [show sl.serving.kind = _ from hk]
  · rw [show sl.serving.kind = _ from hk]; rfl
  · rcases hk with hk | hk | hk <;> rw [show sl.serving.kind = _ from hk]

end

/-! ### A data order (R12, R110, R123) -/

/-- The progress record with which an order begins. -/
def State.begun (s : State) (n : Nat) (dest : Option Nat) (stage : Stage) : State :=
  { s with progress := some ⟨n, dest, 0, stage⟩ }

theorem testRequests_pos (s : State) : s.testRequests.pos = s.pos := by rw [testRequests_buffers]

/-- An order's next sector is looked up, its requests are issued, and it goes to the sector or to its spare. -/
theorem beginData_eq (hp : t.pos = s.pos) (hl : t.label = s.label) :
    ((∀ e ∈ s.label.table, e.bad ≠ sl.sectorAddr sl.sectorsDone) → t.beginData sl
        = ((t.begun sl.sectorsDone none .data).testRequests.positioned (sl.sectorAddr sl.sectorsDone),
            s.follows (sl.sectorAddr sl.sectorsDone).cyl))
      ∧ ∀ e ∈ s.label.table, e.bad = sl.sectorAddr sl.sectorsDone →
        (∀ f ∈ s.label.table, f.bad = sl.sectorAddr sl.sectorsDone → f = e) → t.beginData sl
          = (((t.begun sl.sectorsDone (some e.spare) .data).testRequests.countBoth .excursions).positioned
              ⟨384, e.spare / 20, e.spare % 20⟩, s.follows 384) := by
  unfold State.beginData
  rw [hl]
  refine ⟨fun hn => ?_, fun e he hb hu => ?_⟩
  · rw [lookup_none hn]
    have still : (t.begun sl.sectorsDone none .data).testRequests.pos = s.pos := (testRequests_pos _).trans hp
    exact goTo_of_pos still _
  · rw [lookup_some he hb hu]
    have still : ((t.begun sl.sectorsDone (some e.spare) .data).testRequests.countBoth .excursions).pos = s.pos :=
      (testRequests_pos _).trans hp
    exact goTo_of_pos still _

/-! ### An ASSIGN SPARE (R147, R148) -/

/-- The lowest free spare is the least that is neither named nor retired (R4). -/
theorem lowestFree_iff (table : List SubEntry) (retired : List Nat) :
    let unused (i : Nat) : Prop := i < 80 ∧ (∀ e ∈ table, e.spare ≠ i) ∧ i ∉ retired
    ((∀ i, ¬unused i) → lowestFree table retired = none)
      ∧ ∀ i, unused i → (∀ i', i' < i → ¬unused i') → lowestFree table retired = some i := by
  intro unused
  have free_iff (i : Nat) : spareFree table retired i = true ↔ (∀ e ∈ table, e.spare ≠ i) ∧ i ∉ retired := by
    unfold spareFree; simp
  unfold lowestFree
  refine ⟨fun hn => ?_, fun i hi hless => ?_⟩
  · rw [List.find?_eq_none]
    intro i hi hf
    exact hn i ⟨List.mem_range.mp hi, (free_iff i).mp hf⟩
  · rw [find_range]
    refine ⟨hi.1, (free_iff i).mpr hi.2, fun i' hlt => Bool.eq_false_iff.mpr fun hf => ?_⟩
    exact hless i' hlt ⟨by have := hi.1; omega, (free_iff i').mp hf⟩

section
variable (hs : t.serviceLaw) (hi : t.inService = some (p, k, sl))
include hs hi

/-- An order that ends as it is classified leaves what an ending leaves, its classification told. -/
theorem endSlot_classified {y : Slot} (hy : y.state = sl.state) (f : Slot → Slot) (hf : f sl = y) (e : Ending)
    (fault : Option Addr) : ∃ u, t.endsService u p k y e fault ∧ (t.modSlot p k f).endSlot p k e fault = u := by
  have moved : t.modSlot p k f = t.modSlot p k fun _ => y := mod_eq (inService_some hi).1 hf
  obtain ⟨law, service⟩ := modSlot_service (u := t) (f := fun _ => y) hs hi rfl (hy.trans (inService_some hi).2)
  exact ⟨_, endsService_base (f := fun _ => y) rfl (endSlot_service law service), by rw [moved]⟩

/-- A case that takes a new spare goes to the lowest free one, or ends SPARES EXHAUSTED. -/
theorem beginAssign_spared {x : Addr} {c : AssignCase} (hv : t.label.state = .valid)
    (hc : classifyTarget t.label x = c) (takes : c.takesSpare = true) :
    let unused (i : Nat) : Prop := i < 80 ∧ (∀ e ∈ t.label.table, e.spare ≠ i) ∧ i ∉ t.label.retired
    ((∀ i, ¬unused i) → ∃ u, t.endsService u p k (sl.classified c none .zeroing) .sparesExhausted none
        ∧ t.beginAssign p k x = (u, .released))
      ∧ ∀ i, unused i → (∀ i', i' < i → ¬unused i') → t.beginAssign p k x
        = ((t.modSlot p k fun _ => sl.classified c (some i) .zeroing).begun 0 none .zeroing).goTo (spareAddr i) := by
  intro unused
  obtain ⟨none_free, least_free⟩ := lowestFree_iff t.label.table t.label.retired
  unfold State.beginAssign
  rw [if_neg (not_not_intro hv), hc]
  dsimp only
  rw [if_pos takes]
  refine ⟨fun hn => ?_, fun i hu hl => ?_⟩
  · obtain ⟨u, ended, e⟩ := endSlot_classified hs hi (y := sl.classified c none .zeroing) rfl (·.classified c none .zeroing)
      rfl .sparesExhausted none
    exact ⟨u, ended, by rw [none_free hn]; dsimp only; rw [e]⟩
  · rw [least_free i hu hl]
    dsimp only
    rw [mod_eq (inService_some hi).1 (f' := fun _ => sl.classified c (some i) .zeroing) rfl]
    rfl

/-- Without a VALID label it ends WRITE FAULT. -/
theorem beginAssign_invalid {x : Addr} (hv : t.label.state ≠ .valid) :
    ∃ u, t.endsService u p k sl .writeFault (some labelAddr) ∧ t.beginAssign p k x = (u, .released) := by
  unfold State.beginAssign
  exact ⟨_, endSlot_service hs hi, if_pos hv⟩

/-- A spare already retired is no change. -/
theorem beginAssign_noChange {x : Addr} (hv : t.label.state = .valid) (hc : classifyTarget t.label x = .noChange) :
    ∃ u, t.endsService u p k (sl.classified .noChange none .zeroing) .done none
      ∧ t.beginAssign p k x = (u, .released) := by
  obtain ⟨u, ended, e⟩ := endSlot_classified hs hi (y := sl.classified .noChange none .zeroing) rfl
    (·.classified .noChange none .zeroing) rfl .done none
  refine ⟨u, ended, ?_⟩
  unfold State.beginAssign
  rw [if_neg (not_not_intro hv), hc]
  exact congrArg (·, Agenda.released) e

end

/-- A free spare is retired by the label's write alone. -/
theorem beginAssign_freeRetired (hi : t.inService = some (p, k, sl)) {x : Addr}
    (hv : t.label.state = .valid) (hc : classifyTarget t.label x = .freeRetired) : t.beginAssign p k x
      = ((t.modSlot p k fun _ => sl.classified .freeRetired none .labelWrite).begun 0 none .labelWrite).goTo labelAddr := by
  unfold State.beginAssign
  rw [if_neg (not_not_intro hv), hc,
    ← mod_eq (inService_some hi).1 (f := (·.classified .freeRetired none .labelWrite)) rfl]
  rfl

/-! The cases of the target (R147). -/

theorem classifyTarget_data {l : Label} {x : Addr} (hc : x.cyl ≠ 384) :
    ((∀ e ∈ l.table, e.bad ≠ x) → classifyTarget l x = .newEntry)
      ∧ ((∃ e ∈ l.table, e.bad = x) → classifyTarget l x = .reSpared) := by
  unfold classifyTarget
  rw [if_neg hc]
  exact ⟨fun hn => by rw [lookup_none hn]; rfl, fun he => if_pos (lookup_isSome he)⟩

theorem classifyTarget_spare {l : Label} {x : Addr} (hc : x.cyl = 384) :
    (x.head * 20 + x.sector ∈ l.retired → classifyTarget l x = .noChange)
      ∧ (x.head * 20 + x.sector ∉ l.retired → (∃ e ∈ l.table, e.spare = x.head * 20 + x.sector) →
          classifyTarget l x = .spareRetired)
      ∧ (x.head * 20 + x.sector ∉ l.retired → (∀ e ∈ l.table, e.spare ≠ x.head * 20 + x.sector) →
          classifyTarget l x = .freeRetired) := by
  unfold classifyTarget
  rw [if_pos hc]
  dsimp only
  refine ⟨fun hr => if_pos (by simpa using hr), fun hr he => ?_, fun hr he => ?_⟩
  · rw [if_neg (by simpa using hr), if_pos (by simpa using he)]
  · rw [if_neg (by simpa using hr), if_neg (by simpa using he)]

end Sys2Proof.Machine

/-! ## What a step carries on with, and whom it serves -/

namespace Sys2Proof.Machine

variable {s t : State} {p : Port} {k : Fin 8} {sl : Slot} {g : Progress} {c : Nat}

theorem stopOrSelect_stops (hp : s.drive.stopPending = true) (hi : s.inService = none) (hq : s.queueLaw) :
    ∃ t, s.spinsDown t ∧ s.stopOrSelect = (t, .idle) :=
  ⟨_, enterSpinningDown_spec (Listed.of hq), if_pos ⟨hp, hi⟩⟩

theorem stopOrSelect_selects (h : s.drive.stopPending = false ∨ s.inService ≠ none) : s.stopOrSelect = s.select := by
  refine if_neg fun ⟨hp, hi⟩ => ?_
  rcases h with h | h
  · rw [hp] at h; cases h
  · exact h hi

/-- A data order is granted its next sector with WRITE for a WRITE, with any right for another. -/
theorem grants_iff (cyl : Nat) : s.grants p sl.needsWrite cyl = true ↔
    if sl.kind = .write then s.map.active.rightOn p cyl = .write else s.map.active.rightOn p cyl ≠ .none := by
  unfold State.grants Slot.needsWrite
  by_cases hk : sl.kind = .write
  · rw [if_pos hk, decide_eq_true hk]
    cases s.map.active.rightOn p cyl <;> simp [Right.allows]
  · rw [if_neg hk, decide_eq_false hk]
    cases s.map.active.rightOn p cyl <;> simp [Right.allows]

/-- With no pass under way the label write awaits its verdict in the stage of the read-back alone. -/
theorem labelOpen_noPass (hp : s.pass = none) (hg : s.progress = some g) :
    s.labelOpen = decide (g.stage = .readBack) := by
  unfold State.labelOpen; rw [hp, hg]; simp

theorem isData_of (hd : sl.kind = .read ∨ sl.kind = .write ∨ sl.kind = .check) : sl.kind.isData = true := by
  rcases hd with h | h | h <;> rw [h] <;> rfl

/-- An order of the label is no order that gives way. -/
theorem keeps_of_label (hk : sl.kind = .initializeLabel ∨ sl.kind = .assignSpare) (pos : Nat) : s.keeps sl c pos := by
  rintro q j ⟨-, kinds, -⟩
  rcases hk with h | h <;> rw [h] at kinds <;> simp at kinds

/-! ### The arrivals of maintenance orders -/

section
variable (hs : s.serviceLaw) (hi : s.inService = some (p, k, sl)) (hg : s.progress = some g) (hp : s.pass = none)
include hs hi hg hp

/-- The arrival of a FORMAT TRACK or a TEST TRACK confirms it, and is a boundary. -/
theorem arrivalBoundary_track (hc : s.pos.cyl = some c) (hk : sl.kind = .formatTrack ∨ sl.kind = .testTrack)
    (hst : g.stage ≠ .readBack) :
    let u : State := { s with pos := { s.pos with activity := .confirmed } }
    let stopped : Prop := sl.withdrawn = true ∨ (s.ports.get p).presence = .lost
    let barred : Prop := sl.kind = .formatTrack ∧ sl.startAddr.cyl ≤ 383
      ∧ s.map.active.rightOn p sl.startAddr.cyl ≠ .write
    (stopped → ∃ t, u.stopsService t p k sl ∧ s.arrivalBoundary = (t, .released))
      ∧ (¬stopped →
        (barred → ∃ t, u.endsService t p k sl .mapChanged (some { sl.startAddr with sector := sl.sectorsDone })
          ∧ s.arrivalBoundary = (t, .released))
        ∧ (¬barred → (∀ q j, u.yields sl c s.pos.position q j → s.arrivalBoundary = (u.setAside p k).handTo q j)
          ∧ (u.keeps sl c s.pos.position → s.arrivalBoundary = (u, .idle)))) := by
  intro u stopped barred
  have arrived := arrivalBoundary_maint hi (by rcases hk with h | h <;> rw [h] <;> rfl)
  rw [show s.arrivedFor sl = u from if_pos hk] at arrived
  have closed : u.labelOpen = false := (labelOpen_noPass hp hg).trans (decide_eq_false hst)
  have spec := maintThen_arrival (s := u) (c := c) (serviceLaw_of_queues hs rfl) ((inService_of_queues rfl).trans hi) closed
    hc arrived
  rw [formatBarred_iff] at spec
  exact spec

/-- The arrival of an order of the label is a boundary, but not between the label write and its read-back's verdict. -/
theorem arrivalBoundary_label (hc : s.pos.cyl = some c) (hk : sl.kind = .initializeLabel ∨ sl.kind = .assignSpare) :
    let stopped : Prop := sl.withdrawn = true ∨ (s.ports.get p).presence = .lost
    (g.stage ≠ .readBack → (stopped → ∃ t, s.stopsService t p k sl ∧ s.arrivalBoundary = (t, .released))
      ∧ (¬stopped → s.arrivalBoundary = (s, .idle)))
    ∧ (g.stage = .readBack → s.arrivalBoundary = (s, .idle)) := by
  intro stopped
  have arrived := arrivalBoundary_maint hi (by rcases hk with h | h <;> rw [h] <;> rfl)
  have unconfirmed : s.arrivedFor sl = s := if_neg (by rcases hk with h | h <;> rw [h] <;> simp)
  rw [unconfirmed] at arrived
  have pending := labelOpen_noPass hp hg
  refine ⟨fun hst => ?_, fun hst => ?_⟩
  · obtain ⟨stops, goes⟩ := maintThen_arrival hs hi (pending.trans (decide_eq_false hst)) hc arrived
    have unbarred : ¬s.formatBarred p sl = true := by
      rw [formatBarred_iff]; rcases hk with h | h <;> rw [h] <;> simp
    exact ⟨stops, fun free => ((goes free).2 unbarred).2 (keeps_of_label hk _)⟩
  · exact arrived.trans (maintThen_open hi (pending.trans (decide_eq_true hst)) hk _ _)

end

/-! ### The order that the actuator is handed to -/

/-- Settles O55: candidates, the three steps and handing over, from the rules of each. -/
theorem aSelectionTakesPromptOrdersFirst : Obligations.ASelectionTakesPromptOrdersFirst := by
  intro s
  refine ⟨fun m => ⟨by cases m <;> rfl, rfl, rfl, rfl⟩, rfl, rfl, stopOrSelect_stops, stopOrSelect_selects,
    fun h => select_not fun hm => hm.2 h, fun h => by unfold State.arrivalBoundary; rw [h], fun c pos hc hpos => ?_⟩
  subst hpos
  intro may slack wait barred noPrompt
  refine ⟨fun h => select_not fun hm => h hm.1, fun p k sl g hs hi hg hp => ?_, clashes_iff, extent_eq,
    fun p k sl => mem_promptOffers_iff, fun p k sl => routineHead_iff, fun p k sl b => promptCandidate_first,
    fun p => promptCandidate_none_iff, fun hm hn => ?_, fun p k sl hm hn hsus hb => ?_, fun hm hn hsus => ?_,
    fun p k sl h hi => ?_⟩
  · intro stopped stops changed goesOn confirmed
    refine ⟨fun hd => ?_, arrivalBoundary_track hs hi hg hp hc, arrivalBoundary_label hs hi hg hp hc⟩
    have spec := arrivalBoundary_data hs hi hg hc (isData_of hd)
    rw [grants_iff] at spec
    exact spec
  · obtain ⟨⟨p, k, sl⟩, found⟩ := Option.ne_none_iff_exists'.mp (mt stepOne_none_iff.mp hn)
    have first := (stepOne_iff ..).mp found
    exact ⟨p, k, sl, select_stepOne hm hc first, first⟩
  · exact select_stepTwo hm hc (stepOne_none_iff.mpr hn) (suspendedCandidate_of hsus hb)
  · have none1 := stepOne_none_iff (c := c) (pos := s.pos.position).mpr hn
    have none2 := suspendedCandidate_none hsus
    refine ⟨fun hh => select_nothing hm hc none1 none2 (stepThree_none hh), fun p k sl head => ?_⟩
    intro taken
    obtain ⟨cleared, counted⟩ := bypassAfter_get s p
    have takes (waiting : Bool) (hw : (s.routineHead p.other).isSome = waiting)
        (h : s.stepThree c s.pos.position = some (p, k, sl)) : taken waiting :=
      ⟨_, cleared, by rw [counted, hw], select_stepThree hm hc none1 none2 h⟩
    refine ⟨fun alone => takes false (by rw [alone]; rfl) (stepThree_alone head alone), fun j x other law => ?_⟩
    have waiting : (s.routineHead p.other).isSome = true := by rw [other]; rfl
    exact ⟨fun h4 => takes true waiting (stepThree_passedOver head other law.2.2 h4),
      fun h4 h4' sooner => takes true waiting (stepThree_sooner head other h4 h4' sooner)⟩
  · intro y t goes begun ends
    obtain ⟨formats, tests, initializes, assigns, moves⟩ := handTo_eq h
    obtain ⟨law, service⟩ := one_inService (t := t) h hi _ rfl
    refine ⟨fun hk => ?_, fun hk => ?_, fun hk => ?_, fun hk => ?_, fun hk => ?_⟩
    · exact (formats hk).trans (goTo_of_pos rfl _)
    · exact (tests hk).trans (goTo_of_pos rfl _)
    · exact (initializes hk).trans (goTo_of_pos rfl _)
    · intro a
      obtain ⟨own, spare⟩ := beginData_eq (s := s) (t := t) (sl := y) rfl rfl
      exact ⟨fun hn => (moves hk).trans (own hn), fun e he hb hu => (moves hk).trans (spare e he hb hu)⟩
    · intro x j told unused spared
      have assigned : s.handTo p k = t.beginAssign p k x := assigns hk
      have ending {z : Slot} {e : Ending} {fault : Option Addr}
          (h : ∃ u, t.endsService u p k z e fault ∧ t.beginAssign p k x = (u, .released)) : ends z e fault := by
        rw [← assigned] at h; exact h
      have spares {c : AssignCase} (hv : s.label.state = .valid) (hc : classifyTarget s.label x = c)
          (takes : c.takesSpare = true) : spared c (wordOf c.code) := by
        obtain ⟨exhausted, least⟩ := beginAssign_spared law service (x := x) hv hc takes
        exact ⟨fun hn => ending (exhausted hn), fun i hu hl => assigned.trans ((least i hu hl).trans (goTo_of_pos rfl _))⟩
      refine ⟨fun hv => ending (beginAssign_invalid law service hv), fun hv hx => ⟨fun hn => ?_, fun he => ?_⟩,
        fun hv hx => ⟨fun hr => ?_, fun hr he => ?_, fun hr he => ?_⟩⟩
      · exact spares hv ((classifyTarget_data hx).1 hn) rfl
      · exact spares hv ((classifyTarget_data hx).2 he) rfl
      · exact ending (beginAssign_noChange law service hv ((classifyTarget_spare hx).1 hr))
      · exact spares hv ((classifyTarget_spare hx).2.1 hr he) rfl
      · exact assigned.trans ((beginAssign_freeRetired service hv ((classifyTarget_spare hx).2.2 hr he)).trans
          (goTo_of_pos rfl _))

end Sys2Proof.Machine

/-! ## The region map stays free of conflict (R20, R31) -/

namespace Sys2Proof.Machine

variable {c : Instr} {s t : State}

/-- No move touches a plan. -/
theorem Move.mapLaw (m : Move s t) (hs : s.mapLaw) : t.mapLaw := by
  unfold State.mapLaw
  rw [m.still.map]
  exact hs

/-- A map load takes a plan free of conflict, and a WRITE PLAN stages one; no other act touches a plan. -/
theorem Act.mapLaw (m : Act c s t) (hs : s.mapLaw) : t.mapLaw := by
  obtain ⟨active, plan1, plan2⟩ := id hs
  cases m with
  | active m o hm => exact ⟨hm hs, plan1, plan2⟩
  | plan1 m hm _ => exact ⟨active, hm, plan2⟩
  | plan2 m hm _ => exact ⟨active, plan1, hm⟩
  | _ => exact hs

/-- A command that is no reset keeps every plan free of conflict: its orders enter slots alone. -/
theorem Run.mapLaw (r : Run c s t) (hs : s.mapLaw) : t.mapLaw :=
  r.keeps (I := State.mapLaw) Move.mapLaw Act.mapLaw (fun _ _ _ _ _ _ _ h => h) (fun _ _ _ _ _ _ _ h => h) hs

/-- The plans a reset starts from are free of conflict: the fixed one, and staged ones that are empty or kept (R16,
R27). -/
theorem resetMap_conflictFree {m : MapUnit} (hs : s.mapLaw)
    (hm : m = .powerOn ∨ m = { MapUnit.powerOn with plan1 := s.map.plan1, plan2 := s.map.plan2 }) :
    m.active.conflictFree = true ∧ m.plan1.conflictFree = true ∧ m.plan2.conflictFree = true := by
  obtain ⟨-, plan1, plan2⟩ := hs
  rcases hm with rfl | rfl
  · decide
  · exact ⟨fixed_conflictFree, plan1, plan2⟩

/-- Settles O8: a tick touches no plan, a command is a run, and a reset a run from plans free of conflict. -/
theorem theMapStaysConflictFree : Obligations.TheMapStaysConflictFree := by
  intro s t hs h
  rcases step_cases s t h with ⟨-, rfl⟩ | ⟨c, rest, -, -, -, r⟩ | ⟨c, rest, lines, disk, map, guard, -, -, -, hm, r⟩
  · exact hs
  · exact r.mapLaw hs
  · exact r.mapLaw (resetMap_conflictFree hs hm)

end Sys2Proof.Machine

/-! ## Regions, rights and spans (R1, R15, R17, R18) -/

namespace Sys2Proof.Machine

theorem allows_write {r : Right} : r.allows true = true ↔ r = .write := by cases r <;> simp [Right.allows]

theorem allows_read {r : Right} : r.allows false = true ↔ r ≠ .none := by cases r <;> simp [Right.allows]

/-- A right allows a data order of a kind: WRITE for a WRITE, any right for another (R18). -/
theorem allows_kind {r : Right} {kind : Kind} : r.allows (decide (kind = .write)) = true ↔
    if kind = .write then r = .write else r ≠ .none := by
  by_cases h : kind = .write
  · rw [if_pos h, decide_eq_true h, allows_write]
  · rw [if_neg h, decide_eq_false h, allows_read]

/-- The address numbered `n` stands at number `n`, on a head and a sector of the disk (R1). -/
theorem ofLinear_linear (n : Nat) :
    (Addr.ofLinear n).cyl * 80 + (Addr.ofLinear n).head * 20 + (Addr.ofLinear n).sector = n
    ∧ (Addr.ofLinear n).head ≤ 3 ∧ (Addr.ofLinear n).sector ≤ 19 := by
  simp only [Addr.ofLinear]
  omega

theorem linear_blockAddr (f b : Nat) : (blockAddr f b).linear = f * 80 + b := by
  simp only [blockAddr, Addr.linear]
  omega

/-- The `i`-th sector from block `b` of a region lies on the cylinder of block `b + i` (R17). -/
theorem cyl_ofLinear_block (f b i : Nat) : (Addr.ofLinear ((blockAddr f b).linear + i)).cyl = f + (b + i) / 80 := by
  simp only [linear_blockAddr, Addr.ofLinear]
  omega

/-- A cylinder of a span has a property exactly where one of the span's blocks lies on such a cylinder (R17, R40). -/
theorem any_spanCylinders {f b n : Nat} {P : Nat → Bool} :
    (spanCylinders (blockAddr f b) n).any P = true ↔ ∃ i, i < n ∧ P (f + (b + i) / 80) = true := by
  simp only [spanCylinders, List.any_map, List.any_eq_true, List.mem_range, Function.comp_apply, cyl_ofLinear_block]

end Sys2Proof.Machine

/-! ## The own checks of the data orders (R17, R18, R40, R52) -/

namespace Sys2Proof.Machine

variable {s : State} {p : Port} {k : Packet} {e : PlanEntry} {writes verify : Bool}

theorem region_eq_some (he : s.map.active.toList[k.num 0]? = some e) (hu : e.inUse = true) : s.region k = some e := by
  simp [State.region, he, hu]

theorem region_eq_none (h : ∀ e, s.map.active.toList[k.num 0]? = some e → e.inUse = false) : s.region k = none := by
  unfold State.region
  cases he : s.map.active.toList[k.num 0]? with
  | none => rfl
  | some e => simp [h e he]

theorem dataStart_eq (he : s.region k = some e) : s.dataStart k = blockAddr e.first (k.num 1) := by
  simp [State.dataStart, he]

theorem dataChecks_notReady (hr : s.drive.state.serving = false) :
    s.dataChecks p writes verify k = some .notReady := by
  simp [State.dataChecks, State.notReady, hr]

theorem dataChecks_badCount (hr : s.drive.state.serving = true) (hn : ¬(1 ≤ k.num 2 ∧ k.num 2 ≤ 64)) :
    s.dataChecks p writes verify k = some .badCount := by
  have count : k.num 2 = 0 ∨ 64 < k.num 2 := by omega
  simp [State.dataChecks, State.notReady, hr, count]

theorem dataChecks_noRegion (hr : s.drive.state.serving = true) (hn : 1 ≤ k.num 2 ∧ k.num 2 ≤ 64)
    (he : s.region k = none) : s.dataChecks p writes verify k = some .noRegion := by
  have count : ¬(k.num 2 = 0 ∨ 64 < k.num 2) := by omega
  simp [State.dataChecks, State.notReady, hr, count, State.mapChecks, he]

/-- The checks that are left once a region is named: the right, the end of the region, and the track (R18, R52). -/
theorem dataChecks_region (hr : s.drive.state.serving = true) (hn : 1 ≤ k.num 2 ∧ k.num 2 ≤ 64)
    (he : s.region k = some e) : s.dataChecks p writes verify k =
      if (e.right p).allows writes = false then some .noAccess
      else if e.blocks < k.num 1 + k.num 2 then some .outOfRegion
      else if (k.urgency = 1 ∨ verify = true) ∧ 20 < k.num 1 % 20 + k.num 2 then some .trackSpan else none := by
  have count : ¬(k.num 2 = 0 ∨ 64 < k.num 2) := by omega
  unfold State.dataChecks
  rw [if_neg (by simp [State.notReady, hr]), if_neg count]
  unfold State.mapChecks
  rw [dataStart_eq he, he]
  dsimp only [blockAddr]
  by_cases held : (e.right p).allows writes = false
  · rw [if_pos held, if_pos held]
  · rw [if_neg held, if_neg held]
    by_cases fits : e.blocks < k.num 1 + k.num 2
    · rw [if_pos fits, if_pos fits]
    · simp only [if_neg fits]
      rfl

/-- A data order that holds its right, fits its region and keeps to its track passes the shared checks (R52). -/
theorem dataChecks_pass (hr : s.drive.state.serving = true) (hn : 1 ≤ k.num 2 ∧ k.num 2 ≤ 64)
    (he : s.region k = some e) (held : (e.right p).allows writes = true)
    (fits : k.num 1 + k.num 2 ≤ e.blocks)
    (onTrack : k.urgency = 1 ∨ verify = true → k.num 1 % 20 + k.num 2 ≤ 20) :
    s.dataChecks p writes verify k = none := by
  rw [dataChecks_region hr hn he, if_neg (by simp [held]), if_neg (by omega), if_neg]
  rintro ⟨h, long⟩
  have := onTrack h
  omega

/-- A WRITE is refused by the checks it shares with the others before its own (R52). -/
theorem writeOwn_shared {r : Refuse} (h : s.dataChecks p true k.verify k = some r) :
    writeRule.own s p k = some r := by
  simp only [writeRule, h]

/-- The two checks that are a WRITE's alone: the guard over its span, then the label (R40, R52). -/
theorem writeOwn_eq (h : s.dataChecks p true k.verify k = none) (he : s.region k = some e) :
    writeRule.own s p k =
      if ∃ i, i < k.num 2 ∧ s.guard.protectsData (e.first + (k.num 1 + i) / 80) = true then some .guarded
      else if s.label.state ≠ .valid then some .unlabelled else none := by
  simp only [writeRule, h, dataStart_eq he, any_spanCylinders]

end Sys2Proof.Machine

/-! ## Acceptance and refusal of a sound packet (R51, R55 to R57) -/

namespace Sys2Proof.Machine

variable {s v : State} {p : Port} {tag : Byte} {w1 w2 : Word} {fields : List Word} {k : Fin 8} {o : OrderRule}

/-- The general checks let a sound packet through to its kind's own: a slot is FREE, its tag in use by none, and the
latch set where it is needed (R51). -/
theorem judgeOrder_eq_own (hk : ∃ k, s.slotFor p tag k) (hu : field w1 15 8 ≤ 1) (hd : field w1 7 0 ≤ 1)
    (hs : o.shape (packetOf tag w1 w2 fields) = true)
    (ha : o.needsArm (packetOf tag w1 w2 fields) = true → (s.ports.get p).armed = true) :
    s.judgeOrder p o.kind (packetOf tag w1 w2 fields) (o.shape (packetOf tag w1 w2 fields))
      (o.needsArm (packetOf tag w1 w2 fields)) (o.own s p (packetOf tag w1 w2 fields))
      = o.own s p (packetOf tag w1 w2 fields) := by
  obtain ⟨k, hk⟩ := hk
  obtain ⟨free, untagged⟩ := slotFor_spec hk
  have header : (packetOf tag w1 w2 fields).headerOk = true := by simp [Packet.headerOk, packetOf, hu, hd]
  have armed : ¬(o.needsArm (packetOf tag w1 w2 fields) = true ∧ (s.ports.get p).armed = false) := by
    rintro ⟨needs, unarmed⟩
    rw [ha needs] at unarmed
    cases unarmed
  have tagEq : (packetOf tag w1 w2 fields).tag = tag := rfl
  unfold State.judgeOrder
  simp [header, hs, free, tagEq, untagged, armed]

/-- A sound packet that its kind's own checks turn away is refused with their code (R51, R56). -/
theorem orderPacket_refusedOwn {x : Refuse} (hk : ∃ k, s.slotFor p tag k)
    (hc : s.completes p (fields.length + 3) = true) (hu : field w1 15 8 ≤ 1) (hd : field w1 7 0 ≤ 1)
    (hs : o.shape (packetOf tag w1 w2 fields) = true)
    (ha : o.needsArm (packetOf tag w1 w2 fields) = true → (s.ports.get p).armed = true)
    (hw : o.own s p (packetOf tag w1 w2 fields) = some x) :
    s.orderPacket p o tag (w1 :: w2 :: fields) = s.refusedWith p x := by
  rw [orderPacket_refused hc ((judgeOrder_eq_own hk hu hd hs ha).trans hw)]
  unfold State.refuse State.refusedWith State.disarm State.answer
  cases p <;> rfl

/-- A sound data order is counted by its length and queued in the FREE slot found, and it is answered ACCEPTED (R46,
R55, R168). -/
theorem orderPacket_queued {kind : Kind} {verify : Bool} (hk : s.slotFor p tag k)
    (hc : s.completes p (fields.length + 3) = true) (hu : field w1 15 8 ≤ 1) (hd : field w1 7 0 ≤ 1)
    (hs : o.shape (packetOf tag w1 w2 fields) = true)
    (ha : o.needsArm (packetOf tag w1 w2 fields) = false) (hw : o.own s p (packetOf tag w1 w2 fields) = none)
    (he : ∀ t, o.accept t p (packetOf tag w1 w2 fields) = t.acceptData p kind verify (packetOf tag w1 w2 fields))
    {start : Addr} {n : Nat}
    (hstart : s.dataStart (packetOf tag w1 w2 fields) = start) (hn : (packetOf tag w1 w2 fields).num 2 = n) :
    s.orderPacket p o tag (w1 :: w2 :: fields)
      = ((((s.disarm p).count p (lengthBucket n)).slotTaken p k
        (Slot.ofData kind (packetOf tag w1 w2 fields) verify start n s.tick)).schedule.judgeAlarm).acceptedWith p := by
  have slot : ((s.disarm p).count p (lengthBucket n)).slotFor p tag k := slotFor_congr rfl hk
  subst hstart hn
  rw [orderPacket_accepted hc hu hd hs (.inr ⟨k, hk⟩) (.inl ha) hw, he, State.acceptData, State.enqueue,
    enterSlot_at slot]
  rfl

end Sys2Proof.Machine

/-! ## READ, WRITE and CHECK: accepted, or refused by their own checks -/

namespace Sys2Proof.Machine

section
variable {tag : Byte} {w1 w2 r b n v : Word}

theorem writeRule_shape (hv : v.toNat ≤ 1) : writeRule.shape (packetOf tag w1 w2 [r, b, n, v]) = true := by
  simp [writeRule, packetOf, Packet.num, wordAt, hv]

theorem verify_packetOf : (packetOf tag w1 w2 [r, b, n, v]).verify = decide (v = 1) :=
  decide_eq_decide.mpr toNat_eq_one

end

/-- Settles O23: the shared checks pass, and the sectors are numbered on from the translated start. -/
theorem aReadOrCheckIsAccepted : Obligations.AReadOrCheckIsAccepted := by
  intro s p tag w1 w2 r b n k e hc hk hu hd ready he inUse held low high fits onTrack kind hkind prompt sl u
  have region : s.region (packetOf tag w1 w2 [r, b, n]) = some e := region_eq_some he inUse
  have checks : s.dataChecks p false false (packetOf tag w1 w2 [r, b, n]) = none :=
    dataChecks_pass ((serving_iff _).mpr ready) ⟨low, high⟩ region (allows_read.mpr held) fits fun h =>
      onTrack (h.resolve_right (by simp))
  refine ⟨?_, fun i => ?_⟩
  · rcases hkind with rfl | rfl
    · exact congrArg _ (orderPacket_queued (o := readRule) (fields := [r, b, n]) hk hc hu hd rfl rfl checks
        (fun _ => rfl) (dataStart_eq region) rfl)
    · exact congrArg _ (orderPacket_queued (o := checkRule) (fields := [r, b, n]) hk hc hu hd rfl rfl checks
        (fun _ => rfl) (dataStart_eq region) rfl)
  · have number : sl.sectorAddr i = Addr.ofLinear (e.first * 80 + b.toNat + i) :=
      congrArg (fun n => Addr.ofLinear (n + i)) (linear_blockAddr e.first b.toNat)
    dsimp only
    rw [number]
    exact ofLinear_linear _

/-- Settles O24: the shared checks pass, no cylinder of the span is protected, and the label is VALID. -/
theorem aWriteIsAccepted : Obligations.AWriteIsAccepted := by
  intro s p tag w1 w2 r b n v k e hc hk hu hd hv ready he inUse held low high fits onTrack unguarded label prompt sl u
  have region : s.region (packetOf tag w1 w2 [r, b, n, v]) = some e := region_eq_some he inUse
  have checks : s.dataChecks p true (decide (v = 1)) (packetOf tag w1 w2 [r, b, n, v]) = none :=
    dataChecks_pass ((serving_iff _).mpr ready) ⟨low, high⟩ region (allows_write.mpr held) fits fun h =>
      onTrack (h.imp_right of_decide_eq_true)
  have own : writeRule.own s p (packetOf tag w1 w2 [r, b, n, v]) = none := by
    rw [writeOwn_eq (verify_packetOf ▸ checks) region, if_neg, if_neg (not_not.mpr label)]
    rintro ⟨i, hi, guarded⟩
    exact absurd ((unguarded i hi).symm.trans guarded) (by decide)
  exact congrArg _ (orderPacket_queued (o := writeRule) (fields := [r, b, n, v]) hk hc hu hd (writeRule_shape hv) rfl
    own (fun _ => by rw [← verify_packetOf]; rfl) (dataStart_eq region) rfl)

section
variable {s : State} {p : Port} {tag : Byte} {w1 w2 r b n v : Word} {kind : Kind} {fields : List Word} {x : Refuse}

/-- A sound WRITE that its checks turn away is refused with their code (R52). -/
theorem write_refused (hk : ∃ k, s.slotFor p tag k) (hu : field w1 15 8 ≤ 1) (hd : field w1 7 0 ≤ 1) (hv : v.toNat ≤ 1)
    (hc : s.completes p 7 = true) (h : writeRule.own s p (packetOf tag w1 w2 [r, b, n, v]) = some x) :
    exec (.write p tag [w1, w2, r, b, n, v]) s = .next (s.refusedWith p x) :=
  congrArg _ (orderPacket_refusedOwn (o := writeRule) (fields := [r, b, n, v]) hk hc hu hd (writeRule_shape hv)
    (fun h => absurd h Bool.false_ne_true) h)

/-- A sound data order that the shared checks turn away is refused with their code (R52). -/
theorem dataOrder_refused (hkind : kind = .read ∨ kind = .write ∨ kind = .check) (hk : ∃ k, s.slotFor p tag k)
    (hu : field w1 15 8 ≤ 1) (hd : field w1 7 0 ≤ 1) (hv : v.toNat ≤ 1)
    (hf : fields = [r, b, n] ++ (if kind = .write then [v] else [])) (hc : s.completes p (fields.length + 3) = true)
    (h : s.dataChecks p (decide (kind = .write)) (decide (kind = .write ∧ v = 1)) (packetOf tag w1 w2 fields)
      = some x) :
    exec (kind.packet p tag (w1 :: w2 :: fields)) s = .next (s.refusedWith p x) := by
  have unarmed : ¬false = true := Bool.false_ne_true
  subst hf
  rcases hkind with rfl | rfl | rfl
  · exact congrArg _ (orderPacket_refusedOwn (o := readRule) hk hc hu hd rfl (fun h => absurd h unarmed) h)
  · exact write_refused hk hu hd hv hc (writeOwn_shared (by rw [verify_packetOf]; simpa using h))
  · exact congrArg _ (orderPacket_refusedOwn (o := checkRule) hk hc hu hd rfl (fun h => absurd h unarmed) h)

end

/-- Settles O34: the shared checks one by one, then the two of a WRITE. -/
theorem dataOrdersAreRefusedInOrder : Obligations.DataOrdersAreRefusedInOrder := by
  intro s p tag w1 w2 r b n v kind hkind hk hu hd hv fields hf hc refused ready counted
  have shared {x : Refuse} := dataOrder_refused (x := x) (w2 := w2) hkind hk hu hd hv hf hc
  have serving : ready → s.drive.state.serving = true := (serving_iff _).mpr
  have writes (hw : kind = .write) {x : Refuse} (h : writeRule.own s p (packetOf tag w1 w2 fields) = some x) :
      refused x := by
    subst hw hf
    exact write_refused hk hu hd hv hc h
  have verify (hw : kind = .write) : (packetOf tag w1 w2 fields).verify = decide (kind = .write ∧ v = 1) := by
    subst hw hf
    exact verify_packetOf.trans (by simp)
  have region : (packetOf tag w1 w2 fields).num 0 = r.toNat := by rw [hf]; rfl
  have block : (packetOf tag w1 w2 fields).num 1 = b.toNat := by rw [hf]; rfl
  have number : (packetOf tag w1 w2 fields).num 2 = n.toNat := by rw [hf]; rfl
  have urgency : (packetOf tag w1 w2 fields).urgency = field w1 15 8 := rfl
  generalize packetOf tag w1 w2 fields = K at *
  refine ⟨fun hr => shared (dataChecks_notReady ?_), fun hr hn => shared (dataChecks_badCount (serving hr) ?_),
    fun hr hn he => shared (dataChecks_noRegion (serving hr) ?_ (region_eq_none ?_)), ?_⟩
  · rwa [← Bool.not_eq_true, serving_iff]
  · rwa [number]
  · rwa [number]
  · rwa [region]
  intro e hr hn he inUse held fits onTrack
  have entry : s.region K = some e := region_eq_some (by rw [region]; exact he) inUse
  have left := dataChecks_region (p := p) (writes := decide (kind = .write)) (verify := decide (kind = .write ∧ v = 1))
    (serving hr) (number ▸ hn) entry
  have allowed : (e.right p).allows (decide (kind = .write)) = false ↔ ¬held := by
    rw [← Bool.not_eq_true]; exact not_congr allows_kind
  have room : e.blocks < K.num 1 + K.num 2 ↔ ¬fits := by rw [block, number]; exact Nat.not_le.symm
  have track : (K.urgency = 1 ∨ decide (kind = .write ∧ v = 1) = true) ∧ 20 < K.num 1 % 20 + K.num 2 ↔ ¬onTrack := by
    rw [block, number, urgency, decide_eq_true_eq, Classical.not_imp, Nat.not_le]
  simp only [allowed, room, track] at left
  have own (hw : kind = .write) (h1 : held) (h2 : fits) (h3 : onTrack) := writeOwn_eq (s := s) (p := p) (k := K)
    (by rw [verify hw, ← decide_eq_true hw, left]; simp [h1, h2, h3]) entry
  rw [block, number] at own
  refine ⟨fun h1 => shared (left.trans (if_pos h1)), fun h1 h2 => shared ?_, fun h1 h2 h3 => shared ?_,
    fun hw h1 h2 h3 guarded => writes hw ?_, fun hw h1 h2 h3 unguarded label => writes hw ?_⟩
  · rw [left, if_neg (not_not.mpr h1), if_pos h2]
  · rw [left, if_neg (not_not.mpr h1), if_neg (not_not.mpr h2), if_pos h3]
  · rw [own hw h1 h2 h3, if_pos guarded]
  · rw [own hw h1 h2 h3, if_neg, if_pos label]
    rintro ⟨i, hi, guarded⟩
    exact absurd ((unguarded i hi).symm.trans guarded) (by decide)

end Sys2Proof.Machine

/-! ## Plans: their words, their entries, and freedom from conflict (R15, R20, R31) -/

namespace Sys2Proof.Machine

/-- A right field of two bits holds a right, the one its code names, or 3, which is none (12, section 12.3). -/
theorem ofCode_cases {n : Nat} (h : n ≤ 3) : (n = 3 ∧ Right.ofCode n = none)
    ∨ n ≠ 3 ∧ ∃ x, Right.ofCode n = some x ∧ [Right.none, .read, .write][n]? = some x := by
  match n, h with
  | 0, _ => exact .inr ⟨by decide, .none, rfl, rfl⟩
  | 1, _ => exact .inr ⟨by decide, .read, rfl, rfl⟩
  | 2, _ => exact .inr ⟨by decide, .write, rfl, rfl⟩
  | 3, _ => exact .inl ⟨rfl, rfl⟩

theorem rightFields_le (w : Word) : field w 3 2 ≤ 3 ∧ field w 1 0 ≤ 3 := by
  simp only [field]
  omega

/-- Three words hold an entry exactly where neither right field is 3 (12, section 12.3). -/
theorem ofWords_cases (w0 w1 w2 : Word) :
    ((field w0 3 2 = 3 ∨ field w0 1 0 = 3) ∧ PlanEntry.ofWords w0 w1 w2 = none)
    ∨ (field w0 3 2 ≠ 3 ∧ field w0 1 0 ≠ 3) ∧ ∃ e, PlanEntry.ofWords w0 w1 w2 = some e ∧ e.inWords w0 w1 w2 := by
  obtain ⟨ha, hb⟩ := rightFields_le w0
  unfold PlanEntry.ofWords
  rcases ofCode_cases ha with ⟨a3, ea⟩ | ⟨a3, ra, ea, la⟩
  · rw [ea]
    exact .inl ⟨.inl a3, rfl⟩
  · rcases ofCode_cases hb with ⟨b3, eb⟩ | ⟨b3, rb, eb, lb⟩
    · rw [ea, eb]
      exact .inl ⟨.inr b3, rfl⟩
    · rw [ea, eb]
      exact .inr ⟨⟨a3, b3⟩, _, rfl, rfl, la, lb, rfl, rfl⟩

/-- Words hold `m` entries exactly where no right field of theirs is 3, and each entry is the one its three words hold
(12, section 12.1). -/
theorem planEntriesOf_cases : ∀ (m : Nat) (ws : List Word), 3 * m ≤ ws.length →
    ((∃ i < m, field (wordAt ws (3 * i)) 3 2 = 3 ∨ field (wordAt ws (3 * i)) 1 0 = 3) ∧ planEntriesOf m ws = none)
    ∨ (∀ i < m, field (wordAt ws (3 * i)) 3 2 ≠ 3 ∧ field (wordAt ws (3 * i)) 1 0 ≠ 3)
      ∧ ∃ es, planEntriesOf m ws = some es ∧ es.length = m ∧ ∀ i (e : PlanEntry), es[i]? = some e →
          e.inWords (wordAt ws (3 * i)) (wordAt ws (3 * i + 1)) (wordAt ws (3 * i + 2)) := by
  intro m
  induction m with
  | zero => intro ws _; exact .inr ⟨by simp, [], rfl, rfl, by simp⟩
  | succ m ih =>
    intro ws h
    match ws, h with
    | w0 :: w1 :: w2 :: rest, h =>
      have later (i j : Nat) : wordAt (w0 :: w1 :: w2 :: rest) (3 * (i + 1) + j) = wordAt rest (3 * i + j) := by
        rw [show 3 * (i + 1) + j = 3 * i + j + 1 + 1 + 1 by omega]
        rfl
      rcases ih rest (by simp only [List.length_cons] at h; omega) with
        ⟨⟨i, hi, bad⟩, none'⟩ | ⟨good, es, some', len, read⟩
      · refine .inl ⟨⟨i + 1, by omega, by simpa only [Nat.add_zero] using later i 0 ▸ bad⟩, ?_⟩
        simp [planEntriesOf, none']
      · rcases ofWords_cases w0 w1 w2 with ⟨bad, e0⟩ | ⟨good0, e, e0, read0⟩
        · exact .inl ⟨⟨0, by omega, bad⟩, by simp [planEntriesOf, e0]⟩
        · refine .inr ⟨fun i hi => ?_, e :: es, by simp [planEntriesOf, e0, some'], by simp [len], fun i x hx => ?_⟩
          · cases i with
            | zero => exact good0
            | succ i => exact later i 0 ▸ good i (by omega)
          · cases i with
            | zero => cases hx; exact read0
            | succ i =>
              have first : wordAt (w0 :: w1 :: w2 :: rest) (3 * (i + 1)) = wordAt rest (3 * i) := later i 0
              rw [first, later i 1, later i 2]
              exact read i x hx

/-- The entries of a list stand from their number on, and every other entry is as it was (R20). -/
theorem putFrom_getElem : ∀ (es : List PlanEntry) (x : Plan) (f : Nat), f + es.length ≤ 16 → ∀ i : Fin 16,
    (x.putFrom f es)[i] = if f ≤ i.val then (es[i.val - f]?).getD x[i] else x[i] := by
  intro es
  induction es with
  | nil => intro x f _ i; simp [Plan.putFrom]
  | cons e es ih =>
    intro x f h i
    rw [Plan.putFrom, ih _ _ (by simp only [List.length_cons] at h; omega)]
    rcases Nat.lt_trichotomy f i.val with lt | eq | gt
    · rw [if_pos (by omega), if_pos (by omega), show i.val - f = i.val - (f + 1) + 1 by omega]
      simp [Nat.ne_of_lt lt]
    · subst eq
      simp
    · rw [if_neg (by omega), if_neg (by omega)]
      simp [Nat.ne_of_gt gt]

/-- A list is free of conflict where no two of its entries, at different places, conflict (R20, R31). -/
theorem conflictFree_iff_pairwise (l : List PlanEntry) :
    Machine.conflictFree l = true ↔ l.Pairwise fun e f => e.conflicts f = false := by
  induction l with
  | nil => simp [Machine.conflictFree]
  | cons e l ih => simp [Machine.conflictFree, ih]

theorem covers_iff {e : PlanEntry} {c : Nat} : e.covers c = true ↔ e.inUse = true ∧ e.first ≤ c ∧ c ≤ e.last := by
  simp [PlanEntry.covers, and_assoc]

/-- Two entries whose cylinders are in order conflict where both cover some cylinder (R20). -/
theorem conflicts_iff_meet {e f : PlanEntry} (he : e.first ≤ e.last) (hf : f.first ≤ f.last) :
    e.conflicts f = true ↔ ∃ c, e.covers c = true ∧ f.covers c = true := by
  simp only [covers_iff, PlanEntry.conflicts, Bool.and_eq_true, Bool.not_eq_true', Bool.or_eq_false_iff,
    decide_eq_false_iff_not]
  constructor
  · rintro ⟨⟨ue, uf⟩, above, below⟩
    exact ⟨max e.first f.first, ⟨ue, by omega, by omega⟩, uf, by omega, by omega⟩
  · rintro ⟨c, ⟨ue, e1, e2⟩, uf, f1, f2⟩
    exact ⟨⟨ue, uf⟩, by omega, by omega⟩

section
variable {x : Plan} {p : Port} {c : Nat}

/-- A plan whose entries' cylinders are in order is free of conflict where no cylinder is covered twice (R20, R31). -/
theorem conflictFree_iff_unique (hx : ∀ i : Fin 16, x[i].first ≤ x[i].last) : x.conflictFree = true ↔
    ∀ (i j : Fin 16) (c : Nat), x[i].covers c = true → x[j].covers c = true → i = j := by
  have apart (i j : Fin 16) : x[i].conflicts x[j] = false ↔ ∀ c, ¬(x[i].covers c = true ∧ x[j].covers c = true) := by
    rw [← Bool.not_eq_true, conflicts_iff_meet (hx i) (hx j), not_exists]
  have pairs : x.conflictFree = true ↔ ∀ i j : Fin 16, i < j → x[i].conflicts x[j] = false := by
    rw [Plan.conflictFree, conflictFree_iff_pairwise, List.pairwise_iff_getElem]
    simp only [Vector.getElem_toList, Vector.length_toList]
    exact ⟨fun h i j => h i j i.isLt j.isLt, fun h i j hi hj => h ⟨i, hi⟩ ⟨j, hj⟩⟩
  rw [pairs]
  constructor
  · intro h i j c hi hj
    rcases lt_trichotomy i j with lt | eq | gt
    · exact absurd ⟨hi, hj⟩ ((apart i j).mp (h i j lt) c)
    · exact eq
    · exact absurd ⟨hj, hi⟩ ((apart j i).mp (h j i gt) c)
  · intro h i j lt
    exact (apart i j).mpr fun c ⟨hi, hj⟩ => Nat.ne_of_lt lt (congrArg Fin.val (h i j c hi hj))

/-- The right on a cylinder is that of the one entry that covers it (R31). -/
theorem rightOn_of_covers {i : Fin 16} (hi : x[i].covers c = true) (h : ∀ j : Fin 16, x[j].covers c = true → j = i) :
    x.rightOn p c = x[i].right p := by
  unfold Plan.rightOn
  cases found : x.toList.find? (·.covers c) with
  | none => exact absurd hi (List.find?_eq_none.mp found _ (by simp))
  | some e =>
    obtain ⟨j, hj, rfl⟩ := List.mem_iff_getElem.mp (List.mem_of_find?_eq_some found)
    have one := h ⟨j, by simpa using hj⟩ (by simpa using List.find?_some found)
    rw [← one]
    simp

/-- On a cylinder that no entry covers the right is NONE (R31). -/
theorem rightOn_uncovered (h : ∀ i : Fin 16, ¬x[i].covers c = true) : x.rightOn p c = .none := by
  unfold Plan.rightOn
  rw [List.find?_eq_none.mpr]
  intro e he
  obtain ⟨j, hj, rfl⟩ := List.mem_iff_getElem.mp he
  simpa using h ⟨j, by simpa using hj⟩

end

end Sys2Proof.Machine

/-! ## WRITE PLAN, LOAD PLAN and the panel's lines (R20 to R25, R28) -/

namespace Sys2Proof.Machine

section
variable {s : State} {p : Port} {tag : Byte} {w1 w2 : Word} {fields : List Word} {k : Fin 8}

/-- The re-check passes no tick, so that an order answered after it is still of the tick of its acceptance. -/
theorem loadMap_tick (x : Plan) (o : Origin) : (s.loadMap x o).tick = s.tick :=
  (Path.still (s := s.setActive x o) Path.refl.recheckPort.recheckPort).tick

/-- An order that makes a map load is answered in the slot that is FREE after the re-check (R28, R57). -/
theorem orderPacket_loaded (o : OrderRule) {x : State} (hk : ∃ k, s.slotFor p tag k)
    (hc : s.completes p (fields.length + 3) = true) (hu : field w1 15 8 ≤ 1) (hd : field w1 7 0 ≤ 1)
    (hs : o.shape (packetOf tag w1 w2 fields) = true) (ha : (s.ports.get p).armed = true)
    (hw : o.own s p (packetOf tag w1 w2 fields) = none)
    (he : o.accept (s.disarm p) p (packetOf tag w1 w2 fields) = (x.answerNow p o.kind tag []).schedule.judgeAlarm)
    (ht : x.tick = s.tick) (hx : x.slotFor p tag k) : s.orderPacket p o tag (w1 :: w2 :: fields)
      = (x.slotAnswered p k { Slot.entered o.kind tag s.tick with
          state := .done, outcome := some .done }).schedule.judgeAlarm.acceptedWith p := by
  rw [orderPacket_accepted hc hu hd hs (.inr hk) (.inr ha) hw, he, answerNow_at hx, ht]
  rfl

end

section
variable {s : State} {p : Port} {k : Packet} {es : List PlanEntry}

theorem entries_eq (he : k.planEntries = some es) : k.entries = es := by
  unfold Packet.entries
  rw [he]
  rfl

theorem planResult_eq (he : k.planEntries = some es) :
    s.planResult k = (s.map.named (k.num 0)).putFrom (k.num 1) es := by
  unfold State.planResult
  rw [entries_eq he]

/-- The shape of a WRITE PLAN whose entries can be read (R20, R172). -/
theorem writePlan_shape (he : k.planEntries = some es) (h0 : k.num 0 ≤ 2) (h2 : 1 ≤ k.num 2)
    (h1 : k.num 1 + k.num 2 ≤ 16) (hl : k.fields.length = 3 + 3 * k.num 2) : writePlanRule.shape k = true := by
  simp [writePlanRule, he, h0, h2, h1, hl]
  omega

theorem addressOk_iff {e : PlanEntry} : e.addressOk = true ↔ e.first ≤ e.last ∧ e.last ≤ 383 := by
  simp only [PlanEntry.addressOk, Bool.and_eq_true, decide_eq_true_eq]
  omega

/-- The checks of a WRITE PLAN in their order, its entries read (R20, R21). -/
theorem writePlan_own (he : k.planEntries = some es) :
    writePlanRule.own s p k =
      if k.num 0 = 0 ∧ s.map.mode ≠ .direct then some .wrongMode
      else if k.num 0 = 0 ∧ s.lines.fixedKey = true then some .keyHeld
      else if ∃ e ∈ es, ¬(e.first ≤ e.last ∧ e.last ≤ 383) then some .badAddress
      else if ((s.map.named (k.num 0)).putFrom (k.num 1) es).conflictFree = false then some .planConflict
      else none := by
  have bad : es.all PlanEntry.addressOk = false ↔ ∃ e ∈ es, ¬(e.first ≤ e.last ∧ e.last ≤ 383) := by
    simp only [List.all_eq_false, addressOk_iff]
  simp only [writePlanRule, entries_eq he, bad, planResult_eq he]

/-- The mode and the fixed-plan key let a WRITE PLAN of a staged plan through, and a direct edit in DIRECT mode with
the key OFF; its entries are judged after them (R20, R21). -/
theorem writePlan_own_let (he : k.planEntries = some es)
    (direct : k.num 0 = 0 → s.map.mode = .direct ∧ s.lines.fixedKey = false) :
    writePlanRule.own s p k =
      if ∃ e ∈ es, ¬(e.first ≤ e.last ∧ e.last ≤ 383) then some .badAddress
      else if ((s.map.named (k.num 0)).putFrom (k.num 1) es).conflictFree = false then some .planConflict
      else none := by
  rw [writePlan_own he, if_neg, if_neg]
  · rintro ⟨target, key⟩
    exact absurd ((direct target).2.symm.trans key) (by decide)
  · rintro ⟨target, mode⟩
    exact mode (direct target).1

/-- A WRITE PLAN whose entries are in order, in the data zone and free of conflict passes its checks (R20, R21). -/
theorem writePlan_passes (he : k.planEntries = some es) (addr : ∀ e ∈ es, e.first ≤ e.last ∧ e.last ≤ 383)
    (direct : k.num 0 = 0 → s.map.mode = .direct ∧ s.lines.fixedKey = false)
    (free : ((s.map.named (k.num 0)).putFrom (k.num 1) es).conflictFree = true) :
    writePlanRule.own s p k = none := by
  rw [writePlan_own_let he direct, if_neg, if_neg (by simp [free])]
  rintro ⟨e, mem, bad⟩
  exact bad (addr e mem)

end

/-- Settles O28: the entries read from their words, put into the target, judged for conflict, and the target
replaced. -/
theorem aPlanIsWritten : Obligations.APlanIsWritten := by
  refine ⟨fun m ws h => ?_, fun x f es h i => ?_, fun x hx => ?_, ?_⟩
  · rcases planEntriesOf_cases m ws h with ⟨⟨i, hi, bad⟩, unread⟩ | ⟨good, read⟩
    · exact ⟨fun _ => unread, fun good => absurd bad (not_or.mpr (good i hi))⟩
    · exact ⟨fun ⟨i, hi, bad⟩ => absurd bad (not_or.mpr (good i hi)), fun _ => read⟩
  · rw [putFrom_getElem es x f h i]
    refine ⟨fun e hf he => by rw [if_pos hf, he]; rfl, fun outside => ?_⟩
    by_cases hf : f ≤ i.val
    · rw [if_pos hf, List.getElem?_eq_none (by omega)]
      rfl
    · rw [if_neg hf]
  · intro covers
    have unique := conflictFree_iff_unique hx
    simp only [covers_iff] at unique
    refine ⟨unique, fun p c => ⟨fun free i hi => ?_, fun none' => ?_⟩⟩
    · exact rightOn_of_covers (covers_iff.mpr hi) fun j hj => unique.mp free j i c (covers_iff.mp hj) hi
    · exact rightOn_uncovered fun i hi => none' i (covers_iff.mp hi)
  · intro s p tag w1 w2 a f m ws es k hc hu hd hm hm' hf hw he addr hk i done u
    have entries : (packetOf tag w1 w2 (a :: f :: m :: ws)).planEntries = some es := he
    have shape (ha : a.toNat ≤ 2) : writePlanRule.shape (packetOf tag w1 w2 (a :: f :: m :: ws)) = true :=
      writePlan_shape entries ha hm hf (by simp [packetOf, Packet.num, wordAt, hw]; omega)
    have result := planResult_eq (s := s) entries
    refine ⟨?_, ?_, ?_⟩
    · rintro rfl free
      exact orderPacket_answered writePlanRule _ id hk hc hu hd (shape (by decide)) (.inl rfl)
        (writePlan_passes entries addr (fun h => absurd (show (1 : Word).toNat = 0 from h) (by decide)) free)
        (congrArg (fun x => ((s.disarm p).writePlan 1 x).answerNow p .writePlan tag []) result) rfl rfl
    · rintro rfl free
      exact orderPacket_answered writePlanRule _ id hk hc hu hd (shape (by decide)) (.inl rfl)
        (writePlan_passes entries addr (fun h => absurd (show (2 : Word).toNat = 0 from h) (by decide)) free)
        (congrArg (fun x => ((s.disarm p).writePlan 2 x).answerNow p .writePlan tag []) result) rfl rfl
    · rintro rfl free armed mode key v hv j hj
      subst hv
      refine congrArg _ (orderPacket_loaded writePlanRule (fields := 0 :: f :: m :: ws) ⟨k, hk⟩ hc hu hd
        (shape (by decide)) armed (writePlan_passes entries addr (fun _ => ⟨mode, key⟩) free) ?_
        (loadMap_tick (s := u) _ _) hj)
      exact congrArg (fun x => (((s.disarm p).loadMap x .edited).answerNow p .writePlan tag []).schedule.judgeAlarm)
        result

/-- A LOAD PLAN of a staged plan that is not empty passes its checks (R24). -/
theorem loadPlan_passes {s : State} {p : Port} {k : Packet} (mode : s.map.mode = .orderStrobe)
    (key : s.lines.fixedKey = false) (full : (s.map.staged (k.num 0)).1.isEmpty = false) :
    loadPlanRule.own s p k = none := by
  simp [loadPlanRule, mode, key, full]

/-- Settles O29: the checks pass, and the named staged plan is loaded before the order is answered. -/
theorem aStagedPlanIsLoaded : Obligations.AStagedPlanIsLoaded := by
  intro s p tag w1 w2 a m o hc armed hu hd mode key full target hk v hv j hj
  have staged : (a = 1 ∨ a = 2) ∧ s.map.staged a.toNat = (m, o) := by
    rcases target with ⟨rfl, rfl, rfl⟩ | ⟨rfl, rfl, rfl⟩
    · exact ⟨.inl rfl, rfl⟩
    · exact ⟨.inr rfl, rfl⟩
  obtain ⟨named, eq⟩ := staged
  have shape : loadPlanRule.shape (packetOf tag w1 w2 [a]) = true := by rcases named with rfl | rfl <;> rfl
  have accept : loadPlanRule.accept (s.disarm p) p (packetOf tag w1 w2 [a])
      = (((s.disarm p).loadMapLatched m o).answerNow p .loadPlan tag []).schedule.judgeAlarm := by
    show (((s.disarm p).loadMapLatched (s.map.staged a.toNat).1 (s.map.staged a.toNat).2).answerNow
      p .loadPlan tag []).schedule.judgeAlarm = _
    rw [eq]
  have own : loadPlanRule.own s p (packetOf tag w1 w2 [a]) = none :=
    loadPlan_passes mode key ((congrArg (fun x : Plan × Origin => x.1.isEmpty) eq).trans full)
  have after : v = (s.disarm p).loadMapLatched m o := hv
  have tick : v.tick = s.tick := by rw [after]; exact loadMap_tick (s := s.disarm p) m o
  rw [← after] at accept
  exact congrArg _ (orderPacket_loaded loadPlanRule (fields := [a]) hk hc hu hd shape armed own accept tick hj)

/-- Settles O36: each line by its level before the command; a load is the strobe's in LINE STROBE mode, or the key's. -/
theorem thePanelLinesActAtTheirEdges : Obligations.ThePanelLinesActAtTheirEdges := by
  intro s on loaded u
  refine ⟨rfl, rfl, rfl, rfl, rfl, fun high => ?_, fun low unready => ?_, fun m o low mode key selected => ?_,
    fun on => ?_, fun off => ?_⟩
  · exact congrArg _ (if_pos high)
  · have edge : u.strobeEdge = u := if_neg fun ⟨mode, key, _⟩ => unready.elim (· mode) fun h => by
      exact absurd (key.symm.trans h) (by decide)
    exact congrArg _ ((if_neg (by simp [low])).trans edge)
  · have plan : u.selectedPlan = (m, o) := by
      rcases selected with ⟨h, rfl, rfl⟩ | ⟨h, rfl, rfl⟩
      · exact if_neg (by simp [u, h])
      · exact if_pos h
    have edge : exec .changeoverStrobe s = .next u.strobeEdge := congrArg _ (if_neg (by simp [low]))
    rw [edge, State.strobeEdge, plan]
    by_cases empty : m.isEmpty = true
    · rw [if_pos empty, if_neg (by simp [empty])]
    · rw [if_neg empty, if_pos ⟨mode, key, by simpa using empty⟩]
      rfl
  · exact congrArg _ (if_pos on)
  · exact congrArg _ (if_neg (by simp [off]))

end Sys2Proof.Machine

/-! ## The own checks of the other orders: maintenance, WRITE PLAN, LOAD PLAN and RESTART DRIVE
(R18, R20, R21, R24, R40, R53, R137) -/

namespace Sys2Proof.Machine

section
variable {s : State} {p : Port} {tag : Byte} {w1 w2 : Word} {fields : List Word} {k : Packet} {e : PlanEntry} {c : Nat}

/-- A packet of a kind that its kind's own checks turn away, where what the tables ask of its shape and of the latch is
what the rule asks (R44, R51, R172). -/
theorem packet_refused {kind : Kind} {x : Refuse} (o : OrderRule) (hk : ∃ k, s.slotFor p tag k) (hu : field w1 15 8 ≤ 1)
    (hd : field w1 7 0 ≤ 1) (hc : s.completes p (fields.length + 3) = true)
    (runs : exec (kind.packet p tag (w1 :: w2 :: fields)) s = .next (s.orderPacket p o tag (w1 :: w2 :: fields)))
    (shape : kind.sound fields = true → o.shape (packetOf tag w1 w2 fields) = true)
    (arms : o.needsArm (packetOf tag w1 w2 fields) = true → kind.arms fields = true)
    (own : kind.sound fields = true → o.own s p (packetOf tag w1 w2 fields) = some x) :
    kind.sound fields = true → (kind.arms fields = true → (s.ports.get p).armed = true) →
      exec (kind.packet p tag (w1 :: w2 :: fields)) s = .next (s.refusedWith p x) := by
  intro sound armed
  rw [runs, orderPacket_refusedOwn hk hc hu hd (shape sound) (fun h => armed (arms h)) (own sound)]

/-- The map checks of FORMAT TRACK ask for the right to write on its cylinder (R18). -/
theorem formatMapChecks_pass (h : s.map.active.rightOn p c = .write) : s.formatMapChecks p c = none := by
  unfold Plan.rightOn at h
  unfold State.formatMapChecks
  cases found : s.map.active.toList.find? (·.covers c) with
  | none => rw [found] at h; cases h
  | some e =>
    rw [found] at h
    exact if_pos (allows_write.mpr h)

theorem formatMapChecks_noRegion (h : s.map.active.toList.find? (·.covers c) = none) :
    s.formatMapChecks p c = some .noRegion := by
  simp only [State.formatMapChecks, h]

theorem formatMapChecks_noAccess (h : s.map.active.toList.find? (·.covers c) = some e) (hr : e.right p ≠ .write) :
    s.formatMapChecks p c = some .noAccess := by
  simp only [State.formatMapChecks, h]
  exact if_neg (mt allows_write.mp hr)

theorem notReady_false (hr : s.drive.state.serving = true) : s.notReady = false := by simp [State.notReady, hr]

/-- The checks of a FORMAT TRACK of an address of the disk: those of the map on a data cylinder, then the guard (R18,
R40, R53). -/
theorem formatTrack_own (hr : s.drive.state.serving = true) (h0 : k.num 0 ≤ 386) (h1 : k.num 1 ≤ 3) :
    (∀ r, k.num 0 ≤ 383 → s.formatMapChecks p (k.num 0) = some r → formatTrackRule.own s p k = some r)
    ∧ ((k.num 0 ≤ 383 → s.formatMapChecks p (k.num 0) = none) → s.guard.protectsFormat (k.num 0) = true →
        formatTrackRule.own s p k = some .guarded) := by
  have address : ¬(386 < k.num 0 ∨ 3 < k.num 1) := by omega
  simp only [formatTrackRule, notReady_false hr, Bool.false_eq_true, if_false, if_neg address]
  refine ⟨fun r h check => by rw [if_pos h, check], fun check guarded => ?_⟩
  by_cases h : k.num 0 ≤ 383
  · rw [if_pos h, check h]
    exact if_pos guarded
  · rw [if_neg h]
    exact if_pos guarded

/-- The words of a sound WRITE PLAN hold their entries (12, sections 12.1 and 12.3). -/
theorem writePlan_entries (h : Kind.writePlan.sound fields = true) :
    ∃ es, (packetOf tag w1 w2 fields).planEntries = some es := by
  simp only [Kind.sound, decide_eq_true_eq] at h
  obtain ⟨length, -, -, -, rights⟩ := h
  have enough : 3 * (wordAt fields 2).toNat ≤ (fields.drop 3).length := by simp only [List.length_drop]; omega
  rcases planEntriesOf_cases _ _ enough with ⟨⟨i, hi, bad⟩, -⟩ | ⟨-, es, read, -⟩
  · have := rights i hi
    simp only [wordAt_drop] at bad
    omega
  · exact ⟨es, read⟩

theorem writePlan_shape_of_sound (h : Kind.writePlan.sound fields = true) :
    writePlanRule.shape (packetOf tag w1 w2 fields) = true := by
  obtain ⟨es, read⟩ := writePlan_entries (tag := tag) (w1 := w1) (w2 := w2) h
  simp only [Kind.sound, decide_eq_true_eq] at h
  obtain ⟨length, target, some', last, -⟩ := h
  exact writePlan_shape read target some' last length

/-- The target of a WRITE PLAN (R20). -/
theorem named_target {m : MapUnit} {n : Nat} (h : n ≤ 2) :
    m.named n = if n = 0 then m.active else if n = 1 then m.plan1 else m.plan2 := by
  match n, h with
  | 0, _ => rfl
  | 1, _ => rfl
  | 2, _ => rfl

/-- The checks of an ASSIGN SPARE while the drive is ready (R53). -/
theorem assignSpare_own (hr : s.drive.state.serving = true) : assignSpareRule.own s p k =
    if 384 < k.num 0 ∨ 3 < k.num 1 ∨ 19 < k.num 2 then some .badAddress
    else if s.guard.freeze = true then some .guarded
    else if s.label.state ≠ .valid then some .unlabelled
    else if 80 ≤ s.label.table.length + s.label.retired.length then some .sparesExhausted else none := by
  simp [assignSpareRule, firstOf, notReady_false hr, or_assoc]

/-- The checks of a TEST TRACK while the drive is ready (R53). -/
theorem testTrack_own (hr : s.drive.state.serving = true) : testTrackRule.own s p k =
    if 3 < k.num 0 then some .badAddress
    else if k.num 2 = 0 ∨ 255 < k.num 2 then some .badCount else none := by
  simp [testTrackRule, firstOf, notReady_false hr]

/-- The staged plan of a LOAD PLAN (R24). -/
theorem staged_plan {m : MapUnit} {n : Nat} : (m.staged n).1 = if n = 1 then m.plan1 else m.plan2 := by
  unfold MapUnit.staged
  split <;> rfl

end

/-- Settles O35: kind by kind, each check where those before it pass. -/
theorem otherOrdersAreRefusedInOrder : Obligations.OtherOrdersAreRefusedInOrder := by
  intro s p tag w1 w2 fields hk hu hd hc refused n ready
  have format {x} (own : formatTrackRule.own s p (packetOf tag w1 w2 fields) = some x) : refused .formatTrack x :=
    packet_refused formatTrackRule hk hu hd hc rfl id (fun _ => rfl) fun _ => own
  have relabel {x} (own : initializeLabelRule.own s p (packetOf tag w1 w2 fields) = some x) :
      refused .initializeLabel x :=
    packet_refused initializeLabelRule hk hu hd hc rfl id (fun _ => rfl) fun _ => own
  have assign {x} (own : assignSpareRule.own s p (packetOf tag w1 w2 fields) = some x) : refused .assignSpare x :=
    packet_refused assignSpareRule hk hu hd hc rfl id (fun _ => rfl) fun _ => own
  have test {x} (own : testTrackRule.own s p (packetOf tag w1 w2 fields) = some x) : refused .testTrack x := by
    refine packet_refused testTrackRule hk hu hd hc rfl (fun h => ?_) (fun h => absurd h Bool.false_ne_true)
      fun _ => own
    simp only [Kind.sound, decide_eq_true_eq] at h
    simp only [testTrackRule, Bool.and_eq_true, decide_eq_true_eq]
    exact h
  have write {x}
      (own : Kind.writePlan.sound fields = true → writePlanRule.own s p (packetOf tag w1 w2 fields) = some x) :
      refused .writePlan x := by
    refine packet_refused writePlanRule hk hu hd hc rfl writePlan_shape_of_sound (fun h => ?_) own
    exact decide_eq_true (BitVec.eq_of_toNat_eq (of_decide_eq_true h))
  have load {x} (own : loadPlanRule.own s p (packetOf tag w1 w2 fields) = some x) : refused .loadPlan x := by
    refine packet_refused loadPlanRule hk hu hd hc rfl (fun h => ?_) (fun _ => rfl) fun _ => own
    simp only [Kind.sound, decide_eq_true_eq] at h
    simp only [loadPlanRule, Bool.and_eq_true, Bool.or_eq_true, decide_eq_true_eq]
    exact h
  have restart {x} (own : restartDriveRule.own s p (packetOf tag w1 w2 fields) = some x) : refused .restartDrive x :=
    packet_refused restartDriveRule hk hu hd hc rfl id (fun _ => rfl) fun _ => own
  refine ⟨fun hr => ?_, fun hr => ?_, ?_⟩
  · have idle : s.notReady = true := by
      rw [State.notReady, Bool.not_eq_true', ← Bool.not_eq_true, serving_iff]
      exact hr
    exact ⟨format (by simp only [formatTrackRule, idle, if_true]),
      relabel (by simp only [initializeLabelRule, firstOf, idle, if_true]),
      assign (by simp only [assignSpareRule, firstOf, idle, if_true]),
      test (by simp only [testTrackRule, firstOf, idle, if_true])⟩
  · have serving := (serving_iff _).mpr hr
    have busy := notReady_false serving
    have formats := formatTrack_own (p := p) (k := packetOf tag w1 w2 fields) serving
    have assigns := assignSpare_own (p := p) (k := packetOf tag w1 w2 fields) serving
    have tests := testTrack_own (p := p) (k := packetOf tag w1 w2 fields) serving
    have onDisk (h0 : n 0 ≤ 384) (h1 : n 1 ≤ 3) (h2 : n 2 ≤ 19) := assigns.trans (if_neg fun h => by
      have outside : 384 < n 0 ∨ 3 < n 1 ∨ 19 < n 2 := h
      omega)
    refine ⟨fun address => format ?_, fun h0 h1 uncovered => format ?_, fun e h0 h1 covered right => format ?_,
      fun h0 h1 right guarded => format ?_, fun freeze => relabel ?_, fun address => assign ?_,
      fun h0 h1 h2 => ⟨fun freeze => assign ?_, fun thawed label => assign ?_, fun thawed label full => assign ?_⟩,
      fun address => test ?_, fun address window => test ?_⟩
    · simp only [formatTrackRule, busy, Bool.false_eq_true, if_false]
      exact if_pos address
    · exact (formats (Nat.le_trans h0 (by decide)) h1).1 _ h0 (formatMapChecks_noRegion uncovered)
    · exact (formats (Nat.le_trans h0 (by decide)) h1).1 _ h0 (formatMapChecks_noAccess covered right)
    · exact (formats h0 h1).2 (fun h => formatMapChecks_pass (right h)) guarded
    · simp [initializeLabelRule, firstOf, busy, freeze]
    · exact assigns.trans (if_pos address)
    · rw [onDisk h0 h1 h2, if_pos freeze]
    · rw [onDisk h0 h1 h2, if_neg (by simp [thawed]), if_pos label]
    · rw [onDisk h0 h1 h2, if_neg (by simp [thawed]), if_neg (not_not.mpr label), if_pos full]
    · exact tests.trans (if_pos address)
    · exact tests.trans ((if_neg (Nat.not_lt.mpr address)).trans (if_pos window))
  · refine ⟨fun h0 mode => write fun _ => if_pos ⟨h0, mode⟩,
      fun h0 mode key => write fun _ => (if_neg fun h => h.2 mode).trans (if_pos ⟨h0, key⟩), fun es direct read => ?_,
      fun mode => load (if_pos mode), fun mode key => load ((if_neg (not_not.mpr mode)).trans (if_pos key)),
      fun mode key empty => load ?_, fun state => restart (if_pos state),
      fun state hot => restart ((if_neg (not_not.mpr state)).trans (if_pos hot))⟩
    · have own := writePlan_own_let (s := s) (p := p) (k := packetOf tag w1 w2 fields) read direct
      refine ⟨fun ⟨e, mem, bad⟩ => write fun _ => ?_, fun addr clash => write fun sound => ?_⟩
      · rw [own, if_pos ⟨e, mem, by omega⟩]
      · simp only [Kind.sound, decide_eq_true_eq] at sound
        obtain ⟨-, target, -⟩ := sound
        rw [own, if_neg fun ⟨e, mem, bad⟩ => bad (addr e mem),
          named_target (n := (packetOf tag w1 w2 fields).num 0) target]
        exact if_pos clash
    · refine (if_neg (not_not.mpr mode)).trans ((if_neg (by simp [key])).trans (if_pos ?_))
      rw [staged_plan]
      exact empty

end Sys2Proof.Machine

/-! ## The re-check of a map load (R29, R49, R124) -/

namespace Sys2Proof.Machine

variable {s t : State} {p : Port} {sl : Slot}

/-! ### The first sector that fails -/

/-- The first sector of those looked at that the map does not grant is the one that fails (R29). -/
theorem failingSector_first {i : Nat} : ∀ (n lo : Nat), lo ≤ i → i < lo + n →
    s.grants p (decide (sl.kind = .write)) (sl.sectorAddr i).cyl = false →
    (∀ j, lo ≤ j → j < i → s.grants p (decide (sl.kind = .write)) (sl.sectorAddr j).cyl = true) →
    s.failingSector p sl lo n = some (sl.sectorAddr i) := by
  intro n
  induction n with
  | zero => intro lo h1 h2; omega
  | succ n ih =>
    intro lo h1 h2 fails before
    unfold State.failingSector
    rcases Nat.eq_or_lt_of_le h1 with rfl | lt
    · rw [if_neg (by simp [fails])]
    · rw [if_pos (before lo (Nat.le_refl lo) lt)]
      exact ih (lo + 1) lt (by omega) fails fun j h => before j (by omega)

/-- No sector fails where the map grants each that is looked at (R29). -/
theorem failingSector_none : ∀ (n lo : Nat),
    (∀ j, lo ≤ j → j < lo + n → s.grants p (decide (sl.kind = .write)) (sl.sectorAddr j).cyl = true) →
    s.failingSector p sl lo n = none := by
  intro n
  induction n with
  | zero => intro lo _; rfl
  | succ n ih =>
    intro lo granted
    unfold State.failingSector
    rw [if_pos (granted lo (Nat.le_refl lo) (by omega))]
    exact ih (lo + 1) fun j h h' => granted j (by omega) (by omega)

theorem failingSector_congr (h : t.map = s.map) :
    ∀ (n lo : Nat), t.failingSector p sl lo n = s.failingSector p sl lo n := by
  have same (w : Bool) (c : Nat) : t.grants p w c = s.grants p w c := by unfold State.grants; rw [h]
  intro n
  induction n with
  | zero => intro lo; rfl
  | succ n ih =>
    intro lo
    unfold State.failingSector
    rw [same, ih]

/-- What fails the re-check is judged by the map alone (R29). -/
theorem recheckFails_congr (h : t.map = s.map) (sl : Slot) : t.recheckFails p sl = s.recheckFails p sl := by
  have same (w : Bool) (c : Nat) : t.grants p w c = s.grants p w c := by unfold State.grants; rw [h]
  unfold State.recheckFails
  simp only [failingSector_congr h, same]

/-- The sector from which a waiting data order is judged: its first, or the first still to do of a SUSPENDED one
(R29). -/
def Slot.judgedFrom (sl : Slot) : Nat := if sl.state = .suspended then sl.sectorsDone else 0

theorem recheckFails_data (hs : sl.state = .queued ∨ sl.state = .suspended) (hd : sl.kind.isData = true) :
    s.recheckFails p sl = s.failingSector p sl sl.judgedFrom (sl.n - sl.judgedFrom) := by
  unfold State.recheckFails Slot.judgedFrom
  rcases hs with h | h
  · rw [h]
    exact if_pos hd
  · rw [h]
    exact if_pos hd

/-- A QUEUED FORMAT TRACK fails on a data cylinder that its port may not write (R29). -/
theorem recheckFails_format (hs : sl.state = .queued) (hk : sl.kind = .formatTrack) : s.recheckFails p sl =
    if sl.startAddr.cyl ≤ 383 ∧ s.map.active.rightOn p sl.startAddr.cyl ≠ .write then some sl.startAddr else none := by
  have barred : s.grants p true sl.startAddr.cyl = false ↔ s.map.active.rightOn p sl.startAddr.cyl ≠ .write := by
    rw [← Bool.not_eq_true]
    exact not_congr allows_write
  unfold State.recheckFails
  simp [hs, hk, Kind.isData, barred]

/-- No other order is judged (R29). -/
theorem recheckFails_other (hd : ¬((sl.state = .queued ∨ sl.state = .suspended) ∧ sl.kind.isData = true))
    (hf : ¬(sl.state = .queued ∧ sl.kind = .formatTrack)) : s.recheckFails p sl = none := by
  unfold State.recheckFails
  cases hs : sl.state <;> simp_all

theorem recheckFails_waits {x : Addr} (h : s.recheckFails p sl = some x) :
    sl.state = .queued ∨ sl.state = .suspended := by
  by_contra other
  rw [recheckFails_other (fun h => other h.1) fun h => other (.inl h.1)] at h
  cases h

/-! ### The slots after it -/

/-- What the re-check makes of a record: ended MAP CHANGED at the sector that fails, else as it was (R29, R49). -/
def State.rechecked (s : State) (p : Port) (sl : Slot) : Option Slot :=
  match s.recheckFails p sl with
  | some x => sl.ended .mapChanged (some x)
  | none => some sl

theorem rechecked_some {x : Addr} (h : s.recheckFails p sl = some x) :
    s.rechecked p sl = sl.ended .mapChanged (some x) := by
  simp only [State.rechecked, h]

theorem rechecked_none (h : s.recheckFails p sl = none) : s.rechecked p sl = some sl := by
  simp only [State.rechecked, h]

theorem rechecked_congr (h : t.map = s.map) : t.rechecked p = s.rechecked p := by
  funext sl
  simp only [State.rechecked, recheckFails_congr h]

/-- The re-check of one slot. -/
def State.recheckSlot (s : State) (p : Port) (k : Fin 8) : State :=
  match s.slot p k with
  | some sl => match s.recheckFails p sl with
    | some x => s.endSlot p k .mapChanged (some x)
    | none => s
  | none => s

theorem recheckPort_eq (s : State) (p : Port) :
    s.recheckPort p = (s.queues.get p).order.foldl (fun t k => t.recheckSlot p k) s := rfl

/-- The re-check of one slot changes its queue and buffers alone, and no other slot (R29). -/
theorem recheckSlot_spec (s : State) (p : Port) (k : Fin 8) : QueueOnly p s (s.recheckSlot p k)
    ∧ ∀ q j, (s.recheckSlot p k).slot q j =
        if (q, j) = (p, k) then (s.slot p k).bind (s.rechecked p) else s.slot q j := by
  have stays (h : (s.slot p k).bind (s.rechecked p) = s.slot p k) (q : Port) (j : Fin 8) :
      s.slot q j = if (q, j) = (p, k) then (s.slot p k).bind (s.rechecked p) else s.slot q j := by
    split
    · next e => cases e; exact h.symm
    · rfl
  rcases Option.eq_none_or_eq_some (s.slot p k) with hk | ⟨sl, hk⟩
  · have same : s.recheckSlot p k = s := by simp only [State.recheckSlot, hk]
    rw [same]
    exact ⟨.refl p s, stays (by rw [hk]; rfl)⟩
  rcases Option.eq_none_or_eq_some (s.recheckFails p sl) with hf | ⟨x, hf⟩
  · have same : s.recheckSlot p k = s := by simp only [State.recheckSlot, hk, hf]
    rw [same]
    exact ⟨.refl p s, stays (by rw [hk]; exact rechecked_none hf)⟩
  · have ends : s.recheckSlot p k = s.endSlot p k .mapChanged (some x) := by simp only [State.recheckSlot, hk, hf]
    obtain ⟨notDone, notServed⟩ := waits_state (decide_eq_true (recheckFails_waits hf) : sl.waits = true)
    rw [ends]
    refine ⟨endSlot_only hk notDone notServed fun _ => rfl, fun q j => ?_⟩
    rw [endSlot_slot hk notDone notServed, hk, Option.bind_some, rechecked_some hf]

/-- The re-check of one port's orders judges each of its slots, by the map as it stands (R29). -/
theorem recheckPort_spec (hl : Listed s p) : QueueOnly p s (s.recheckPort p)
    ∧ ∀ q j, (s.recheckPort p).slot q j = if q = p then (s.slot p j).bind (s.rechecked p) else s.slot q j := by
  have mapOf {x y : State} (h : QueueOnly p x y) : y.map = x.map := by rw [h.1]
  obtain ⟨only, -, slots⟩ := fold_slots (fun t k => t.recheckSlot p k) (fun t _ o => o.bind (t.rechecked p))
    (fun _ => True) (fun x y _ o h => by rw [rechecked_congr (mapOf h)]) (fun _ _ _ => trivial)
    (fun x j _ => recheckSlot_spec x p j) (s.queues.get p).order hl.1 s trivial
  rw [recheckPort_eq]
  refine ⟨only, fun q j => (slots q j).trans ?_⟩
  by_cases hq : q = p
  · subst hq
    by_cases hj : j ∈ (s.queues.get q).order
    · rw [if_pos ⟨rfl, hj⟩, if_pos rfl]
    · have free : s.slot q j = none := by simpa using mt (hl.2.1 j).mpr hj
      rw [if_neg (fun h => hj h.2), if_pos rfl, free]
      rfl
  · rw [if_neg (fun h => hq h.1), if_neg hq]

/-- The re-check judges each slot of both ports (R29). -/
theorem recheck_slot (hl : ∀ q, Listed s q) (q : Port) (j : Fin 8) :
    s.recheck.slot q j = (s.slot q j).bind (s.rechecked q) := by
  obtain ⟨only, slots⟩ := recheckPort_spec (hl .a)
  have mapOf : (s.recheckPort .a).map = s.map := by rw [only.1]
  obtain ⟨-, slots'⟩ := recheckPort_spec (s := s.recheckPort .a) ((hl .b).congr only.2)
  rw [State.recheck, slots', rechecked_congr mapOf]
  cases q
  · exact (if_neg (by decide)).trans ((slots .a j).trans (if_pos rfl))
  · rw [if_pos rfl, slots, if_neg (by decide)]

/-- Settles O37: the lists and buffers follow the slots that end, and each slot ends or stays by its first failing
sector. -/
theorem theRecheckEndsTheOrdersThatFail : Obligations.TheRecheckEndsTheOrdersThatFail := by
  rintro s law v rfl
  have waned := recheck_waned (Listed.of law)
  refine ⟨waned.only, waned.ended.lists, waned.buffers, fun p k => ⟨fun free => ?_, fun sl live => ?_⟩⟩
  · rw [recheck_slot (Listed.of law), free]
    rfl
  intro lo granted judged format
  have after : s.recheck.slot p k = s.rechecked p sl := by
    rw [recheck_slot (Listed.of law), live]
    rfl
  have start : sl.judgedFrom = lo := rfl
  rw [after]
  refine ⟨fun ⟨waits, data⟩ i low high fails before => ?_, fun ⟨waits, data⟩ all => ?_, fun ⟨queued, kind⟩ => ?_,
    fun notData notFormat => rechecked_none (recheckFails_other notData notFormat)⟩
  · refine rechecked_some ((recheckFails_data waits data).trans ?_)
    rw [start]
    exact failingSector_first _ lo low (by omega) (Bool.not_eq_true _ ▸ fails) before
  · refine rechecked_none ((recheckFails_data waits data).trans ?_)
    rw [start]
    exact failingSector_none _ lo fun j low high => all j low (by omega)
  · have fails := recheckFails_format (s := s) (p := p) queued kind
    split
    · next barred => exact rechecked_some (fails.trans (if_pos barred))
    · next free => exact rechecked_none (fails.trans (if_neg free))

end Sys2Proof.Machine

/-! ## The loss of a port (R26, R116, R124, R125, R160) -/

namespace Sys2Proof.Machine

variable {s t u : State} {p : Port} {k : Fin 8} {sl : Slot} {e : Ending} {fa : Option Addr}

/-! ### The requests of the port are withdrawn -/

/-- A slot lets go of its FILLING buffers: none of them is being delivered, so that each becomes FREE (R109, R116). -/
theorem release_filling (b : Fin 4) : (s.release p k fun st => decide (st = .filling)).buffers[b] =
    if s.buffers[b].owner = some (p, k) ∧ s.buffers[b].state = .filling then ⟨.free, none, 0, []⟩
    else s.buffers[b] := by
  simp only [State.release, Fin.getElem_fin, Vector.getElem_ofFn, decide_eq_true_eq]
  split
  · next h =>
    rw [if_neg]
    · rfl
    · rintro ⟨-, full⟩
      exact absurd (h.2.symm.trans full) (by decide)
  · rfl

/-- The requests of some slots of a port are withdrawn: their FILLING buffers become FREE, and nothing else changes. -/
theorem releaseFilling_fold (l : List (Fin 8)) (s : State) :
    let t := l.foldl (fun s k => s.release p k fun st => decide (st = .filling)) s
    t = { s with buffers := t.buffers }
    ∧ ∀ b : Fin 4, t.buffers[b] = if (∃ k ∈ l, s.buffers[b].owner = some (p, k)) ∧ s.buffers[b].state = .filling then
        ⟨.free, none, 0, []⟩ else s.buffers[b] := by
  induction l generalizing s with
  | nil => exact ⟨rfl, fun b => by simp⟩
  | cons k l ih =>
    obtain ⟨frame, buffers⟩ := ih (s.release p k fun st => decide (st = .filling))
    refine ⟨frame.trans rfl, fun b => (buffers b).trans ?_⟩
    rw [release_filling]
    by_cases own : s.buffers[b].owner = some (p, k) ∧ s.buffers[b].state = .filling
    · rw [if_pos own, ite_self]
      exact (if_pos ⟨⟨k, by simp, own.1⟩, own.2⟩).symm
    · rw [if_neg own]
      refine if_congr (and_congr_left fun filling => ?_) rfl rfl
      simp only [List.mem_cons, exists_eq_or_imp]
      exact ⟨.inr, fun h => h.resolve_left fun owner => own ⟨owner, filling⟩⟩

/-- Every request of a port is withdrawn (R116, R160). -/
theorem withdrawRequests_spec (s : State) (p : Port) :
    s.withdrawRequests p = { s with buffers := (s.withdrawRequests p).buffers }
    ∧ ∀ b : Fin 4, (s.withdrawRequests p).buffers[b] =
        if s.buffers[b].owner.map (·.1) = some p ∧ s.buffers[b].state = .filling then ⟨.free, none, 0, []⟩
        else s.buffers[b] := by
  obtain ⟨frame, buffers⟩ := releaseFilling_fold (p := p) slotNumbers s
  refine ⟨frame, fun b => (buffers b).trans (if_congr (and_congr_left fun _ => ?_) rfl rfl)⟩
  rcases s.buffers[b].owner with _ | ⟨q, j⟩
  · simp
  · simp [mem_slotNumbers]

/-! ### What the slots of the port still own -/

/-- What a slot of the port owns in `t` it owned in `s`, with the same buffer and the same record. -/
def OwnsNoMore (p : Port) (s t : State) : Prop :=
  ∀ (b : Fin 4) k, t.buffers[b].owner = some (p, k) → t.buffers[b] = s.buffers[b] ∧ t.slot p k = s.slot p k

theorem OwnsNoMore.refl (p : Port) (s : State) : OwnsNoMore p s s := fun _ _ _ => ⟨rfl, rfl⟩

theorem OwnsNoMore.trans (h : OwnsNoMore p s t) (g : OwnsNoMore p t u) : OwnsNoMore p s u := by
  intro b k own
  obtain ⟨buffer, record⟩ := g b k own
  obtain ⟨buffer', record'⟩ := h b k (buffer ▸ own)
  exact ⟨buffer.trans buffer', record.trans record'⟩

/-- A request is issued for no order of a port that is LOST (R116, R161). -/
theorem OwnsNoMore.issueRequest (hl : (s.ports.get p).presence = .lost) : OwnsNoMore p s s.issueRequest := by
  rcases issueRequest_cases s with same | ⟨q, j, sl, i, c, asks, -, -, -, -, -, -, issued⟩
  · rw [same]
    exact .refl p s
  · intro b k own
    obtain ⟨-, -, -, -, present⟩ := asks
    rw [issued] at own ⊢
    refine ⟨?_, rfl⟩
    simp only [State.putBuffer, Fin.getElem_fin, Vector.getElem_set] at own ⊢
    split at own
    · cases own
      exact absurd hl present
    · next other => rw [if_neg other]

theorem OwnsNoMore.testRequests (hl : (s.ports.get p).presence = .lost) : OwnsNoMore p s s.testRequests := by
  have ports (x : State) : x.issueRequest.ports = x.ports := by rw [issueRequest_buffers]
  have first := issueRequest hl
  have second := issueRequest (s := s.issueRequest) (p := p) (by rw [ports]; exact hl)
  have third := issueRequest (s := s.issueRequest.issueRequest) (p := p) (by rw [ports, ports]; exact hl)
  exact (first.trans second).trans third

/-- A slot of the port that ends lets go of all it owned (R49, R124). -/
theorem OwnsNoMore.endSlot (hl : (s.ports.get p).presence = .lost) (hk : s.slot p k = some sl) (hd : sl.state ≠ .done)
    (hi : sl.state ≠ .inService) (he : ∀ x : State, x.countEnding p e = x) : OwnsNoMore p s (s.endSlot p k e fa) := by
  have slots := endSlot_slot (e := e) (fa := fa) hk hd hi
  rw [endSlot_waiting hk hd hi, he] at slots ⊢
  refine .trans (fun b j own => ?_) (testRequests hl)
  simp only [slot_testRequests] at slots
  have left : (s.release p k fun _ => true).buffers[b].owner = some (p, j) := own
  rw [release_buffers] at left
  by_cases mine : s.buffers[b].owner = some (p, k)
  · rw [if_pos mine] at left
    split at left <;> cases left
  · refine ⟨(release_buffers b).trans (if_neg mine), (slots p j).trans (if_neg ?_)⟩
    rintro ⟨⟩
    rw [if_neg mine] at left
    exact mine left

/-- The endings of a LOST port's slots leave its other slots with what they owned (R160). -/
theorem OwnsNoMore.endWhere {P : Slot → Bool} (hl : (s.ports.get p).presence = .lost)
    (he : ∀ x : State, x.countEnding p e = x) (hp : ∀ x, P x = true → x.state ≠ .done ∧ x.state ≠ .inService) :
    OwnsNoMore p s (s.endWhere p P e) := by
  unfold State.endWhere
  generalize (s.queues.get p).order = l
  induction l generalizing s with
  | nil => exact .refl p s
  | cons j l ih =>
    rw [List.foldl_cons]
    split
    · next x hx =>
      split
      · next ends =>
        obtain ⟨notDone, notServed⟩ := hp x ends
        have only := endSlot_only (e := e) (fa := none) hx notDone notServed he
        exact (endSlot hl hx notDone notServed he).trans (ih (by rw [only.1]; exact hl))
      · exact ih hl
    · exact ih hl

theorem endsAtLoss_iff : sl.endsAtLoss = true ↔ sl.state = .queued ∨ sl.state = .suspended ∨ sl.state = .draining :=
  decide_eq_true_iff

theorem endsAtLoss_state (h : sl.endsAtLoss = true) : sl.state ≠ .done ∧ sl.state ≠ .inService := by
  rcases endsAtLoss_iff.mp h with e | e | e <;> rw [e] <;> decide

theorem ranOut_iff {d : Tick} : s.ranOut (some d) = true ↔ (d - s.tick).toInt ≤ 0 := decide_eq_true_iff

/-- A port becomes LOST: its latch is cleared and its timer stopped (R160). -/
def State.silence (s : State) (p : Port) : State :=
  s.onPort p fun x => { x with presence := .lost, timer := none, armed := false }

theorem silence_presence (s : State) (p : Port) : ((s.silence p).ports.get p).presence = .lost := by
  cases p <;> rfl

theorem silence_withdrawn (s : State) (p : Port) :
    (s.silence p).withdrawRequests p = { s.silence p with buffers := ((s.silence p).withdrawRequests p).buffers } :=
  (withdrawRequests_spec (s.silence p) p).1

/-- A LOST port's requests are withdrawn and its waiting and draining orders end (R124, R160). -/
def State.cutOff (s : State) (p : Port) : State :=
  ((s.silence p).withdrawRequests p).endWhere p Slot.endsAtLoss .portLost

/-- The loss of a port with no exchange open is its cutting off, its alarm, and then the auto-changeover (R160). -/
theorem losePort_eq (h : (s.ports.get p).exchange = none) :
    s.losePort p = ((s.cutOff p).latch (lostSource p)).autoChangeover.testRequests.schedule.judgeAlarm := by
  unfold State.losePort
  rw [abandon_none h]
  rfl

/-- What changes queues and buffers alone after a change of the buffers. -/
theorem QueuesOnly.onBuffers (h : QueuesOnly t u) (ht : t = { s with buffers := t.buffers }) :
    u = { s with queues := u.queues, buffers := u.buffers } := by
  generalize t.buffers = b at ht
  subst ht
  exact h

theorem silence_slot (q : Port) (j : Fin 8) : ((s.silence p).withdrawRequests p).slot q j = s.slot q j := by
  rw [silence_withdrawn]
  rfl

/-- The cutting off changes the port, queues and buffers alone (R160). -/
theorem cutOff_spec (law : s.queueLaw) :
    Waned ((s.silence p).withdrawRequests p) (s.cutOff p)
    ∧ s.cutOff p = { s.silence p with queues := (s.cutOff p).queues, buffers := (s.cutOff p).buffers }
    ∧ ∀ q k, (s.cutOff p).slot q k = match s.slot q k with
      | some sl => if q = p ∧ sl.endsAtLoss = true then sl.ended .portLost none else some sl
      | none => none := by
  have listed (q : Port) : Listed ((s.silence p).withdrawRequests p) q :=
    (Listed.of law q).congr (by rw [silence_withdrawn]; rfl)
  obtain ⟨only, slots⟩ := endWhere_spec (e := .portLost) (P := Slot.endsAtLoss) (fun _ => rfl)
    (fun _ => endsAtLoss_state) (listed p)
  refine ⟨endWhere_waned (fun _ => rfl) (fun _ => endsAtLoss_state) listed (.refl listed), ?_, fun q k => ?_⟩
  · exact only.1.onBuffers (silence_withdrawn s p)
  · have after := slots q k
    rw [silence_slot] at after
    refine after.trans ?_
    cases s.slot q k with
    | none => rfl
    | some sl => rfl

/-- What a cut-off port's slots still own they do not await, and none of them waits or drains (R116, R160). -/
theorem cutOff_owned (law : s.queueLaw) {b : Fin 4} (hk : s.slot p k = some sl)
    (own : (s.cutOff p).buffers[b].owner = some (p, k)) :
    (s.cutOff p).buffers[b].state ≠ .filling ∧ (sl.state = .inService ∨ sl.state = .done) := by
  obtain ⟨-, -, slots⟩ := cutOff_spec (p := p) law
  have lost : (((s.silence p).withdrawRequests p).ports.get p).presence = .lost := by
    rw [silence_withdrawn]
    exact silence_presence s p
  obtain ⟨buffer, record⟩ := OwnsNoMore.endWhere (P := Slot.endsAtLoss) (e := .portLost) lost (fun _ => rfl)
    (fun _ => endsAtLoss_state) b k own
  have stays : (s.cutOff p).slot p k = some sl := record.trans ((silence_slot p k).trans hk)
  constructor
  · intro filling
    have owner := own
    unfold State.cutOff at owner filling
    rw [buffer, (withdrawRequests_spec _ p).2] at owner filling
    split at filling
    · cases filling
    · next other =>
      rw [if_neg other] at owner
      exact other ⟨by rw [owner]; rfl, filling⟩
  · have kept := slots p k
    rw [hk, stays] at kept
    have notEnds : ¬sl.endsAtLoss = true := fun ends => by
      have done := ended_state (kept.trans (if_pos ⟨rfl, ends⟩)).symm
      exact (endsAtLoss_state ends).1 done
    rw [endsAtLoss_iff] at notEnds
    revert notEnds
    cases sl.state <;> simp

/-- A latch after a change of the queues and buffers alone leaves the alarms as it makes them before it. -/
theorem latch_onFrame {x y z : State} {c : Source} (hx : x = { z with buffers := x.buffers })
    (hy : y = { z with queues := y.queues, buffers := y.buffers }) (hz : z.alarms = s.alarms) :
    y.latch c = { x with queues := y.queues, buffers := y.buffers, alarms := (s.latch c).alarms } := by
  have alarms : (y.latch c).alarms = (s.latch c).alarms := by
    unfold State.latch
    rw [hy, ← hz]
  generalize x.buffers = bx at hx
  rw [← alarms]
  generalize y.queues = qy at hy ⊢
  generalize y.buffers = yb at hy ⊢
  subst hx hy
  rfl

/-- A presence timer that has run out at a PRESENT port loses it (R160). -/
theorem exec_presenceTimerExpiry (p : Port) (s : State) : exec (.presenceTimerExpiry p) s = .next
    (if (s.ports.get p).presence = .present ∧ s.ranOut (s.ports.get p).timer = true then s.losePort p else s) := rfl

/-- Settles O39: the loss is the cutting off of the port, its alarm and the auto-changeover, each said by its lemma. -/
theorem aSilentPortIsLost : Obligations.ASilentPortIsLost := by
  intro s p law
  rw [exec_presenceTimerExpiry]
  refine ⟨fun absent => ?_, fun d running early => ?_, fun d present running due closed => ?_⟩
  · rw [if_neg fun h => absent h.1]
  · rw [running, if_neg fun h => absurd (ranOut_iff.mp h.2) (by omega)]
  rw [running, if_pos ⟨present, ranOut_iff.mpr due⟩]
  obtain ⟨waned, frame, slots⟩ := cutOff_spec (p := p) law
  have atLatch : (s.cutOff p).latch (lostSource p) = { (s.silence p).withdrawRequests p with
      queues := (s.cutOff p).queues, buffers := (s.cutOff p).buffers, alarms := (s.latch (lostSource p)).alarms } := by
    exact latch_onFrame (silence_withdrawn s p) frame rfl
  refine ⟨(s.silence p).withdrawRequests p, (s.cutOff p).latch (lostSource p), silence_withdrawn s p,
    (withdrawRequests_spec (s.silence p) p).2, atLatch, waned.ended.lists,
    buffersFollow_congr (t := s.cutOff p) ⟨rfl, rfl, rfl⟩ ⟨rfl, rfl, rfl⟩ waned.buffers,
    fun q k => (slots q k).trans ?_, fun b k sl hk own => cutOff_owned law hk own, ?_⟩
  · cases s.slot q k with
    | none => rfl
    | some sl => exact if_congr (and_congr_right fun _ => endsAtLoss_iff) rfl rfl
  · have map : ((s.cutOff p).latch (lostSource p)).map = s.map := by rw [atLatch, silence_withdrawn]; rfl
    have lines : ((s.cutOff p).latch (lostSource p)).lines = s.lines := by rw [atLatch, silence_withdrawn]; rfl
    rw [losePort_eq closed]
    unfold State.autoChangeover
    rw [map, lines]
    rfl

end Sys2Proof.Machine

/-! ## The guarded set (R35) -/

namespace Sys2Proof.Machine

variable {g : Guard} {c : Nat}

theorem Span.cylinders_le (x : Span) : x.cylinders ≤ 384 := by cases x <;> decide

/-- The guarded range in the words of R35: the lowest cylinders of the data zone, or the highest. -/
theorem inRange_iff : g.inRange c = true ↔
    c ≤ 383 ∧ (if g.low then c + 1 ≤ g.span.cylinders else 384 ≤ c + g.span.cylinders) := by
  have most := g.span.cylinders_le
  unfold Guard.inRange
  split <;> simp <;> omega

/-- The protected data set is the guarded range, or with complement the data cylinders outside it (R35). -/
theorem protectsData_iff : g.protectsData c = true ↔
    c ≤ 383 ∧ (if g.complement then ¬g.inRange c = true else g.inRange c = true) := by
  unfold Guard.protectsData
  cases g.complement <;> simp

/-- The protected data set is one run of cylinders, at one end of the data zone: a range from it, or what the range at
its other end leaves (R35). -/
theorem protectsData_run (g : Guard) :
    ∃ first count, ∀ c, g.protectsData c = true ↔ first ≤ c ∧ c < first + count := by
  have most := g.span.cylinders_le
  have sides (c : Nat) := protectsData_iff (g := g) (c := c)
  cases side : g.low <;> cases complement : g.complement <;>
    simp only [inRange_iff, side, complement, Bool.false_eq_true, if_true, if_false] at sides
  case false.false => exact ⟨384 - g.span.cylinders, g.span.cylinders, fun c => (sides c).trans (by omega)⟩
  case false.true => exact ⟨0, 384 - g.span.cylinders, fun c => (sides c).trans (by omega)⟩
  case true.false => exact ⟨0, g.span.cylinders, fun c => (sides c).trans (by omega)⟩
  case true.true => exact ⟨g.span.cylinders, 384 - g.span.cylinders, fun c => (sides c).trans (by omega)⟩

/-- Settles O58: the set by its lemmas, and between two cylinders of a run lie only cylinders of it. -/
theorem theGuardedRangeIsTheStatedOne : Obligations.TheGuardedRangeIsTheStatedOne := by
  intro g c n inRange
  have count : n = g.span.cylinders := by
    simp only [n]
    cases g.span <;> rfl
  have range : g.inRange c = true ↔ inRange := by rw [inRange_iff, ← count]
  obtain ⟨first, length, run⟩ := protectsData_run g
  refine ⟨by rw [protectsData_iff, range], fun a b hab hbc ha hc => ?_⟩
  rw [run] at *
  omega

end Sys2Proof.Machine

/-! ## SET GUARD (R34, R38, R39) -/

namespace Sys2Proof.Machine

variable {s t : State} {p : Port} {tag : Byte} {w1 w2 a b c d e : Word} {rest : List Word} {o : OrderRule} {k : Packet}

/-- What a completed order packet does, said once: it is discarded where it completes no exchange, refused, or accepted
with every check passed (R51, R55, R56, R153). -/
theorem orderPacket_cases (s : State) (p : Port) (o : OrderRule) (tag : Byte) (rest : List Word) :
    s.orderPacket p o tag rest = s
    ∨ (∃ r, s.orderPacket p o tag rest = s.refuse p r)
    ∨ s.completes p (rest.length + 1) = true
      ∧ ∃ k, s.judgeOrder p o.kind k (o.shape k) (o.needsArm k) (o.own s p k) = none
        ∧ s.orderPacket p o tag rest = (o.accept (s.disarm p) p k).accepted p := by
  unfold State.orderPacket
  split
  · next complete =>
    split
    · exact .inr (.inl ⟨_, rfl⟩)
    · next k _ =>
      split
      · exact .inr (.inl ⟨_, rfl⟩)
      · next passed => exact .inr (.inr ⟨complete, k, passed, rfl⟩)
  · exact .inl rfl

/-- The checks passed: the latch of an order that needs it is set (R51). -/
theorem judgeOrder_armed {x : Kind} {shape : Bool} {own : Option Refuse}
    (h : s.judgeOrder p x k shape true own = none) : (s.ports.get p).armed = true := by
  by_contra unarmed
  unfold State.judgeOrder at h
  rw [if_pos (c := true = true ∧ _) ⟨rfl, by simpa using unarmed⟩] at h
  repeat' split at h
  all_goals cases h

/-- SET GUARD's own checks let it through where the guard's mode and its key allow a change (R38). -/
theorem setGuard_own_none : setGuardRule.own s p k = none ↔
    s.guard.mode ≠ .locked ∧ ¬(s.guard.mode = .keyed ∧ s.lines.guardKey = true) := by
  simp only [setGuardRule]
  by_cases locked : s.guard.mode = .locked
  · simp [locked]
  · by_cases held : s.guard.mode = .keyed ∧ s.lines.guardKey = true
    · simp [held]
    · rw [if_neg locked, if_neg held]
      exact iff_of_true rfl ⟨locked, held⟩

/-- Only an act of SET GUARD touches the guard. -/
theorem Act.guard_eq {i : Instr} (m : Act i s t) (hi : ∀ p tag rest, i ≠ .setGuard p tag rest) :
    t.guard = s.guard := by
  cases m with
  | guard g h hc =>
    obtain ⟨p, tag, rest, same⟩ := hc
    exact absurd same (hi p tag rest)
  | _ => rfl

/-- A run of any command but SET GUARD leaves the guard. -/
theorem Run.guard_eq {i : Instr} (r : Run i s t) (hi : ∀ p tag rest, i ≠ .setGuard p tag rest) :
    t.guard = s.guard :=
  r.keeps (I := fun x => x.guard = s.guard) (fun m h => m.still.guard.trans h) (fun m h => (m.guard_eq hi).trans h)
    (fun _ _ _ _ _ _ _ h => h) (fun _ _ _ _ _ _ _ h => h) rfl

/-- A SET GUARD that changes the guard completes its exchange, armed, and was let through (R38, R39). -/
theorem setGuard_changes (h : exec (.setGuard p tag rest) s = .next t) (changed : t.guard ≠ s.guard) :
    s.completes p (rest.length + 1) = true ∧ (s.ports.get p).armed = true
      ∧ s.guard.mode ≠ .locked ∧ ¬(s.guard.mode = .keyed ∧ s.lines.guardKey = true) := by
  cases h
  rcases orderPacket_cases s p setGuardRule tag rest with same | ⟨r, refused⟩ | ⟨complete, k, passed, -⟩
  · exact absurd (congrArg State.guard same) changed
  · exact absurd (congrArg State.guard refused) changed
  · exact ⟨complete, judgeOrder_armed passed, setGuard_own_none.mp (judgeOrder_own passed)⟩

/-- Settles O7: a PANEL RESET starts from the guard as it was, and every other command is a run. -/
theorem onlySetGuardAndPowerOnChangeTheGuard : Obligations.OnlySetGuardAndPowerOnChangeTheGuard := by
  intro i s t h changed
  cases reset : isReset i with
  | true =>
    cases i with
    | powerOn lines cart => exact .inl ⟨lines, cart, rfl⟩
    | panelReset =>
      cases h
      have run := resetTo_run (c := .panelReset) s s.lines s.cutPass.disk
        { MapUnit.powerOn with plan1 := s.map.plan1, plan2 := s.map.plan2 } s.guard
      exact absurd (run.guard_eq nofun) changed
    | _ => cases reset
  | false =>
    by_cases sets : ∃ p tag rest, i = .setGuard p tag rest
    · obtain ⟨p, tag, rest, rfl⟩ := sets
      obtain ⟨complete, armed, admitted⟩ := setGuard_changes h changed
      exact .inr ⟨⟨p, tag, rest, rfl, complete, armed⟩, admitted⟩
    · push Not at sets
      exact absurd ((exec_run i s t reset h).guard_eq sets) changed

theorem span_ofCode (n : Nat) :
    Span.ofCode n = [Span.none, .sixteenth, .eighth, .quarter, .half, .all][n]? := by
  rcases n with _ | _ | _ | _ | _ | _ | n <;> rfl

theorem guardMode_ofCode (n : Nat) : GuardMode.ofCode n = [GuardMode.opened, .keyed, .locked][n]? := by
  rcases n with _ | _ | _ | n <;> rfl

/-- The setting and mode that the fields of a SET GUARD hold (R39; 12, section 12.1). -/
theorem guard_packetOf {span : Span} {mode : GuardMode}
    (ha : [Span.none, .sixteenth, .eighth, .quarter, .half, .all][a.toNat]? = some span)
    (he : [GuardMode.opened, .keyed, .locked][e.toNat]? = some mode)
    (hb : b.toNat ≤ 1) (hc : c.toNat ≤ 1) (hd : d.toNat ≤ 1) : (packetOf tag w1 w2 [a, b, c, d, e]).guard
      = some ⟨span, decide (b = 1), decide (c = 1), decide (d = 1), mode⟩ := by
  simp [Packet.guard, packetOf, Packet.num, wordAt, span_ofCode, guardMode_ofCode, ha, he, hb, hc, hd, toNat_eq_one]

/-- Settles O27: the shape is sound, and the own checks are those of the mode and the key. -/
theorem setGuardFollowsTheModeAndTheKey : Obligations.SetGuardFollowsTheModeAndTheKey := by
  intro s p tag w1 w2 a b c d e k span mode complete hk armed hu hd ha he hb hc hd' i setting done u
  have fields : (packetOf tag w1 w2 [a, b, c, d, e]).guard = some setting := guard_packetOf ha he hb hc hd'
  have shape : setGuardRule.shape (packetOf tag w1 w2 [a, b, c, d, e]) = true := by
    simp only [setGuardRule, fields]
    rfl
  have refused {x : Refuse} (own : setGuardRule.own s p (packetOf tag w1 w2 [a, b, c, d, e]) = some x) :
      exec i s = .next (s.refusedWith p x) :=
    congrArg _ (orderPacket_refusedOwn (fields := [a, b, c, d, e]) ⟨k, hk⟩ complete hu hd shape (fun _ => armed)
      own)
  refine ⟨fun admitted => ?_, fun keyed key => refused ?_, fun locked => refused (if_pos locked)⟩
  · have own : setGuardRule.own s p (packetOf tag w1 w2 [a, b, c, d, e]) = none := by
      rw [setGuard_own_none]
      rcases admitted with opened | ⟨keyed, off⟩
      · simp [opened]
      · simp [keyed, off]
    refine orderPacket_answered setGuardRule [a, b, c, d, e] id hk complete hu hd shape (.inr armed) own
      (u := { s.disarm p with guard := setting }) ?_ rfl rfl
    simp only [setGuardRule, fields]
    rfl
  · exact (if_neg (by simp [keyed])).trans (if_pos ⟨keyed, key⟩)

end Sys2Proof.Machine

/-! ## The maintenance orders are accepted (R40, R46, R53, R55) -/

namespace Sys2Proof.Machine

variable {s : State} {p : Port} {tag : Byte} {w1 w2 : Word} {fields : List Word} {k : Packet} {j : Fin 8}

/-- A sound packet whose kind queues a record is queued in the FREE slot found, and it is answered ACCEPTED (R55). -/
theorem orderPacket_enqueued (o : OrderRule) {sl : Slot} (hk : s.slotFor p tag j)
    (hc : s.completes p (fields.length + 3) = true) (hu : field w1 15 8 ≤ 1) (hd : field w1 7 0 ≤ 1)
    (hs : o.shape (packetOf tag w1 w2 fields) = true)
    (ha : o.needsArm (packetOf tag w1 w2 fields) = false ∨ (s.ports.get p).armed = true)
    (hw : o.own s p (packetOf tag w1 w2 fields) = none)
    (he : o.accept (s.disarm p) p (packetOf tag w1 w2 fields) = (s.disarm p).enqueue p sl) :
    s.orderPacket p o tag (w1 :: w2 :: fields)
      = ((s.disarm p).slotTaken p j sl).schedule.judgeAlarm.acceptedWith p := by
  rw [orderPacket_accepted hc hu hd hs (.inr ⟨j, hk⟩) ha hw, he, State.enqueue,
    enterSlot_at (s := s.disarm p) (slotFor_congr rfl hk)]
  rfl

/-- A FORMAT TRACK of an address of the disk that the map grants and the guard leaves free passes its checks (R18, R40,
R53). -/
theorem formatTrack_passes (hr : s.drive.state.serving = true) (h0 : k.num 0 ≤ 386) (h1 : k.num 1 ≤ 3)
    (granted : k.num 0 ≤ 383 → s.formatMapChecks p (k.num 0) = none)
    (free : s.guard.protectsFormat (k.num 0) = false) : formatTrackRule.own s p k = none := by
  have address : ¬(386 < k.num 0 ∨ 3 < k.num 1) := by omega
  simp only [formatTrackRule, notReady_false hr, Bool.false_eq_true, if_false, if_neg address]
  by_cases data : k.num 0 ≤ 383
  · simp [data, granted data, free]
  · simp [data, free]

/-- An INITIALIZE LABEL passes its checks while the drive is ready and the guard is not frozen (R40, R53). -/
theorem initializeLabel_passes (hr : s.drive.state.serving = true) (thawed : s.guard.freeze = false) :
    initializeLabelRule.own s p k = none := by
  simp [initializeLabelRule, firstOf, notReady_false hr, thawed]

/-- Settles O25: each kind's own checks pass, and its record is queued. -/
theorem maintenanceOrdersAreAccepted : Obligations.MaintenanceOrdersAreAccepted := by
  intro s p tag w1 w2 a b c d e k hk hu hd ready u queued
  have serving : s.drive.state.serving = true := (serving_iff _).mpr ready
  refine ⟨fun hc armed h0 h1 right free => ?_, fun hc armed thawed => ?_,
    fun hc armed h0 h1 h2 thawed label room => ?_, fun hc h0 low high mode => ?_⟩
  · exact congrArg _ (orderPacket_enqueued formatTrackRule (fields := [a, b]) hk hc hu hd rfl (.inr armed)
      (formatTrack_passes serving h0 h1 (fun data => formatMapChecks_pass (right data)) free) rfl)
  · exact congrArg _ (orderPacket_enqueued initializeLabelRule (fields := [a, b, c, d, e]) hk hc hu hd rfl (.inr armed)
      (initializeLabel_passes serving thawed) rfl)
  · have own : assignSpareRule.own s p (packetOf tag w1 w2 [a, b, c]) = none := by
      have address : ¬(384 < a.toNat ∨ 3 < b.toNat ∨ 19 < c.toNat) := by omega
      rw [assignSpare_own serving]
      exact (if_neg address).trans ((if_neg (by simp [thawed])).trans ((if_neg (not_not.mpr label)).trans
        (if_neg (Nat.not_le.mpr room))))
    exact congrArg _ (orderPacket_enqueued assignSpareRule (fields := [a, b, c]) hk hc hu hd rfl (.inr armed) own rfl)
  · have own : testTrackRule.own s p (packetOf tag w1 w2 [a, b, c, d]) = none := by
      have window : ¬(c.toNat = 0 ∨ 255 < c.toNat) := by omega
      rw [testTrack_own serving]
      exact (if_neg (Nat.not_lt.mpr h0)).trans (if_neg window)
    have shape : testTrackRule.shape (packetOf tag w1 w2 [a, b, c, d]) = true := decide_eq_true mode
    have single : decide ((packetOf tag w1 w2 [a, b, c, d]).num 3 = 1) = decide (d = 1) :=
      decide_eq_decide.mpr toNat_eq_one
    refine congrArg _ (orderPacket_enqueued testTrackRule (fields := [a, b, c, d]) hk hc hu hd shape (.inl rfl) own ?_)
    simp only [testTrackRule, single]
    rfl

end Sys2Proof.Machine

/-! ## The lists of a port stay true to its slots (R47, R59, R65, R66) -/

namespace Sys2Proof.Machine

/-! ### One port's queue -/

/-- One port's part of the law of the queues: the order list names the live slots and the reply list the DONE ones, once
each, and no two live slots carry one tag. -/
structure Queue.Sound (q : Queue) : Prop where
  orderNodup : q.order.Nodup
  order : ∀ k : Fin 8, k ∈ q.order ↔ (q.slots[k]).isSome = true
  repliesNodup : q.replies.Nodup
  replies : ∀ k : Fin 8, k ∈ q.replies ↔ ∃ sl, q.slots[k] = some sl ∧ sl.state = .done
  tags : ∀ (j k : Fin 8) (x y : Slot), q.slots[j] = some x → q.slots[k] = some y → x.tag = y.tag → j = k

theorem queueLaw_iff {s : State} : s.queueLaw ↔ ∀ p, (s.queues.get p).Sound :=
  forall_congr' fun _ => ⟨fun ⟨a, b, c, d, e⟩ => ⟨a, b, c, d, e⟩, fun ⟨a, b, c, d, e⟩ => ⟨a, b, c, d, e⟩⟩

section
variable {q : Queue} {k : Fin 8} {x y sl : Slot} {f : Slot → Slot}

/-- The tags stay apart where one slot's record is replaced by one whose tag no other slot carries. -/
theorem Queue.Sound.tags_put (h : q.Sound) {o : Option Slot}
    (ho : ∀ y, o = some y → ∀ j x, j ≠ k → q.slots[j] = some x → x.tag ≠ y.tag) (i j : Fin 8) (x y : Slot)
    (hi : (q.put k o).slots[i] = some x) (hj : (q.put k o).slots[j] = some y) (e : x.tag = y.tag) : i = j := by
  rw [put_slots] at hi hj
  split at hi <;> split at hj
  · next hik hjk => exact hik.trans hjk.symm
  · next hik hjk => exact absurd e.symm (ho x hi j y hjk hj)
  · next hik hjk => exact absurd e (ho y hj i x hik hi)
  · exact h.tags i j x y hi hj e

/-- The tag of a live slot is on no other. -/
theorem Queue.Sound.tag_alone (h : q.Sound) (hk : q.slots[k] = some x) (j : Fin 8) (y : Slot) (hj : j ≠ k)
    (hy : q.slots[j] = some y) : y.tag ≠ x.tag := fun e => hj (h.tags j k y x hy hk e)

/-- A record that keeps its tag, and is DONE exactly where it was, leaves the lists true. -/
theorem Queue.Sound.put (h : q.Sound) (hk : q.slots[k] = some x) (tag : y.tag = x.tag)
    (done : y.state = .done ↔ x.state = .done) : (q.put k (some y)).Sound where
  orderNodup := h.orderNodup
  order j := by
    rw [put_order, h.order, put_slots]
    split
    · next e => subst e; simp [hk]
    · rfl
  repliesNodup := h.repliesNodup
  replies j := by
    rw [put_replies, h.replies, put_slots]
    split
    · next e => subst e; simp [hk, done]
    · rfl
  tags := h.tags_put fun z hz j w hj hw => by
    cases hz
    rw [tag]
    exact h.tag_alone hk j w hj hw

/-- A slot that becomes DONE, its tag as it was, joins the reply list (R47). -/
theorem Queue.Sound.answer (h : q.Sound) (hk : q.slots[k] = some x) (live : x.state ≠ .done) (tag : y.tag = x.tag)
    (done : y.state = .done) : ((q.put k (some y)).answer k).Sound where
  orderNodup := h.orderNodup
  order j := by
    rw [answer_order, put_order, h.order, answer_slots, put_slots]
    split
    · next e => subst e; simp [hk]
    · rfl
  repliesNodup := by
    have new : k ∉ q.replies := by
      rw [h.replies]
      rintro ⟨z, hz, hd⟩
      rw [hk] at hz
      cases hz
      exact live hd
    rw [answer_replies, put_replies]
    simpa [List.nodup_append] using ⟨h.repliesNodup, fun j hj e => new (e ▸ hj)⟩
  replies j := by
    rw [answer_replies, put_replies, List.mem_append, List.mem_singleton, h.replies, answer_slots, put_slots]
    split
    · next e => subst e; simp [done]
    · next e => simp [e]
  tags := h.tags_put fun z hz j w hj hw => by
    cases hz
    rw [tag]
    exact h.tag_alone hk j w hj hw

/-- A slot that becomes FREE leaves both lists (R47, R59). -/
theorem Queue.Sound.drop (h : q.Sound) (k : Fin 8) : (q.drop k).Sound where
  orderNodup := h.orderNodup.erase k
  order j := by
    rw [drop_order, h.orderNodup.mem_erase_iff, h.order, drop_slots]
    split
    · next e => simp [e]
    · next e => simp [e]
  repliesNodup := h.repliesNodup.erase k
  replies j := by
    rw [drop_replies, h.repliesNodup.mem_erase_iff, h.replies, drop_slots]
    split
    · next e => simp [e]
    · next e => simp [e]
  tags := h.tags_put fun _ hy => by cases hy

/-- A record that is not DONE enters a FREE slot with a tag no live slot carries (R55, R65, R66). -/
theorem Queue.Sound.enter (h : q.Sound) (free : q.freeSlot = some k) (live : sl.state ≠ .done)
    (tag : q.tagged sl.tag = none) : (q.enter k sl).Sound where
  orderNodup := by
    have new : k ∉ q.order := by simp [h.order, freeSlot_some free]
    rw [enter_order]
    simpa [List.nodup_append] using ⟨h.orderNodup, fun j hj e => new (e ▸ hj)⟩
  order j := by
    rw [enter_order, List.mem_append, List.mem_singleton, h.order, enter_slots]
    split
    · next e => simp [e]
    · next e => simp [e]
  repliesNodup := h.repliesNodup
  replies j := by
    rw [enter_replies, h.replies, enter_slots]
    split
    · next e => subst e; simp [freeSlot_some free, live]
    · rfl
  tags := h.tags_put fun z hz j w _ hw => by
    cases hz
    exact tagged_none tag j w hw

/-- A record that is DONE as it enters joins both lists, as one that enters and then becomes DONE would (R57). -/
theorem Queue.Sound.enterAnswered (h : q.Sound) (free : q.freeSlot = some k) (done : sl.state = .done)
    (tag : q.tagged sl.tag = none) : ((q.enter k sl).answer k).Sound := by
  have entered : (q.enter k { sl with state := .queued }).Sound := h.enter free SlotState.noConfusion tag
  have answered := entered.answer (x := { sl with state := .queued }) (y := sl) (by rw [enter_slots, if_pos rfl])
    SlotState.noConfusion rfl done
  have twice : (q.enter k { sl with state := .queued }).put k (some sl) = q.enter k sl :=
    congrArg (fun v => (⟨v, q.order ++ [k], q.replies⟩ : Queue)) (Vector.set_set ..)
  rwa [twice] at answered

/-- A slot that an ending reaches becomes DONE in the reply list, or FREE (R47, R49). -/
theorem Queue.Sound.finish (h : q.Sound) (hk : q.slots[k] = some x) (live : x.state ≠ .done) (e : Ending)
    (fa : Option Addr) : (q.finish k e fa).Sound := by
  unfold Queue.finish
  rw [hk]
  dsimp only
  split
  · exact h.drop k
  · exact h.answer hk live rfl rfl

end

/-! ### Moves, acts, and steps -/

section
variable {c : Instr} {s t : State} {p : Port} {k : Fin 8}

theorem queueLaw_onQueue (h : s.queueLaw) {f : Queue → Queue}
    (hf : (s.queues.get p).Sound → (f (s.queues.get p)).Sound) : (s.onQueue p f).queueLaw := by
  rw [queueLaw_iff] at h ⊢
  intro q
  rw [onQueue_queues, get_modify]
  split
  · exact hf (h p)
  · exact h q

/-- A live slot's record that keeps its tag, and is DONE exactly where it was, leaves the lists true. -/
theorem queueLaw_modSlot (h : s.queueLaw) {f : Slot → Slot}
    (hf : ∀ x, s.slot p k = some x → (f x).tag = x.tag ∧ ((f x).state = .done ↔ x.state = .done)) :
    (s.modSlot p k f).queueLaw := by
  refine queueLaw_onQueue h fun sound => ?_
  cases hk : (s.queues.get p).slots[k] with
  | none =>
    have same : (s.queues.get p).put k none = s.queues.get p := by
      unfold Queue.put
      rw [← hk]
      congr 1
      exact Vector.set_getElem_self _
    rw [Option.map_none, same]
    exact sound
  | some x => exact sound.put hk (hf x hk).1 (hf x hk).2

/-- Every move keeps the lists true: one record changes, or a slot ends or becomes FREE. -/
theorem Move.queueLaw (m : Move s t) (h : s.queueLaw) : t.queueLaw := by
  have stays {p : Port} {k : Fin 8} {x : Slot} {f : Slot → Slot} (hk : s.slot p k = some x) (live : x.state ≠ .done)
      (tag : (f x).tag = x.tag) (hf : (f x).state ≠ .done) : (s.modSlot p k f).queueLaw :=
    queueLaw_modSlot h fun y hy => by
      rw [hk] at hy
      cases hy
      exact ⟨tag, iff_of_false hf live⟩
  cases m with
  | record p k f hf => exact queueLaw_modSlot h fun x hx => ⟨(hf x hx).1, by rw [(hf x hx).2.1]⟩
  | serve p k x hk waits =>
    exact stays hk (by rcases waits with e | e <;> rw [e] <;> decide) rfl SlotState.noConfusion
  | replace p q k j x y hk served _ _ hj queued =>
    have aside := stays (f := fun x => { x with state := .suspended }) hk (by rw [served]; decide) rfl
      SlotState.noConfusion
    refine queueLaw_modSlot aside fun z hz => ⟨rfl, iff_of_false SlotState.noConfusion ?_⟩
    rw [slot_modSlot] at hz
    split at hz
    · obtain ⟨w, -, rfl⟩ := Option.map_eq_some_iff.mp hz
      exact SlotState.noConfusion
    · rw [hj] at hz
      cases hz
      rw [queued]
      decide
  | drain p k e fa x hk served => exact stays hk (by rw [served]; decide) rfl SlotState.noConfusion
  | finish p k e fa x hk live => exact queueLaw_onQueue h fun sound => sound.finish hk live e fa
  | drop p k => exact queueLaw_onQueue h fun sound => sound.drop k
  | _ => exact h

/-- A DRAINING slot whose last buffer is taken joins the reply list (R50); no other act touches a queue. -/
theorem Act.queueLaw (m : Act c s t) (h : s.queueLaw) : t.queueLaw := by
  cases m with
  | drained p k x hk draining =>
    have once : s.finishDraining p k = s.onQueue p fun q =>
        (q.put k (q.slots[k].map fun sl => { sl with state := .done, drainStart := none })).answer k := by
      cases p <;> rfl
    rw [once]
    refine queueLaw_onQueue h fun sound => ?_
    have hk : (s.queues.get p).slots[k] = some x := hk
    rw [hk]
    exact sound.answer hk (by rw [draining]; decide) rfl rfl
  | _ => exact h

/-- A command that is no reset keeps the lists true. -/
theorem Run.queueLaw (r : Run c s t) (h : s.queueLaw) : t.queueLaw :=
  r.keeps (I := State.queueLaw) Move.queueLaw Act.queueLaw
    (fun _ _ _ _ free queued tag h => queueLaw_onQueue h fun sound => sound.enter free (by rw [queued]; decide) tag)
    (fun _ _ _ _ free done tag h => queueLaw_onQueue h fun sound => sound.enterAnswered free done tag) h

end

/-- Settles O9: a tick touches no queue, a command is a run, and a reset a run from empty queues. -/
theorem theOrderListsStayTrue : Obligations.TheOrderListsStayTrue := by
  intro s t hs h
  rcases step_cases s t h with ⟨-, rfl⟩ | ⟨c, rest, -, -, -, r⟩ | ⟨c, rest, _, _, _, _, -, -, -, -, r⟩
  · exact hs
  · exact r.queueLaw hs
  · exact r.queueLaw reset_queueLaw

end Sys2Proof.Machine

/-! ## Every command answers (R64, R93) -/

namespace Sys2Proof.Machine

variable {c : Instr} {s : State}

/-- Every command of the table has a meaning, and no meaning faults. -/
theorem exec_next (c : Instr) (s : State) : ∃ t, exec c s = .next t := by
  cases c <;> exact ⟨_, rfl⟩

/-- A reset leaves the waiting commands (assumption 19). -/
theorem resetTo_pending (s : State) (lines : Lines) (disk : Cartridge) (map : MapUnit) (guard : Guard) :
    (s.resetTo lines disk map guard).pending = s.pending :=
  (resetTo_run (c := .panelReset) s lines disk map guard).still.1

/-- Settles O6: a command that is no reset is a run, which keeps the waiting commands and the tick count. -/
theorem everyCommandAnswersNext : Obligations.EveryCommandAnswersNext := by
  intro c s
  obtain ⟨t, ht⟩ := exec_next c s
  refine ⟨t, ht, ?_⟩
  by_cases hc : isReset c = false
  · obtain ⟨pending, tick⟩ := (exec_run c s t hc ht).still
    exact ⟨pending, fun _ => tick⟩
  · refine ⟨?_, fun h => absurd h hc⟩
    cases c with
    | powerOn lines cart => cases ht; exact resetTo_pending ..
    | panelReset => cases ht; exact resetTo_pending ..
    | _ => exact absurd rfl hc

end Sys2Proof.Machine

/-! ## The general checks of a packet, ARM and the unknown kinds (R44, R51, R56, R172) -/

namespace Sys2Proof.Machine

/-! ### The rule of a kind -/

/-- The rule by which a completed packet of a kind is judged. -/
def Kind.rule : Kind → OrderRule
  | .read => readRule
  | .write => writeRule
  | .check => checkRule
  | .formatTrack => formatTrackRule
  | .initializeLabel => initializeLabelRule
  | .assignSpare => assignSpareRule
  | .testTrack => testTrackRule
  | .readPlan => readPlanRule
  | .writePlan => writePlanRule
  | .loadPlan => loadPlanRule
  | .setMapMode => setMapModeRule
  | .setGuard => setGuardRule
  | .setSupervision => setSupervisionRule
  | .setAlarmLine => setAlarmLineRule
  | .clearAlarms => clearAlarmsRule
  | .captureStatistics => captureStatisticsRule
  | .readStatistics => readStatisticsRule
  | .readLabel => readLabelRule
  | .restartDrive => restartDriveRule
  | .arm => armRule
  | .clearPort => clearPortRule

theorem exec_packet (kind : Kind) (p : Port) (tag : Byte) (rest : List Word) (s : State) :
    exec (kind.packet p tag rest) s = .next (s.orderPacket p kind.rule tag rest) := by
  cases kind <;> rfl

theorem rule_kind (kind : Kind) : kind.rule.kind = kind := by cases kind <;> rfl

section
variable {tag : Byte} {w1 w2 : Word} {fields : List Word}

theorem num_packetOf (i : Nat) : (packetOf tag w1 w2 fields).num i = (wordAt fields i).toNat := rfl

theorem fields_packetOf : (packetOf tag w1 w2 fields).fields = fields := rfl

/-- The latch is asked for by a kind's rule as the table of R44 asks for it. -/
theorem rule_needsArm (kind : Kind) : kind.rule.needsArm (packetOf tag w1 w2 fields) = kind.arms fields := by
  have direct := BitVec.toNat_eq (x := wordAt fields 0) (y := 0)
  cases kind with
  | writePlan => exact decide_eq_decide.mpr direct.symm
  | _ => rfl

theorem mapMode_isSome (n : Nat) : (MapMode.ofCode n).isSome = decide (n ≤ 2) := by
  rcases n with _ | _ | _ | n <;> simp [MapMode.ofCode]

theorem source_isSome (n : Nat) : (Source.ofCode n).isSome = decide (n ≤ 6) := by
  rcases n with _ | _ | _ | _ | _ | _ | _ | n <;> simp [Source.ofCode]

theorem span_isSome (n : Nat) : (Span.ofCode n).isSome = decide (n ≤ 5) := by
  rcases n with _ | _ | _ | _ | _ | _ | n <;> simp [Span.ofCode]

theorem guardMode_isSome (n : Nat) : (GuardMode.ofCode n).isSome = decide (n ≤ 2) := by
  rcases n with _ | _ | _ | n <;> simp [GuardMode.ofCode]

/-- A SET GUARD's fields hold a setting where each of them holds a code (R39). -/
theorem guard_isSome (k : Packet) : k.guard.isSome
    = decide (k.num 0 ≤ 5 ∧ k.num 1 ≤ 1 ∧ k.num 2 ≤ 1 ∧ k.num 3 ≤ 1 ∧ k.num 4 ≤ 2) := by
  have span := span_isSome (k.num 0)
  have mode := guardMode_isSome (k.num 4)
  unfold Packet.guard
  cases hs : Span.ofCode (k.num 0) with
  | none =>
    rw [hs] at span
    simp [of_decide_eq_false span.symm]
  | some x =>
    cases hm : GuardMode.ofCode (k.num 4) with
    | none =>
      rw [hm] at mode
      simp [of_decide_eq_false mode.symm]
    | some y =>
      rw [hs] at span
      rw [hm] at mode
      rw [Bool.eq_iff_iff]
      simp [of_decide_eq_true span.symm, of_decide_eq_true mode.symm]

/-- A WRITE PLAN's shape is sound where its words hold as many entries as they name, in places of a plan (R20, R172). -/
theorem writePlan_shape_eq : writePlanRule.shape (packetOf tag w1 w2 fields) = Kind.writePlan.sound fields := by
  refine Bool.eq_iff_iff.mpr ⟨fun h => ?_, writePlan_shape_of_sound⟩
  simp only [writePlanRule, Bool.and_eq_true, decide_eq_true_eq] at h
  simp only [num_packetOf, fields_packetOf] at h
  obtain ⟨⟨⟨⟨⟨target, low⟩, high⟩, last⟩, length⟩, entries⟩ := h
  have enough : 3 * (wordAt fields 2).toNat ≤ (fields.drop 3).length := by simp only [List.length_drop]; omega
  rcases planEntriesOf_cases _ _ enough with ⟨-, unread⟩ | ⟨rights, -⟩
  · have read : planEntriesOf (wordAt fields 2).toNat (fields.drop 3) ≠ none := Option.isSome_iff_ne_none.mp entries
    exact absurd unread read
  · simp only [Kind.sound, decide_eq_true_eq]
    refine ⟨length, target, low, last, fun i hi => ?_⟩
    have fields3 := rights i hi
    have fieldsLe := rightFields_le (wordAt fields (3 + 3 * i))
    simp only [wordAt_drop] at fields3
    omega

/-- The fields are judged by a kind's rule as the tables of 12, section 12.1, ask (R172). -/
theorem rule_shape (kind : Kind) : kind.rule.shape (packetOf tag w1 w2 fields) = kind.sound fields := by
  cases kind with
  | writePlan => exact writePlan_shape_eq
  | setGuard =>
    refine Bool.eq_iff_iff.mpr ?_
    simp only [Kind.rule, setGuardRule, guard_isSome, Kind.sound, Bool.and_eq_true, decide_eq_true_eq]
    rfl
  | setMapMode =>
    refine Bool.eq_iff_iff.mpr ?_
    simp only [Kind.rule, setMapModeRule, mapMode_isSome, Kind.sound, Bool.and_eq_true, decide_eq_true_eq, and_assoc]
    rfl
  | setAlarmLine =>
    refine Bool.eq_iff_iff.mpr ?_
    simp only [Kind.rule, setAlarmLineRule, source_isSome, Kind.sound, Bool.and_eq_true, decide_eq_true_eq, and_assoc]
    rfl
  | loadPlan =>
    refine Bool.eq_iff_iff.mpr ?_
    simp only [Kind.rule, loadPlanRule, Kind.sound, Bool.and_eq_true, Bool.or_eq_true, decide_eq_true_eq]
    rfl
  | write => exact (Bool.decide_and ..).symm
  | testTrack => exact (Bool.decide_and ..).symm
  | readPlan => exact (Bool.decide_and ..).symm
  | clearAlarms => exact (Bool.decide_and ..).symm
  | _ => rfl

end

/-! ### Refusals -/

section
variable {s : State} {p : Port} {tag : Byte} {w1 w2 : Word} {fields rest : List Word} {o : OrderRule} {r : Refuse}

theorem refuse_eq (s : State) (p : Port) (r : Refuse) : s.refuse p r = s.refusedWith p r := by
  unfold State.refuse State.refusedWith State.disarm State.answer
  cases p <;> rfl

/-- Fewer than two words after word 0 hold no header (R172). -/
theorem parse_short (h : rest.length ≤ 1) : Packet.parse tag rest = none := by
  match rest, h with
  | [], _ => rfl
  | [_], _ => rfl

/-- A packet too short for its header is refused MALFORMED (R51, R172). -/
theorem orderPacket_short (hc : s.completes p (rest.length + 1) = true) (h : rest.length ≤ 1) :
    s.orderPacket p o tag rest = s.refusedWith p .malformed := by
  unfold State.orderPacket
  rw [if_pos hc, parse_short h, refuse_eq]

/-- A queue has no FREE slot exactly where every slot is live (R48). -/
theorem freeSlot_isNone : (s.queues.get p).freeSlot.isNone = true ↔ ∀ k, s.slot p k ≠ none := by
  rw [Option.isNone_iff_eq_none, Queue.freeSlot, List.find?_eq_none]
  simp only [mem_slotNumbers, forall_const, Option.isNone_iff_eq_none, State.slot, ne_eq]

/-- A tag is in use exactly where a live slot carries it (R66). -/
theorem tagged_isSome : ((s.queues.get p).tagged tag).isSome = true ↔ ∃ k sl, s.slot p k = some sl ∧ sl.tag = tag := by
  constructor
  · intro h
    obtain ⟨⟨k, sl⟩, hx⟩ := Option.isSome_iff_exists.mp h
    exact ⟨k, sl, tagged_some hx⟩
  · rintro ⟨k, sl, hk, carries⟩
    by_contra h
    exact tagged_none (Option.not_isSome_iff_eq_none.mp h) k sl hk carries

open Classical in
/-- The general checks of a packet that holds its header, in their order, and then its kind's own (R51). -/
theorem judgeOrder_rule (kind : Kind) : s.judgeOrder p kind.rule.kind (packetOf tag w1 w2 fields)
    (kind.rule.shape (packetOf tag w1 w2 fields)) (kind.rule.needsArm (packetOf tag w1 w2 fields))
    (kind.rule.own s p (packetOf tag w1 w2 fields)) =
      if ¬(field w1 15 8 ≤ 1 ∧ field w1 7 0 ≤ 1 ∧ kind.sound fields = true) then some .malformed
      else if kind.slotless = false ∧ (∀ k, s.slot p k ≠ none) then some .queueFull
      else if kind.slotless = false ∧ (∃ k sl, s.slot p k = some sl ∧ sl.tag = tag) then some .tagInUse
      else if kind.arms fields = true ∧ (s.ports.get p).armed = false then some .notArmed
      else kind.rule.own s p (packetOf tag w1 w2 fields) := by
  unfold State.judgeOrder
  rw [rule_kind, rule_shape, rule_needsArm]
  refine if_congr ?_ rfl (if_congr (and_congr_right fun _ => freeSlot_isNone) rfl
    (if_congr (and_congr_right fun _ => tagged_isSome) rfl rfl))
  rw [← Bool.not_eq_true, Bool.and_eq_true, Packet.headerOk, Bool.and_eq_true, decide_eq_true_eq, decide_eq_true_eq,
    and_assoc]
  rfl

/-- A completed packet that a general check turns away is refused with that check's code (R51, R56). -/
theorem packet_refusedBy {kind : Kind} (hc : s.completes p ((w1 :: w2 :: fields).length + 1) = true)
    (hj : s.judgeOrder p kind.rule.kind (packetOf tag w1 w2 fields) (kind.rule.shape (packetOf tag w1 w2 fields))
      (kind.rule.needsArm (packetOf tag w1 w2 fields)) (kind.rule.own s p (packetOf tag w1 w2 fields)) = some r) :
    exec (kind.packet p tag (w1 :: w2 :: fields)) s = .next (s.refusedWith p r) := by
  rw [exec_packet, orderPacket_refused hc hj, refuse_eq]

theorem code_of_refusalsByCode {n : Nat} (h : refusalsByCode[n]? = some r) : r.code.toNat = n + 1 := by
  have all : ∀ i : Fin 20, refusalsByCode[i].code.toNat = i.val + 1 := by decide
  obtain ⟨hn, rfl⟩ := List.getElem?_eq_some_iff.mp h
  exact all ⟨n, hn⟩

end

/-- Settles O33: the checks by their order in the judgement of a packet, each premise passing those before it. -/
theorem theGeneralChecksRefuseInOrder : Obligations.TheGeneralChecksRefuseInOrder := by
  refine ⟨fun n r => code_of_refusalsByCode, fun r => by cases r <;> decide, ?_⟩
  intro s p tag rest kind hc
  refine ⟨fun short => ?_, ?_⟩
  · rw [exec_packet, orderPacket_short hc short]
  rintro w1 w2 fields rfl
  have refused {r : Refuse} := packet_refusedBy (r := r) (tag := tag) (kind := kind) hc
  rw [judgeOrder_rule] at refused
  refine ⟨fun bad => refused (if_pos ?_), fun hu hd sound => ?_⟩
  · rintro ⟨hu, hd, sound⟩
    rcases bad with urgency | drop | fields
    · omega
    · omega
    · rw [sound] at fields
      cases fields
  rw [if_neg (not_not.mpr ⟨hu, hd, sound⟩)] at refused
  have room : (∃ k, s.slot p k = none) → ¬(kind.slotless = false ∧ ∀ k, s.slot p k ≠ none) :=
    fun ⟨k, free⟩ h => h.2 k free
  refine ⟨fun takes full => refused (if_pos ⟨takes, full⟩), fun takes free used => refused ?_,
    fun slot arms unarmed => refused ?_⟩
  · rw [if_neg (room free), if_pos ⟨takes, used⟩]
  · have full : ¬(kind.slotless = false ∧ ∀ k, s.slot p k ≠ none) := by
      rintro ⟨takes, full⟩
      rcases slot with slotless | ⟨k, free, -, -⟩
      · rw [slotless] at takes; cases takes
      · exact full k free
    have inUse : ¬(kind.slotless = false ∧ ∃ k sl, s.slot p k = some sl ∧ sl.tag = tag) := by
      rintro ⟨takes, k, sl, hk, carries⟩
      rcases slot with slotless | ⟨_, -, -, others⟩
      · rw [slotless] at takes; cases takes
      · exact others k sl hk carries
    rw [if_neg full, if_neg inUse, if_pos ⟨arms, unarmed⟩]

/-- Settles O31: ARM passes every check and takes no slot; a packet of an unknown kind is only tried for its header. -/
theorem armSetsTheLatchAndUnknownKindsAreRefused : Obligations.ArmSetsTheLatchAndUnknownKindsAreRefused := by
  intro s p tag code w1 w2 l
  refine ⟨fun hu hd hc => ?_, fun hc => ?_, fun short hc => ?_⟩
  · have accepted := orderPacket_accepted (o := armRule) (tag := tag) (w2 := w2) (fields := []) hc hu hd rfl (.inl rfl)
      (.inl rfl) rfl
    refine congrArg _ (accepted.trans ?_)
    cases p <;> rfl
  · have unknown : exec (.unknownKind p code tag (w1 :: w2 :: l)) s = .next (s.refuse p .unknownKind) :=
      congrArg _ (if_pos hc)
    rw [unknown, refuse_eq]
  · have malformed : exec (.unknownKind p code tag l) s = .next (s.refuse p .malformed) := by
      refine congrArg _ ((if_pos hc).trans ?_)
      rw [parse_short short]
    rw [malformed, refuse_eq]

end Sys2Proof.Machine

/-! ## Due ticks and drain limits (R49, R82, R114, R124) -/

namespace Sys2Proof.Machine

section
variable {s : State} {p : Port} {tag : Byte} {k : Fin 8} {sl : Slot} {e : Ending} {fa : Option Addr}

/-- The slot that a tag names is the one that its search finds (R66). -/
theorem tagged_of_names (h : s.names p tag k sl) : (s.queues.get p).tagged tag = some (k, sl) := by
  obtain ⟨live, carries, alone⟩ := h
  cases found : (s.queues.get p).tagged tag with
  | none => exact absurd carries (tagged_none found k sl live)
  | some x =>
    obtain ⟨live', carries'⟩ := tagged_some (s := s) (k := x.1) (sl := x.2) found
    have same : x.1 = k := alone x.1 x.2 live' carries'
    have record : x.2 = sl := Option.some.inj (live'.symm.trans (same ▸ live))
    rw [← same, ← record]

theorem tagged_eq_none (h : ∀ k sl, s.slot p k = some sl → sl.tag ≠ tag) : (s.queues.get p).tagged tag = none :=
  Option.eq_none_iff_forall_ne_some.mpr fun x found =>
    have ⟨live, carries⟩ := tagged_some (s := s) (k := x.1) (sl := x.2) found
    h x.1 x.2 live carries

theorem isDue_iff {now : Tick} : sl.isDue now = true ↔ ∃ d, sl.dueTick = some d ∧ (d - now).toInt ≤ 0 := by
  unfold Slot.isDue
  cases sl.dueTick with
  | none => simp
  | some d => simp [reached, signedDiff]

theorem drainOver_iff {now : Tick} :
    sl.drainOver now = true ↔ ∃ d, sl.drainStart = some d ∧ (tickAfter d 1000 - now).toInt ≤ 0 := by
  unfold Slot.drainOver
  cases sl.drainStart with
  | none => simp
  | some d => simp [reached, signedDiff]

/-- A due tick's expiry at the slot that its tag names (R82). -/
theorem exec_dueTickExpiry (h : s.names p tag k sl) : exec (.dueTickExpiry p tag) s = .next
    (if sl.state = .queued ∧ sl.prompt = true ∧ sl.dropIfLate = true ∧ sl.isDue s.tick = true then
      (s.endSlot p k .expired none).schedule.judgeAlarm else s) := by
  show execDueTickExpiry p tag s = _
  rw [execDueTickExpiry, tagged_of_names h]

/-- A drain limit's expiry at the slot that its tag names (R114). -/
theorem exec_drainLimit (h : s.names p tag k sl) : exec (.drainLimit p tag) s = .next
    (if sl.state = .draining ∧ sl.drainOver s.tick = true then s.endSlot p k .stalled none else s) := by
  show execDrainLimit p tag s = _
  rw [execDrainLimit, tagged_of_names h]

/-- An expiry or a drain limit with a tag that no live slot carries changes nothing. -/
theorem exec_expiry_untagged (h : ∀ k sl, s.slot p k = some sl → sl.tag ≠ tag) :
    exec (.dueTickExpiry p tag) s = .next s ∧ exec (.drainLimit p tag) s = .next s := by
  constructor
  · show execDueTickExpiry p tag s = _
    rw [execDueTickExpiry, tagged_eq_none h]
  · show execDrainLimit p tag s = _
    rw [execDrainLimit, tagged_eq_none h]

end

/-- Settles O40: the slot that the tag names waits or drains, so that its ending is said by `endSlot_waiting`. -/
theorem lateOrdersExpireAndFullDrainsStall : Obligations.LateOrdersExpireAndFullDrainsStall := by
  intro s p tag
  refine ⟨exec_expiry_untagged, fun k sl named => ?_⟩
  intro late full given
  have ended {e : Ending} (he : e = .expired ∨ e = .stalled) (hd : sl.state ≠ .done) (hi : sl.state ≠ .inService) :
      ∃ u, given u e ∧ s.endSlot p k e none = u.testRequests := by
    refine ⟨_, ⟨fun b => ?_, ?_⟩, endSlot_waiting named.1 hd hi⟩
    · rw [onQueue_buffers, countEnding_buffers]
      exact release_buffers b
    · rcases he with rfl | rfl <;> rfl
  have lateIff : sl.state = .queued ∧ sl.prompt = true ∧ sl.dropIfLate = true ∧ sl.isDue s.tick = true ↔ late := by
    rw [isDue_iff]
  have fullIff : sl.state = .draining ∧ sl.drainOver s.tick = true ↔ full := by rw [drainOver_iff]
  rw [exec_dueTickExpiry named, exec_drainLimit named]
  refine ⟨fun h => ?_, fun h => by rw [if_neg (mt lateIff.mp h)], fun h => ?_,
    fun h => by rw [if_neg (mt fullIff.mp h)]⟩
  · obtain ⟨u, hu, ends⟩ := ended (.inl rfl) (by rw [h.1]; decide) (by rw [h.1]; decide)
    exact ⟨u, hu, by rw [if_pos (lateIff.mpr h), ends]⟩
  · obtain ⟨u, hu, ends⟩ := ended (.inr rfl) (by rw [h.1]; decide) (by rw [h.1]; decide)
    exact ⟨u, hu, by rw [if_pos (fullIff.mpr h), ends]⟩

end Sys2Proof.Machine

/-! ## What is fetched becomes free (R50, R59, R108, R109, R114, R116, R154) -/

namespace Sys2Proof.Machine

section
variable {s : State} {p q : Port} {k : Fin 8} {sl : Slot} {b : Fin 4} {l : List Word}

/-- Once an exchange is over every fetch returns the empty word (R154, R173). -/
theorem closeExchange_fetch (s : State) (p : Port) (i : Nat) : (s.closeExchange p).fetch p i = emptyWord := by
  simp [State.fetch, State.closeExchange]

theorem exec_replyInComplete_slot (h : (s.ports.get p).exchange = some ⟨.replyIn (some k), l⟩) :
    exec (.replyInComplete p) s = .next ((s.onQueue p (·.drop k)).closeExchange p) := by
  show execReplyInComplete p s = _
  rw [execReplyInComplete, h]

theorem exec_replyInComplete_empty (h : (s.ports.get p).exchange = some ⟨.replyIn none, l⟩) :
    exec (.replyInComplete p) s = .next (s.closeExchange p) := by
  show execReplyInComplete p s = _
  rw [execReplyInComplete, h]

theorem exec_dataInComplete_buffer (h : (s.ports.get p).exchange = some ⟨.dataIn (some b), l⟩) :
    exec (.dataInComplete p) s = .next ((s.deliver b).testRequests.closeExchange p) := by
  show execDataInComplete p s = _
  rw [execDataInComplete, h]

theorem exec_dataInComplete_empty (h : (s.ports.get p).exchange = some ⟨.dataIn none, l⟩) :
    exec (.dataInComplete p) s = .next (s.closeExchange p) := by
  show execDataInComplete p s = _
  rw [execDataInComplete, h]

/-- A buffer that no order owns any more becomes FREE once it is delivered (R109). -/
theorem deliver_orphan (h : s.buffers[b].owner = none) : s.deliver b = s.putBuffer b .empty := by
  rw [State.deliver, h]

/-- A buffer whose order does not drain becomes FREE once it is delivered, and nothing else changes (R108). -/
theorem deliver_owned (h : s.buffers[b].owner = some (q, k)) (hk : s.slot q k = some sl) (hd : sl.state ≠ .draining) :
    s.deliver b = s.putBuffer b .empty := by
  rw [State.deliver, h]
  dsimp only
  rw [hk]
  exact if_neg hd

/-- A slot owns no buffer once `b` is FREE exactly where it owned no other. -/
theorem owned_putBuffer_empty : (s.putBuffer b .empty).owned q k = [] ↔
    ∀ b', b' ≠ b → s.buffers[b'].owner ≠ some (q, k) := by
  rw [List.eq_nil_iff_forall_not_mem]
  refine forall_congr' fun b' => ?_
  rw [mem_owned, State.putBuffer, Fin.getElem_fin, Vector.getElem_set]
  by_cases same : b' = b
  · subst same
    simp [Buffer.empty]
  · have other : ¬b.val = b'.val := fun e => same (Fin.ext e.symm)
    simp [same, other]

/-- A buffer of a DRAINING order that is delivered: with its last the order is DONE, with any other its drain timer
restarts (R50, R114). -/
theorem deliver_draining (h : s.buffers[b].owner = some (q, k)) (hk : s.slot q k = some sl)
    (hd : sl.state = .draining) :
    ((∃ b', b' ≠ b ∧ s.buffers[b'].owner = some (q, k)) →
      s.deliver b = (s.putBuffer b .empty).modSlot q k fun x => { x with drainStart := some s.tick })
    ∧ ((∀ b', b' ≠ b → s.buffers[b'].owner ≠ some (q, k)) →
      s.deliver b = (s.putBuffer b .empty).finishDraining q k) := by
  rw [State.deliver, h]
  dsimp only
  rw [hk]
  dsimp only
  rw [if_pos hd]
  refine ⟨fun ⟨b', other, owns⟩ => if_neg fun last => ?_, fun last => if_pos (owned_putBuffer_empty.mpr last)⟩
  exact owned_putBuffer_empty.mp last b' other owns

end

/-- Settles O21: each completion by the exchange that is open, and a delivered block by its order's state. -/
theorem whatIsFetchedBecomesFree : Obligations.WhatIsFetchedBecomesFree := by
  intro s t p l b closed
  refine ⟨fun u i => closeExchange_fetch u p i, ?_⟩
  rintro rfl
  refine ⟨fun k => exec_replyInComplete_slot, exec_replyInComplete_empty, exec_dataInComplete_empty, fun opened => ?_⟩
  rw [exec_dataInComplete_buffer opened]
  refine ⟨fun orphan => by rw [deliver_orphan orphan]; rfl, fun q k sl owns hk => ⟨fun other => ?_, fun draining => ?_,
    fun draining => ?_⟩⟩
  · rw [deliver_owned owns hk other]
    rfl
  · intro more
    rw [(deliver_draining owns hk draining).1 more]
    rfl
  · intro last
    rw [(deliver_draining owns hk draining).2 last]
    rfl

end Sys2Proof.Machine

/-! ## CLEAR PORT (R62, R109, R125) -/

namespace Sys2Proof.Machine

variable {s t u : State} {p q : Port} {k : Fin 8} {sl : Slot} {b : Fin 4}

/-! ### One slot is cleared -/

/-- What CLEAR PORT makes of a slot: an order IN SERVICE is withdrawn, any other slot becomes FREE (R62). -/
def Slot.cleared (sl : Slot) : Option Slot := if sl.state = .inService then some { sl with withdrawn := true } else none

/-- Buffer `b` of a slot with the record `sl` once the slot is cleared: an order IN SERVICE keeps the data of a write
alone, and a block being delivered stays without an owner (R62, R109, R125). -/
def State.clearedBuffer (s : State) (p : Port) (sl : Slot) (b : Fin 4) : Buffer :=
  if sl.state ≠ .inService ∨ s.buffers[b].state = .fullForHost ∨ s.buffers[b].state = .filling then
    if s.delivering p = some b ∧ s.buffers[b].state = .fullForHost then { s.buffers[b] with owner := none }
    else ⟨.free, none, 0, []⟩
  else s.buffers[b]

/-- The buffers of a slot that lets go of those with a property. -/
theorem release_buffer {P : BufState → Bool} : (s.release p k P).buffers[b] =
    if s.buffers[b].owner = some (p, k) ∧ P s.buffers[b].state = true then
      if s.delivering p = some b ∧ s.buffers[b].state = .fullForHost then { s.buffers[b] with owner := none }
      else ⟨.free, none, 0, []⟩
    else s.buffers[b] := by
  simp only [State.release, Fin.getElem_fin, Vector.getElem_ofFn]
  rfl

theorem clearSlot_none (h : s.slot p k = none) : s.clearSlot p k = s := by rw [State.clearSlot, h]

theorem clearSlot_served (h : s.slot p k = some sl) (hi : sl.state = .inService) : s.clearSlot p k =
    (s.modSlot p k fun x => { x with withdrawn := true }).release p k fun st =>
      decide (st = .fullForHost ∨ st = .filling) := by
  rw [State.clearSlot, h]
  exact if_pos hi

theorem clearSlot_freed (h : s.slot p k = some sl) (hi : sl.state ≠ .inService) : s.clearSlot p k =
    (s.release p k fun _ => true).onQueue p (·.drop k) := by
  rw [State.clearSlot, h]
  exact if_neg hi

/-- One slot of a port is cleared: its own record changes, and no slot of the other port. -/
theorem clearSlot_slots (s : State) (p : Port) (k : Fin 8) : QueueOnly p s (s.clearSlot p k)
    ∧ ∀ q j, (s.clearSlot p k).slot q j = if (q, j) = (p, k) then (s.slot p k).bind Slot.cleared else s.slot q j := by
  cases h : s.slot p k with
  | none =>
    rw [clearSlot_none h]
    refine ⟨.refl p s, fun q j => ?_⟩
    split
    · next e => cases e; exact h
    · rfl
  | some sl =>
    by_cases hi : sl.state = .inService
    · rw [clearSlot_served h hi]
      refine ⟨⟨rfl, get_other_modify ..⟩, fun q j => (slot_modSlot ..).trans ?_⟩
      simp only [Prod.mk.injEq, h, Option.map_some, Option.bind_some, Slot.cleared, if_pos hi]
    · rw [clearSlot_freed h hi]
      refine ⟨⟨rfl, get_other_modify ..⟩, fun q j => (slot_onQueue ..).trans ?_⟩
      by_cases hq : q = p
      · subst hq
        rw [if_pos rfl, drop_slots, Option.bind_some, Slot.cleared, if_neg hi]
        exact if_congr (by simp) rfl rfl
      · rw [if_neg hq, if_neg (by simp [hq])]
        rfl

/-- One slot of a port is cleared: its own buffers change alone. -/
theorem clearSlot_buffers (s : State) (p : Port) (k : Fin 8) (b : Fin 4) : (s.clearSlot p k).buffers[b] =
    match s.slot p k with
    | some sl => if s.buffers[b].owner = some (p, k) then s.clearedBuffer p sl b else s.buffers[b]
    | none => s.buffers[b] := by
  cases h : s.slot p k with
  | none => rw [clearSlot_none h]
  | some sl =>
    dsimp only
    by_cases own : s.buffers[b].owner = some (p, k)
    · rw [if_pos own, State.clearedBuffer]
      by_cases hi : sl.state = .inService
      · rw [clearSlot_served h hi, release_buffer]
        exact if_congr ⟨fun h => .inr (of_decide_eq_true h.2), fun h =>
          ⟨own, decide_eq_true (h.resolve_left (not_not.mpr hi))⟩⟩ rfl rfl
      · rw [clearSlot_freed h hi, onQueue_buffers, release_buffers, if_pos own]
        exact (if_pos (.inl hi)).symm
    · rw [if_neg own]
      by_cases hi : sl.state = .inService
      · rw [clearSlot_served h hi, release_buffer]
        exact if_neg fun h => own h.1
      · rw [clearSlot_freed h hi, onQueue_buffers, release_buffers, if_neg own]

/-- A slot that is cleared leaves the order list where it becomes FREE. -/
theorem clearSlot_order (law : s.queueLaw) (p : Port) (k : Fin 8) : ((s.clearSlot p k).queues.get p).order =
    (s.queues.get p).order.filter fun j => ((s.clearSlot p k).slot p j).isSome := by
  have sound := queueLaw_iff.mp law p
  have slots := (clearSlot_slots s p k).2 p
  have live : ∀ j ∈ (s.queues.get p).order, (s.slot p j).isSome = true := fun j => (sound.order j).mp
  simp only [slots, Prod.mk.injEq, true_and]
  cases h : s.slot p k with
  | none =>
    rw [clearSlot_none h]
    refine (List.filter_eq_self.mpr fun j hj => ?_).symm
    rw [if_neg (fun e => ?_)]
    · exact live j hj
    · have := live j hj
      rw [e, h] at this
      cases this
  | some sl =>
    by_cases hi : sl.state = .inService
    · have same : ((s.clearSlot p k).queues.get p).order = (s.queues.get p).order := by
        rw [clearSlot_served h hi, release_queues, modSlot_queues, get_modify_same, put_order]
      rw [same]
      refine (List.filter_eq_self.mpr fun j hj => ?_).symm
      split
      · simp [Slot.cleared, hi]
      · exact live j hj
    · have less : ((s.clearSlot p k).queues.get p).order = (s.queues.get p).order.erase k := by
        rw [clearSlot_freed h hi, onQueue_queues, get_modify_same, drop_order]
        rfl
      rw [less, sound.orderNodup.erase_eq_filter]
      refine List.filter_congr fun j hj => ?_
      by_cases e : j = k
      · simp [e, Slot.cleared, hi]
      · simp [e, live j hj]

theorem clearSlot_queueLaw (law : s.queueLaw) (p : Port) (k : Fin 8) : (s.clearSlot p k).queueLaw :=
  (Path.refl.clearSlot (s := s) (p := p) (k := k)).run (c := .panelReset).queueLaw law

/-! ### All slots are cleared -/

/-- Every slot of a port is cleared, in the order of their numbers. -/
def State.clearSlots (s : State) (p : Port) : State := slotNumbers.foldl (fun s k => s.clearSlot p k) s

/-- Every slot of a port has been cleared, its order list keeps the one that is still live, and the lists stay true. -/
theorem clearSlots_slots (law : s.queueLaw) (p : Port) : QueueOnly p s (s.clearSlots p) ∧ (s.clearSlots p).queueLaw
    ∧ ((s.clearSlots p).queues.get p).order
        = (s.queues.get p).order.filter (fun k => ((s.clearSlots p).slot p k).isSome)
    ∧ ∀ k, (s.clearSlots p).slot p k = (s.slot p k).bind Slot.cleared := by
  have h := fold_slots (p := p) (fun s k => s.clearSlot p k) (fun _ _ o => o.bind Slot.cleared)
    (fun t => t.queueLaw ∧ (t.queues.get p).order = (s.queues.get p).order.filter fun k => (t.slot p k).isSome)
    (fun _ _ _ _ _ => rfl) (fun t k ⟨law, order⟩ => ⟨clearSlot_queueLaw law p k, ?_⟩)
    (fun t k _ => clearSlot_slots t p k) slotNumbers (by decide) s ⟨law, ?_⟩
  · obtain ⟨only, ⟨law', order⟩, slots⟩ := h
    refine ⟨only, law', order, fun k => (slots p k).trans (if_pos ⟨rfl, mem_slotNumbers k⟩)⟩
  · rw [clearSlot_order law, order, List.filter_filter]
    refine List.filter_congr fun j _ => ?_
    rw [(clearSlot_slots t p k).2 p j]
    split
    · next e => cases e; cases t.slot p k <;> simp
    · simp
  · exact (List.filter_eq_self.mpr fun j => ((queueLaw_iff.mp law p).order j).mp).symm

/-- A cleared slot's buffer is the slot's own still, or no one's. -/
theorem clearedBuffer_owner : (s.clearedBuffer p sl b).owner = none
    ∨ (s.clearedBuffer p sl b).owner = s.buffers[b].owner := by
  unfold State.clearedBuffer
  split
  · split
    · exact .inl rfl
    · exact .inl rfl
  · exact .inr rfl

/-- A buffer that no live slot among some of a port owns stays as it is while they are cleared. -/
theorem clearSlot_fold_others (l : List (Fin 8)) (s : State)
    (h : ∀ k ∈ l, s.buffers[b].owner = some (p, k) → s.slot p k = none) :
    (l.foldl (fun s k => s.clearSlot p k) s).buffers[b] = s.buffers[b] := by
  induction l generalizing s with
  | nil => rfl
  | cons j l ih =>
    have same : (s.clearSlot p j).buffers[b] = s.buffers[b] := by
      rw [clearSlot_buffers]
      split
      · next sl live =>
        refine if_neg fun own => ?_
        rw [h j List.mem_cons_self own] at live
        cases live
      · rfl
    refine (ih (s.clearSlot p j) fun k hk own => ?_).trans same
    rw [same] at own
    have free := h k (List.mem_cons_of_mem _ hk) own
    rw [(clearSlot_slots s p j).2]
    split
    · next e => cases e; rw [free]; rfl
    · exact free

/-- A buffer of a live slot is cleared with it, once. -/
theorem clearSlot_fold_own (l : List (Fin 8)) (once : l.Nodup) (s : State) (hk : k ∈ l) (live : s.slot p k = some sl)
    (own : s.buffers[b].owner = some (p, k)) :
    (l.foldl (fun s k => s.clearSlot p k) s).buffers[b] = s.clearedBuffer p sl b := by
  induction l generalizing s with
  | nil => cases hk
  | cons j l ih =>
    obtain ⟨notIn, once⟩ := List.nodup_cons.mp once
    rw [List.foldl_cons]
    have buffer := clearSlot_buffers s p j b
    by_cases here : k = j
    · subst here
      have cleared : (s.clearSlot p k).buffers[b] = s.clearedBuffer p sl b := by
        rw [buffer, live]
        exact if_pos own
      refine (clearSlot_fold_others l _ fun i hi owner => ?_).trans cleared
      rw [cleared] at owner
      rcases clearedBuffer_owner (s := s) (p := p) (sl := sl) (b := b) with none' | same
      · rw [none'] at owner
        cases owner
      · rw [same, own] at owner
        cases owner
        exact absurd hi notIn
    · have same : (s.clearSlot p j).buffers[b] = s.buffers[b] := by
        rw [buffer]
        split
        · refine if_neg fun owner => here ?_
          rw [own] at owner
          cases owner
          rfl
        · rfl
      have kept : (s.clearSlot p j).slot p k = some sl := by
        rw [(clearSlot_slots s p j).2, if_neg (by simp [here]), live]
      refine (ih once (s.clearSlot p j) ((List.mem_cons.mp hk).resolve_left here) kept (by rw [same, own])).trans ?_
      have delivering : (s.clearSlot p j).delivering p = s.delivering p := by
        unfold State.delivering
        rw [(clearSlot_slots s p j).1.1]
      unfold State.clearedBuffer
      rw [same, delivering]

/-! ### The order -/

/-- An acceptance is counted and answered (R55, R155, R168). -/
theorem accepted_eq (s : State) (p : Port) : s.accepted p = s.acceptedWith p := rfl

/-- A port that has been cleared is PRESENT, its timer reloaded; then requests and a selection are tested (R62). -/
theorem clearPort_disarmed (s : State) (p : Port) : (s.disarm p).clearPort p
    = (((s.disarm p).clearSlots p).onPort p fun x =>
        { x.reload s.tick with presence := .present }).testRequests.schedule.judgeAlarm := rfl

theorem exec_clearPort (p : Port) (tag : Byte) (rest : List Word) (s : State) :
    exec (.clearPort p tag rest) s = .next (s.orderPacket p clearPortRule tag rest) := rfl

/-- A change of the port after a change of queues and buffers alone. -/
theorem onPort_disarmed {f : PortIf → PortIf} (h : QueuesOnly (s.disarm p) t) : t.onPort p f =
    { s.onPort p (fun x => f { x with armed := false }) with
      queues := (t.onPort p f).queues, buffers := (t.onPort p f).buffers } := by
  rw [onPort_queues, onPort_buffers]
  unfold QueuesOnly at h
  generalize t.queues = queues at *
  generalize t.buffers = buffers at *
  subst h
  cases p <;> rfl

theorem delivering_disarm (s : State) (p : Port) : (s.disarm p).delivering p = s.delivering p := by cases p <;> rfl

/-- The buffers once every slot of a disarmed port has been cleared (R62, R109, R125). -/
theorem clearSlots_buffers (s : State) (p : Port) (b : Fin 4) : ((s.disarm p).clearSlots p).buffers[b] =
    match s.buffers[b].owner with
    | some (q, k) => match s.slot q k with
      | some sl =>
        if q = p ∧ (sl.state ≠ .inService ∨ s.buffers[b].state = .fullForHost ∨ s.buffers[b].state = .filling) then
          if s.delivering p = some b ∧ s.buffers[b].state = .fullForHost then { s.buffers[b] with owner := none }
          else ⟨.free, none, 0, []⟩
        else s.buffers[b]
      | none => s.buffers[b]
    | none => s.buffers[b] := by
  have others := clearSlot_fold_others (p := p) (b := b) slotNumbers (s.disarm p)
  rcases owner : s.buffers[b].owner with _ | ⟨q, k⟩
  · exact others fun k _ own => by cases owner.symm.trans own
  rcases live : s.slot q k with _ | sl
  · refine (others fun i _ own => ?_).trans (by simp only [live]; rfl)
    cases owner.symm.trans own
    exact live
  simp only [live]
  by_cases hq : q = p
  · subst hq
    rw [State.clearSlots, clearSlot_fold_own slotNumbers (by decide) (s.disarm q) (mem_slotNumbers k) live owner,
      State.clearedBuffer, delivering_disarm]
    exact if_congr ⟨fun h => ⟨rfl, h⟩, And.right⟩ rfl rfl
  · rw [if_neg fun h => hq h.1]
    exact others fun i _ own => by cases owner.symm.trans own; exact absurd rfl hq

/-- Settles O32: the slots one by one, then the port; the reply list is empty, for no slot left is DONE. -/
theorem clearPortFreesThePort : Obligations.ClearPortFreesThePort := by
  intro s p tag w1 w2 law hc armed hu hd
  have accepted := orderPacket_accepted (o := clearPortRule) (tag := tag) (w2 := w2) (fields := []) hc hu hd rfl
    (.inl rfl) (.inr armed) rfl
  have disarmed : (s.disarm p).queueLaw := law
  obtain ⟨⟨only, other⟩, law', order, slots⟩ := clearSlots_slots disarmed p
  have record (k : Fin 8) : ((s.disarm p).clearSlots p).slot p k = match s.slot p k with
      | some sl => if sl.state = .inService then some { sl with withdrawn := true } else none
      | none => none := by
    rw [slots]
    show (s.slot p k).bind Slot.cleared = _
    cases s.slot p k <;> rfl
  refine ⟨((s.disarm p).clearSlots p).onPort p fun x => { x.reload s.tick with presence := .present }, ?_, ?_, other,
    ?_, record, order, fun b => ?_⟩
  · rw [exec_clearPort, accepted, accepted_eq]
    exact congrArg (fun t => Host.Outcome.next (State.acceptedWith t p)) (clearPort_disarmed s p)
  · exact onPort_disarmed only
  · refine List.eq_nil_iff_forall_not_mem.mpr fun k hk => ?_
    obtain ⟨x, live, done⟩ := ((queueLaw_iff.mp law' p).replies k).mp hk
    have cleared := (record k).symm.trans live
    split at cleared
    · next sl _ =>
      split at cleared
      · next served => cases cleared; rw [served] at done; cases done
      · cases cleared
    · cases cleared
  · exact clearSlots_buffers s p b

end Sys2Proof.Machine

/-! ## Failed passes of data orders (R50, R84 to R88, R111, R115, R119, R121, R122) -/

namespace Sys2Proof.Machine

section
variable {s : State} {p : Port} {k : Fin 8} {sl : Slot} {g : Progress} {q : Pass} {d : DataReading}

/-! ### What a failed pass leaves to its boundary -/

/-- The progress record with one failed pass more of its sector (R115, R119). -/
def Progress.failedOnce (g : Progress) : Progress := { g with failed := g.failed + 1 }

/-- The result of a failed pass: the outcome at the fifth of one sector, none before it (R115, R119). -/
def Progress.faultAfter (g : Progress) (e : Ending) (a : Addr) : Option Result :=
  if 5 ≤ g.failed + 1 then some { ending := e, fault := some a } else none

theorem faultAfter_none {e : Ending} {a : Addr} (h : g.failed < 4) : g.faultAfter e a = none := if_neg (by omega)

theorem faultAfter_some {e : Ending} {a : Addr} (h : 4 ≤ g.failed) :
    g.faultAfter e a = some { ending := e, fault := some a } := if_pos (by omega)

/-- A pass of a READ or CHECK that is not good is a failed pass of its sector (R115). -/
theorem endDataPass_readFails (hk : (∃ b, q.kind = .read b) ∨ q.kind = .check)
    (bad : ¬(q.verdict = .matching ∧ d.passes s.disk q.addr = true)) : s.endDataPass p k sl g q d =
      ({ s with progress := some g.failedOnce } : State).dataBoundary p k (endPosition q.addr.sector)
        (g.faultAfter .readFault q.addr) false := by
  unfold State.endDataPass
  rcases hk with ⟨b, hk⟩ | hk
  · rw [hk]
    exact if_neg (by simpa using bad)
  · rw [hk]
    exact if_neg (by simpa using bad)

/-- A write pass whose header does not match is a failed pass of its sector (R119). -/
theorem endDataPass_writeFails {b : Fin 4} (hk : q.kind = .write b) (bad : q.verdict ≠ .matching) :
    s.endDataPass p k sl g q d =
      ({ s with progress := some g.failedOnce } : State).dataBoundary p k (endPosition q.addr.sector)
        (g.faultAfter .writeFault q.addr) false := by
  unfold State.endDataPass
  rw [hk]
  exact if_neg bad

/-- A verify pass that is not good ends its order at once (R121). -/
theorem endDataPass_verifyFails (hk : q.kind = .verify)
    (bad : ¬(q.verdict = .matching ∧ d.passes s.disk q.addr = true)) : s.endDataPass p k sl g q d =
      s.dataBoundary p k (endPosition q.addr.sector) (some { ending := .verifyFault, fault := some q.addr }) false := by
  unfold State.endDataPass
  rw [hk]
  exact if_neg (by simpa using bad)

theorem endDataPass_slip (hk : q.kind = .slip) : s.endDataPass p k sl g q d =
    s.dataBoundary p k (endPosition q.addr.sector) (if 8 ≤ sl.consSlips then some { ending := .stalled } else none)
      false := by
  unfold State.endDataPass
  rw [hk]

/-! ### Its boundary -/

/-- A boundary of a data order whose sector is to be taken again: it stops, ends, is set aside or goes on as it is. -/
theorem boundary_again {pos : Nat} {o : Host.Outcome State Fault Refusal} (hs : s.serviceLaw)
    (h : s.inService = some (p, k, sl)) (hg : s.progress = some g)
    (ho : o = State.answers (s.dataBoundary p k pos none false)) :
    s.atBoundary p k sl pos g.next o (o = .next s.judgeAlarm) :=
  dataBoundary_spec hs h hg ho fun e => e

/-- A boundary of a data order that ends with a fault of its own, no READ FAULT, unless it stops. -/
theorem boundary_ends {pos : Nat} {o : Host.Outcome State Fault Refusal} {e : Ending} {fault : Option Addr}
    (hs : s.serviceLaw) (h : s.inService = some (p, k, sl)) (hg : s.progress = some g) (he : e ≠ .readFault)
    (hd : e ≠ .done) (ho : o = State.answers (s.dataBoundary p k pos (some { ending := e, fault := fault }) false)) :
    s.stops p k sl o ∧ (sl.withdrawn = false ∧ (s.ports.get p).presence ≠ .lost → s.ends p k sl e fault o) := by
  obtain ⟨stops, result⟩ := boundary_result hs h hg ho
  refine ⟨stops, fun ⟨hw, hl⟩ => ?_⟩
  exact ends_of (r := { ending := e, fault := fault }) hs h (result hw hl) he fun _ done => absurd done hd

/-- A boundary of a READ or CHECK that ends READ FAULT, unless it stops: a READ with blocks still to be taken drains,
any other order ends (R50, R115). -/
theorem boundary_readFault {pos : Nat} {o : Host.Outcome State Fault Refusal} {fault : Option Addr} (hs : s.serviceLaw)
    (h : s.inService = some (p, k, sl)) (hg : s.progress = some g)
    (ho : o = State.answers (s.dataBoundary p k pos (some { ending := .readFault, fault := fault }) false)) :
    let lost := (s.latch .sectorLost).countBoth .sectorsLost
    s.stops p k sl o ∧ (sl.withdrawn = false ∧ (s.ports.get p).presence ≠ .lost →
      (sl.kind = .check ∨ s.ownedIn p k .fullForHost = [] → lost.ends p k sl .readFault fault o)
      ∧ (sl.kind = .read → s.ownedIn p k .fullForHost ≠ [] →
          ∃ t, lost.beginsDraining t p k sl .readFault fault ∧ o = State.answers (t, .released))) := by
  obtain ⟨stops, result⟩ := boundary_result hs h hg ho
  refine ⟨stops, fun ⟨hw, hl⟩ => ⟨fun empty => ?_, fun read full => ?_⟩⟩
  · obtain ⟨t, ends, left⟩ := endWith_readFault hs h fault fun read => empty.resolve_left (by rw [read]; decide)
    exact ⟨t, ends, by rw [result hw hl, left]⟩
  · obtain ⟨t, drains, left⟩ :=
      endWith_drains hs h { ending := .readFault, fault := fault } read (.inr rfl) full rfl rfl
    exact ⟨t, drains, by rw [result hw hl, left]⟩

end

/-- Settles O46: each kind of failed pass by what it leaves to its boundary. -/
theorem failedPassesAreTriedFiveTimes : Obligations.FailedPassesAreTriedFiveTimes := by
  rintro s u v p k sl g q d hs hp hi hg rfl rfl
  intro o free goesOn bad ends lost reads
  have pass (hk : (∃ b, q.kind = .read b) ∨ q.kind = .check ∨ (∃ b, q.kind = .write b) ∨ q.kind = .verify
      ∨ q.kind = .slip) : o = State.answers (({ s with pass := none } : State).endDataPass p k sl g q d) :=
    passEnd_data hp hi hg d hk
  have notGood : bad → ¬(q.verdict = .matching ∧ d.passes s.disk q.addr = true) := by
    rintro (unreadable | ⟨-, fails⟩) ⟨matching, passes⟩
    · rw [unreadable] at matching; cases matching
    · rw [fails] at passes; cases passes
  have read (hk : reads) (hb : bad) := (pass (hk.imp_right .inl)).trans
    (congrArg _ (endDataPass_readFails (s := { s with pass := none }) hk (notGood hb)))
  have write (b) (hk : q.kind = .write b) (unreadable : q.verdict = .unreadable) :=
    (pass (.inr (.inr (.inl ⟨b, hk⟩)))).trans
      (congrArg _ (endDataPass_writeFails (s := { s with pass := none }) hk (by rw [unreadable]; decide)))
  refine ⟨fun hk hb few _ => ?_, fun hk hb fifth => ?_, fun b hk unreadable => ⟨fun few _ => ?_, fun fifth => ?_⟩,
    fun hk hb => ?_, fun hk => ⟨fun eighth => ?_, fun few _ => ?_⟩⟩
  · have ho := read hk hb
    rw [faultAfter_none few] at ho
    exact boundary_again (g := g.failedOnce) hs hi rfl ho
  · have ho := read hk hb
    rw [faultAfter_some fifth] at ho
    exact boundary_readFault (g := g.failedOnce) hs hi rfl ho
  · have ho := write b hk unreadable
    rw [faultAfter_none few] at ho
    exact boundary_again (g := g.failedOnce) hs hi rfl ho
  · have ho := write b hk unreadable
    rw [faultAfter_some fifth] at ho
    exact boundary_ends (g := g.failedOnce) hs hi rfl (by decide) (by decide) ho
  · exact boundary_ends (g := g) hs hi hg (by decide) (by decide) ((pass (.inr (.inr (.inr (.inl hk))))).trans
      (congrArg _ (endDataPass_verifyFails hk (notGood hb))))
  · have ho := (pass (.inr (.inr (.inr (.inr hk))))).trans (congrArg _ (endDataPass_slip hk))
    rw [if_pos eighth] at ho
    exact boundary_ends (g := g) hs hi hg (by decide) (by decide) ho
  · have ho := (pass (.inr (.inr (.inr (.inr hk))))).trans (congrArg _ (endDataPass_slip hk))
    rw [if_neg (by omega)] at ho
    exact boundary_again hs hi hg ho

end Sys2Proof.Machine

/-! ## The good pass over the last sector of a data order (R50, R63, R111, R113, R118, R121) -/

namespace Sys2Proof.Machine

section
variable {s x m : State} {p : Port} {k : Fin 8} {sl y : Slot} {g : Progress} {q : Pass} {d : DataReading} {b : Fin 4}
  {o : Host.Outcome State Fault Refusal}

/-! ### What the last write pass leaves to its boundary -/

/-- No request is issued for a WRITE that has no sector left to be written (R116, R161). -/
theorem testRequests_written (h : s.inService = some (p, k, sl)) (hn : sl.n ≤ sl.sectorsDone) : s.testRequests = s := by
  have once : s.issueRequest = s := by
    rcases issueRequest_cases s with idle | ⟨p', k', sl', i, b, asks, -, -, low, high, -⟩
    · exact idle
    · have same := asks.1.symm.trans h
      obtain ⟨-, -, rfl⟩ : p' = p ∧ k' = k ∧ sl' = sl := by simpa using same
      omega
  unfold State.testRequests
  rw [once, once, once]

/-- The requests of a WRITE do not depend on the progress record. -/
theorem testRequests_withProgress (s : State) (r : Option Progress) :
    ({ s with progress := r } : State).testRequests = { s.testRequests with progress := r } := by
  have once (s : State) : ({ s with progress := r } : State).issueRequest = { s.issueRequest with progress := r } := by
    unfold State.issueRequest
    change (match s.inService with | some (p, k, sl) => _ | none => _) = _
    rcases s.inService with _ | ⟨p, k, sl⟩
    · rfl
    · dsimp only
      change (if sl.kind = .write ∧ sl.verifyPhase = false ∧ sl.withdrawn = false ∧ s.lost p = false
        ∧ (s.owned p k).length < 3 then _ else _) = _
      split
      · change (match s.nextRequest p k sl, s.freeBuffer with | some i, some b => _ | _, _ => _) = _
        rcases s.nextRequest p k sl with _ | i
        · rfl
        · rcases s.freeBuffer with _ | b <;> rfl
      · rfl
  unfold State.testRequests
  rw [once, once, once]

/-- A matching write pass: the sector is written, its buffer FREE, and the record one sector on (R118). -/
def State.wrote (s : State) (p : Port) (k : Fin 8) (sl : Slot) (q : Pass) (b : Fin 4) : State :=
  ((s.writeData q.addr q.words).putBuffer b .empty |>.count p .sectorsWritten).modSlot p k fun _ => sl.oneMore

theorem wrote_service (hs : s.serviceLaw) (hi : s.inService = some (p, k, sl)) :
    (s.wrote p k sl q b).serviceLaw ∧ (s.wrote p k sl q b).inService = some (p, k, sl.oneMore) :=
  modSlot_service hs hi rfl (inService_some hi).2

/-- What a matching write pass leaves to its boundary, the verify phase begun or not. -/
theorem endDataPass_wrote (h : s.slot p k = some sl) (matching : q.verdict = .matching) (hk : q.kind = .write b) :
    s.endDataPass p k sl g q d = (({ (s.wrote p k sl q b).testRequests with
      progress := some g.oneMore } : State).beginVerify p k).dataBoundary p k (endPosition q.addr.sector)
        none true := by
  rw [← testRequests_withProgress]
  unfold State.endDataPass
  rw [hk]
  dsimp only
  rw [if_pos matching, sectorDone_eq (s := (s.writeData q.addr q.words).putBuffer b .empty) (sl := sl) h]
  rfl

/-- A WRITE without verify has no verify phase (R121). -/
theorem beginVerify_none (h : s.slot p k = some sl) (hg : s.progress = some g) (hv : sl.verify = false) :
    s.beginVerify p k = s := by
  unfold State.beginVerify
  rw [h, hg]
  exact if_neg fun hc => by rw [hv] at hc; exact absurd hc.1 (by decide)

/-- The verify phase begins at the first sector (R121). -/
theorem beginVerify_last (h : s.slot p k = some sl) (hg : s.progress = some g) (hv : sl.verify = true)
    (hn : sl.n ≤ g.next) : s.beginVerify p k = { s.modSlot p k (fun _ => { sl with verifyPhase := true }) with
      progress := some { g with next := 0 } } := by
  unfold State.beginVerify
  rw [h, hg]
  dsimp only
  rw [if_pos ⟨hv, hn⟩]
  exact congrArg (fun t : State => { t with progress := some { g with next := 0 } })
    (mod_eq h (f := fun x => { x with verifyPhase := true }) (f' := fun _ => { sl with verifyPhase := true }) rfl)

/-! ### Its boundary -/

/-- The boundary of an order whose last sector is done: it stops, drains with blocks still to be taken, or is DONE. -/
theorem boundary_last {pos : Nat} (hs : s.serviceLaw) (hi : s.inService = some (p, k, sl)) (hq : x.queues = s.queues)
    (hy : y.state = sl.state) (hm : m = { x.modSlot p k (fun _ => y) with progress := some g }) (hn : y.n ≤ g.next)
    (ho : o = State.answers (m.dataBoundary p k pos none true)) :
    x.stops p k y o ∧ (y.withdrawn = false ∧ (x.ports.get p).presence ≠ .lost →
      (y.kind ≠ .read → x.ends p k y .done none o)
      ∧ (y.kind = .read → x.ownedIn p k .fullForHost ≠ [] →
          ∃ t, x.beginsDraining t p k y .done none ∧ o = State.answers (t, .released))) := by
  subst hm
  obtain ⟨law, service⟩ :=
    modSlot_service (u := x) (f := fun _ => y) hs hi hq (hy.trans (inService_some hi).2)
  obtain ⟨stops, done⟩ :=
    boundary_done (s := { x.modSlot p k (fun _ => y) with progress := some g }) law service rfl hn ho
  refine ⟨stops_base rfl stops, fun ⟨hw, hl⟩ => ⟨fun other => ?_, fun read full => ?_⟩⟩
  · exact ends_base rfl (ends_of (s := { x.modSlot p k (fun _ => y) with progress := some g })
      (r := { ending := .done }) law service (done hw hl) (by decide)
      fun read _ => absurd read other)
  · obtain ⟨t, drains, left⟩ := endWith_drains (s := { x.modSlot p k (fun _ => y) with progress := some g }) law service
      { ending := .done } read (.inl rfl) full rfl rfl
    exact ⟨t, draining_base rfl drains, by rw [done hw hl, left]⟩

/-- The boundary of a WRITE whose last sector is written, with verify: its verify phase turns to its first sector. -/
theorem boundary_verify {pos : Nat} (hs : s.serviceLaw) (hi : s.inService = some (p, k, sl)) (hv : sl.verify = true)
    (hk : sl.kind = .write) (hn : sl.n ≤ g.next) (ho : o = State.answers
      (({ s with progress := some g } : State).beginVerify p k |>.dataBoundary p k pos none true)) :
    let y : Slot := { sl with verifyPhase := true }
    let x : State := { s.modSlot p k (fun _ => y) with progress := some { g with next := 0 } }
    x.atBoundary p k y pos 0 o (x.goesOn p k y 0 o) := by
  intro y x
  rw [beginVerify_last (s := { s with progress := some g }) (inService_some hi).1 rfl hv hn] at ho
  obtain ⟨law, service⟩ := modSlot_service (u := s) (f := fun _ => y) hs hi rfl (inService_some hi).2
  exact boundary_goes (s := x) law service rfl (.inr (.inl hk)) ho

/-- A block just read is one still to be taken. -/
theorem ownedIn_putBuffer {i : Nat} {ws : List Word} :
    (s.putBuffer b ⟨.fullForHost, some (p, k), i, ws⟩).ownedIn p k .fullForHost ≠ [] := by
  have mem : b ∈ (s.putBuffer b ⟨.fullForHost, some (p, k), i, ws⟩).ownedIn p k .fullForHost := by
    unfold State.ownedIn
    simp [mem_owned, State.putBuffer]
  exact List.ne_nil_of_mem mem

end

/-- Settles O45: what each kind of good pass leaves meets the boundary of its last sector. -/
theorem theLastSectorEndsTheOrder : Obligations.TheLastSectorEndsTheOrder := by
  rintro s u p k sl sl' g q d hs hp hi hg matching last rfl rfl
  intro o free written
  have slot : State.slot { s with pass := none } p k = some sl := (inService_some hi).1
  have pass (hk : (∃ b, q.kind = .read b) ∨ q.kind = .check ∨ (∃ b, q.kind = .write b) ∨ q.kind = .verify
      ∨ q.kind = .slip) : o = State.answers (({ s with pass := none } : State).endDataPass p k sl g q d) :=
    passEnd_data hp hi hg d hk
  have done : sl.oneMore.n ≤ g.oneMore.next := by show sl.n ≤ g.next + 1; omega
  have wrote (b) (hk : q.kind = .write b) := (pass (.inr (.inr (.inl ⟨b, hk⟩)))).trans
    (congrArg _ (endDataPass_wrote slot matching hk))
  refine ⟨fun b hk read passes => ?_, fun hk check passes => ?_, fun b hk write plain index => ?_,
    fun hk write passes => ?_, fun b hk write verify => ?_⟩
  · have ho := (pass (.inl ⟨b, hk⟩)).trans (congrArg _ (endDataPass_read slot ⟨matching, passes⟩ hk))
    by_cases hw : sl.withdrawn = true
    · rw [if_pos hw] at ho ⊢
      obtain ⟨stops, -⟩ := boundary_last (y := sl.oneMore)
        (x := ({ s with pass := none } : State).count p .sectorsRead) hs hi rfl rfl rfl done ho
      exact ⟨stops, fun ⟨kept, _⟩ => absurd (hw.symm.trans kept) (by decide)⟩
    · rw [if_neg hw] at ho ⊢
      obtain ⟨stops, result⟩ := boundary_last (y := sl.oneMore)
        (x := (({ s with pass := none } : State).putBuffer b
          ⟨.fullForHost, some (p, k), g.next, d.words s.disk q.addr⟩).count p .sectorsRead) hs hi rfl rfl rfl done ho
      exact ⟨stops, fun kept => (result kept).2 read (ownedIn_putBuffer (s := { s with pass := none }))⟩
  · have ho := (pass (.inr (.inl hk))).trans (congrArg _ (endDataPass_check slot ⟨matching, passes⟩ hk))
    obtain ⟨stops, result⟩ := boundary_last (y := sl.oneMore)
      (x := ({ s with pass := none } : State).count p .sectorsRead) hs hi rfl rfl rfl done ho
    exact ⟨stops, fun kept => (result kept).1 (by show sl.kind ≠ _; rw [check]; decide)⟩
  · have ho := wrote b hk
    obtain ⟨-, service⟩ := wrote_service (q := q) (b := b) (s := { s with pass := none }) hs hi
    rw [testRequests_written service (by show sl.n ≤ sl.sectorsDone + 1; omega),
      beginVerify_none (sl := sl.oneMore) (by exact (inService_some service).1) rfl plain] at ho
    obtain ⟨stops, result⟩ := boundary_last (y := sl.oneMore) (x := written b) hs hi rfl rfl rfl done ho
    exact ⟨stops, fun kept => (result kept).1 (by show sl.kind ≠ _; rw [write]; decide)⟩
  · have ho := (pass (.inr (.inr (.inr (.inl hk))))).trans
      (congrArg _ (endDataPass_verify (s := { s with pass := none }) ⟨matching, passes⟩ hk))
    obtain ⟨stops, result⟩ := boundary_last (y := sl) (x := { s with pass := none })
      (g := { g with next := g.next + 1 }) hs hi rfl rfl
      (congrArg (fun t : State => { t with progress := some { g with next := g.next + 1 } }) (modSlot_self slot).symm)
      (by show sl.n ≤ g.next + 1; omega) ho
    exact ⟨stops, fun kept => (result kept).1 (by rw [write]; decide)⟩
  · obtain ⟨law, service⟩ := wrote_service (q := q) (b := b) (s := { s with pass := none }) hs hi
    have ho := wrote b hk
    generalize requested : (State.wrote { s with pass := none } p k sl q b).testRequests = w at ho
    have queues : w.queues = (State.wrote { s with pass := none } p k sl q b).queues := by
      rw [← requested, testRequests_queues]
    have turned := boundary_verify (g := g.oneMore) (serviceLaw_of_queues law queues)
      ((inService_of_queues queues).trans service) verify write done ho
    rw [← requested] at turned
    exact turned

end Sys2Proof.Machine

/-! ## Arrivals and timeouts of seeks (R84, R98, R99, R101, R102, R103) -/

namespace Sys2Proof.Machine

section
variable {s u v : State} {p : Port} {k : Fin 8} {sl : Slot} {g : Progress} {a : Addr}

/-! ### When a seek has lasted (R99) -/

theorem seekLasted_iff {more : Nat} : s.seekLasted more = true
    ↔ (tickAfter s.pos.seekStart (s.pos.seekTime + more) - s.tick).toInt ≤ 0 := decide_eq_true_iff

theorem not_seekLasted {more : Nat} (h : 0 < (tickAfter s.pos.seekStart (s.pos.seekTime + more) - s.tick).toInt) :
    ¬s.seekLasted more = true := fun lasted => by
  have := seekLasted_iff.mp lasted
  omega

theorem exec_seekArrival_none (h : s.pos.activity ≠ .seeking) : exec .seekArrival s = .next s := by
  show execSeekArrival s = _
  unfold execSeekArrival
  split
  · next x seeking _ => exact absurd seeking h
  · rfl

theorem exec_seekTimeout_none (h : ¬(s.pos.activity = .seeking ∧ s.seekLasted 200 = true)) :
    exec .seekTimeout s = .next s := by
  show execSeekTimeout s = _
  rw [execSeekTimeout, if_neg h]

/-! ### The timeout (R99, R102) -/

/-- The first two seek errors of a positioning are followed by a recalibration. -/
theorem seekError_recalibrates (h : s.pos.errors < 2) :
    let u : State := { s with pos := { s.pos with cyl := none } }.countBoth .seekErrors
    s.seekError = { u with
      lines := { s.lines with onCylinder := false }
      pos := { u.pos with
        activity := .recalibrating, head := 0, recalStart := s.tick, errors := s.pos.errors + 1 } }.countBoth
          .recalibrations := by
  unfold State.seekError
  exact if_pos h

/-- The third faults the drive. -/
theorem seekError_faults (h : 2 ≤ s.pos.errors) :
    s.seekError = ({ s with pos := { s.pos with cyl := none } }.countBoth .seekErrors : State).enterFaulted .seek := by
  unfold State.seekError
  exact if_neg (by omega)

/-- A seek that times out is a seek error. -/
theorem exec_seekTimeout_error (h : s.pos.activity = .seeking ∧ s.seekLasted 200 = true) :
    exec .seekTimeout s = .next s.seekError.judgeAlarm := by
  show execSeekTimeout s = _
  rw [execSeekTimeout, if_pos h]

/-! ### The arrival (R84, R98, R99) -/

/-- The heads have arrived at the target of their seek. -/
def State.arrivedAt (s : State) (a : Addr) : State :=
  { s with
    lines := { s.lines with onCylinder := true }
    pos := { s.pos with activity := .arrived, cyl := some a.cyl, head := a.head, arrivalTick := s.tick } }

/-- An arrival before its T_seek is not taken yet. -/
theorem exec_seekArrival_early (ha : s.pos.activity = .seeking) (ht : s.pos.target = some a)
    (early : ¬s.seekLasted 0 = true) :
    exec .seekArrival s = .next { s with lines := { s.lines with onCylinder := true } } := by
  show execSeekArrival s = _
  rw [execSeekArrival, ha, ht]
  exact congrArg _ (if_neg early)

/-- An arrival that is taken comes to its boundary. -/
theorem exec_seekArrival_arrives (ha : s.pos.activity = .seeking) (ht : s.pos.target = some a)
    (lasted : s.seekLasted 0 = true) : exec .seekArrival s = State.answers (s.arrivedAt a).arrivalBoundary := by
  have moved : (s.onLines fun l => { l with onCylinder := true }).arrive a = s.arrivedAt a := by
    unfold State.arrivedAt State.arrive State.onLines State.onPos
    rw [← ht]
  show execSeekArrival s = _
  rw [execSeekArrival, ha, ht]
  exact congrArg _ ((if_pos lasted).trans (by rw [moved]; rfl))

/-! ### Its boundary, by kind of order -/

section
variable {o : Host.Outcome State Fault Refusal} (hs : s.serviceLaw) (hi : s.inService = some (p, k, sl))
  (hg : s.progress = some g) (hp : s.pass = none) (ho : o = State.answers s.arrivalBoundary)
include hs hi hg ho

theorem arrival_data (hk : sl.kind = .read ∨ sl.kind = .write ∨ sl.kind = .check) :
    s.atBoundary p k sl s.pos.position g.next o (o = .next s.judgeAlarm) := by
  have arrived : s.arrivalBoundary = s.dataBoundary p k s.pos.position none false := by
    unfold State.arrivalBoundary; rw [hi]; exact if_pos (isData_of hk)
  rw [arrived] at ho
  exact dataBoundary_spec hs hi hg ho fun e => e

include hp

theorem arrival_track (hk : sl.kind = .formatTrack ∨ sl.kind = .testTrack) (hst : g.stage ≠ .readBack) :
    let w : State := { s with pos := { s.pos with activity := .confirmed } }
    w.atMaintenance p k sl s.pos.position o (o = .next w.judgeAlarm) := by
  intro w
  rw [arrivalBoundary_maint hi (by rcases hk with h | h <;> rw [h] <;> rfl),
    show s.arrivedFor sl = w from if_pos hk] at ho
  exact maintThen_spec (s := w) hs hi ((labelOpen_noPass hp hg).trans (decide_eq_false hst)) ho fun e => e

/-- Between a label write and its read-back's verdict the arrival of a label order is no boundary (R145). -/
theorem arrival_label (hk : sl.kind = .initializeLabel ∨ sl.kind = .assignSpare) :
    (g.stage ≠ .readBack → s.atMaintenance p k sl s.pos.position o (o = .next s.judgeAlarm))
      ∧ (g.stage = .readBack → o = .next s.judgeAlarm) := by
  have unconfirmed : s.arrivedFor sl = s := if_neg (by rcases hk with h | h <;> rw [h] <;> simp)
  rw [arrivalBoundary_maint hi (by rcases hk with h | h <;> rw [h] <;> rfl), unconfirmed] at ho
  have pending := labelOpen_noPass hp hg
  refine ⟨fun hst => ?_, fun hst => ?_⟩
  · exact maintThen_spec hs hi (pending.trans (decide_eq_false hst)) ho fun e => e
  · rw [maintThen_open hi (pending.trans (decide_eq_true hst)) hk] at ho
    exact ho

end

end

/-- Settles O50: a seek before its times, at its timeout, and at its arrival by the order in service. -/
theorem seeksArriveOrTimeOut : Obligations.SeeksArriveOrTimeOut := by
  intro s hs hq
  refine ⟨fun idle => ⟨exec_seekArrival_none idle, exec_seekTimeout_none (mt And.left idle)⟩,
    fun _ early => exec_seekTimeout_none (mt And.right (not_seekLasted early)), fun seeking late => ?_,
    fun x seeking target => ?_⟩
  · intro u
    have error := exec_seekTimeout_error ⟨seeking, seekLasted_iff.mpr late⟩
    refine ⟨fun few => by rw [error, seekError_recalibrates few], fun third => ?_⟩
    rw [error, seekError_faults third]
    exact faultsThen_of (s := u) hs (fun q => (Listed.of hq q).congr rfl) .seek
  · intro o u v w
    refine ⟨fun early => exec_seekArrival_early seeking target (not_seekLasted (more := 0) early), fun lasted => ?_⟩
    have ho : o = State.answers v.arrivalBoundary :=
      exec_seekArrival_arrives seeking target (seekLasted_iff (more := 0).mpr lasted)
    have law : v.serviceLaw := hs
    refine ⟨fun nobody => ?_, fun p k sl g hi hg hp => ?_⟩
    · rw [ho]
      unfold State.arrivalBoundary
      rw [show v.inService = none from nobody]
      rfl
    · intro maint
      exact ⟨arrival_data law hi hg ho, arrival_track law hi hg hp ho, arrival_label law hi hg hp ho⟩

end Sys2Proof.Machine

/-! ## The order IN SERVICE and the SUSPENDED order (O10) -/

namespace Sys2Proof.Machine

section
variable {c : Instr} {s t : State} {p q : Port} {k j : Fin 8} {st : SlotState}

/-- At most one slot of the device is in a state. -/
def State.AtMostOne (s : State) (st : SlotState) : Prop :=
  (s.numbered .a st).length + (s.numbered .b st).length ≤ 1

/-- The slots of the device in a state, with their ports. -/
def State.slotsIn (s : State) (st : SlotState) : List (Port × Fin 8) :=
  (s.numbered .a st).map (Prod.mk .a) ++ (s.numbered .b st).map (Prod.mk .b)

theorem mem_slotsIn : (p, k) ∈ s.slotsIn st ↔ ∃ x, s.slot p k = some x ∧ x.state = st := by
  cases p <;> simp [State.slotsIn, mem_numbered]

theorem slotsIn_nodup (s : State) (st : SlotState) : (s.slotsIn st).Nodup := by
  have numbers (p : Port) : (s.numbered p st).Nodup := List.Nodup.filter _ (by decide)
  refine List.Nodup.append ((numbers .a).map (Prod.mk_right_injective _))
    ((numbers .b).map (Prod.mk_right_injective _)) fun x ha hb => ?_
  obtain ⟨_, -, rfl⟩ := List.mem_map.mp ha
  simp at hb

/-- At most one slot is in a state where any two in it are one. -/
theorem atMostOne_of_unique (h : ∀ p k x q j y, s.slot p k = some x → x.state = st → s.slot q j = some y →
    y.state = st → (p, k) = (q, j)) : s.AtMostOne st := by
  have count : (s.slotsIn st).length ≤ 1 := by
    rw [← List.toFinset_card_of_nodup (slotsIn_nodup s st)]
    refine Finset.card_le_one.mpr fun (p, k) hx (q, j) hy => ?_
    obtain ⟨x, hk, hx⟩ := mem_slotsIn.mp (List.mem_toFinset.mp hx)
    obtain ⟨y, hj, hy⟩ := mem_slotsIn.mp (List.mem_toFinset.mp hy)
    exact h p k x q j y hk hx hj hy
  simpa [State.slotsIn, State.AtMostOne] using count

/-- At most one slot is in a state where each in it is a given one. -/
theorem atMostOne_of (p : Port) (k : Fin 8) (h : ∀ q j y, s.slot q j = some y → y.state = st → (q, j) = (p, k)) :
    s.AtMostOne st :=
  atMostOne_of_unique fun q j x q' j' y hj hx hj' hy => (h q j x hj hx).trans (h q' j' y hj' hy).symm

/-- From `s` to `t` no slot has become IN SERVICE or SUSPENDED. -/
def TakesNone (s t : State) : Prop :=
  ∀ p k y, t.slot p k = some y → y.state = .inService ∨ y.state = .suspended →
    ∃ x, s.slot p k = some x ∧ x.state = y.state ∧ x.prompt = y.prompt

theorem TakesNone.of_queues (h : t.queues = s.queues) : TakesNone s t := fun p k y hy _ =>
  ⟨y, by rw [← slot_of_queues s t h]; exact hy, rfl, rfl⟩

theorem TakesNone.trans {u : State} (h : TakesNone s t) (h' : TakesNone t u) : TakesNone s u := by
  intro p k y hy hst
  obtain ⟨x, hx, ex, px⟩ := h' p k y hy hst
  obtain ⟨w, hw, ew, pw⟩ := h p k x hx (by rw [ex]; exact hst)
  exact ⟨w, hw, ew.trans ex, pw.trans px⟩

/-- A change of a queue takes none where each record that is IN SERVICE or SUSPENDED after it was so before. -/
theorem TakesNone.onQueue {f : Queue → Queue}
    (h : ∀ (j : Fin 8) (y : Slot), (f (s.queues.get p)).slots[j] = some y →
      y.state = .inService ∨ y.state = .suspended →
      ∃ x, s.slot p j = some x ∧ x.state = y.state ∧ x.prompt = y.prompt) : TakesNone s (s.onQueue p f) := by
  intro q j y hy hst
  rw [slot_onQueue] at hy
  split at hy
  · next e => subst e; exact h j y hy hst
  · exact ⟨y, hy, rfl, rfl⟩

/-- A change of one record takes none where that record keeps its state and urgency, or comes to neither state. -/
theorem TakesNone.modSlot {f : Slot → Slot}
    (h : ∀ x, s.slot p k = some x → (f x).state = .inService ∨ (f x).state = .suspended →
      x.state = (f x).state ∧ x.prompt = (f x).prompt) : TakesNone s (s.modSlot p k f) := by
  intro q j y hy hst
  rw [slot_modSlot] at hy
  split at hy
  · next e =>
    obtain ⟨rfl, rfl⟩ := e
    obtain ⟨x, hx, rfl⟩ := Option.map_eq_some_iff.mp hy
    exact ⟨x, hx, h x hx hst⟩
  · exact ⟨y, hy, rfl, rfl⟩

/-- A slot that becomes FREE takes none. -/
theorem TakesNone.drop : TakesNone s (s.onQueue p (·.drop k)) := .onQueue fun j y hy _ => by
  rw [drop_slots] at hy
  split at hy
  · cases hy
  · exact ⟨y, hy, rfl, rfl⟩

/-- An ending takes none. -/
theorem TakesNone.finish {sl : Slot} {e : Ending} {fa : Option Addr} (h : s.slot p k = some sl) :
    TakesNone s (s.onQueue p fun q => q.finish k e fa) := .onQueue fun j y hy hst => by
  have h : (s.queues.get p).slots[k] = some sl := h
  rw [finish_slots h] at hy
  split at hy
  · rw [ended_state hy] at hst
    simp at hst
  · exact ⟨y, hy, rfl, rfl⟩

/-- Of the records IN SERVICE or SUSPENDED after one that is neither has entered, each was there before. -/
theorem enter_slots_before {q : Queue} {sl y : Slot} (h : sl.state = .queued ∨ sl.state = .done)
    (hy : (q.enter k sl).slots[j] = some y) (hst : y.state = .inService ∨ y.state = .suspended) :
    q.slots[j] = some y := by
  rw [enter_slots] at hy
  split at hy
  · cases hy
    rcases h with e | e <;> simp [e] at hst
  · exact hy

theorem TakesNone.enter {sl : Slot} (h : sl.state = .queued ∨ sl.state = .done) :
    TakesNone s (s.onQueue p fun q => q.enter k sl) :=
  .onQueue fun _ y hy hst => ⟨y, enter_slots_before h hy hst, rfl, rfl⟩

theorem TakesNone.enterAnswered {sl : Slot} (h : sl.state = .queued ∨ sl.state = .done) :
    TakesNone s (s.onQueue p fun q => (q.enter k sl).answer k) :=
  .onQueue fun _ y hy hst => ⟨y, enter_slots_before h hy hst, rfl, rfl⟩

/-- A move that takes an order hands the actuator to a waiting one while none has it, or from a ROUTINE order, which is
set aside while none is SUSPENDED, to a QUEUED one (R88, R91, R92). -/
theorem Move.takes (m : Move s t) : TakesNone s t
    ∨ (∃ p k, s.inService = none ∧ t = s.modSlot p k fun x => { x with state := .inService })
    ∨ ∃ p k sl q j, s.slot p k = some sl ∧ sl.state = .inService ∧ sl.prompt = false ∧ s.suspended = none
      ∧ t = (s.modSlot p k fun x => { x with state := .suspended }).modSlot q j fun x => { x with state := .inService } := by
  cases m with
  | record p k f hf => exact .inl (.modSlot fun x hx _ => ⟨(hf x hx).2.1.symm, (hf x hx).2.2.symm⟩)
  | serve p k sl hk waits nobody => exact .inr (.inl ⟨p, k, nobody, rfl⟩)
  | replace p q k j sl x hk served routine nobody hj queued =>
    exact .inr (.inr ⟨p, k, sl, q, j, hk, served, routine, nobody, rfl⟩)
  | drain p k e fa sl hk served => exact .inl (.modSlot fun _ _ hst => by simp at hst)
  | finish p k e fa sl hk live => exact .inl (.finish hk)
  | drop p k => exact .inl .drop
  | _ => exact .inl (.of_queues rfl)

/-- No act takes an order. -/
theorem Act.takesNone (m : Act c s t) : TakesNone s t := by
  cases m with
  | drained p k sl hk draining =>
    have done : TakesNone s (s.modSlot p k fun sl => { sl with state := .done, drainStart := none }) :=
      .modSlot fun _ _ hst => by simp at hst
    exact done.trans (.onQueue fun _ y hy _ => ⟨y, hy, rfl, rfl⟩)
  | _ => exact .of_queues rfl

/-! ### The two laws -/

theorem TakesNone.serviceLaw (h : TakesNone s t) (hs : s.serviceLaw) : t.serviceLaw :=
  atMostOne_of_unique fun p k x q j y hk hx hj hy => by
    obtain ⟨x', hk', ex, -⟩ := h p k x hk (.inl hx)
    obtain ⟨y', hj', ey, -⟩ := h q j y hj (.inl hy)
    exact numbered_unique hs hk' (ex.trans hx) hj' (ey.trans hy)

theorem TakesNone.suspensionLaw (h : TakesNone s t) (hs : s.suspensionLaw) : t.suspensionLaw := by
  obtain ⟨one, routine⟩ := hs
  refine ⟨atMostOne_of_unique fun p k x q j y hk hx hj hy => ?_, fun p k y hk hy => ?_⟩
  · obtain ⟨x', hk', ex, -⟩ := h p k x hk (.inr hx)
    obtain ⟨y', hj', ey, -⟩ := h q j y hj (.inr hy)
    exact numbered_unique one hk' (ex.trans hx) hj' (ey.trans hy)
  · obtain ⟨x, hk', ex, urgency⟩ := h p k y hk (.inr hy)
    exact urgency ▸ routine p k x hk' (ex.trans hy)

/-- A record that becomes IN SERVICE is the only one where no other is (R91). -/
theorem served_serviceLaw (h : ∀ q j y, s.slot q j = some y → y.state = .inService → (q, j) = (p, k)) :
    (s.modSlot p k fun x => { x with state := .inService }).serviceLaw :=
  atMostOne_of p k fun q j y hj hy => by
    rw [slot_modSlot] at hj
    split at hj
    · next e => rw [e.1, e.2]
    · exact h q j y hj hy

/-- A record that becomes IN SERVICE is not SUSPENDED. -/
theorem served_suspensionLaw (hs : s.suspensionLaw) :
    (s.modSlot p k fun x => { x with state := .inService }).suspensionLaw := by
  have back : ∀ q j y, (s.modSlot p k fun x => { x with state := .inService }).slot q j = some y →
      y.state = .suspended → s.slot q j = some y := by
    intro q j y hj hy
    rw [slot_modSlot] at hj
    split at hj
    · obtain ⟨x, -, rfl⟩ := Option.map_eq_some_iff.mp hj
      cases hy
    · exact hj
  obtain ⟨one, routine⟩ := hs
  exact ⟨atMostOne_of_unique fun p k x q j y hk hx hj hy =>
      numbered_unique one (back p k x hk hx) hx (back q j y hj hy) hy,
    fun q j y hj hy => routine q j y (back q j y hj hy) hy⟩

/-- The order IN SERVICE, set aside, leaves none IN SERVICE (R88). -/
theorem aside_service {sl : Slot} (hs : s.serviceLaw) (hk : s.slot p k = some sl) (served : sl.state = .inService)
    {y : Slot} (hj : (s.modSlot p k fun x => { x with state := .suspended }).slot q j = some y) :
    y.state ≠ .inService := by
  intro hy
  rw [slot_modSlot] at hj
  split at hj
  · obtain ⟨x, -, rfl⟩ := Option.map_eq_some_iff.mp hj
    cases hy
  · next other =>
    cases numbered_unique hs hj hy hk served
    exact other ⟨rfl, rfl⟩

/-- A ROUTINE order set aside while none is SUSPENDED is the only one (R92). -/
theorem aside_suspensionLaw {sl : Slot} (hk : s.slot p k = some sl) (routine : sl.prompt = false)
    (nobody : s.suspended = none) : (s.modSlot p k fun x => { x with state := .suspended }).suspensionLaw := by
  have only : ∀ q j y, (s.modSlot p k fun x => { x with state := .suspended }).slot q j = some y →
      y.state = .suspended → (q, j) = (p, k) ∧ y.prompt = false := by
    intro q j y hj hy
    rw [slot_modSlot] at hj
    split at hj
    · next e =>
      obtain ⟨rfl, rfl⟩ := e
      rw [hk] at hj
      cases hj
      exact ⟨rfl, routine⟩
    · exact absurd hy (suspended_none nobody q j y hj)
  exact ⟨atMostOne_of p k fun q j y hj hy => (only q j y hj hy).1, fun q j y hj hy => (only q j y hj hy).2⟩

theorem Move.serviceLaw (m : Move s t) (hs : s.serviceLaw) : t.serviceLaw := by
  rcases m.takes with none' | ⟨p, k, nobody, rfl⟩ | ⟨p, k, sl, q, j, hk, served, -, -, rfl⟩
  · exact none'.serviceLaw hs
  · exact served_serviceLaw fun q j y hj hy => absurd hy (inService_none nobody q j y hj)
  · exact served_serviceLaw fun _ _ _ hj hy => absurd hy (aside_service hs hk served hj)

theorem Move.suspensionLaw (m : Move s t) (hs : s.suspensionLaw) : t.suspensionLaw := by
  rcases m.takes with none' | ⟨p, k, -, rfl⟩ | ⟨p, k, sl, q, j, hk, -, routine, nobody, rfl⟩
  · exact none'.suspensionLaw hs
  · exact served_suspensionLaw hs
  · exact served_suspensionLaw (aside_suspensionLaw hk routine nobody)

theorem Run.serviceLaw (r : Run c s t) (hs : s.serviceLaw) : t.serviceLaw :=
  r.keeps (I := State.serviceLaw) Move.serviceLaw (fun m hs => m.takesNone.serviceLaw hs)
    (fun _ _ _ _ _ queued _ hs => (TakesNone.enter (.inl queued)).serviceLaw hs)
    (fun _ _ _ _ _ done _ hs => (TakesNone.enterAnswered (.inr done)).serviceLaw hs) hs

theorem Run.suspensionLaw (r : Run c s t) (hs : s.suspensionLaw) : t.suspensionLaw :=
  r.keeps (I := State.suspensionLaw) Move.suspensionLaw (fun m hs => m.takesNone.suspensionLaw hs)
    (fun _ _ _ _ _ queued _ hs => (TakesNone.enter (.inl queued)).suspensionLaw hs)
    (fun _ _ _ _ _ done _ hs => (TakesNone.enterAnswered (.inr done)).suspensionLaw hs) hs

end

/-- Settles O10: a tick touches no slot, a command is a run, and a reset a run from empty queues. -/
theorem atMostOneOrderIsServedAndOneSuspended : Obligations.AtMostOneOrderIsServedAndOneSuspended := by
  intro s t h
  rcases step_cases s t h with ⟨-, rfl⟩ | ⟨c, rest, -, -, -, r⟩ | ⟨c, rest, _, _, _, _, -, -, -, -, r⟩
  · exact ⟨fun hs => hs, fun hs => hs⟩
  · exact ⟨r.serviceLaw, r.suspensionLaw⟩
  · exact ⟨fun _ => r.serviceLaw reset_serviceLaw, fun _ => r.suspensionLaw reset_suspensionLaw⟩

end Sys2Proof.Machine

/-! ## The times of the model (O59) -/

namespace Sys2Proof.Machine

theorem seekTicks_mono {d e : Nat} (h : d ≤ e) : seekTicks d ≤ seekTicks e := by
  unfold seekTicks
  split_ifs <;> omega

/-- The distance of two cylinders is the one difference that is not cut off at 0. -/
theorem distance_eq (x y : Nat) : distance x y = x - y + (y - x) := by
  unfold distance
  omega

/-- The wait, one tick at least, ends at the start of the sector (R75). -/
theorem sectorWait_spec (s a : Nat) : 1 ≤ sectorWait s a ∧ sectorWait s a ≤ 200
    ∧ (a + sectorWait s a) % 200 = 10 * s % 200 := by
  unfold sectorWait
  omega

/-- No shorter wait of one tick or more ends at a start of the sector. -/
theorem sectorWait_least {s a w : Nat} (hw : 1 ≤ w) (h : (a + w) % 200 = 10 * s % 200) : sectorWait s a ≤ w := by
  unfold sectorWait
  omega

/-- Settles O59: the three pieces of the seek time, the least wait, and the estimate put together from them. -/
theorem theModelTimesAreTheStatedOnes : Obligations.TheModelTimesAreTheStatedOnes := by
  refine ⟨fun d => ⟨fun zero => if_pos zero, fun low high => ?_, fun far => ?_⟩, fun _ _ => seekTicks_mono,
    fun s a hs _ => ?_, fun c a x n v => ?_⟩
  · rw [seekTicks, if_neg (by omega), if_pos high]
  · rw [seekTicks, if_neg (by omega), if_neg (by omega)]
  · have start : 10 * s % 200 = 10 * s := Nat.mod_eq_of_lt (by omega)
    obtain ⟨low, high, ends⟩ := sectorWait_spec s a
    exact ⟨low, high, ends.trans start, fun w hw h => sectorWait_least hw (h.trans start.symm)⟩
  · have position : positionTicks c a x = seekTicks (x.cyl - c + (c - x.cyl))
        + sectorWait x.sector ((a + seekTicks (x.cyl - c + (c - x.cyl))) % 200) := by
      rw [← distance_eq]
      rfl
    exact ⟨position, Nat.add_right_comm ..⟩

end Sys2Proof.Machine

/-! ## What faults the drive (O52) -/

namespace Sys2Proof.Machine

section
variable {s : State}

theorem watched_iff (d : DriveState) : d.watched = true
    ↔ d = .calibrating ∨ d = .labelRead ∨ d = .ready ∨ d = .degraded := by cases d <;> simp [DriveState.watched]

/-- The spinning states are the watched ones and SPINNING UP (R128). -/
theorem spinning_iff (d : DriveState) : d.spinning = true
    ↔ (d = .calibrating ∨ d = .labelRead ∨ d = .ready ∨ d = .degraded) ∨ d = .spinningUp := by
  cases d <;> simp [DriveState.spinning]

theorem ranOut_iff_exists {timer : Option Tick} :
    s.ranOut timer = true ↔ ∃ d, timer = some d ∧ (d - s.tick).toInt ≤ 0 := by
  cases timer with
  | none => simp [State.ranOut]
  | some d => simp [ranOut_iff]

theorem not_ranOut {timer : Option Tick} (h : ∀ d, timer = some d → 0 < (d - s.tick).toInt) :
    ¬s.ranOut timer = true := fun ran => by
  obtain ⟨d, hd, late⟩ := ranOut_iff_exists.mp ran
  have := h d hd
  omega

theorem indexOverdue_iff : s.indexOverdue = true
    ↔ ∃ i, s.pos.lastIndex = some i ∧ (tickAfter i 400 - s.tick).toInt ≤ 0 := by
  rw [State.indexOverdue, ranOut_iff_exists]
  simp [Option.map_eq_some_iff]

end

/-- Settles O52: each event under its condition is an entry into FAULTED, and changes nothing more outside it. -/
theorem theDriveFaults : Obligations.TheDriveFaults := by
  intro s hs hq watched hot
  have listed (q : Port) : Listed s q := .of hq q
  refine ⟨fun hw late => ?_, fun early => ?_, fun up late => ?_, fun early => ?_, fun on => ?_, fun off spins => ?_,
    fun off still up => ?_, rfl⟩
  · have : exec .indexLoss s = .next (s.enterFaulted .indexLost).judgeAlarm :=
      congrArg _ (if_pos ⟨(watched_iff _).mpr hw, indexOverdue_iff.mpr late⟩)
    rw [this]
    exact faultsThen_of hs listed .indexLost
  · refine congrArg _ (if_neg fun ⟨hw, overdue⟩ => ?_)
    obtain ⟨i, hi, late⟩ := indexOverdue_iff.mp overdue
    rcases early with still | early
    · exact still ((watched_iff _).mp hw)
    · exact absurd late (by have := early i hi; omega)
  · have : exec .spinUpTimeout s = .next (s.enterFaulted .spinUpTimeout).judgeAlarm :=
      congrArg _ (if_pos ⟨up, ranOut_iff_exists.mpr late⟩)
    rw [this]
    exact faultsThen_of hs listed .spinUpTimeout
  · refine congrArg _ (if_neg fun ⟨up, ran⟩ => ?_)
    rcases early with other | early
    · exact other up
    · exact not_ranOut early ran
  · exact congrArg _ (if_pos on)
  · have : exec .overTemperature s = .next (hot.enterFaulted .overtemp).judgeAlarm :=
      congrArg _ ((if_neg (by simp [off])).trans (if_pos ((spinning_iff _).mpr spins)))
    rw [this]
    exact faultsThen_of (s := hot) hs (fun q => (listed q).congr rfl) .overtemp
  · exact congrArg _ ((if_neg (by simp [off])).trans
      (if_neg fun spins => ((spinning_iff _).mp spins).elim still up))

end Sys2Proof.Machine

/-! ## The write supply (O54) -/

namespace Sys2Proof.Machine

section
variable {s : State} {before : DriveState} {speed supply : Bool}

/-- Outside READY and DEGRADED the reasons are not looked at. -/
theorem setReasons_idle (h : s.drive.state.serving = false) : s.setReasons speed supply = s :=
  if_neg (by simp [h])

/-- A READY drive that gets a reason becomes DEGRADED, and latches it (R134, R163). -/
theorem setReasons_degrades (h : s.drive.state = .ready) (reason : (speed || supply) = true) :
    s.setReasons speed supply =
      ({ s with drive := { s.drive with state := .degraded, speed := speed, supply := supply } } : State).latch
        .driveDegraded := by
  rw [State.setReasons, if_pos (by rw [h]; rfl), State.weighReasons, if_pos (by exact reason),
    if_neg (by simp [State.onDrive, h])]
  rfl

/-- A DEGRADED drive that keeps a reason stays so. -/
theorem setReasons_stays (h : s.drive.state = .degraded) (reason : (speed || supply) = true) :
    s.setReasons speed supply = { s with drive := { s.drive with speed := speed, supply := supply } } := by
  rw [State.setReasons, if_pos (by rw [h]; rfl), State.weighReasons, if_pos (by exact reason), if_pos (by exact h)]
  rfl

/-- A served drive without a reason is READY. -/
theorem setReasons_ready (h : s.drive.state.serving = true) (free : (speed || supply) = false) :
    s.setReasons speed supply =
      { s with drive := { s.drive with state := .ready, speed := speed, supply := supply } } := by
  rw [State.setReasons, if_pos h, State.weighReasons, if_neg (by simpa [State.onDrive] using free)]
  rfl

theorem setReasons_keepsReady (h : s.drive.state = .ready) (free : (speed || supply) = false) :
    s.setReasons speed supply = { s with drive := { s.drive with speed := speed, supply := supply } } := by
  rw [setReasons_ready (by rw [h]; rfl) free, ← h]

end

/-- Settles O54: the new reasons by the drive's state, and a test for a selection where that state changes. -/
theorem theWriteSupplyDegradesTheDrive : Obligations.TheWriteSupplyDegradesTheDrive := by
  intro s lost good serving
  have lose : exec .writeSupplyLost s
      = .next ((lost.setReasons s.drive.speed true).scheduleOnEntry s.drive.state).judgeAlarm := rfl
  have regain : exec .writeSupplyGood s
      = .next ((good.setReasons s.drive.speed false).scheduleOnEntry s.drive.state).judgeAlarm := rfl
  refine ⟨fun ready => ?_, fun degraded => ?_, fun degraded free => ?_, fun hs kept => ?_, fun idle => ⟨?_, ?_⟩⟩
  · rw [lose, setReasons_degrades (s := lost) ready (Bool.or_true _), State.scheduleOnEntry,
      if_neg (by rw [ready]; exact DriveState.noConfusion)]
  · rw [lose, setReasons_stays (s := lost) degraded (Bool.or_true _), State.scheduleOnEntry, if_pos rfl]
  · rw [regain, setReasons_ready (s := good) (by rw [show good.drive.state = _ from degraded]; rfl) (by simp [free]),
      State.scheduleOnEntry, if_neg (by rw [degraded]; exact DriveState.noConfusion)]
  · rw [regain]
    rcases hs with ready | degraded
    · rw [setReasons_keepsReady (s := good) ready (by simp [kept, ready]), State.scheduleOnEntry, if_pos rfl]
    · rw [setReasons_stays (s := good) degraded (by simp [kept, degraded]), State.scheduleOnEntry, if_pos rfl]
  · have idle : lost.drive.state.serving = false := Bool.eq_false_iff.mpr fun on => idle ((serving_iff _).mp on)
    rw [lose, setReasons_idle idle, State.scheduleOnEntry, if_pos rfl]
  · have idle : good.drive.state.serving = false := Bool.eq_false_iff.mpr fun on => idle ((serving_iff _).mp on)
    rw [regain, setReasons_idle idle, State.scheduleOnEntry, if_pos rfl]

end Sys2Proof.Machine

/-! ## The counters (O13) -/

namespace Sys2Proof.Machine

/-! ### A bank -/

section
variable {x y : Bank}

/-- Every counter of both sets is a 32-bit value (R168). -/
def Bank.Bounded (x : Bank) : Prop := ∀ i : Fin 26, x.live[i] ≤ 4294967295 ∧ x.snap[i] ≤ 4294967295

theorem Bank.Bounded.count (h : x.Bounded) (c : Counter) : (x.count c).Bounded := by
  intro i
  rw [count_snap, count_live]
  split
  · exact ⟨bump_bound _, (h i).2⟩
  · exact h i

theorem Bank.Bounded.captured (h : x.Bounded) (now : Tick) : (x.captured now).Bounded := fun i =>
  ⟨by simp [Bank.captured], (h i).1⟩

/-- From `x` to `y` no live counter has decreased, and no snapshot counter has changed. -/
def Bank.GrowsTo (x y : Bank) : Prop := ∀ i : Fin 26, x.live[i] ≤ y.live[i] ∧ y.snap[i] = x.snap[i]

theorem Bank.GrowsTo.refl (x : Bank) : x.GrowsTo x := fun _ => ⟨le_refl _, rfl⟩

theorem Bank.GrowsTo.count (h : x.GrowsTo y) (hy : y.Bounded) (c : Counter) : x.GrowsTo (y.count c) := by
  intro i
  obtain ⟨live, snap⟩ := h i
  rw [count_snap, count_live]
  split
  · exact ⟨live.trans (le_bump _ (hy i).1), snap⟩
  · exact ⟨live, snap⟩

end

/-! ### Moves, acts and runs -/

section
variable {c : Instr} {s t : State} {p : Port}

/-- A move leaves a port's bank, or counts one event in it. -/
theorem Move.bank (m : Move s t) (p : Port) :
    t.banks.get p = s.banks.get p ∨ ∃ c, t.banks.get p = (s.banks.get p).count c := by
  cases m with
  | count q c =>
    rw [count_banks, get_modify]
    split
    · next e => exact .inr ⟨c, by rw [e]⟩
    · exact .inl rfl
  | countBoth c => cases p <;> exact .inr ⟨c, rfl⟩
  | _ => exact .inl rfl

/-- An act leaves a port's bank, but for a capture of that bank (R169). -/
theorem Act.bank (m : Act c s t) (p : Port) : t.banks.get p = s.banks.get p
    ∨ (∃ tag rest, c = .captureStatistics p tag rest) ∧ t.banks.get p = (s.banks.get p).captured s.tick := by
  cases m with
  | capture q hc =>
    show (s.banks.modify q _).get p = _ ∨ _ ∧ (s.banks.modify q _).get p = _
    rw [get_modify]
    split
    · next e => exact .inr ⟨e ▸ hc, by rw [e]⟩
    · exact .inl rfl
  | _ => exact .inl rfl

theorem Move.counterLaw (m : Move s t) (h : s.counterLaw) : t.counterLaw := fun p => by
  rcases m.bank p with same | ⟨c, counted⟩
  · rw [same]; exact h p
  · rw [counted]; exact Bank.Bounded.count (h p) c

theorem Act.counterLaw (m : Act c s t) (h : s.counterLaw) : t.counterLaw := fun p => by
  rcases m.bank p with same | ⟨-, captured⟩
  · rw [same]; exact h p
  · rw [captured]; exact Bank.Bounded.captured (h p) s.tick

theorem step_counterLaw (h : step s = .next t) (hs : s.counterLaw) : t.counterLaw :=
  step_keeps (I := State.counterLaw) (fun _ _ h => h) (fun _ h => h) (fun _ _ _ _ _ _ _ _ => reset_counterLaw)
    Move.counterLaw Act.counterLaw (fun _ _ _ h => h) h hs

/-- A run that captures no statistics of a port lets its counters grow. -/
theorem Run.grows (r : Run c s t) (hs : s.counterLaw) (hc : ∀ tag rest, c ≠ .captureStatistics p tag rest) :
    (s.banks.get p).GrowsTo (t.banks.get p) := by
  refine (r.keeps (I := fun u => u.counterLaw ∧ (s.banks.get p).GrowsTo (u.banks.get p)) (fun m ⟨law, grown⟩ => ?_)
    (fun m ⟨law, grown⟩ => ⟨m.counterLaw law, ?_⟩) (fun _ _ _ _ _ _ _ h => h) (fun _ _ _ _ _ _ _ h => h)
    ⟨hs, .refl _⟩).2
  · refine ⟨m.counterLaw law, ?_⟩
    rcases m.bank p with same | ⟨c, counted⟩
    · rw [same]; exact grown
    · rw [counted]; exact grown.count (law p) c
  · rcases m.bank p with same | ⟨⟨tag, rest, e⟩, -⟩
    · rw [same]; exact grown
    · exact absurd e (hc tag rest)

end

/-! ### Counting and the buckets -/

theorem bump_eq (n : Nat) : bump n = if n < 4294967295 then n + 1 else 4294967295 := by
  unfold bump
  split <;> omega

/-- The tables of R168 number the counters as they list them. -/
theorem countersInOrder_iff (c : Counter) (i : Fin 26) : countersInOrder[i.val]? = some c ↔ i = c.idx := by
  cases c <;> revert i <;> decide

/-- Counting raises the one live counter it names. -/
theorem count_live_eq (x : Bank) (c : Counter) (i : Fin 26) : (x.count c).live[i]
    = if countersInOrder[i.val]? = some c then
        if x.live[i] < 4294967295 then x.live[i] + 1 else 4294967295
      else x.live[i] := by
  rw [count_live, bump_eq]
  simp only [countersInOrder_iff]

/-- A transfer is counted by its length (R168). -/
theorem lengthBucket_spec (n : Nat) : (n = 1 → lengthBucket n = .length1)
    ∧ (2 ≤ n → n ≤ 4 → lengthBucket n = .length2to4) ∧ (5 ≤ n → n ≤ 16 → lengthBucket n = .length5to16)
    ∧ (17 ≤ n → n ≤ 64 → lengthBucket n = .length17to64) := by
  unfold lengthBucket
  refine ⟨fun _ => if_pos (by omega), fun _ _ => ?_, fun _ _ => ?_, fun _ _ => ?_⟩
  · rw [if_neg (by omega), if_pos (by omega)]
  · rw [if_neg (by omega), if_neg (by omega), if_pos (by omega)]
  · rw [if_neg (by omega), if_neg (by omega), if_neg (by omega)]

/-- The margin of a PROMPT order is counted by how early or late it is (R83). -/
theorem marginBucket_spec (m : Int) : (100 ≤ m → marginBucket m = .early)
    ∧ (0 ≤ m → m ≤ 99 → marginBucket m = .close) ∧ (-100 ≤ m → m ≤ -1 → marginBucket m = .late)
    ∧ (m < -100 → marginBucket m = .veryLate) := by
  unfold marginBucket
  refine ⟨fun _ => if_pos (by omega), fun _ _ => ?_, fun _ _ => ?_, fun _ => ?_⟩
  · rw [if_neg (by omega), if_pos (by omega)]
  · rw [if_neg (by omega), if_neg (by omega), if_pos (by omega)]
  · rw [if_neg (by omega), if_neg (by omega), if_neg (by omega)]

/-- Settles O13: what each move, act and reset makes of a bank, and the counters and buckets one by one. -/
theorem countersNeverDecrease : Obligations.CountersNeverDecrease := by
  refine ⟨fun s t hs h => step_counterLaw h hs, fun c s t hs h hc p hp => (exec_run c s t hc h).grows hs hp,
    fun s p q c i => ⟨?_, ?_, ?_, ?_, rfl, rfl⟩, lengthBucket_spec, marginBucket_spec⟩
  · rw [count_banks, get_modify]
    split
    · next e => rw [e]; rfl
    · rfl
  · rw [count_banks, get_modify]
    split
    · next e => subst e; simp only [true_and, count_live_eq]
    · next e => simp [e]
  · cases q <;> rfl
  · cases q <;> exact count_live_eq _ c i

end Sys2Proof.Machine

/-! ## A tick (O2) -/

namespace Sys2Proof.Machine

section
variable {s : State} {p : Port} {i j : Instr} {tag : Byte}

theorem mem_whenever {b : Bool} : i ∈ whenever b j ↔ i = j ∧ b = true := by
  cases b <;> simp [whenever]

theorem fallsNow_iff {timer : Option Tick} : s.fallsNow timer = true ↔ timer = some s.tick := decide_eq_true_iff

theorem mem_live {q : Queue} {sl : Slot} : sl ∈ q.live ↔ ∃ k : Fin 8, q.slots[k] = some sl := by
  simp [Queue.live, mem_slotNumbers]

/-! ### The events of each block -/

theorem mem_positionEvents : i ∈ s.positionEvents ↔
    i = .seekArrival ∧ s.pos.activity = .seeking ∧ s.lines.onCylinder = true
        ∧ tickAfter s.pos.seekStart s.pos.seekTime = s.tick
      ∨ i = .seekTimeout ∧ s.pos.activity = .seeking ∧ tickAfter s.pos.seekStart (s.pos.seekTime + 200) = s.tick
      ∨ i = .recalibrationLimit ∧ s.pos.activity = .recalibrating ∧ tickAfter s.pos.recalStart 1000 = s.tick := by
  simp only [State.positionEvents, List.mem_append, mem_whenever, Bool.and_eq_true, decide_eq_true_eq, fallsNow_iff,
    Option.some.injEq, and_assoc, or_assoc]

theorem mem_driveEvents : i ∈ s.driveEvents ↔
    i = .indexLoss ∧ s.drive.state.watched = true ∧ (∃ x, s.pos.lastIndex = some x ∧ tickAfter x 400 = s.tick)
      ∨ i = .spinUpTimeout ∧ s.drive.state = .spinningUp ∧ s.drive.spinUp = some s.tick
      ∨ i = .runDownTimeout ∧ s.drive.state = .spinningDown ∧ s.drive.runDown = some s.tick := by
  simp only [State.driveEvents, List.mem_append, mem_whenever, Bool.and_eq_true, decide_eq_true_eq, fallsNow_iff,
    Option.map_eq_some_iff, or_assoc]

theorem mem_presenceEvents : i ∈ s.presenceEvents p ↔ i = .presenceTimerExpiry p
    ∧ (s.ports.get p).presence = .present ∧ (s.ports.get p).timer = some s.tick := by
  simp only [State.presenceEvents, mem_whenever, Bool.and_eq_true, decide_eq_true_eq, fallsNow_iff]

theorem mem_slotEvents : i ∈ s.slotEvents p ↔ ∃ k sl, s.slot p k = some sl
    ∧ (i = .dueTickExpiry p sl.tag ∧ sl.state = .queued ∧ sl.prompt = true ∧ sl.dueTick = some s.tick
      ∨ i = .drainLimit p sl.tag ∧ sl.state = .draining ∧ ∃ d, sl.drainStart = some d ∧ tickAfter d 1000 = s.tick) := by
  simp only [State.slotEvents, List.mem_flatMap, mem_live, List.mem_append, mem_whenever, Bool.and_eq_true,
    decide_eq_true_eq, fallsNow_iff, Option.map_eq_some_iff, and_assoc, State.slot]
  exact ⟨fun ⟨sl, ⟨k, hk⟩, h⟩ => ⟨k, sl, hk, h⟩, fun ⟨k, sl, hk, h⟩ => ⟨sl, ⟨k, hk⟩, h⟩⟩

/-- Every timer event that falls at the tick now is one of a block. -/
theorem mem_eventsNow : i ∈ s.eventsNow ↔ i ∈ s.positionEvents ∨ i ∈ s.driveEvents ∨ (∃ p, i ∈ s.presenceEvents p)
    ∨ (∃ p, i ∈ s.slotEvents p)
    ∨ i = .flashTimerExpiry ∧ s.alarms.manner = .flashing ∧ s.alarms.flash = some s.tick := by
  have ports (P : Port → Prop) : (∃ p, P p) ↔ P .a ∨ P .b :=
    ⟨fun ⟨p, h⟩ => by cases p; exacts [.inl h, .inr h], fun h => h.elim (⟨_, ·⟩) (⟨_, ·⟩)⟩
  simp only [State.eventsNow, List.mem_append, ports, mem_whenever, Bool.and_eq_true, decide_eq_true_eq, fallsNow_iff,
    or_assoc]

/-- The timer event is one that falls at the tick now (R82, R93, R94, R97, R99, R103, R114, R131, R140, R159, R167). -/
def State.Falls (s : State) (i : Instr) : Prop :=
  match i with
  | .presenceTimerExpiry p => (s.ports.get p).presence = .present ∧ (s.ports.get p).timer = some s.tick
  | .dueTickExpiry p tag => ∃ k sl, s.slot p k = some sl ∧ sl.tag = tag ∧ sl.state = .queued ∧ sl.prompt = true
      ∧ sl.dueTick = some s.tick
  | .drainLimit p tag => ∃ k sl d, s.slot p k = some sl ∧ sl.tag = tag ∧ sl.state = .draining
      ∧ sl.drainStart = some d ∧ tickAfter d 1000 = s.tick
  | .seekArrival => s.pos.activity = .seeking ∧ s.lines.onCylinder = true
      ∧ tickAfter s.pos.seekStart s.pos.seekTime = s.tick
  | .seekTimeout => s.pos.activity = .seeking ∧ tickAfter s.pos.seekStart (s.pos.seekTime + 200) = s.tick
  | .recalibrationLimit => s.pos.activity = .recalibrating ∧ tickAfter s.pos.recalStart 1000 = s.tick
  | .indexLoss => s.drive.state.watched = true ∧ ∃ x, s.pos.lastIndex = some x ∧ tickAfter x 400 = s.tick
  | .spinUpTimeout => s.drive.state = .spinningUp ∧ s.drive.spinUp = some s.tick
  | .runDownTimeout => s.drive.state = .spinningDown ∧ s.drive.runDown = some s.tick
  | .flashTimerExpiry => s.alarms.manner = .flashing ∧ s.alarms.flash = some s.tick
  | _ => False

theorem mem_eventsNow_iff : i ∈ s.eventsNow ↔ s.Falls i := by
  rw [mem_eventsNow]
  simp only [mem_positionEvents, mem_driveEvents, mem_presenceEvents, mem_slotEvents]
  cases i with
  | dueTickExpiry p tag => simp [State.Falls, eq_comm (a := tag)]
  | drainLimit p tag => simp [State.Falls, eq_comm (a := tag)]
  | _ => simp [State.Falls]

end

/-- Settles O2: what joins an empty queue is what falls at the new tick, event by event. -/
theorem anEmptyQueueStepIsOneTick : Obligations.AnEmptyQueueStepIsOneTick := by
  intro s empty
  have ticked : step s = .next s.clockTick := by rw [step, empty]
  have falls (i : Instr) : i ∈ s.clockTick.pending ↔ i ∈ s.advanceTick.eventsNow := by
    rw [State.clockTick, show s.advanceTick.pending = [] from empty]
    rfl
  refine ⟨s.clockTick, ticked, ?_, ?_⟩
  · have counted : (if s.pos.t < 255 then s.pos.t + 1 else 255) = min (s.pos.t + 1) 255 := by split <;> omega
    rw [counted]
    rfl
  · simp only [falls, mem_eventsNow_iff]
    exact ⟨fun _ => Iff.rfl, fun _ _ => Iff.rfl, fun _ _ => Iff.rfl, Iff.rfl, Iff.rfl, Iff.rfl, Iff.rfl, Iff.rfl,
      Iff.rfl, Iff.rfl⟩

end Sys2Proof.Machine

/-! ## What an index makes of the position, the speed monitor and the drive (O41) -/

namespace Sys2Proof.Machine

/-! ### The speed monitor (R94, R96) -/

section
variable {x : Positioner} {now i : Tick}

theorem outOfBand_iff {len : Int} {extra : Bool} :
    outOfBand len extra = true ↔ len < 196 ∨ 204 < len ∨ extra = true := by
  simp [outOfBand, or_assoc]

/-- The positioner after an index at tick `now`. -/
def Positioner.indexed (x : Positioner) (now : Tick) : Positioner := (x.measure now).atIndex

/-- The first index opens a revolution and closes none. -/
theorem indexed_first (h : x.lastIndex = none) :
    x.indexed now = { x with sc := 0, t := 0, valid := true, lastIndex := some now, extra := false } := by
  simp only [Positioner.indexed, Positioner.measure, Positioner.closes, h, Option.map_none]
  rfl

/-- An index closes the revolution that is open, and judges it by its length. -/
theorem indexed_closes (h : x.lastIndex = some i) : x.indexed now =
    { x.judgeRevolution (outOfBand (signedDiff now i) x.extra) with
        revLength := signedDiff now i, sc := 0, t := 0, valid := true, lastIndex := some now, extra := false } := by
  simp only [Positioner.indexed, Positioner.measure, Positioner.closes, h, Option.map_some]
  rfl

/-- What an index leaves of the positioner: all but the rotational position and the speed monitor. -/
theorem indexed_frame (x : Positioner) (now : Tick) : x.indexed now =
    { x with
        sc := 0, t := 0, valid := true, lastIndex := some now, extra := false,
        revLength := (x.indexed now).revLength, outRun := (x.indexed now).outRun, inRun := (x.indexed now).inRun,
        inBand := (x.indexed now).inBand } := by
  cases h : x.lastIndex with
  | none => rw [indexed_first h]
  | some i =>
    rw [indexed_closes h]
    unfold Positioner.judgeRevolution
    split <;> rfl

/-- The third revolution out of band in a row takes the verdict to OUT OF BAND. -/
theorem judgeRevolution_out (x : Positioner) : (x.judgeRevolution true).outRun = min (x.outRun + 1) 3
    ∧ (x.judgeRevolution true).inRun = 0
    ∧ ((x.judgeRevolution true).inBand = true ↔ x.inBand = true ∧ x.outRun < 2) := by
  refine ⟨rfl, rfl, ?_⟩
  show (if min (x.outRun + 1) 3 = 3 then false else x.inBand) = true ↔ _
  split
  · exact iff_of_false Bool.false_ne_true fun h => by omega
  · exact ⟨fun h => ⟨h, by omega⟩, And.left⟩

/-- The eighth revolution in band in a row takes it to IN BAND. -/
theorem judgeRevolution_in (x : Positioner) : (x.judgeRevolution false).outRun = 0
    ∧ (x.judgeRevolution false).inRun = min (x.inRun + 1) 8
    ∧ ((x.judgeRevolution false).inBand = true ↔ x.inBand = true ∨ 7 ≤ x.inRun) := by
  refine ⟨rfl, rfl, ?_⟩
  show (if min (x.inRun + 1) 8 = 8 then true else x.inBand) = true ↔ _
  split
  · exact iff_of_true rfl (.inr (by omega))
  · exact ⟨.inl, fun h => h.resolve_right (by omega)⟩

end

/-! ### The supervisor (R131, R134, R140) -/

section
variable {s u : State} {h : HeaderReading}

/-- The state at an index before its verdict is handed on: the revolution counted, the positioner measured. -/
def State.measured (s : State) : State :=
  { (if s.countsRevolution then s.countBoth .outOfBand else s) with pos := s.pos.indexed s.tick }

theorem measured_frame (s : State) :
    s.measured = { s with pos := s.pos.indexed s.tick, banks := s.measured.banks } := by
  unfold State.measured
  split <;> rfl

theorem measured_drive (s : State) : s.measured.drive = s.drive := by rw [measured_frame]

theorem countsRevolution_iff : s.countsRevolution = true ↔ s.drive.state.watched = true ∧ s.pos.extra = false
    ∧ ∃ i, s.pos.lastIndex = some i ∧ ((s.tick - i).toInt < 196 ∨ 204 < (s.tick - i).toInt) := by
  unfold State.countsRevolution Positioner.closes
  cases s.pos.lastIndex with
  | none => simp
  | some i => simp [outOfBand_iff, signedDiff, and_assoc]

theorem indexWatch_eq (s : State) : s.indexWatch =
    let y := if s.measured.pos.inBand = s.pos.inBand then s.measured else s.measured.verdictChanged
    if y.drive.state = .spinningDown then y.onDrive fun d => { d with runDown := some (tickAfter s.tick 400) }
    else y := by
  have measures : (if s.countsRevolution then s.countBoth .outOfBand else s).onPos (fun x => (x.measure s.tick).atIndex)
      = s.measured := by
    unfold State.measured
    split <;> rfl
  unfold State.indexWatch
  dsimp only
  rw [measures]

/-- A verdict that is nothing to the drive changes nothing. -/
theorem verdictChanged_idle (hs : s.drive.state.serving = false)
    (hu : s.drive.state ≠ .spinningUp ∨ s.pos.inBand = false) : s.verdictChanged = s := by
  unfold State.verdictChanged
  rw [if_neg fun ⟨up, band⟩ => hu.elim (· up) fun out => by simp [out] at band, setReasons_idle hs]
  exact if_pos rfl

/-- The state whose drive has its reasons weighed again (R134, R163). -/
theorem setReasons_eq {speed supply : Bool} (hs : s.drive.state = .ready ∨ s.drive.state = .degraded) :
    let v : State := { s with drive := { s.drive with
      speed := speed, supply := supply, state := if speed || supply then .degraded else .ready } }
    s.setReasons speed supply
      = if s.drive.state = .ready ∧ v.drive.state = .degraded then v.latch .driveDegraded else v := by
  intro v
  cases reason : speed || supply with
  | false =>
    rw [setReasons_ready ((serving_iff _).mpr hs) reason, if_neg (by simp [v, reason])]
    simp only [v, reason]
    rfl
  | true =>
    rcases hs with ready | degraded
    · rw [setReasons_degrades ready reason, if_pos ⟨ready, by simp [v, reason]⟩]
      simp only [v, reason]
      rfl
    · rw [setReasons_stays degraded reason, if_neg (by simp [degraded])]
      simp only [v, reason, ← degraded]
      rfl

/-- A verdict that changes in READY or DEGRADED is the speed reason, and the scheduler tests where the drive's state
changes (R69, R134). -/
theorem verdictChanged_weighs (hs : s.drive.state = .ready ∨ s.drive.state = .degraded) :
    let v : State := { s with drive := { s.drive with
      speed := !s.pos.inBand, state := if !s.pos.inBand || s.drive.supply then .degraded else .ready } }
    let x := if s.drive.state = .ready ∧ v.drive.state = .degraded then v.latch .driveDegraded else v
    s.verdictChanged = if v.drive.state = s.drive.state then x else x.schedule := by
  intro v x
  have up : ¬(s.drive.state = .spinningUp ∧ s.pos.inBand = true) := by rcases hs with e | e <;> simp [e]
  have weighed : s.setReasons (!s.pos.inBand) s.drive.supply = x := setReasons_eq hs
  have state : x.drive.state = v.drive.state := by
    simp only [x]
    split <;> rfl
  rw [State.verdictChanged, if_neg up, weighed, State.scheduleOnEntry, state]

theorem verdictChanged_serving (hs : s.drive.state = .ready ∨ s.drive.state = .degraded) :
    s.verdictChanged.drive.state ≠ .spinningDown := by
  have weighed := verdictChanged_weighs hs
  dsimp only at weighed
  rw [weighed]
  split_ifs <;> simp [schedule_drive]

theorem verdictChanged_calibrates (hs : s.drive.state = .spinningUp) (hb : s.pos.inBand = true) :
    s.verdictChanged = s.enterCalibrating := if_pos ⟨hs, hb⟩

/-! ### The index watch, by the drive's state -/

theorem indexWatch_spinningDown (hs : s.drive.state = .spinningDown) : s.indexWatch =
    { s.measured with drive := { s.drive with runDown := some (tickAfter s.tick 400) } } := by
  have idle : s.measured.verdictChanged = s.measured :=
    verdictChanged_idle (by rw [measured_drive, hs]; rfl) (.inl (by rw [measured_drive, hs]; simp))
  rw [indexWatch_eq, idle, ite_self]
  dsimp only
  rw [measured_drive, if_pos hs, State.onDrive, measured_drive]

theorem indexWatch_calibrates (hs : s.drive.state = .spinningUp) (hb : s.pos.inBand = false)
    (hr : (s.pos.indexed s.tick).inBand = true) : s.indexWatch =
      { s.measured with
        lines := { s.lines with onCylinder := false }
        drive := { s.drive with state := .calibrating, spinUp := none, attempts := 1 }
        pos := { s.pos.indexed s.tick with
          activity := .recalibrating, cyl := none, head := 0, recalStart := s.tick } }.countBoth .recalibrations := by
  have calibrates : s.measured.verdictChanged = s.measured.enterCalibrating :=
    verdictChanged_calibrates (by rw [measured_drive, hs]) hr
  have handed : (if s.measured.pos.inBand = s.pos.inBand then s.measured else s.measured.verdictChanged)
      = s.measured.enterCalibrating := by
    rw [← calibrates]
    exact if_neg fun e => absurd (hr.symm.trans (Eq.trans e hb)) (by decide)
  rw [indexWatch_eq, handed]
  dsimp only
  rw [if_neg (by exact DriveState.noConfusion), measured_frame]
  rfl

theorem indexWatch_weighs (hs : s.drive.state = .ready ∨ s.drive.state = .degraded)
    (hr : (s.pos.indexed s.tick).inBand ≠ s.pos.inBand) :
    let v : State := { s.measured with drive := { s.drive with
      speed := !(s.pos.indexed s.tick).inBand,
      state := if !(s.pos.indexed s.tick).inBand || s.drive.supply then .degraded else .ready } }
    let x := if s.drive.state = .ready ∧ v.drive.state = .degraded then v.latch .driveDegraded else v
    s.indexWatch = if v.drive.state = s.drive.state then x else x.schedule := by
  have hm : s.measured.drive.state = .ready ∨ s.measured.drive.state = .degraded := by rw [measured_drive]; exact hs
  have weighed := verdictChanged_weighs hm
  have handed : (if s.measured.pos.inBand = s.pos.inBand then s.measured else s.measured.verdictChanged)
      = s.measured.verdictChanged := if_neg hr
  have handed' : s.indexWatch = s.measured.verdictChanged := by
    rw [indexWatch_eq, handed]
    exact if_neg (verdictChanged_serving hm)
  rw [measured_drive] at weighed
  exact handed'.trans weighed

theorem indexWatch_same (hd : s.drive.state ≠ .spinningDown) (h : (s.pos.indexed s.tick).inBand = s.pos.inBand
    ∨ (s.drive.state.serving = false ∧ (s.drive.state ≠ .spinningUp ∨ (s.pos.indexed s.tick).inBand = false))) :
    s.indexWatch = s.measured := by
  have same : (if s.measured.pos.inBand = s.pos.inBand then s.measured else s.measured.verdictChanged) = s.measured := by
    rcases h with e | ⟨hs, hu⟩
    · exact if_pos e
    · rw [verdictChanged_idle (by rw [measured_drive]; exact hs) (by rw [measured_drive]; exact hu), ite_self]
  rw [indexWatch_eq, same]
  dsimp only
  rw [measured_drive, if_neg hd]

/-! ### An index that is no boundary and begins no sector -/

theorem testIndex_idle (h : s.inService = none ∨ s.pos.activity ≠ .confirmed
    ∨ (s.tick - s.pos.arrivalTick).toInt ≤ 0 ∨ ∀ g, s.progress = some g → g.stage.isTest = false) :
    s.testIndex = (s, .idle) := by
  unfold State.testIndex
  split
  · next p k sl g hi hg =>
    refine if_neg fun ⟨test, confirmed, arrived⟩ => ?_
    rcases h with none' | moved | fresh | other
    · rw [hi] at none'; cases none'
    · exact moved confirmed
    · exact absurd arrived (not_lt.mpr fresh)
    · rw [other g hg] at test; cases test
  · rfl

theorem sectorStart_idle {n : Nat} (hs : (s.inService = none ∧ s.drive.state ≠ .labelRead)
    ∨ (s.pos.activity ≠ .arrived ∧ s.pos.activity ≠ .confirmed) ∨ (s.tick - s.pos.arrivalTick).toInt ≤ 0
    ∨ s.pass ≠ none) : s.sectorStart n h = (s, .idle) := by
  unfold State.sectorStart
  by_cases may : s.mayTake = false
  · rw [if_pos may]
  · have may : s.mayTake = true := by simpa using may
    simp only [State.mayTake, Bool.and_eq_true, decide_eq_true_eq, Option.isNone_iff_eq_none] at may
    obtain ⟨⟨nothing, there⟩, arrived⟩ := may
    rcases hs with ⟨nobody, other⟩ | ⟨moved, moved'⟩ | fresh | busy
    · rw [nobody, if_neg other, ite_self]
    · exact (there.elim moved moved').elim
    · exact absurd arrived (not_lt.mpr fresh)
    · exact absurd nothing busy

/-- Such an index leaves what the index watch leaves. -/
theorem exec_indexPulse_quiet (hw : (s.indexWatch.inService = none ∧ s.indexWatch.drive.state ≠ .labelRead)
    ∨ (s.indexWatch.pos.activity ≠ .arrived ∧ s.indexWatch.pos.activity ≠ .confirmed)
    ∨ (s.indexWatch.tick - s.indexWatch.pos.arrivalTick).toInt ≤ 0
    ∨ (s.indexWatch.pass ≠ none ∧ ∀ g, s.indexWatch.progress = some g → g.stage.isTest = false)) :
    exec (.indexPulse h) s = .next s.indexWatch.judgeAlarm := by
  have untested : s.indexWatch.testIndex = (s.indexWatch, .idle) :=
    testIndex_idle (hw.imp And.left (.imp And.right (.imp id And.right)))
  have still : s.indexWatch.sectorStart 0 h = (s.indexWatch, .idle) :=
    sectorStart_idle (hw.imp_right (.imp_right (.imp_right And.left)))
  show Host.Outcome.next (State.close (State.sectorStart (State.settled s.indexWatch.testIndex) 0 h)) = _
  rw [untested]
  show Host.Outcome.next (State.close (s.indexWatch.sectorStart 0 h)) = _
  rw [still]
  rfl

/-- What an index makes of the rotational position and the speed monitor nothing after it in the step changes. -/
theorem indexPulse_turn (s : State) (h : HeaderReading) :
    (State.close ((State.settled s.indexWatch.testIndex).sectorStart 0 h)).pos.turn = (s.pos.indexed s.tick).turn := by
  obtain ⟨u, hu, -, watch⟩ := indexWatch_spec s
  have path : Path (u.onPos fun x => (x.measure s.tick).atIndex)
      (State.close ((State.settled s.indexWatch.testIndex).sectorStart 0 h)) :=
    watch.trans (Path.close (Path.sectorStart (Path.settled Path.refl.testIndex)))
  rw [path.still.turn, onPos_pos, hu]
  rfl

end

/-! ### The boundary of a TEST TRACK at an index (R84, R142, R151) -/

section
variable {s v w y : State} {p : Port} {k : Fin 8} {sl : Slot} {g : Progress} {h : HeaderReading} {st : Stage}
  {hd window : Nat} {seed : Word} {first done : Bool} {revs m mism failing : Nat}

/-- The record of a TEST TRACK once the revolution is closed that was under way in the stage `st`. -/
def Slot.testClosed (sl : Slot) (st : Stage) (done : Bool) (revs m mism failing : Nat) : Slot :=
  { sl with maint := .test (done || decide (st = .testWriting)) (if st = .testReading then revs + 1 else revs) m mism failing }

theorem closeRevolution_eq (hm : sl.maint = .test done revs m mism failing) (hst : st.isTest = true) :
    sl.closeRevolution st = sl.testClosed st done revs m mism failing := by
  unfold Slot.closeRevolution Slot.testClosed
  rw [hm]
  cases st <;> simp [Stage.isTest, ← hm] at hst ⊢

theorem revolutionsLeft_eq_zero (hp : sl.params = .test hd seed window first)
    (hm : sl.maint = .test done revs m mism failing) : sl.revolutionsLeft = 0 ↔ done = true ∧ window ≤ revs := by
  unfold Slot.revolutionsLeft
  rw [hp, hm]
  cases done <;> simp [Nat.sub_eq_zero_iff_le]

theorem nextRevolution_eq (hm : sl.maint = .test done revs m mism failing) :
    sl.nextRevolution = if done then .testReading else .testWriting := by
  unfold Slot.nextRevolution
  rw [hm]
  cases done <;> rfl

/-- The reply body of a TEST TRACK that showed all its revolutions. -/
theorem testBody_whole (hp : sl.params = .test hd seed window first) (hm : sl.maint = .test done revs m mism failing) :
    sl.testBody [] = [if first then 1 else 0, if seed = 0 then 1 else seed, BitVec.ofNat 16 window, BitVec.ofNat 16 revs,
      BitVec.ofNat 16 m, BitVec.ofNat 16 mism, BitVec.ofNat 16 failing] := by
  unfold Slot.testBody
  rw [hp, hm]
  cases first <;> rfl

theorem testBoundary_eq (hs : v.slot p k = some sl) (hm : sl.maint = .test done revs m mism failing)
    (hst : st.isTest = true) :
    let sl' := sl.testClosed st done revs m mism failing
    let x := v.modSlot p k fun _ => sl'
    v.testBoundary p k st = x.maintThen p k 0
      (if sl'.revolutionsLeft = 0 then some { ending := .done, body := some (sl'.testBody []) } else none)
      (x.toStage sl'.nextRevolution, .idle) := by
  unfold State.testBoundary
  rw [hs]
  dsimp only
  rw [closeRevolution_eq hm hst]

theorem testIndex_eq (hi : s.inService = some (p, k, sl)) (hg : s.progress = some g) (hst : g.stage.isTest = true)
    (ha : s.pos.activity = .confirmed) (hk : 0 < (s.tick - s.pos.arrivalTick).toInt) :
    s.testIndex = (s.completeTestWrite p k).testBoundary p k g.stage := by
  unfold State.testIndex
  rw [hi, hg]
  exact if_pos ⟨hst, ha, hk⟩

/-- A boundary leaves the actuator or begins a positioning at its own tick, or lets the order go on. -/
theorem maintThen_leaves_or_goes (hs : s.slot p k = some sl) (hi : sl.state = .inService) (pos : Nat)
    (r : Option Result) : (∃ z, FreshFor z ∧ ∀ go, s.maintThen p k pos r go = z) ∨ ∀ go, s.maintThen p k pos r go = go := by
  have idle : FreshFor (s.onPos fun a => { a with activity := .idle }, .idle) := (Fresh.of_idle rfl).with (by simp)
  have fresh := maintThen_fresh (pos := pos) (r := r) hs hi idle
  unfold State.maintThen at fresh ⊢
  cases hb : s.maintBoundary p k r with
  | some z =>
    rw [hb] at fresh
    exact .inl ⟨z, fresh, fun _ => rfl⟩
  | none =>
    rw [hb] at fresh
    cases hc : s.checkSuspension p k pos with
    | some z =>
      rw [hc] at fresh
      exact .inl ⟨z, fresh, fun _ => rfl⟩
    | none => exact .inr fun _ => rfl

/-- At the index of a boundary a sector begins only where the order goes on (R95). -/
theorem maintThen_sectorStart (hs : s.slot p k = some sl) (hi : sl.state = .inService) (pos n : Nat)
    (r : Option Result) : State.close ((State.settled (s.maintThen p k pos r (y, .idle))).sectorStart n h)
      = State.close (s.maintThen p k pos r (y.sectorStart n h)) := by
  rcases maintThen_leaves_or_goes hs hi pos r with ⟨z, fresh, leaves⟩ | goes
  · have still : (State.settled z).sectorStart n h = (State.settled z, .idle) :=
      Fresh.sectorStart (settle_fresh settleLimit fresh) n h
    rw [leaves, leaves, still]
    rfl
  · rw [goes, goes]
    rfl

/-- The state `v` with `n` sectors done and `m` write failures, in which a write revolution's pass that the index finds
under way is complete (assumption 36). -/
theorem completeTestWrite_eq {n fails : Nat} (hs : w.slot p k = some sl) (hm : sl.maint = .test done revs fails mism failing)
    (no : (∀ q, ¬(w.pass = some q ∧ q.kind = .testWrite)) → v = w ∧ n = sl.sectorsDone ∧ m = fails)
    (bad : ∀ q, w.pass = some q ∧ q.kind = .testWrite → q.verdict ≠ .matching →
      v = { w with pass := none } ∧ n = sl.sectorsDone ∧ m = fails + 1)
    (good : ∀ q, w.pass = some q ∧ q.kind = .testWrite → q.verdict = .matching →
      n = sl.sectorsDone + 1 ∧ m = fails ∧ v = { w with
        pass := none
        disk := Cartridge.put w.disk q.addr.linear { Cartridge.get w.disk q.addr.linear with
          data := q.words, dCheck := crc q.words } }) :
    w.completeTestWrite p k
      = v.modSlot p k fun _ => { sl with sectorsDone := n, maint := .test done revs m mism failing } := by
  unfold State.completeTestWrite
  by_cases hw : ∃ q, w.pass = some q ∧ q.kind = .testWrite
  · obtain ⟨q, pass, kind⟩ := hw
    rw [pass]
    dsimp only
    rw [if_pos kind]
    have slot : ({ w with pass := none } : State).slot p k = some sl := hs
    by_cases hv : q.verdict = .matching
    · obtain ⟨rfl, rfl, rfl⟩ := good q ⟨pass, kind⟩ hv
      rw [endTestWrite_matching slot hv, ← hm]
      rfl
    · obtain ⟨rfl, rfl, rfl⟩ := bad q ⟨pass, kind⟩ hv
      rw [endTestWrite_fails slot hm hv]
  · obtain ⟨rfl, rfl, rfl⟩ := no fun q writing => hw ⟨q, writing⟩
    have same : { sl with sectorsDone := sl.sectorsDone, maint := .test done revs m mism failing } = sl := by rw [← hm]
    rw [same, modSlot_self hs]
    cases pass : v.pass with
    | none => rfl
    | some q => exact if_neg fun kind => hw ⟨q, pass, kind⟩

/-- The next revolution of a TEST TRACK begins with sector 0, unless a read is still under way. -/
theorem sectorStart_revolution {o : Host.Outcome State Fault Refusal} {written : Bool} (hs : y.serviceLaw)
    (hi : y.inService = some (p, k, sl)) (hp : sl.params = .test hd seed window first)
    (hg : y.progress = some g) (hst : g.stage = if written then .testReading else .testWriting)
    (hd : y.drive.state ≠ .labelRead) (ha : y.pos.activity = .confirmed)
    (hk : 0 < (y.tick - y.pos.arrivalTick).toInt) (ho : o = State.answers (y.sectorStart 0 h)) :
    let a : Addr := { sl.startAddr with sector := 0 }
    let begins (q : PassKind) (ws : List Word) : Prop :=
      o = .next { y with pass := some ⟨q, a, h.verdict y.disk a, ws⟩ }.judgeAlarm
    (y.pass ≠ none → o = .next y.judgeAlarm)
      ∧ (y.pass = none → written = true → begins .testRead [])
      ∧ (y.pass = none → written = false → y.lines.supply = true → begins .testWrite (patternSector seed 0))
      ∧ (y.pass = none → written = false → y.lines.supply = false → y.ends p k sl .writeInhibited (some a) o) := by
  intro a begins
  have turns (free : y.pass = none) : o = State.answers (y.startTest p k sl 0 (!written) h) := by
    rw [ho, sectorStart_spec hi hg ⟨free, .inr ha, hk⟩ hd]
    cases written with
    | true => rw [startInService_testReading (hst := hst)]; rfl
    | false => rw [startInService_testWriting (hst := hst)]; rfl
  refine ⟨fun busy => ?_, fun free read => ?_, fun free write lit => ?_, fun free write dark => ?_⟩
  · rw [ho, sectorStart_idle (.inr (.inr (.inr busy)))]
    rfl
  · exact (startTest_spec hs hi hp (turns free)).1 (by simp [read])
  · exact (startTest_spec hs hi hp (turns free)).2.1 (by simp [write]) lit
  · exact (startTest_spec hs hi hp (turns free)).2.2 (by simp [write]) dark

end

/-! ### The statement's parts -/

section
variable {s t : State} {p : Port} {k : Fin 8} {sl : Slot} {h : HeaderReading}

theorem indexed_activity (x : Positioner) (now : Tick) : (x.indexed now).activity = x.activity
    ∧ (x.indexed now).arrivalTick = x.arrivalTick := measure_atIndex x now

/-- In READY and DEGRADED an index leaves an order in service all but the position, the drive's reasons, the alarms and
the counts. -/
theorem indexWatch_serves (hi : s.inService = some (p, k, sl))
    (hs : s.drive.state = .ready ∨ s.drive.state = .degraded) : s.indexWatch = { s with
      pos := s.pos.indexed s.tick, drive := s.indexWatch.drive, alarms := s.indexWatch.alarms,
      banks := s.indexWatch.banks } ∧ s.indexWatch.drive.state ≠ .labelRead := by
  obtain ⟨watch, reading⟩ := indexWatch_busy (s := s) (by rw [hi]; simp) (by rcases hs with e | e <;> simp [e])
  exact ⟨watch, mt reading.mp (by rcases hs with e | e <;> simp [e])⟩

theorem measured_inService (s : State) : s.measured.inService = s.inService :=
  inService_of_queues (by rw [measured_frame])

theorem counted_iff : s.countsRevolution = true ↔ ((s.drive.state = .ready ∨ s.drive.state = .degraded)
    ∨ s.drive.state = .calibrating ∨ s.drive.state = .labelRead) ∧ s.pos.extra = false
      ∧ ∃ i, s.pos.lastIndex = some i ∧ ((s.tick - i).toInt < 196 ∨ 204 < (s.tick - i).toInt) := by
  rw [countsRevolution_iff, watched_iff]
  refine and_congr_left' ⟨?_, ?_⟩ <;> tauto

/-- The first calibration attempt begins at the index, whose sector is not taken (R140). -/
theorem exec_indexPulse_calibrates (hs : s.drive.state = .spinningUp) (hb : s.pos.inBand = false)
    (hr : (s.pos.indexed s.tick).inBand = true) (ht : exec (.indexPulse h) s = .next t) :
    t.drive.state = .calibrating ∧ t.drive.attempts = 1 ∧ t.drive.spinUp = none ∧ t.pos.activity = .recalibrating
      ∧ t.pos.recalStart = s.tick ∧ t.pos.cyl = none := by
  have watch := indexWatch_calibrates hs hb hr
  have quiet := exec_indexPulse_quiet (h := h) (.inr (.inl (by rw [watch]; exact ⟨nofun, nofun⟩)))
  obtain rfl : t = s.indexWatch.judgeAlarm := Host.Outcome.next.inj (ht.symm.trans quiet)
  rw [watch]
  exact ⟨rfl, rfl, rfl, rfl, rfl, rfl⟩

/-- The run-down watch is restarted, and no order is there to take a sector (R131). -/
theorem exec_indexPulse_runDown (hs : s.drive.state = .spinningDown) (hi : s.inService = none)
    (ht : exec (.indexPulse h) s = .next t) : t.drive.runDown = some (tickAfter s.tick 400) := by
  have watch := indexWatch_spinningDown hs
  have nobody : s.indexWatch.inService = none := by
    rw [watch]; exact (inService_of_queues rfl).trans ((measured_inService s).trans hi)
  have quiet := exec_indexPulse_quiet (h := h) (.inl ⟨nobody, by rw [watch]; simp [hs]⟩)
  obtain rfl : t = s.indexWatch.judgeAlarm := Host.Outcome.next.inj (ht.symm.trans quiet)
  rw [watch]
  rfl

end

/-! ### The boundary in a step -/

section
variable {s v w : State} {p : Port} {k : Fin 8} {sl y : Slot} {g : Progress} {h : HeaderReading}
  {hd window n : Nat} {seed : Word} {first done : Bool} {revs fails m mism failing : Nat}

/-- A write that the index finds under way leaves at most its sector, and a read stays under way (assumption 36). -/
theorem completed_frame (hpass : ∀ q, w.pass = some q → q.kind = .testWrite ∨ q.kind = .testRead)
    (no : (∀ q, ¬(w.pass = some q ∧ q.kind = .testWrite)) → v = w)
    (bad : ∀ q, w.pass = some q ∧ q.kind = .testWrite → q.verdict ≠ .matching → v = { w with pass := none })
    (good : ∀ q, w.pass = some q ∧ q.kind = .testWrite → q.verdict = .matching →
      v = { w with pass := none, disk := v.disk }) :
    v = { w with pass := v.pass, disk := v.disk } ∧ ∀ q, v.pass = some q → q.kind = .testRead := by
  by_cases hw : ∃ q, w.pass = some q ∧ q.kind = .testWrite
  · obtain ⟨q, writing⟩ := hw
    have frame : v = { w with pass := none, disk := v.disk } := by
      by_cases hv : q.verdict = .matching
      · exact good q writing hv
      · rw [bad q writing hv]
    have ended : v.pass = none := by rw [frame]
    exact ⟨by rw [ended]; exact frame, fun q' e => by rw [ended] at e; cases e⟩
  · have same := no fun q writing => hw ⟨q, writing⟩
    rw [same]
    exact ⟨rfl, fun q e => (hpass q e).resolve_left fun kind => hw ⟨q, e, kind⟩⟩

theorem labelOpen_of_test (hg : s.progress = some g) (hst : g.stage.isTest = true)
    (hp : ∀ q, s.pass = some q → q.kind = .testRead) : s.labelOpen = false := by
  unfold State.labelOpen
  rw [hg]
  have stage : g.stage ≠ .readBack := by intro e; rw [e] at hst; cases hst
  cases pass : s.pass with
  | none => simpa using stage
  | some q => simp [stage, hp q pass]

/-- The step of an index at the boundary of a TEST TRACK, whose record is `y` once a write under way is complete. -/
theorem exec_indexPulse_boundary (hw : s.indexWatch = w) (hi : w.inService = some (p, k, sl)) (hg : w.progress = some g)
    (hst : g.stage.isTest = true) (ha : w.pos.activity = .confirmed) (hk : 0 < (w.tick - w.pos.arrivalTick).toInt)
    (hq : v.queues = w.queues) (hv : w.completeTestWrite p k = v.modSlot p k fun _ => y) (hy : y.state = sl.state)
    (hm : y.maint = .test done revs m mism failing) :
    let sl' := y.testClosed g.stage done revs m mism failing
    let x := v.modSlot p k fun _ => sl'
    exec (.indexPulse h) s = State.answers (x.maintThen p k 0
      (if sl'.revolutionsLeft = 0 then some { ending := .done, body := some (sl'.testBody []) } else none)
      ((x.toStage sl'.nextRevolution).sectorStart 0 h)) := by
  intro sl' x
  obtain ⟨slot, service⟩ := inService_some hi
  have slot' : v.slot p k = some sl := (slot_of_queues w v hq p k).trans slot
  have boundary := testBoundary_eq (v := v.modSlot p k fun _ => y) (sl := y)
    (by rw [slot_modSlot_same, slot']; rfl) hm hst
  dsimp only at boundary
  rw [modSlot_twice, ← hv, ← testIndex_eq hi hg hst ha hk] at boundary
  have start := maintThen_sectorStart (s := x) (y := x.toStage sl'.nextRevolution) (h := h) (sl := sl')
    (by rw [slot_modSlot_same, slot']; rfl) (hy.trans service) 0 0
    (if sl'.revolutionsLeft = 0 then some { ending := .done, body := some (sl'.testBody []) } else none)
  rw [← boundary] at start
  show Host.Outcome.next (State.close (State.sectorStart (State.settled s.indexWatch.testIndex) 0 h)) = _
  rw [hw]
  exact congrArg _ start

/-- What a TEST TRACK does at its boundary: it stops, ends, is set aside or begins its next revolution. -/
theorem testBoundary_spec {written : Bool} {read : Nat} {o : Host.Outcome State Fault Refusal} {sl' : Slot}
    (hs : s.serviceLaw) (hi : s.inService = some (p, k, sl))
    (hq : v.queues = s.queues) (hg : v.progress = some g) (hst : g.stage.isTest = true)
    (hpass : ∀ q, v.pass = some q → q.kind = .testRead) (hd' : v.drive.state ≠ .labelRead)
    (ha : v.pos.activity = .confirmed) (hk : 0 < (v.tick - v.pos.arrivalTick).toInt)
    (hkind : sl'.kind = .testTrack) (hp : sl'.params = .test hd seed window first)
    (hm : sl'.maint = .test written read m mism failing) (hy : sl'.state = sl.state)
    (ho : o = State.answers ((v.modSlot p k fun _ => sl').maintThen p k 0
      (if sl'.revolutionsLeft = 0 then some { ending := .done, body := some (sl'.testBody []) } else none)
      (((v.modSlot p k fun _ => sl').toStage sl'.nextRevolution).sectorStart 0 h))) :
    let x : State := v.modSlot p k fun _ => sl'
    x.stops p k sl' o
    ∧ (sl'.withdrawn = false → (v.ports.get p).presence ≠ .lost →
      (written = true → window ≤ read → x.ends p k { sl' with
        body := [if first then 1 else 0, if seed = 0 then 1 else seed, BitVec.ofNat 16 window, BitVec.ofNat 16 read,
                 BitVec.ofNat 16 m, BitVec.ofNat 16 mism, BitVec.ofNat 16 failing] } .done none o)
      ∧ (written = false ∨ read < window → State.mayYield settleLimit x p k sl' 0 o
        (let y : State := { x with
           progress := some { g with stage := if written then .testReading else .testWriting, failed := 0 } }
         let a : Addr := { sl'.startAddr with sector := 0 }
         let begins (q : PassKind) (ws : List Word) : Prop :=
           o = .next { y with pass := some ⟨q, a, h.verdict v.disk a, ws⟩ }.judgeAlarm
         (v.pass ≠ none → o = .next y.judgeAlarm)
         ∧ (v.pass = none → written = true → begins .testRead [])
         ∧ (v.pass = none → written = false → v.lines.supply = true → begins .testWrite (patternSector seed 0))
         ∧ (v.pass = none → written = false → v.lines.supply = false →
             y.ends p k sl' .writeInhibited (some a) o)))) := by
  intro x
  have queues : x.queues = (s.modSlot p k fun _ => sl').queues := by
    unfold x State.modSlot State.onQueue
    rw [hq]
  have closed : x.labelOpen = false := labelOpen_of_test (s := x) hg hst hpass
  by_cases left : sl'.revolutionsLeft = 0
  · rw [if_pos left] at ho
    obtain ⟨stops, ends⟩ := maintThen_result_changed hs hi queues hy closed ho (by rw [hkind]; simp) (by simp)
    obtain ⟨wrote, shown⟩ := (revolutionsLeft_eq_zero hp hm).mp left
    refine ⟨stops, fun hw hl => ⟨fun _ _ => ?_, fun more => ?_⟩⟩
    · rw [← testBody_whole hp hm]
      exact ends hw hl
    · rcases more with e | e
      · rw [wrote] at e; cases e
      · omega
  · rw [if_neg left, nextRevolution_eq hm, toStage_eq (s := x) hg] at ho
    have unbarred : ¬(sl'.kind = .formatTrack ∧ sl'.startAddr.cyl ≤ 383
        ∧ x.map.active.rightOn p sl'.startAddr.cyl ≠ .write) := fun barred => by rw [hkind] at barred; cases barred.1
    obtain ⟨law, service⟩ := modSlot_service (u := v) (f := fun _ => sl') hs hi hq (hy.trans (inService_some hi).2)
    obtain ⟨stops, goes⟩ := maintThen_changed hs hi queues hy closed ho
      (sectorStart_revolution (serviceLaw_of_queues law rfl) ((inService_of_queues rfl).trans service) hp rfl rfl hd' ha hk)
    refine ⟨stops, fun hw hl => ⟨fun wrote shown => absurd ((revolutionsLeft_eq_zero hp hm).mpr ⟨wrote, shown⟩) left,
      fun _ => (goes hw hl).2 unbarred⟩⟩

end

/-! ### The obligation -/

/-- What an index makes of the length it measures and of the speed monitor (R94, R96). -/
theorem indexed_judged (x : Positioner) (now i : Tick) (hi : x.lastIndex = some i) :
    let len : Int := (now - i).toInt
    let out : Prop := len < 196 ∨ 204 < len ∨ x.extra = true
    (x.indexed now).revLength = len
    ∧ (out → (x.indexed now).outRun = min (x.outRun + 1) 3 ∧ (x.indexed now).inRun = 0
        ∧ ((x.indexed now).inBand = true ↔ x.inBand = true ∧ x.outRun < 2))
    ∧ (¬out → (x.indexed now).outRun = 0 ∧ (x.indexed now).inRun = min (x.inRun + 1) 8
        ∧ ((x.indexed now).inBand = true ↔ x.inBand = true ∨ 7 ≤ x.inRun)) := by
  intro len out
  have judged : outOfBand (signedDiff now i) x.extra = true ↔ out := outOfBand_iff
  rw [indexed_closes hi]
  refine ⟨rfl, fun bad => ?_, fun fine => ?_⟩
  · rw [judged.mpr bad]
    exact judgeRevolution_out x
  · rw [Bool.eq_false_iff.mpr (mt judged.mp fine)]
    exact judgeRevolution_in x

/-- Settles O41, by the index watch in each drive state, then by the boundary of a TEST TRACK and the sector start where
the order goes on there. -/
theorem anIndexClosesARevolution : Obligations.AnIndexClosesARevolution := by
  unfold Obligations.AnIndexClosesARevolution
  intro s h
  have step : exec (.indexPulse h) s
      = .next (State.close ((State.settled s.indexWatch.testIndex).sectorStart 0 h)) := rfl
  have turn := indexPulse_turn s h
  have frame := indexed_frame s.pos s.tick
  generalize State.close ((State.settled s.indexWatch.testIndex).sectorStart 0 h) = t at step turn
  generalize hr : s.pos.indexed s.tick = r at turn frame
  have measured : s.measured = { (if s.countsRevolution then s.countBoth .outOfBand else s) with pos := r } := by
    rw [← hr]; rfl
  simp only [Positioner.turn, Prod.mk.injEq] at turn
  obtain ⟨sc, count, valid, lastIndex, revLength, outRun, inRun, inBand, extra⟩ := turn
  refine ⟨t, s.measured, s.indexWatch, r, step, by rw [sc, frame], by rw [count, frame], by rw [valid, frame],
    by rw [lastIndex, frame], by rw [extra, frame], revLength, outRun, inRun, inBand, frame, fun none' => ?_,
    fun i hi => ?_, fun up out band => ?_, fun down nobody => exec_indexPulse_runDown down nobody step, ?_, rfl,
    fun quiet => ?_, ?_⟩
  · rw [← hr, indexed_first none']
    exact ⟨rfl, rfl, rfl, rfl⟩
  · rw [← hr]
    exact indexed_judged s.pos s.tick i hi
  · exact exec_indexPulse_calibrates up out (by rw [hr, ← inBand]; exact band) step
  · refine ⟨fun counted => ?_, fun uncounted => ?_, indexWatch_spinningDown, fun up out band => ?_, fun serving other => ?_,
      fun up same => ?_⟩
    · rw [measured, if_pos (counted_iff.mpr counted)]
    · rw [measured, if_neg (mt counted_iff.mp uncounted)]
    · subst hr
      exact indexWatch_calibrates up out band
    · subst hr
      exact indexWatch_weighs serving other
    · subst hr
      exact indexWatch_same up (same.imp id fun ⟨idle, rest⟩ =>
        ⟨Bool.eq_false_iff.mpr (mt (serving_iff _).mp idle), rest⟩)
  · exact Host.Outcome.next.inj (step.symm.trans (exec_indexPulse_quiet quiet))
  · intro p k sl g hd seed window first done revs fails mism failing hs hi hg serving ha hk hst hkind hp hm hpass writing v n
      m no bad good written read sl' x o
    have stage : g.stage.isTest = true := by rcases hst with e | e | e <;> rw [e] <;> rfl
    obtain ⟨watch, notReading⟩ := indexWatch_serves hi serving
    obtain ⟨activity, arrival⟩ := indexed_activity s.pos s.tick
    generalize hw : s.indexWatch = w at *
    have pos : w.pos = s.pos.indexed s.tick := by rw [watch]
    have tick : w.tick = s.tick := by rw [watch]
    have pass : w.pass = s.pass := by rw [watch]
    have disk : w.disk = s.disk := by rw [watch]
    have queues : w.queues = s.queues := by rw [watch]
    have progress : w.progress = some g := by rw [watch]; exact hg
    have ports : w.ports = s.ports := by rw [watch]
    have lines : w.lines = s.lines := by rw [watch]
    have service : w.inService = some (p, k, sl) := (inService_of_queues queues).trans hi
    simp only [writing, ← pass, ← disk] at no bad good hpass
    have completes := completeTestWrite_eq (inService_some service).1 hm no bad good
    obtain ⟨left, readOnly⟩ := completed_frame hpass (fun none' => (no none').1) (fun q w' hv => (bad q w' hv).1)
      (fun q w' hv => by obtain ⟨-, -, e⟩ := good q w' hv; rw [e])
    have sameQueues : v.queues = w.queues := by rw [left]
    have confirmed : w.pos.activity = .confirmed := by rw [pos, activity]; exact ha
    have arrived : 0 < (w.tick - w.pos.arrivalTick).toInt := by rw [pos, arrival, tick]; exact hk
    have answered := exec_indexPulse_boundary (h := h) hw service progress stage confirmed arrived sameQueues completes rfl rfl
    have spec := testBoundary_spec (v := v) (sl' := sl') (h := h) (o := o) hs hi (sameQueues.trans queues)
      (by rw [left]; exact progress) stage readOnly (by rw [left]; exact notReading) (by rw [left]; exact confirmed)
      (by rw [left]; exact arrived) hkind hp rfl rfl answered
    have samePorts : v.ports = s.ports := by rw [left]; exact ports
    have sameLines : v.lines = s.lines := by rw [left]; exact lines
    rw [samePorts, sameLines] at spec
    exact spec

end Sys2Proof.Machine

/-! ## A sector pulse (O42) -/

namespace Sys2Proof.Machine

section
variable {s : State} {h : HeaderReading}

theorem exec_sectorPulse_ignored (hv : s.pos.valid = false) : exec (.sectorPulse h) s = .next s :=
  congrArg _ (if_pos hv)

theorem exec_sectorPulse_extra (hv : s.pos.valid = true) (hsc : 19 ≤ s.pos.sc) :
    exec (.sectorPulse h) s = .next s.extraPulse :=
  congrArg _ ((if_neg (by simp [hv])).trans (if_neg (by omega)))

/-- The state once a pulse below sector 19 is counted (R94). -/
def State.sectorCounted (s : State) : State := { s with pos := { s.pos with sc := s.pos.sc + 1, t := 0 } }

theorem exec_sectorPulse_counts (hv : s.pos.valid = true) (hsc : s.pos.sc < 19) :
    exec (.sectorPulse h) s = State.answers (s.sectorCounted.sectorStart (s.pos.sc + 1) h) :=
  congrArg _ ((if_neg (by simp [hv])).trans (if_pos hsc))

/-- The sector that begins leaves the rotational position as the pulse counted it. -/
theorem sectorPulse_turn (s : State) (n : Nat) (h : HeaderReading) :
    (State.close (s.sectorCounted.sectorStart n h)).pos.turn = s.sectorCounted.pos.turn :=
  (Path.close (Path.sectorStart Path.refl)).still.turn

end

/-- Settles O42, by the three cases of a sector pulse: before the position is valid, at sector 19, and below it. -/
theorem aSectorPulseCounts : Obligations.ASectorPulseCounts := by
  intro s h
  refine ⟨exec_sectorPulse_ignored, fun hv last => ?_, fun hv below => ⟨?_, fun nothing => ?_⟩⟩
  · rw [exec_sectorPulse_extra hv last, State.extraPulse]
    simp only [watched_iff]
    rfl
  · have turn := sectorPulse_turn s (s.pos.sc + 1) h
    simp only [Positioner.turn, Prod.mk.injEq] at turn
    obtain ⟨sc, count, -⟩ := turn
    exact ⟨_, exec_sectorPulse_counts hv below, sc, count⟩
  · have still : s.sectorCounted.sectorStart (s.pos.sc + 1) h = (s.sectorCounted, .idle) := by
      refine sectorStart_idle ?_
      rcases nothing with busy | moved | fresh | nobody
      · exact .inr (.inr (.inr busy))
      · exact .inr (.inl moved)
      · exact .inr (.inr (.inl fresh))
      · exact .inl nobody
    rw [exec_sectorPulse_counts hv below, still]
    rfl

end Sys2Proof.Machine

/-! ## Recalibrations (O51) -/

namespace Sys2Proof.Machine

section
variable {s : State} {x : Addr}

/-- Outside READY and DEGRADED a test for a selection selects nothing (R69). -/
theorem schedule_unserved (h : s.drive.state.serving = false) : s.schedule = s := by
  have none' : s.select = (s, .idle) :=
    select_not fun ⟨⟨_, serving, _⟩, _⟩ => by rw [(serving_iff _).mpr serving] at h; cases h
  show settle 63 s.select = s
  rw [none']
  rfl

/-! ### The rise of on-cylinder (R102, R103, R132, R133) -/

/-- The rise that completes the recalibration in hand. -/
def State.awaitsZero (s : State) : Prop :=
  s.pos.activity = .recalibrating ∧ s.lines.onCylinder = false ∧ s.pos.limitTaken = false

/-- The heads stand at cylinder 0. -/
def State.atZero (s : State) : State :=
  { s with lines := { s.lines with onCylinder := true }, pos := { s.pos with cyl := some 0, head := 0 } }

theorem exec_recalibrationComplete_idle (h : ¬s.awaitsZero) : exec .recalibrationComplete s = .next s :=
  congrArg _ (if_neg h)

theorem exec_recalibrationComplete_completes (h : s.awaitsZero) : exec .recalibrationComplete s
    = .next (if s.drive.state = .calibrating then s.atZero.enterLabelRead else s.atZero.reseek).schedule.judgeAlarm :=
  congrArg _ (if_pos h)

/-- From cylinder 0 the label track is 386 cylinders away, a seek of 490 ticks. -/
theorem atZero_enterLabelRead (s : State) : s.atZero.enterLabelRead = { s with
    lines := { s.lines with onCylinder := false }
    label := ⟨.none, Vector.replicate 4 0x2020, 0, 0, [], []⟩
    drive := { s.drive with state := .labelRead, labelFails := 0 }
    pos := { s.pos with
      activity := .seeking, cyl := some 0, head := 0, target := some ⟨386, 0, 0⟩, errors := 0,
      seekStart := s.tick, seekTime := 490 } }.countBoth .seeks := by
  have away : seekTicks (labelAddr.cyl - 0 + (0 - labelAddr.cyl)) = 490 := by simp [seekTicks, labelAddr]
  rw [State.enterLabelRead, requestPositioning_eq, State.positioned, ← away]
  exact if_neg (by simp [State.atZero, State.setLabel, State.onDrive, labelAddr])

theorem atZero_reseek (h : s.pos.target = some x) : s.atZero.reseek = { s with
    lines := { s.lines with onCylinder := false }
    pos := { s.pos with
      activity := .seeking, cyl := some 0, head := x.head, seekStart := s.tick,
      seekTime := seekTicks x.cyl } }.countBoth .seeks := by
  have issued : s.atZero.reseek = s.atZero.issueSeek x := by
    unfold State.reseek
    rw [show s.atZero.pos.target = some x from h]
  have away : distance x.cyl 0 = x.cyl := by simp [distance]
  rw [issued]
  simp only [State.issueSeek, State.atZero, State.onPos, Option.getD_some, away, h]

/-! ### The limit (R102, R103, R132) -/

/-- The recalibration in hand has come to its limit. -/
def State.recalibrationOver (s : State) : Prop :=
  s.pos.activity = .recalibrating ∧ (tickAfter s.pos.recalStart 1000 - s.tick).toInt ≤ 0

theorem recalibrationOver_iff : s.recalibrationOver
    ↔ s.pos.activity = .recalibrating ∧ reached (tickAfter s.pos.recalStart 1000) s.tick = true :=
  and_congr_right fun _ => decide_eq_true_iff.symm

theorem exec_recalibrationLimit_early (h : ¬s.recalibrationOver) : exec .recalibrationLimit s = .next s :=
  congrArg _ (if_neg (mt recalibrationOver_iff.mpr h))

theorem exec_recalibrationLimit_fails (h : s.recalibrationOver) :
    exec .recalibrationLimit s = .next s.recalibrationFailed.judgeAlarm :=
  congrArg _ (if_pos (recalibrationOver_iff.mp h))

/-- The limit is taken at this tick (assumption 37). -/
def State.limitReached (s : State) : State := { s with pos := { s.pos with limitTaken := true } }

/-- The recalibration begun in the place of one that failed. -/
theorem recalibrate_again (h : s.pos.activity = .recalibrating) : s.recalibrate = { s with
    lines := { s.lines with onCylinder := false }
    pos := { s.pos with cyl := none, head := 0, recalStart := s.tick } }.countBoth .recalibrations := by
  rw [State.recalibrate, ← h]
  rfl

/-- In CALIBRATING the first two failures are attempts, the third faults the drive. -/
theorem recalibrationFailed_attempt (hc : s.drive.state = .calibrating) (h : s.drive.attempts < 3) :
    s.recalibrationFailed =
      { s.limitReached with drive := { s.drive with attempts := s.drive.attempts + 1 } }.recalibrate :=
  (if_pos hc).trans (if_pos h)

theorem recalibrationFailed_faults (hc : s.drive.state = .calibrating) (h : 3 ≤ s.drive.attempts) :
    s.recalibrationFailed = s.limitReached.enterFaulted .calibration :=
  (if_pos hc).trans (if_neg (by omega))

/-- Elsewhere a failure is a seek error of the positioning. -/
theorem recalibrationFailed_seekError (hc : s.drive.state ≠ .calibrating) :
    s.recalibrationFailed = s.limitReached.seekError := if_neg hc

end

/-- Settles O51: a rise completes the recalibration in hand or nothing, and a limit that is due is a failed attempt in
CALIBRATING and a seek error elsewhere. -/
theorem recalibrationsCompleteOrFail : Obligations.RecalibrationsCompleteOrFail := by
  intro s hs hq
  have listed (q : Port) : Listed s q := .of hq q
  refine ⟨fun other => ⟨exec_recalibrationComplete_idle fun c => other c.1, exec_recalibrationLimit_early fun o => other o.1⟩,
    fun unawaited => exec_recalibrationComplete_idle fun ⟨_, off, untaken⟩ => ?_,
    fun ha off untaken => ⟨fun calibrating => ?_, fun x other target => ?_⟩,
    fun _ early => exec_recalibrationLimit_early fun late => absurd late.2 (by omega), fun ha due => ?_⟩
  · rcases unawaited with on | taken
    · rw [off] at on; cases on
    · rw [untaken] at taken; cases taken
  · rw [exec_recalibrationComplete_completes ⟨ha, off, untaken⟩, if_pos calibrating, atZero_enterLabelRead,
      schedule_unserved rfl]
  · rw [exec_recalibrationComplete_completes ⟨ha, off, untaken⟩, if_neg other, atZero_reseek target]
  · intro taken again
    have fails := exec_recalibrationLimit_fails ⟨ha, due⟩
    refine ⟨fun calibrating more => ?_, fun calibrating last => ?_, fun other more => ?_, fun other last => ?_⟩
    · rw [fails, recalibrationFailed_attempt calibrating more, recalibrate_again (by exact ha)]
      rfl
    · rw [fails, recalibrationFailed_faults calibrating last]
      exact faultsThen_of (s := taken) (serviceLaw_of_queues hs rfl) (fun q => (listed q).congr rfl) .calibration
    · rw [fails, recalibrationFailed_seekError other, seekError_recalibrates (s := s.limitReached) more, ← ha]
      rfl
    · rw [fails, recalibrationFailed_seekError other, seekError_faults (s := s.limitReached) last]
      exact faultsThen_of (s := { taken with pos := { taken.pos with cyl := none } }.countBoth .seekErrors)
        (serviceLaw_of_queues hs rfl) (fun q => (listed q).congr rfl) .seek

end Sys2Proof.Machine

/-! ## Sector starts of the data orders (O43) -/

namespace Sys2Proof.Machine

section
variable {s : State} {p : Port} {k : Fin 8} {sl : Slot} {g : Progress} {h : HeaderReading}
  {o : Host.Outcome State Fault Refusal} {c : Nat} {a : Addr} {ws : List Word} {x : PassKind}

theorem startInService_data (n : Nat) (h : HeaderReading) (hst : g.stage = .data) : s.startInService p k sl g n h
    = if (sl.moveAddr g).sector = n then s.startData p k sl g h else (s, .idle) := by
  unfold State.startInService; rw [hst]

/-! ### What each kind takes (R112) -/

theorem startData_check (hk : sl.kind = .check) : s.startData p k sl g h
    = if s.grants p false (sl.sectorAddr g.next).cyl = false then s.endAtStart p k .mapChanged (sl.moveAddr g)
      else s.takePass p k g .check (sl.moveAddr g) [] h := by
  unfold State.startData; rw [hk]

theorem startData_verify (hk : sl.kind = .write) (hv : sl.verifyPhase = true) : s.startData p k sl g h
    = if s.grants p true (sl.sectorAddr g.next).cyl = false then s.endAtStart p k .mapChanged (sl.moveAddr g)
      else s.takePass p k g .verify (sl.moveAddr g) [] h := by
  unfold State.startData; rw [hk]; exact if_pos hv

/-- A READ with no FREE buffer, or with three of its own, slips. -/
theorem startData_readSlips (hk : sl.kind = .read) (hb : s.freeBuffer = none ∨ 3 ≤ (s.owned p k).length) :
    s.startData p k sl g h = s.slip p k (sl.moveAddr g) := by
  unfold State.startData
  rw [hk]
  cases free : s.freeBuffer with
  | none => rfl
  | some b => exact if_pos (hb.resolve_left (by simp [free]))

theorem startData_read {b : Fin 4} (hk : sl.kind = .read) (hb : s.freeBuffer = some b) (few : (s.owned p k).length < 3) :
    s.startData p k sl g h
    = if s.grants p false (sl.sectorAddr g.next).cyl = false then s.endAtStart p k .mapChanged (sl.moveAddr g)
      else s.takePass p k g (.read b) (sl.moveAddr g) [] h := by
  unfold State.startData
  rw [hk, hb]
  exact if_neg (by omega)

/-- A WRITE without the buffer of its next sector slips. -/
theorem startData_writeSlips (hk : sl.kind = .write) (hv : sl.verifyPhase = false)
    (hb : s.diskBuffer p k g.next = none) : s.startData p k sl g h = s.slip p k (sl.moveAddr g) := by
  unfold State.startData
  rw [hk]
  dsimp only
  rw [if_neg (by simp [hv]), hb]

theorem startData_write {b : Fin 4} (hk : sl.kind = .write) (hv : sl.verifyPhase = false)
    (hb : s.diskBuffer p k g.next = some b) : s.startData p k sl g h
    = if s.guard.protectsData (sl.sectorAddr g.next).cyl then s.endAtStart p k .guarded (sl.moveAddr g)
      else if s.grants p true (sl.sectorAddr g.next).cyl = false then s.endAtStart p k .mapChanged (sl.moveAddr g)
      else if s.lines.supply = false then s.endAtStart p k .writeInhibited (sl.moveAddr g)
      else s.takePass p k g (.write b) (sl.moveAddr g) s.buffers[b].data h := by
  unfold State.startData
  rw [hk]
  dsimp only
  rw [if_neg (by simp [hv]), hb]

/-! ### What it answers -/

theorem grants_read_false : s.grants p false c = false ↔ s.map.active.rightOn p c = .none := by
  rw [← Bool.not_eq_true, State.grants, allows_read, not_not]

theorem grants_write_false : s.grants p true c = false ↔ s.map.active.rightOn p c ≠ .write := by
  rw [← Bool.not_eq_true, State.grants, allows_write]

section
variable (hs : s.serviceLaw) (hi : s.inService = some (p, k, sl)) (hl : ∀ q, Listed s q)
include hs hi hl

/-- A pass that asks for a right is taken where the port has it, and elsewhere the order ends MAP CHANGED. -/
theorem granted_spec {writes : Bool}
    (ho : o = State.answers (if s.grants p writes c = false then s.endAtStart p k .mapChanged a
      else s.takePass p k g x a ws h)) :
    (¬s.grants p writes c = false → s.takes p k g x a ws h o)
      ∧ (s.grants p writes c = false → s.ends p k sl .mapChanged (some a) o) :=
  ⟨fun held => takePass_spec hs hi hl (ho.trans (by rw [if_neg held])),
    fun lost => endAtStart_spec hs hi (by simp) (by simp) (ho.trans (by rw [if_pos lost]))⟩

/-- A READ takes its sector into the lowest FREE buffer, slips, or ends MAP CHANGED. -/
theorem startRead_spec (hk : sl.kind = .read) (ho : o = State.answers (s.startData p k sl g h)) :
    let a := sl.moveAddr g
    let right : Right := s.map.active.rightOn p (sl.sectorAddr g.next).cyl
    (right ≠ .none → (s.owned p k).length < 3 → ∀ b : Fin 4, s.buffers[b].state = .free →
        (∀ b', b' < b → s.buffers[b'].state ≠ .free) → s.takes p k g (.read b) a [] h o)
      ∧ ((∀ b : Fin 4, s.buffers[b].state ≠ .free) ∨ 3 ≤ (s.owned p k).length → o = State.answers (s.slip p k a))
      ∧ (right = .none → (s.owned p k).length < 3 → (∃ b : Fin 4, s.buffers[b].state = .free) →
          s.ends p k sl .mapChanged (some a) o) := by
  intro a right
  refine ⟨fun held few b free lowest => ?_, fun full => ?_, fun lost few some' => ?_⟩
  · have first : s.freeBuffer = some b := (freeBuffer_iff s b).mpr ⟨free, lowest⟩
    exact (granted_spec hs hi hl (ho.trans (by rw [startData_read hk first few]))).1 (mt grants_read_false.mp held)
  · exact ho.trans (by rw [startData_readSlips hk (full.imp_left (freeBuffer_none s).mpr)])
  · cases first : s.freeBuffer with
    | none =>
      obtain ⟨b, free⟩ := some'
      exact absurd free ((freeBuffer_none s).mp first b)
    | some b =>
      exact (granted_spec hs hi hl (ho.trans (by rw [startData_read hk first few]))).2 (grants_read_false.mpr lost)

/-- A WRITE takes its sector from the buffer that holds it, slips without one, or ends where it may not write. -/
theorem startWrite_spec (hk : sl.kind = .write) (hv : sl.verifyPhase = false)
    (ho : o = State.answers (s.startData p k sl g h)) :
    let a := sl.moveAddr g
    let right : Right := s.map.active.rightOn p (sl.sectorAddr g.next).cyl
    let holds (b : Fin 4) : Prop := s.buffers[b].owner = some (p, k) ∧ s.buffers[b].state = .fullForDisk
      ∧ s.buffers[b].index = g.next
    let barred : Prop := s.guard.protectsData (sl.sectorAddr g.next).cyl = true
    ((∀ b, ¬holds b) → o = State.answers (s.slip p k a))
      ∧ ∀ b, holds b → (∀ b', b' < b → ¬holds b') →
        (barred → s.ends p k sl .guarded (some a) o)
        ∧ (¬barred → right ≠ .write → s.ends p k sl .mapChanged (some a) o)
        ∧ (¬barred → right = .write → s.lines.supply = false → s.ends p k sl .writeInhibited (some a) o)
        ∧ (¬barred → right = .write → s.lines.supply = true → s.takes p k g (.write b) a s.buffers[b].data h o) := by
  intro a right holds barred
  refine ⟨fun none' => ?_, fun b held lowest => ?_⟩
  · exact ho.trans (by rw [startData_writeSlips hk hv ((diskBuffer_none s p k g.next).mpr none')])
  · rw [startData_write hk hv ((diskBuffer_iff s p k g.next b).mpr ⟨held, lowest⟩)] at ho
    refine ⟨fun hb => ?_, fun hb lost => ?_, fun hb right off => ?_, fun hb right on => ?_⟩
    · exact endAtStart_spec hs hi (by simp) (by simp) (ho.trans (by rw [if_pos hb]))
    · rw [if_neg hb, if_pos (grants_write_false.mpr lost)] at ho
      exact endAtStart_spec hs hi (by simp) (by simp) ho
    · rw [if_neg hb, if_neg (fun lost => grants_write_false.mp lost right), if_pos off] at ho
      exact endAtStart_spec hs hi (by simp) (by simp) ho
    · rw [if_neg hb, if_neg (fun lost => grants_write_false.mp lost right), if_neg (by simp [on])] at ho
      exact takePass_spec hs hi hl ho

end

end

/-- Settles O43: the pulse leaves what the checks of a sector start look at, so that the order takes, slips or ends by
its kind's own checks. -/
theorem aSectorOfADataOrderBegins : Obligations.ASectorOfADataOrderBegins := by
  intro s u p k sl g a n h c hs hq ht hd hi hg hst kind ha hb right taken slips ends
  obtain ⟨frame, law, service, listed, starts⟩ := begins_starts hs hq hi hg ht hd hb
  have ho := starts (.inl (by rw [hst]; rfl))
  have moved : a = sl.moveAddr g := by rw [ha, Slot.moveAddr]; cases g.dest <;> rfl
  have buffers : u.buffers = s.buffers := by rw [frame]
  have map : u.map = s.map := by rw [frame]
  have guard : u.guard = s.guard := by rw [frame]
  have lines : u.lines = s.lines := by rw [frame]
  have owned : u.owned p k = s.owned p k := by unfold State.owned; rw [buffers]
  rw [startInService_data n h hst, ← moved] at ho
  refine ⟨fun other => answers_other other ho, fun here => ?_⟩
  rw [if_pos here] at ho
  have reads (read : sl.kind = .read) := startRead_spec law service listed read ho
  simp only [← moved, buffers, map, owned] at reads
  refine ⟨fun read => (reads read).1, fun read => (reads read).2.1, fun read => (reads read).2.2, fun check => ?_,
    fun write verify => ?_, fun write first => ?_⟩
  · rw [startData_check check, ← moved] at ho
    have spec := granted_spec law service listed ho
    rw [grants_read_false, map] at spec
    exact spec
  · rw [startData_verify write verify, ← moved] at ho
    have spec := granted_spec law service listed ho
    rw [grants_write_false, map, not_not] at spec
    exact spec
  · have spec := startWrite_spec law service listed write first ho
    rw [← moved, buffers, map, guard, lines] at spec
    exact spec

end Sys2Proof.Machine

/-! ## What the host will fetch (O17) -/

namespace Sys2Proof.Machine

/-! ### Fields of a word (R171) -/

section
variable {n : Nat}

theorem field_wordOf (h : n < 65536) (hi lo : Nat) : field (wordOf n) hi lo = n / 2 ^ lo % 2 ^ (hi - lo + 1) := by
  rw [field, toNat_wordOf h, Nat.shiftRight_eq_div_pow]

theorem getLsbD_wordOf (h : n < 65536) (i : Nat) : (wordOf n).getLsbD i = decide (n / 2 ^ i % 2 = 1) := by
  rw [BitVec.getLsbD, toNat_wordOf h, Nat.testBit_eq_decide_div_mod_eq]

theorem bitOf_le (b : Bool) : bitOf b ≤ 1 := by cases b <;> decide

theorem bitOf_eq_one (b : Bool) : decide (bitOf b = 1) = b := by cases b <;> rfl

/-- A bit of a word that stands for a flag is the flag. -/
theorem getLsbD_flag {b : Bool} {i : Nat} (h : n < 65536) (flag : n / 2 ^ i % 2 = bitOf b) :
    (wordOf n).getLsbD i = b := by rw [getLsbD_wordOf h, flag, bitOf_eq_one]

end

/-! ### The codes of chapter 12 -/

theorem Kind.code_spec (x : Kind) : ∃ n, x.code = n + 1 ∧ kindsByCode[n]? = some x ∧ x.code ≤ 21 := by
  cases x <;> exact ⟨_, rfl, rfl, by decide⟩

theorem Ending.code_spec (x : Ending) : endingsByCode[x.code]? = some x ∧ x.code ≤ 12 := by
  cases x <;> exact ⟨rfl, by decide⟩

theorem DriveState.code_spec (x : DriveState) : driveStatesByCode[x.code]? = some x ∧ x.code ≤ 7 := by
  cases x <;> exact ⟨rfl, by decide⟩

theorem fault_code_spec (x : Option FaultReason) :
    faultsByCode[(x.map FaultReason.code).getD 0]? = some x ∧ (x.map FaultReason.code).getD 0 ≤ 5 := by
  rcases x with _ | x
  · exact ⟨rfl, by decide⟩
  · cases x <;> exact ⟨rfl, by decide⟩

theorem LabelState.code_spec (x : LabelState) : labelStatesByCode[x.code]? = some x ∧ x.code ≤ 3 := by
  cases x <;> exact ⟨rfl, by decide⟩

theorem MapMode.code_spec (x : MapMode) :
    [MapMode.direct, .lineStrobe, .orderStrobe][x.code]? = some x ∧ x.code ≤ 2 := by
  cases x <;> exact ⟨rfl, by decide⟩

theorem Origin.code_spec (x : Origin) : [Origin.fixed, .plan1, .plan2, .edited][x.code]? = some x ∧ x.code ≤ 3 := by
  cases x <;> exact ⟨rfl, by decide⟩

theorem Span.code_spec (x : Span) :
    [Span.none, .sixteenth, .eighth, .quarter, .half, .all][x.code]? = some x ∧ x.code ≤ 5 := by
  cases x <;> exact ⟨rfl, by decide⟩

theorem GuardMode.code_spec (x : GuardMode) :
    [GuardMode.opened, .keyed, .locked][x.code]? = some x ∧ x.code ≤ 2 := by
  cases x <;> exact ⟨rfl, by decide⟩

theorem Presence.code_spec (x : Presence) :
    [Presence.unknown, .present, .lost][x.code]? = some x ∧ x.code ≤ 2 := by
  cases x <;> exact ⟨rfl, by decide⟩

/-- The flags of a source set stand in bits 6-0 of its word, and nothing else (12, section 12.7). -/
theorem SourceSet.sentAs_word (f : SourceSet) : f.sentAs f.word := by
  have a := bitOf_le f.portALost
  have b := bitOf_le f.portBLost
  have c := bitOf_le f.driveFaulted
  have d := bitOf_le f.driveDegraded
  have e := bitOf_le f.labelNotValid
  have g := bitOf_le f.planLoaded
  have h := bitOf_le f.sectorLost
  have fits : bitOf f.portALost + 2 * bitOf f.portBLost + 4 * bitOf f.driveFaulted + 8 * bitOf f.driveDegraded
    + 16 * bitOf f.labelNotValid + 32 * bitOf f.planLoaded + 64 * bitOf f.sectorLost < 65536 := by omega
  constructor
  · rw [SourceSet.word, field_wordOf fits]
    omega
  · intro i x named
    rcases i with _ | _ | _ | _ | _ | _ | _ | i <;> cases named <;> exact getLsbD_flag fits (by simp only [SourceSet.get]; omega)

/-! ### The reply (12, section 12.5) -/

section
variable {sl : Slot} {d e : Tick}

theorem margin_some (prompt : sl.prompt = true) (due : sl.dueTick = some d) (ended : sl.endTick = some e) :
    sl.margin = some (d - e).toInt := by rw [Slot.margin, prompt, due, ended]; rfl

theorem margin_none (h : sl.prompt = false ∨ sl.dueTick = none ∨ sl.endTick = none) : sl.margin = none := by
  unfold Slot.margin
  split
  · next prompt due ended => rw [prompt, due, ended] at h; simp at h
  · rfl

theorem margin_isSome : sl.margin.isSome = true ↔ sl.prompt = true ∧ sl.dueTick ≠ none ∧ sl.endTick ≠ none := by
  unfold Slot.margin
  split
  · next prompt due ended => simp [prompt, due, ended]
  · next other =>
    refine ⟨fun h => absurd h (by decide), fun ⟨prompt, due, ended⟩ => ?_⟩
    obtain ⟨d, due⟩ := Option.ne_none_iff_exists'.mp due
    obtain ⟨e, ended⟩ := Option.ne_none_iff_exists'.mp ended
    exact absurd ended (other d e prompt due)

theorem toInt_clampMargin (m : Int) : (BitVec.ofInt 16 (clampMargin m)).toInt = max (-32768) (min m 32767) := by
  unfold clampMargin
  refine BitVec.toInt_ofInt_eq_self (by decide) ?_ ?_ <;> norm_num

/-- A slot that is DONE with an outcome replies it, field by field (R58, R171; 12, section 12.5). -/
theorem repliedBy_replyWords (done : sl.outcome ≠ none) : sl.repliedBy sl.replyWords := by
  obtain ⟨outcome, done⟩ := Option.ne_none_iff_exists'.mp done
  obtain ⟨n, code, kind, small⟩ := sl.kind.code_spec
  obtain ⟨ending, endingSmall⟩ := outcome.code_spec
  have tag := sl.tag.isLt
  have first : 256 * sl.tag.toNat + sl.kind.code < 65536 := by omega
  have prompt := bitOf_le sl.margin.isSome
  have fault := bitOf_le sl.faultAddr.isSome
  refine ⟨by simp [Slot.replyWords]; omega, rfl, ?_, ⟨n, ?_, kind⟩, ?_, fun h => toNat_wordOf (by omega),
    fun h => toNat_wordOf (by omega), fun h => toNat_wordOf (by omega), fun body => ?_, fun d e prompt due ended => ?_,
    fun absent => ?_, fun a failed cyl head sector => ?_, fun absent' => ?_⟩
  · exact (field_wordOf first 15 8).trans (by omega)
  · exact (field_wordOf first 7 0).trans (by omega)
  · have word : wordAt sl.replyWords 1 = wordOf outcome.code := by rw [Slot.replyWords, done]; rfl
    dsimp only
    rw [word, toNat_wordOf (by omega), ending, done]
  · have fits : 32768 * bitOf sl.margin.isSome + 16384 * bitOf sl.faultAddr.isSome + sl.body.length < 65536 := by omega
    refine ⟨(field_wordOf fits 13 0).trans (by omega), ?_, ?_⟩
    · exact (congrArg (· = true) (getLsbD_flag fits (b := sl.margin.isSome) (i := 15) (by omega))).to_iff.trans
        margin_isSome
    · exact (congrArg (· = true) (getLsbD_flag fits (b := sl.faultAddr.isSome) (i := 14) (by omega))).to_iff.trans
        Option.isSome_iff_ne_none
  · have word : wordAt sl.replyWords 6 = BitVec.ofInt 16 (clampMargin (d - e).toInt) := by
      rw [Slot.replyWords, margin_some prompt due ended]; rfl
    dsimp only
    rw [word, toInt_clampMargin]
  · dsimp only
    rw [Slot.replyWords, margin_none absent]
    rfl
  · have fits : 4096 * a.head + 128 * a.sector < 65536 := by omega
    dsimp only
    rw [Slot.replyWords, failed]
    exact ⟨toNat_wordOf (n := a.cyl) (by omega), (field_wordOf fits 15 12).trans (by omega), (field_wordOf fits 11 7).trans (by omega),
      (field_wordOf fits 6 0).trans (by omega)⟩
  · dsimp only
    rw [Slot.replyWords, absent']
    exact ⟨rfl, rfl⟩

end

/-! ### The status record (12, section 12.7) -/

section
variable {s : State} {p : Port}

/-- Word 0 of the status record as a number: the drive and the label. -/
def State.driveWord (s : State) : Nat :=
  4096 * s.drive.state.code + 512 * bitOf s.drive.speed + 256 * bitOf s.drive.supply
    + 16 * (s.drive.fault.map FaultReason.code).getD 0 + s.label.state.code

/-- Word 6 of the status record as a number: the region map unit. -/
def State.mapWord (s : State) : Nat :=
  16384 * s.map.mode.code + 4096 * s.map.origin.code + 2048 * bitOf s.map.auto + 1024 * bitOf s.lines.fixedKey
    + 512 * bitOf s.lines.select

/-- Word 7 of the status record as a number: the write guard. -/
def State.guardWord (s : State) : Nat :=
  8192 * s.guard.span.code + 4096 * bitOf s.guard.low + 2048 * bitOf s.guard.complement + 1024 * bitOf s.guard.freeze
    + 256 * s.guard.mode.code + 128 * bitOf s.lines.guardKey

/-- Word 8 of the status record as a number: the presence of both ports. -/
def State.presenceWord (s : State) : Nat := 16384 * s.ports.a.presence.code + 4096 * s.ports.b.presence.code

/-- The port of the SUSPENDED order as a bit, 0 where there is none (12, section 12.7). -/
def State.suspendedBit (s : State) : Nat := (s.suspended.map fun x => x.1.bit).getD 0

/-- Word 10 of the status record as a number: the port's orders, the suspended order and the attention reasons. -/
def State.queueWord (s : State) (p : Port) : Nat :=
  4096 * (s.queues.get p).live.length + 256 * (s.queues.get p).promptCount + 128 * bitOf s.suspended.isSome
    + 64 * s.suspendedBit + (s.attention p).bits

theorem toList_four {α : Type} (v : Vector α 4) : v.toList = [v[0], v[1], v[2], v[3]] := by
  obtain ⟨⟨l⟩, four⟩ := v
  match l, four with
  | [a, b, c, d], _ => rfl

/-- The status record word by word. -/
theorem statusWords_eq (s : State) (p : Port) : s.statusWords p =
    [wordOf s.driveWord, s.label.name[0], s.label.name[1], s.label.name[2], s.label.name[3], s.label.serial,
      wordOf s.mapWord, wordOf s.guardWord, wordOf s.presenceWord, wordOf (s.ports.get p).interval,
      wordOf (s.queueWord p), s.firstRequest p, (s.ports.get p).lastWord,
      s.alarms.latched.word, s.alarms.acked.word, s.alarms.masked.word] := by
  unfold State.statusWords
  rw [toList_four]
  rfl

theorem length_statusWords (s : State) (p : Port) : (s.statusWords p).length = 16 := by rw [statusWords_eq]; rfl

/-! #### The drive, the map and the guard -/

theorem driveWord_spec (s : State) : let w := wordOf s.driveWord
    driveStatesByCode[field w 15 12]? = some s.drive.state ∧ field w 11 10 = 0
      ∧ w.getLsbD 9 = s.drive.speed ∧ w.getLsbD 8 = s.drive.supply
      ∧ faultsByCode[field w 7 4]? = some s.drive.fault ∧ field w 3 2 = 0
      ∧ labelStatesByCode[field w 1 0]? = some s.label.state := by
  obtain ⟨drive, small⟩ := s.drive.state.code_spec
  obtain ⟨fault, small'⟩ := fault_code_spec s.drive.fault
  obtain ⟨label, small''⟩ := s.label.state.code_spec
  have speed := bitOf_le s.drive.speed
  have supply := bitOf_le s.drive.supply
  have fits : s.driveWord < 65536 := by unfold State.driveWord; omega
  have bits (hi lo : Nat) := field_wordOf fits hi lo
  unfold State.driveWord at fits bits ⊢
  refine ⟨?_, (bits 11 10).trans (by omega), getLsbD_flag fits (by omega), getLsbD_flag fits (by omega), ?_,
    (bits 3 2).trans (by omega), ?_⟩
  · rw [← drive]; exact congrArg _ ((bits 15 12).trans (by omega))
  · rw [← fault]; exact congrArg _ ((bits 7 4).trans (by omega))
  · rw [← label]; exact congrArg _ ((bits 1 0).trans (by omega))

theorem mapWord_spec (s : State) : let w := wordOf s.mapWord
    [MapMode.direct, .lineStrobe, .orderStrobe][field w 15 14]? = some s.map.mode
      ∧ [Origin.fixed, .plan1, .plan2, .edited][field w 13 12]? = some s.map.origin
      ∧ w.getLsbD 11 = s.map.auto ∧ w.getLsbD 10 = s.lines.fixedKey ∧ w.getLsbD 9 = s.lines.select
      ∧ field w 8 0 = 0 := by
  obtain ⟨mode, small⟩ := s.map.mode.code_spec
  obtain ⟨origin, small'⟩ := s.map.origin.code_spec
  have auto := bitOf_le s.map.auto
  have key := bitOf_le s.lines.fixedKey
  have select := bitOf_le s.lines.select
  have fits : s.mapWord < 65536 := by unfold State.mapWord; omega
  have bits (hi lo : Nat) := field_wordOf fits hi lo
  unfold State.mapWord at fits bits ⊢
  refine ⟨?_, ?_, getLsbD_flag fits (by omega), getLsbD_flag fits (by omega), getLsbD_flag fits (by omega),
    (bits 8 0).trans (by omega)⟩
  · rw [← mode]; exact congrArg _ ((bits 15 14).trans (by omega))
  · rw [← origin]; exact congrArg _ ((bits 13 12).trans (by omega))

theorem guardWord_spec (s : State) : let w := wordOf s.guardWord
    [Span.none, .sixteenth, .eighth, .quarter, .half, .all][field w 15 13]? = some s.guard.span
      ∧ w.getLsbD 12 = s.guard.low ∧ w.getLsbD 11 = s.guard.complement ∧ w.getLsbD 10 = s.guard.freeze
      ∧ [GuardMode.opened, .keyed, .locked][field w 9 8]? = some s.guard.mode
      ∧ w.getLsbD 7 = s.lines.guardKey ∧ field w 6 0 = 0 := by
  obtain ⟨span, small⟩ := s.guard.span.code_spec
  obtain ⟨mode, small'⟩ := s.guard.mode.code_spec
  have low := bitOf_le s.guard.low
  have complement := bitOf_le s.guard.complement
  have freeze := bitOf_le s.guard.freeze
  have key := bitOf_le s.lines.guardKey
  have fits : s.guardWord < 65536 := by unfold State.guardWord; omega
  have bits (hi lo : Nat) := field_wordOf fits hi lo
  unfold State.guardWord at fits bits ⊢
  refine ⟨?_, getLsbD_flag fits (by omega), getLsbD_flag fits (by omega), getLsbD_flag fits (by omega), ?_,
    getLsbD_flag fits (by omega), (bits 6 0).trans (by omega)⟩
  · rw [← span]; exact congrArg _ ((bits 15 13).trans (by omega))
  · rw [← mode]; exact congrArg _ ((bits 9 8).trans (by omega))

theorem presenceWord_spec (s : State) : let w := wordOf s.presenceWord
    [Presence.unknown, .present, .lost][field w 15 14]? = some s.ports.a.presence
      ∧ [Presence.unknown, .present, .lost][field w 13 12]? = some s.ports.b.presence ∧ field w 11 0 = 0 := by
  obtain ⟨a, small⟩ := s.ports.a.presence.code_spec
  obtain ⟨b, small'⟩ := s.ports.b.presence.code_spec
  have fits : s.presenceWord < 65536 := by unfold State.presenceWord; omega
  have bits (hi lo : Nat) := field_wordOf fits hi lo
  unfold State.presenceWord at fits bits ⊢
  refine ⟨?_, ?_, (bits 11 0).trans (by omega)⟩
  · rw [← a]; exact congrArg _ ((bits 15 14).trans (by omega))
  · rw [← b]; exact congrArg _ ((bits 13 12).trans (by omega))

/-! #### The port's orders and its attention reasons -/

/-- The slots of a port whose record has a property, counted. -/
def State.slotCount (s : State) (p : Port) (c : Slot → Bool) : Nat :=
  (slotNumbers.filter fun k => (s.slot p k).any c).length

theorem slotCount_le (s : State) (p : Port) (c : Slot → Bool) : s.slotCount p c ≤ 8 := List.length_filter_le ..

/-- The live records of a port that have a property are as many as the slots that hold them. -/
theorem live_filter (s : State) (p : Port) (c : Slot → Bool) :
    ((s.queues.get p).live.filter c).length = s.slotCount p c := by
  unfold Queue.live State.slotCount State.slot
  rw [← List.countP_eq_length_filter, ← List.countP_eq_length_filter, List.countP_filterMap]
  refine List.countP_congr fun k _ => ?_
  cases (s.queues.get p).slots[k] <;> rfl

theorem live_length (s : State) (p : Port) : (s.queues.get p).live.length = s.slotCount p fun _ => true := by
  rw [← live_filter, List.filter_true]

theorem promptCount_eq (s : State) (p : Port) :
    (s.queues.get p).promptCount = s.slotCount p fun y => decide (y.state = .queued) && y.prompt := live_filter s p _

theorem suspended_isSome : s.suspended.isSome = true ↔ ∃ q k y, s.slot q k = some y ∧ y.state = .suspended := by
  constructor
  · intro found
    obtain ⟨⟨q, k, y⟩, found⟩ := Option.isSome_iff_exists.mp found
    exact ⟨q, k, y, suspended_some found⟩
  · rintro ⟨q, k, y, live, aside⟩
    refine Option.isSome_iff_ne_none.mpr fun absent' => ?_
    exact suspended_none absent' q k y live aside

/-- The SUSPENDED order is one of port B. -/
def State.asideOfB (s : State) : Bool := s.suspended.any fun x => decide (x.1 = .b)

theorem asideOfB_iff : s.asideOfB = true ↔ ∃ k y, s.suspended = some (.b, k, y) := by
  unfold State.asideOfB
  rcases s.suspended with _ | ⟨q, k, y⟩
  · simp
  · simp [eq_comm]

theorem suspendedBit_eq : s.suspendedBit = bitOf s.asideOfB := by
  unfold State.suspendedBit State.asideOfB
  rcases s.suspended with _ | ⟨q, k, y⟩
  · simp [bitOf]
  · cases q <;> simp [bitOf, Port.bit]

/-- The attention reasons take four bits. -/
theorem attention_bits (x : Attention) : x.bits =
    8 * bitOf x.replyWaiting + 4 * bitOf x.dataWaiting + 2 * bitOf x.dataWanted + bitOf x.alarm := rfl

theorem queueWord_spec (s : State) (p : Port) : let w := wordOf (s.queueWord p)
    field w 15 12 = s.slotCount p (fun _ => true)
      ∧ field w 11 8 = s.slotCount p (fun y => decide (y.state = .queued) && y.prompt)
      ∧ w.getLsbD 7 = s.suspended.isSome ∧ w.getLsbD 6 = s.asideOfB
      ∧ field w 5 4 = 0 ∧ w.getLsbD 3 = (s.attention p).replyWaiting ∧ w.getLsbD 2 = (s.attention p).dataWaiting
      ∧ w.getLsbD 1 = (s.attention p).dataWanted ∧ w.getLsbD 0 = (s.attention p).alarm := by
  have live := slotCount_le s p fun _ => true
  have prompt := slotCount_le s p fun y => decide (y.state = .queued) && y.prompt
  have aside := bitOf_le s.suspended.isSome
  have asideB := bitOf_le s.asideOfB
  have reply := bitOf_le (s.attention p).replyWaiting
  have waiting := bitOf_le (s.attention p).dataWaiting
  have wanted := bitOf_le (s.attention p).dataWanted
  have alarm := bitOf_le (s.attention p).alarm
  unfold State.queueWord
  rw [live_length, promptCount_eq, suspendedBit_eq, attention_bits]
  generalize s.slotCount p (fun _ => true) = n at live ⊢
  generalize s.slotCount p (fun y => decide (y.state = .queued) && y.prompt) = m at prompt ⊢
  have fits : 4096 * n + 256 * m + 128 * bitOf s.suspended.isSome
      + 64 * bitOf s.asideOfB + (8 * bitOf (s.attention p).replyWaiting
        + 4 * bitOf (s.attention p).dataWaiting + 2 * bitOf (s.attention p).dataWanted
        + bitOf (s.attention p).alarm) < 65536 := by omega
  have bits (hi lo : Nat) := field_wordOf fits hi lo
  exact ⟨(bits 15 12).trans (by omega), (bits 11 8).trans (by omega), getLsbD_flag fits (by omega),
    getLsbD_flag fits (by omega), (bits 5 4).trans (by omega), getLsbD_flag fits (by omega),
    getLsbD_flag fits (by omega), getLsbD_flag fits (by omega), getLsbD_flag fits (by omega)⟩

theorem not_isEmpty_iff {α : Type} {l : List α} : (!l.isEmpty) = true ↔ l ≠ [] := by cases l <;> simp

/-- A port has the alarm reason while a flag is latched, neither masked nor acknowledged (R157). -/
theorem attention_alarm : (s.attention p).alarm = true ↔
    ∃ y, s.alarms.latched.get y = true ∧ s.alarms.masked.get y = false ∧ s.alarms.acked.get y = false := by
  have all (y : Source) : y ∈ sources := by cases y <;> decide
  simp [State.attention, List.any_eq_true, all, and_assoc]

/-- The status record holds the fields of its table (R157, R158, R171; 12, section 12.7). -/
theorem recordedBy_statusWords (s : State) (p : Port) : s.recordedBy p (s.statusWords p) := by
  obtain ⟨drive, gap0, speed, supply, fault, gap0', label⟩ := driveWord_spec s
  obtain ⟨mode, origin, auto, key, select, gap6⟩ := mapWord_spec s
  obtain ⟨span, low, complement, freeze, guardMode, guardKey, gap7⟩ := guardWord_spec s
  obtain ⟨presenceA, presenceB, gap8⟩ := presenceWord_spec s
  obtain ⟨live, prompt, aside, asideB, gap10, reply, waiting, wanted, alarm⟩ := queueWord_spec s p
  rw [statusWords_eq]
  refine ⟨rfl, drive, gap0, speed, supply, fault, gap0', label, fun i => by fin_cases i <;> rfl, rfl, mode, origin, auto,
    key, select, gap6, span, low, complement, freeze, guardMode, guardKey, gap7, presenceA, presenceB, gap8,
    fun small => toNat_wordOf (by omega), live, prompt, ?_, ?_, gap10, ?_, ?_, ?_, ?_, fun absent' => ?_,
    fun b l first => ?_, rfl, SourceSet.sentAs_word _, SourceSet.sentAs_word _, SourceSet.sentAs_word _⟩
  · exact (congrArg (· = true) aside).to_iff.trans suspended_isSome
  · exact (congrArg (· = true) asideB).to_iff.trans asideOfB_iff
  · exact (congrArg (· = true) reply).to_iff.trans not_isEmpty_iff
  · exact (congrArg (· = true) waiting).to_iff.trans not_isEmpty_iff
  · exact (congrArg (· = true) wanted).to_iff.trans not_isEmpty_iff
  · exact (congrArg (· = true) alarm).to_iff.trans attention_alarm
  · show s.firstRequest p = _
    rw [State.firstRequest, absent']
    rfl
  · show s.firstRequest p = _
    rw [State.firstRequest, first]

end

/-! ### The data block and the stream (R108, R116; 12, section 12.2) -/

section
variable {s : State} {p q : Port} {k : Fin 8} {sl : Slot} {b : Fin 4} {st : BufState}

/-- The block header of an owned buffer names its order's tag and its sector index (12, section 12.2). -/
theorem bufferHeader_spec (owned : s.buffers[b].owner = some (q, k)) (live : s.slot q k = some sl)
    (small : s.buffers[b].index ≤ 63) :
    field (s.bufferHeader b) 15 8 = sl.tag.toNat ∧ field (s.bufferHeader b) 7 6 = 0
      ∧ field (s.bufferHeader b) 5 0 = s.buffers[b].index := by
  have tag := sl.tag.isLt
  have fits : 256 * sl.tag.toNat + s.buffers[b].index < 65536 := by omega
  have header : s.bufferHeader b = wordOf (256 * sl.tag.toNat + s.buffers[b].index) := by
    rw [State.bufferHeader, owned]
    dsimp only
    rw [live]
    rfl
  rw [header]
  exact ⟨(field_wordOf fits 15 8).trans (by omega), (field_wordOf fits 7 6).trans (by omega),
    (field_wordOf fits 5 0).trans (by omega)⟩

/-- The first member of a list's blocks is the first of the oldest block that is not empty. -/
theorem flatMap_eq_cons {α β : Type} {f : α → List β} {y : β} {rest : List β} : ∀ {l : List α},
    l.flatMap f = y :: rest →
      ∃ older x newer r, l = older ++ x :: newer ∧ f x = y :: r ∧ ∀ z ∈ older, f z = []
  | x :: l, h => by
    rw [List.flatMap_cons] at h
    cases first : f x with
    | cons z r =>
      rw [first] at h
      obtain ⟨rfl, -⟩ := List.cons.inj h
      exact ⟨[], x, l, r, rfl, first, fun _ hz => absurd hz List.not_mem_nil⟩
    | nil =>
      rw [first] at h
      obtain ⟨older, x', newer, r, split, found, empty⟩ := flatMap_eq_cons (l := l) h
      exact ⟨x :: older, x', newer, r, by rw [split]; rfl, found, List.forall_mem_cons.mpr ⟨first, empty⟩⟩

/-- A slot's buffers in one state, the lowest index first. -/
def State.sortedIn (s : State) (p : Port) (k : Fin 8) (st : BufState) : List (Fin 4) :=
  (s.ownedIn p k st).foldl (fun l b => insertByIndex s b l) []

theorem mem_sortedIn : b ∈ s.sortedIn p k st ↔ s.buffers[b].owner = some (p, k) ∧ s.buffers[b].state = st :=
  (mem_sorted b _).trans (mem_ownedIn p k st b)

/-- A port's buffers in a state are led by the lowest of the oldest order that has one (R108, R116). -/
theorem leads_listed (s : State) (p : Port) (st : BufState) : s.leads p st (s.listed p st) := by
  refine ⟨?_, fun b rest first => ?_⟩
  · rw [State.listed, List.flatMap_eq_nil_iff]
    refine forall₂_congr fun k _ => ?_
    rw [List.eq_nil_iff_forall_not_mem]
    exact forall_congr' fun b => not_congr mem_sortedIn
  · obtain ⟨older, k, newer, r, split, found, empty⟩ := flatMap_eq_cons first
    refine ⟨k, older, newer, split, mem_sortedIn.mp (by rw [State.sortedIn, found]; exact List.mem_cons_self),
      fun b' held => ?_, fun j hj b' held => ?_⟩
    · exact head_sorted _ b r found b' ((mem_ownedIn p k st b').mpr held)
    · have member : b' ∈ s.sortedIn p j st := mem_sortedIn.mpr held
      rw [show s.sortedIn p j st = [] from empty j hj] at member
      cases member

end

/-! ### The opening words of the IN exchanges (R153, R156, R158) -/

section
variable {s : State} {p : Port} {w : Word}

theorem exec_replyIn_closed (closed : (s.ports.get p).exchange = none) (there : (s.ports.get p).presence ≠ .lost) :
    exec (.replyIn p w) s =
      .next (s.portOpened p (some ⟨.replyIn (s.replyContent p).1, [w]⟩) (s.replyContent p).2) := by
  show execReplyIn p w s = _
  rw [execReplyIn, openWord_plain closed there, openExchange_portOpened]
  rfl

theorem dataContent_portOpened (e : Option Exchange) (ws : List Word) :
    (s.portOpened p e ws).dataContent p = s.dataContent p := by
  unfold State.dataContent State.portOpened
  rw [stream_onPort]
  rfl

theorem exec_dataIn_closed (closed : (s.ports.get p).exchange = none) (there : (s.ports.get p).presence ≠ .lost) :
    exec (.dataIn p w) s =
      .next (s.portOpened p (some ⟨.dataIn (s.dataContent p).1, [w]⟩) (s.dataContent p).2) := by
  show execDataIn p w s = _
  rw [execDataIn, openWord_plain closed there, openExchange_portOpened, dataContent_portOpened]

theorem exec_statusIn_closed (closed : (s.ports.get p).exchange = none) (there : (s.ports.get p).presence ≠ .lost) :
    exec (.statusIn p w false) s =
      .next (s.portOpened p (some ⟨.statusIn, [w]⟩) ((s.portOpened p none []).statusWords p)) := by
  show execStatusIn p w false s = _
  rw [execStatusIn, openWord_plain closed there, openExchange_portOpened]
  rfl

/-- A STATUS IN fetched whole is over, and all its words are behind the host (R154, R158). -/
theorem exec_statusIn_whole (closed : (s.ports.get p).exchange = none) (there : (s.ports.get p).presence ≠ .lost) :
    exec (.statusIn p w true) s = .next
      ((s.portOpened p none ((s.portOpened p none []).statusWords p)).onPort p fun x => { x with fetched := 16 }) := by
  show execStatusIn p w true s = _
  rw [execStatusIn, openWord_plain closed there, openExchange_portOpened, if_pos rfl]
  have whole := length_statusWords (s.portOpened p none []) p
  generalize (s.portOpened p none []).statusWords p = ws at whole ⊢
  rw [← whole, State.portOpened, State.portOpened, onPort_onPort, onPort_onPort]

/-- The fetches of an exchange return its words in turn, and then the empty word (R154, R173). -/
theorem fetch_portOpened (e : Option Exchange) (ws : List Word) (i : Nat) :
    (s.portOpened p e ws).fetch p i = ws.getD i 0xFFFF := by
  simp [State.fetch, State.portOpened, emptyWord]

/-- Once as many words are fetched as stood ready, every further fetch returns the empty word (R154, R173). -/
theorem fetch_behind (e : Option Exchange) (ws : List Word) (i : Nat) :
    ((s.portOpened p e ws).onPort p fun x => { x with fetched := ws.length }).fetch p i = 0xFFFF := by
  simp [State.fetch, State.portOpened, emptyWord]

end

/-- Settles O17: each opening word by its content, and the contents field by field. -/
theorem anInExchangeFixesItsContent : Obligations.AnInExchangeFixesItsContent := by
  refine ⟨fun s p w closed there => ⟨fun absent' => ?_, fun k l sl first live => ?_, fun absent' => ?_, fun b l first => ?_,
      exec_statusIn_closed closed there, _, rfl, exec_statusIn_whole closed there, fun i => ?_⟩,
    fun s p e ws i => fetch_portOpened (some e) ws i, fun sl done => repliedBy_replyWords done, recordedBy_statusWords,
    fun s p q k sl b owned live small => bufferHeader_spec owned live small,
    fun s p => ⟨leads_listed s p .fullForHost, leads_listed s p .filling⟩⟩
  · rw [exec_replyIn_closed closed there, State.replyContent, absent']
    rfl
  · rw [exec_replyIn_closed closed there, State.replyContent, first]
    dsimp only
    rw [live]
  · rw [exec_dataIn_closed closed there, State.dataContent, absent']
    rfl
  · rw [exec_dataIn_closed closed there, State.dataContent, first]
  · have behind := fetch_behind (s := s) (p := p) none ((s.portOpened p none []).statusWords p) i
    rwa [length_statusWords] at behind

end Sys2Proof.Machine

/-! ## An opening word at a port with an exchange open, or LOST (O19) -/

namespace Sys2Proof.Machine

section
variable {c : Instr} {s u : State} {p : Port} {e : Exchange} {b : Fin 4} {f : PortIf → PortIf}

/-! ### The abandoned exchange (R109, R153, R154) -/

/-- The exchange of a port is over and counted short (R154). -/
def State.cutShort (s : State) (p : Port) : State :=
  (s.onPort p fun x => { x with exchange := none, offered := [], fetched := 0 }).count p .shortExchanges

theorem abandon_other (opened : (s.ports.get p).exchange = some e) (other : ∀ b, e.kind ≠ .dataIn (some b)) :
    s.abandon p = s.cutShort p := by
  rw [State.abandon, opened]
  dsimp only
  split
  · next b kind => exact absurd kind (other b)
  · rfl

theorem abandon_delivering (opened : (s.ports.get p).exchange = some e) (kind : e.kind = .dataIn (some b)) :
    s.abandon p = ((s.cutShort p).dropOrphan b).testRequests := by
  rw [State.abandon, opened]
  dsimp only
  rw [kind]
  rfl

/-- Beyond the end of the exchange, abandoning it changes the buffers alone. -/
theorem abandon_frame (opened : (s.ports.get p).exchange = some e) :
    s.abandon p = { s.cutShort p with buffers := (s.abandon p).buffers } := by
  by_cases delivers : ∃ b, e.kind = .dataIn (some b)
  · obtain ⟨b, kind⟩ := delivers
    rw [abandon_delivering opened kind, testRequests_buffers]
    unfold State.dropOrphan
    split <;> rfl
  · rw [abandon_other opened fun b kind => delivers ⟨b, kind⟩]

theorem dropOrphan_owned (owned : s.buffers[b].owner ≠ none) : s.dropOrphan b = s := if_neg owned

theorem dropOrphan_orphan (orphan : s.buffers[b].owner = none) : s.dropOrphan b = s.putBuffer b .empty := if_pos orphan

theorem cutShort_port (s : State) (p : Port) : (s.cutShort p).ports.get p =
    { s.ports.get p with exchange := none, offered := [], fetched := 0 } := get_modify_same ..

theorem abandon_port (opened : (s.ports.get p).exchange = some e) : (s.abandon p).ports.get p =
    { s.ports.get p with exchange := none, offered := [], fetched := 0 } := by
  rw [abandon_frame opened]
  exact cutShort_port s p

/-! ### What an opening word and the loss of the port do after it -/

/-- An opening word looks at its state through what every opening word does first (R153). -/
theorem exec_opening_congr (opening : opens c = some p) (same : s.openWord p = u.openWord p) : exec c s = exec c u := by
  cases c with
  | orderOutOpening q w => cases opening; simp only [exec, execOrderOutOpening, same]
  | dataOutOpening q w => cases opening; simp only [exec, execDataOutOpening, same]
  | replyIn q w => cases opening; simp only [exec, execReplyIn, same]
  | dataIn q w => cases opening; simp only [exec, execDataIn, same]
  | statusIn q w whole => cases opening; simp only [exec, execStatusIn, same]
  | openingWordNoKind q w => cases opening; simp only [exec, execOpeningWordNoKind, same]
  | _ => cases opening

theorem losePort_abandon (opened : (s.ports.get p).exchange = some e) : s.losePort p = (s.abandon p).losePort p := by
  have closed : ((s.abandon p).ports.get p).exchange = none := by rw [abandon_port opened]
  unfold State.losePort
  rw [abandon_none closed]

/-- An opening word, or the loss of the port, does what it does once the open exchange is abandoned (R154, R160). -/
theorem exec_abandon (opened : (s.ports.get p).exchange = some e)
    (event : opens c = some p ∨ (c = .presenceTimerExpiry p ∧ (s.ports.get p).presence = .present
      ∧ ∃ d, (s.ports.get p).timer = some d ∧ (d - s.tick).toInt ≤ 0)) : exec c s = exec c (s.abandon p) := by
  rcases event with opening | ⟨rfl, present, due⟩
  · exact exec_opening_congr opening openWord_abandon
  · have ran : s.ranOut (s.ports.get p).timer = true := ranOut_iff_exists.mpr due
    have tick : (s.abandon p).tick = s.tick := by rw [abandon_frame opened]; rfl
    have ran' : (s.abandon p).ranOut (s.ports.get p).timer = true :=
      ranOut_iff_exists.mpr (by rw [tick]; exact due)
    rw [exec_presenceTimerExpiry, exec_presenceTimerExpiry, abandon_port opened, if_pos ⟨present, ran⟩,
      if_pos ⟨present, ran'⟩, losePort_abandon opened]

/-! ### The opening word of a LOST port (R159, R161, R167) -/

theorem onPort_presence (kept : (f (s.ports.get p)).presence = (s.ports.get p).presence) (q : Port) :
    ((s.onPort p f).ports.get q).presence = (s.ports.get q).presence := by
  rw [onPort_ports, get_modify]
  split
  · next same => rw [same, kept]
  · rfl

/-- A port's presence is all that requests depend on of it (R116). -/
theorem issueRequest_onPort (kept : (f (s.ports.get p)).presence = (s.ports.get p).presence) :
    (s.onPort p f).issueRequest = s.issueRequest.onPort p f := by
  have lost (q : Port) : (s.onPort p f).lost q = s.lost q := by rw [State.lost, State.lost, onPort_presence kept]
  unfold State.issueRequest
  rw [show (s.onPort p f).inService = s.inService from rfl]
  rcases s.inService with _ | ⟨q, k, sl⟩
  · rfl
  · dsimp only
    rw [lost, show (s.onPort p f).owned q k = s.owned q k from rfl,
      show (s.onPort p f).nextRequest q k sl = s.nextRequest q k sl from rfl,
      show (s.onPort p f).freeBuffer = s.freeBuffer from rfl]
    split
    · cases s.nextRequest q k sl <;> cases s.freeBuffer <;> rfl
    · rfl

theorem testRequests_onPort (kept : (f (s.ports.get p)).presence = (s.ports.get p).presence) :
    (s.onPort p f).testRequests = s.testRequests.onPort p f := by
  have ports (x : State) : x.issueRequest.ports = x.ports := by rw [issueRequest_buffers]
  unfold State.testRequests
  rw [issueRequest_onPort kept, issueRequest_onPort (by rw [ports]; exact kept),
    issueRequest_onPort (by rw [ports, ports]; exact kept)]

/-- A port's presence is all that the alarm line depends on of it (R163, R167). -/
theorem judgeAlarm_onPort (kept : (f (s.ports.get p)).presence = (s.ports.get p).presence) :
    (s.onPort p f).judgeAlarm = s.judgeAlarm.onPort p f := by
  have condition : (s.onPort p f).condition = s.condition := by
    funext x
    cases x with
    | portALost => exact congrArg (fun y => decide (y = Presence.lost)) (onPort_presence kept .a)
    | portBLost => exact congrArg (fun y => decide (y = Presence.lost)) (onPort_presence kept .b)
    | _ => rfl
  have manner : (s.onPort p f).manner = s.manner := by
    unfold State.manner
    rw [condition, onPort_alarms]
  unfold State.judgeAlarm
  rw [manner]
  rfl

/-- A port that an opening word finds with no exchange open: PRESENT, its timer reloaded (R153, R159). -/
def PortIf.reopened (x : PortIf) (now : Tick) : PortIf :=
  { x.reload now with presence := .present, offered := [], fetched := 0 }

theorem openWord_closed (closed : (s.ports.get p).exchange = none) : s.openWord p =
    if s.lost p then (s.onPort p (·.reopened s.tick)).testRequests.judgeAlarm else s.onPort p (·.reopened s.tick) := by
  unfold State.openWord
  rw [abandon_none closed]
  rfl

/-- The opening word of a LOST port makes it PRESENT, with what follows from it, and is then one of a PRESENT port. -/
theorem openWord_lost (closed : (s.ports.get p).exchange = none) (lost : s.lost p = true) :
    s.openWord p = ((s.onPort p fun x => { x with presence := .present }).testRequests.judgeAlarm).openWord p := by
  generalize hv : (s.onPort p fun x => { x with presence := .present }) = v
  have port : v.ports.get p = { s.ports.get p with presence := .present } := by rw [← hv]; exact get_modify_same ..
  have ports : v.testRequests.judgeAlarm.ports = v.ports := by rw [testRequests_buffers]; rfl
  have tick : v.testRequests.judgeAlarm.tick = s.tick := by rw [testRequests_buffers, ← hv]; rfl
  have present : v.testRequests.judgeAlarm.lost p = false := by
    rw [State.lost, ports, port]
    rfl
  have kept : ((v.ports.get p).reopened s.tick).presence = (v.ports.get p).presence := by rw [port]; rfl
  have reopened : s.onPort p (·.reopened s.tick) = v.onPort p (·.reopened s.tick) := by rw [← hv, onPort_onPort]; rfl
  rw [openWord_closed closed, openWord_closed (by rw [ports, port]; exact closed), lost, present, tick, if_pos rfl,
    if_neg Bool.false_ne_true, reopened, testRequests_onPort kept,
    judgeAlarm_onPort (by rw [testRequests_buffers]; exact kept)]

end

/-- Settles O19: an exchange open is abandoned first, whatever it was; a LOST port is made PRESENT first. -/
theorem anOpeningWordSettlesThePort : Obligations.AnOpeningWordSettlesThePort := by
  constructor
  · rintro c s u p e opened event rfl
    have first := exec_abandon opened event
    refine ⟨fun other => ?_, fun b kind owned => ?_, fun b kind orphan => ?_⟩
    · rw [first, abandon_other opened other]
      rfl
    · rw [first, abandon_delivering opened kind, dropOrphan_owned (s := s.cutShort p) owned]
      rfl
    · rw [first, abandon_delivering opened kind, dropOrphan_orphan (s := s.cutShort p) orphan]
      rfl
  · intro c s p opening closed lost
    exact exec_opening_congr opening (openWord_lost closed (decide_eq_true lost))

end Sys2Proof.Machine

/-! ## A completed DATA OUT (O20) -/

namespace Sys2Proof.Machine

section
variable {s : State} {p : Port} {h : Word} {ws l : List Word} {k : Fin 8} {sl : Slot} {b : Fin 4}

theorem field_lt (w : Word) (hi lo : Nat) : field w hi lo < 2 ^ (hi - lo + 1) := Nat.mod_lt _ (Nat.two_pow_pos _)

/-- The host's next fetch after an acceptance word returns it, every further one the empty word (R154, R173). -/
theorem answer_fetch (s : State) (p : Port) (code : Word) (i : Nat) :
    (s.answer p code).fetch p i = if i = 0 then code else 0xFFFF := by
  cases i <;> simp [State.fetch, State.answer, emptyWord]

/-- A buffer waits for a block of a slot's order (R116). -/
def State.requested (s : State) (p : Port) (k : Fin 8) (b : Fin 4) : Prop :=
  s.buffers[b].owner = some (p, k) ∧ s.buffers[b].state = .filling

theorem mem_requested : b ∈ s.ownedIn p k .filling ↔ s.requested p k b := mem_ownedIn p k .filling b

/-- A port whose slot waits for a block has a request (R116). -/
theorem requests_ne_nil (law : s.queueLaw) (hk : s.slot p k = some sl)
    (waits : s.requested p k b) : s.requests p ≠ [] := by
  have ordered : k ∈ (s.queues.get p).order := ((law p).2.1 k).mpr (by rw [hk]; rfl)
  exact List.ne_nil_of_mem ((mem_listed p .filling b).mpr ⟨k, ordered, waits⟩)

/-- The lowest request of a slot is one of its requests, and none of them is for a lower sector (R117). -/
theorem lowestRequest_some (found : s.lowestRequest p k = some b) :
    s.requested p k b ∧ ∀ b' : Fin 4, s.requested p k b' → s.buffers[b].index ≤ s.buffers[b'].index := by
  obtain ⟨rest, sorted⟩ := List.head?_eq_some_iff.mp found
  exact ⟨mem_requested.mp ((mem_sorted b _).mp (by rw [sorted]; exact List.mem_cons_self)),
    fun b' waits => head_sorted _ b rest sorted b' (mem_requested.mpr waits)⟩

/-- A request for a sector below all the others of its slot is the lowest (R117). -/
theorem lowestRequest_of (waits : s.requested p k b)
    (lowest : ∀ b' : Fin 4, s.requested p k b' → b' ≠ b → s.buffers[b].index < s.buffers[b'].index) : s.lowestRequest p k = some b := by
  cases found : s.lowestRequest p k with
  | none =>
    have member := (mem_sorted (s := s) b _).mpr (mem_requested.mpr waits)
    rw [List.head?_eq_none_iff.mp found] at member
    cases member
  | some c =>
    obtain ⟨also, least⟩ := lowestRequest_some found
    by_contra other
    have below := lowest c also fun same => other (congrArg some same)
    have := least b waits
    omega

/-- The tag that a block header names is the byte in its bits 15-8 (12, section 12.2). -/
theorem headerTag_iff {tag : Byte} : tag = BitVec.ofNat 8 (field h 15 8) ↔ tag.toNat = field h 15 8 := by
  have small := field_lt h 15 8
  rw [← BitVec.toNat_inj, BitVec.toNat_ofNat, Nat.mod_eq_of_lt small]

/-- The buffer that a block answers is the lowest request of the order that its header names (R117). -/
theorem wantedBuffer_iff : s.wantedBuffer p h = some b ↔
    ∃ k sl, (s.queues.get p).tagged (BitVec.ofNat 8 (field h 15 8)) = some (k, sl) ∧ s.lowestRequest p k = some b
      ∧ s.buffers[b].index = field h 5 0 := by
  unfold State.wantedBuffer
  rcases (s.queues.get p).tagged (BitVec.ofNat 8 (field h 15 8)) with _ | ⟨j, x⟩
  · simp
  · simp [Option.filter_eq_some_iff]

theorem exec_dataOut_unwanted (opened : (s.ports.get p).exchange = some ⟨.dataOut, l⟩) (idle : s.requests p = []) :
    exec (.dataOut p h ws) s = .next (s.answer p 21) := by
  show execDataOut p h ws s = _
  rw [execDataOut, opened]
  exact congrArg _ (if_pos idle)

theorem exec_dataOut_wanted (opened : (s.ports.get p).exchange = some ⟨.dataOut, l⟩) (asked : s.requests p ≠ []) :
    exec (.dataOut p h ws) s = .next (match s.wantedBuffer p h with
      | some b => (s.fillBuffer b ws).answer p 0
      | none => s.answer p 22) := by
  show execDataOut p h ws s = _
  rw [execDataOut, opened]
  exact congrArg _ (if_neg asked)

end

/-- Settles O20: the block answers the lowest request of the order that its header names, or none. -/
theorem aDataBlockIsJudged : Obligations.ADataBlockIsJudged := by
  intro s p h ws l length opened answered requested
  refine ⟨fun t code i => answer_fetch t p code i, exec_dataOut_unwanted opened,
    fun k sl b law live named waits index lowest => ?_, fun asked others => ?_⟩
  · have tagged : (s.queues.get p).tagged (BitVec.ofNat 8 (field h 15 8)) = some (k, sl) :=
      tagged_of_names ⟨live, headerTag_iff.mpr named, fun j x hj hx =>
        (law p).2.2.2.2 j k x sl hj live (hx.trans (headerTag_iff.mpr named).symm)⟩
    rw [exec_dataOut_wanted opened (requests_ne_nil law live waits),
      wantedBuffer_iff.mpr ⟨k, sl, tagged, lowestRequest_of waits lowest, index⟩]
    dsimp only
    rw [State.fillBuffer, fit256_of_length length]
    rfl
  · have unmet : s.wantedBuffer p h = none := by
      refine Option.eq_none_iff_forall_ne_some.mpr fun b wanted => ?_
      obtain ⟨k, sl, tagged, found, index⟩ := wantedBuffer_iff.mp wanted
      obtain ⟨live, named⟩ := tagged_some (s := s) tagged
      obtain ⟨waits, least⟩ := lowestRequest_some found
      obtain ⟨b', waits', below⟩ := others k sl b live (headerTag_iff.mp named) waits index
      have := least b' waits'
      omega
    rw [exec_dataOut_wanted opened asked, unmet]
    rfl

end Sys2Proof.Machine

/-! ## The data requests of the WRITE in service (O22) -/

namespace Sys2Proof.Machine

section
variable {s t u : State} {p : Port} {k : Fin 8} {sl : Slot} {b c : Fin 4} {i : Nat}

theorem putBuffer_buffer (s : State) (c : Fin 4) (x : Buffer) (b : Fin 4) :
    (s.putBuffer c x).buffers[b] = if b = c then x else s.buffers[b] := by
  simp only [State.putBuffer, Fin.getElem_fin, Vector.getElem_set, Fin.ext_iff, eq_comm]

/-- A request takes a FREE buffer, and leaves every other (R116). -/
theorem issueRequest_keeps (busy : s.buffers[b].state ≠ .free) : s.issueRequest.buffers[b] = s.buffers[b] := by
  rcases issueRequest_cases s with same | ⟨q, j, x, i, c, -, -, free, -, -, -, -, issued⟩
  · rw [same]
  · rw [issued, putBuffer_buffer, if_neg]
    rintro rfl
    exact busy free

/-- Requests take FREE buffers, and leave every other (R116). -/
theorem testRequests_keeps (busy : s.buffers[b].state ≠ .free) : s.testRequests.buffers[b] = s.buffers[b] := by
  have first := issueRequest_keeps busy
  have second := issueRequest_keeps (s := s.issueRequest) (by rw [first]; exact busy)
  have third := issueRequest_keeps (s := s.issueRequest.issueRequest) (by rw [second, first]; exact busy)
  exact third.trans (second.trans first)

/-! ### What is left to be requested -/

/-- No sector is left to be requested where each of those not yet done is in a buffer of the order (R116). -/
theorem nextRequest_none : s.nextRequest p k sl = none ↔ ∀ j, sl.sectorsDone ≤ j → j < sl.n →
    ∃ b : Fin 4, s.buffers[b].owner = some (p, k) ∧ s.buffers[b].index = j := by
  unfold State.nextRequest
  simp only [List.find?_eq_none, List.mem_filter, List.mem_range, decide_eq_true_eq, List.all_eq_true,
    Bool.not_eq_true', decide_eq_false_iff_not, not_forall, not_not, mem_owned, exists_prop]
  exact ⟨fun h j low high => h j ⟨high, low⟩, fun h j ⟨high, low⟩ => h j low high⟩

/-- A WRITE that may issue requests issues one where it holds few buffers, one is FREE and a sector is left (R116). -/
theorem issueRequest_issues (asks : s.mayAsk p k sl) (few : (s.owned p k).length < 3)
    (next : s.nextRequest p k sl = some i) (free : s.freeBuffer = some b) :
    s.issueRequest = s.putBuffer b ⟨.filling, some (p, k), i, []⟩ := by
  obtain ⟨served, write, first, kept, present⟩ := asks
  rw [State.issueRequest, served]
  dsimp only
  rw [if_pos ⟨write, first, kept, decide_eq_false present, few⟩, next, free]

/-- Once requests are issued, not even one more can be (R116). -/
theorem testRequests_fixed (s : State) : s.testRequests.issueRequest = s.testRequests := by
  rcases issueRequest_cases s.testRequests with same | ⟨q, j, x, i, c, -, -, free, -, -, -, -, issued⟩
  · exact same
  · have taken : s.testRequests.issueRequest.buffers[c].state = .filling := by rw [issued, putBuffer_buffer, if_pos rfl]
    have second := issueRequest_keeps (s := s.testRequests.issueRequest) (b := c) (by rw [taken]; decide)
    have third := issueRequest_keeps (s := s.testRequests.issueRequest.issueRequest) (b := c)
      (by rw [second, taken]; decide)
    have still : s.testRequests.testRequests.buffers[c].state = .filling := by
      rw [State.testRequests, third, second, taken]
    rw [testRequests_twice, free] at still
    cases still

/-- Requests are issued until the order holds three buffers, none is FREE, or no sector is left (R116). -/
theorem fixed_complete (asks : t.mayAsk p k sl) (fixed : t.issueRequest = t) :
    3 ≤ (t.owned p k).length ∨ (∀ b : Fin 4, t.buffers[b].state ≠ .free)
      ∨ ∀ j, sl.sectorsDone ≤ j → j < sl.n → ∃ b : Fin 4, t.buffers[b].owner = some (p, k) ∧ t.buffers[b].index = j := by
  by_contra left
  obtain ⟨few, free, next⟩ : (t.owned p k).length < 3 ∧ t.freeBuffer ≠ none ∧ t.nextRequest p k sl ≠ none := by
    rw [Ne, freeBuffer_none, Ne, nextRequest_none]
    simpa only [not_or, Nat.not_le] using left
  obtain ⟨b, free⟩ := Option.ne_none_iff_exists'.mp free
  obtain ⟨i, next⟩ := Option.ne_none_iff_exists'.mp next
  have wasFree := ((freeBuffer_iff t b).mp free).1
  rw [← fixed, issueRequest_issues asks few next free, putBuffer_buffer, if_pos rfl] at wasFree
  cases wasFree

/-! ### What has been requested -/

/-- Buffer `b` waits for sector `i` of a WRITE: it alone, and every lower sector not yet done is in a buffer of the
order's (R116). -/
def State.waitsFor (t : State) (p : Port) (k : Fin 8) (sl : Slot) (b : Fin 4) (i : Nat) : Prop :=
  t.buffers[b] = ⟨.filling, some (p, k), i, []⟩ ∧ sl.sectorsDone ≤ i ∧ i < sl.n
    ∧ (∀ b' : Fin 4, t.buffers[b'].owner = some (p, k) → t.buffers[b'].index = i → b' = b)
    ∧ ∀ j, sl.sectorsDone ≤ j → j < i → ∃ b' : Fin 4, t.buffers[b'].owner = some (p, k) ∧ t.buffers[b'].index = j

/-- The buffers of an order that owned another than `c` are still its own once `c` is taken. -/
theorem owned_after {x : Buffer} (apart : s.buffers[c].owner = none) {j : Nat}
    (held : ∃ b' : Fin 4, s.buffers[b'].owner = some (p, k) ∧ s.buffers[b'].index = j) :
    ∃ b' : Fin 4, (s.putBuffer c x).buffers[b'].owner = some (p, k) ∧ (s.putBuffer c x).buffers[b'].index = j := by
  obtain ⟨b', owns, index⟩ := held
  have other : b' ≠ c := by
    rintro rfl
    rw [apart] at owns
    cases owns
  exact ⟨b', by rw [putBuffer_buffer, if_neg other]; exact ⟨owns, index⟩⟩

/-- A request for the lowest sector in no buffer of the order waits for it in a buffer that none owned (R116). -/
theorem waitsFor_issued (apart : t.buffers[c].owner = none) (low : sl.sectorsDone ≤ i) (high : i < sl.n)
    (fresh : ∀ b' : Fin 4, t.buffers[b'].owner = some (p, k) → t.buffers[b'].index ≠ i)
    (lower : ∀ j, sl.sectorsDone ≤ j → j < i →
      ∃ b' : Fin 4, t.buffers[b'].owner = some (p, k) ∧ t.buffers[b'].index = j) :
    (t.putBuffer c ⟨.filling, some (p, k), i, []⟩).waitsFor p k sl c i := by
  refine ⟨by rw [putBuffer_buffer, if_pos rfl], low, high, fun b' owns index => ?_,
    fun j low' below => owned_after apart (lower j low' below)⟩
  by_contra other
  rw [putBuffer_buffer, if_neg other] at owns index
  exact fresh b' owns index

/-- A buffer that waits for a sector still waits for it once another request is issued (R116). -/
theorem State.waitsFor.issued {j : Nat} (h : t.waitsFor p k sl b j) (apart : t.buffers[c].owner = none) (other : b ≠ c)
    (fresh : ∀ b' : Fin 4, t.buffers[b'].owner = some (p, k) → t.buffers[b'].index ≠ i) :
    (t.putBuffer c ⟨.filling, some (p, k), i, []⟩).waitsFor p k sl b j := by
  obtain ⟨waits, low, high, alone, lower⟩ := h
  refine ⟨by rw [putBuffer_buffer, if_neg other]; exact waits, low, high, fun b' owns index => ?_,
    fun j' low' below => owned_after apart (lower j' low' below)⟩
  by_cases new : b' = c
  · rw [putBuffer_buffer, if_pos new] at index
    exact absurd (by rw [waits]; exact index.symm) (fresh b (by rw [waits]))
  · rw [putBuffer_buffer, if_neg new] at owns index
    exact alone b' owns index

/-- From `s` to `t` a WRITE has requested its lowest sectors, each in a buffer that was FREE (R116). -/
structure Requesting (p : Port) (k : Fin 8) (sl : Slot) (s t : State) : Prop where
  asks : t.mayAsk p k sl
  law : t.bufferLaw
  taken : ∀ b : Fin 4, s.buffers[b].state = .free → t.buffers[b] = s.buffers[b] ∨ ∃ i, t.waitsFor p k sl b i
  few : (t.owned p k).length ≤ 3 ∨ t = s

/-- Under the law a slot's buffers are those of its own that are not FREE. -/
theorem owned_eq_of_law (law : s.bufferLaw) (p : Port) (k : Fin 8) : s.owned p k =
    bufferNumbers.filter fun b => decide (s.buffers[b].owner = some (p, k) ∧ s.buffers[b].state ≠ .free) := by
  refine List.filter_congr fun b _ => decide_eq_decide.mpr ⟨fun owns => ⟨owns, fun free => ?_⟩, And.left⟩
  rw [law b free] at owns
  cases owns

theorem Requesting.issue (h : Requesting p k sl s t) : Requesting p k sl s t.issueRequest := by
  rcases issueRequest_cases t with same | ⟨q, j, x, i, c, asks, few, free, low, high, fresh, lower, issued⟩
  · rw [same]
    exact h
  · obtain ⟨⟩ : some (p, k, sl) = some (q, j, x) := h.asks.1.symm.trans asks.1
    have apart : t.buffers[c].owner = none := h.law c free
    have law : t.issueRequest.bufferLaw := by rw [issued]; exact putBuffer_law (fun free => by cases free) h.law
    have asks' : t.issueRequest.mayAsk p k sl := by rw [issued]; exact asks
    refine ⟨asks', law, fun b was => ?_, .inl ?_⟩
    · rw [issued]
      by_cases here : b = c
      · subst here
        exact .inr ⟨i, waitsFor_issued apart low high fresh lower⟩
      · rcases h.taken b was with same | ⟨j, waits⟩
        · exact .inl (by rw [putBuffer_buffer, if_neg here]; exact same)
        · exact .inr ⟨j, waits.issued apart here fresh⟩
    · have count := issued_count (s := t) (p := p) (k := k) ⟨.filling, some (p, k), i, []⟩ ⟨rfl, by simp⟩ free
      rw [← issued, ← owned_eq_of_law law, ← owned_eq_of_law h.law] at count
      omega

theorem requesting_testRequests (law : s.bufferLaw) (asks : s.mayAsk p k sl) :
    Requesting p k sl s s.testRequests := by
  have start : Requesting p k sl s s := ⟨asks, law, fun _ _ => .inl rfl, .inr rfl⟩
  exact start.issue.issue.issue

end

/-- Settles O22: three requests issued one after another, the last of which leaves none to be issued. -/
theorem requestsRunThreeSectorsAhead : Obligations.RequestsRunThreeSectorsAhead := by
  rintro s t rfl
  refine ⟨testRequests_buffers s, fun b busy => testRequests_keeps busy, fun barred => ?_,
    fun p k sl law served write first kept present => ?_⟩
  · refine testRequests_idle fun p k sl ⟨served, write, first, kept, present⟩ => ?_
    rcases barred p k sl served with other | verifying | withdrawn | lost
    · exact other write
    · rw [first] at verifying
      cases verifying
    · rw [kept] at withdrawn
      cases withdrawn
    · exact present lost
  · have done := requesting_testRequests law ⟨served, write, first, kept, present⟩
    exact ⟨done.taken, done.few, fixed_complete done.asks (testRequests_fixed s)⟩

end Sys2Proof.Machine

/-! ## The run condition and the drive (O53) -/

namespace Sys2Proof.Machine

section
variable {s : State} {cart : Option Cartridge} {c d st : Bool}

/-- Only the over-temperature line makes entry into SPINNING UP more than its own items (R130). -/
theorem enterSpinningUp_eq (s : State) : s.enterSpinningUp =
    let up : State := { s with
      pos := { s.pos with inBand := false, outRun := 0, inRun := 0, lastIndex := none, extra := false }
      drive := { s.drive with
        state := .spinningUp, spinUp := some (tickAfter s.tick 600000), attempts := 0, stopPending := false,
        fault := none, runDown := none } }
    if s.lines.overTemp then up.enterFaulted .overtemp else up := rfl

/-- The state in which the run condition's coming to hold is judged: the three lines are active, and another cartridge
may be in place (R129). -/
def State.runRises (s : State) (cart : Option Cartridge) : State :=
  (s.exchange cart).onLines fun l => { l with cartridge := true, door := true, start := true }

theorem runRises_eq (s : State) (cart : Option Cartridge) : s.runRises cart = { s with
    lines := { s.lines with cartridge := true, door := true, start := true }
    disk := match cart with
      | some x => if s.drive.state = .empty ∨ s.drive.state = .spinningDown then Cartridge.ofList x else s.disk
      | none => s.disk } := by
  cases cart with
  | none => rfl
  | some x =>
    unfold State.runRises State.exchange
    dsimp only
    split <;> rfl

theorem exec_runConditionHolds_again (h : s.lines.run = true) : exec (.runConditionHolds cart) s = .next s :=
  congrArg _ (if_pos h)

theorem exec_runConditionHolds_rises (h : s.lines.run = false) :
    exec (.runConditionHolds cart) s = .next (s.runRises cart).runHolds.judgeAlarm :=
  congrArg _ (if_neg (by simp [h]))

/-- The state in which the run condition's coming to fail is judged: the three lines have their levels (R138). -/
def State.runLines (s : State) (c d st : Bool) : State :=
  { s with lines := { s.lines with cartridge := c, door := d, start := st } }

theorem exec_runConditionFails_stays (h : s.lines.run = false ∨ (c && d && st) = true) :
    exec (.runConditionFails c d st) s = .next (s.runLines c d st) := by
  refine congrArg _ (if_neg fun ⟨held, fails⟩ => ?_)
  rcases h with off | on
  · rw [held] at off
    cases off
  · exact absurd on (by rw [show (c && d && st) = false from fails]; decide)

theorem exec_runConditionFails_falls (h : s.lines.run = true) (hf : (c && d && st) = false) :
    exec (.runConditionFails c d st) s = .next (s.runLines c d st).runFails.judgeAlarm :=
  congrArg _ (if_pos ⟨h, hf⟩)

/-- The run condition's coming to fail, by the state: nothing, a pending stop, or a run-down (R138). -/
theorem runFails_cases (s : State) :
    (s.drive.state = .empty ∨ s.drive.state = .spinningDown → s.runFails = s)
    ∧ (s.drive.state = .ready ∨ s.drive.state = .degraded → s.inService ≠ none →
        s.runFails = { s with drive := { s.drive with stopPending := true } })
    ∧ ((s.drive.state = .ready ∨ s.drive.state = .degraded) ∧ s.inService = none ∨ s.drive.state = .spinningUp
        ∨ s.drive.state = .calibrating ∨ s.drive.state = .labelRead ∨ s.drive.state = .faulted →
        s.runFails = s.enterSpinningDown) := by
  unfold State.runFails
  refine ⟨fun h => ?_, fun h served => ?_, fun h => ?_⟩
  · rcases h with e | e <;> rw [e]
  · rcases h with e | e <;> rw [e] <;> exact if_neg served
  · rcases h with ⟨e | e, idle⟩ | e | e | e | e <;> rw [e]
    · exact if_pos idle
    · exact if_pos idle

theorem exec_runDownTimeout (s : State) : exec .runDownTimeout s =
    .next (if s.drive.state = .spinningDown ∧ s.ranOut s.drive.runDown = true then s.enterEmpty.judgeAlarm else s) := rfl

/-- A stopped drive whose run condition fails is EMPTY (R140). -/
theorem enterEmpty_stays (h : s.lines.run = false) :
    s.enterEmpty = { s with drive := { s.drive with state := .empty, runDown := none } } :=
  if_neg (by simp [State.onDrive, h])

/-- A stopped drive whose run condition holds spins up again (R129, R140). -/
theorem enterEmpty_spinsUp (h : s.lines.run = true) : s.enterEmpty = s.enterSpinningUp :=
  if_pos (c := s.lines.run = true) h

end

/-- Settles O53: the lines' edges by the drive's state, and an entry into SPINNING UP by the over-temperature line. -/
theorem theRunConditionStartsAndStopsTheDrive : Obligations.TheRunConditionStartsAndStopsTheDrive := by
  intro s cart c d st law held failed up ranOut
  have listed (q : Port) : Listed s q := .of law q
  have rises : s.runRises cart = held := runRises_eq s cart
  have ran : s.drive.state = .spinningDown ∧ s.ranOut s.drive.runDown = true ↔ ranOut := by rw [ranOut_iff_exists]
  obtain ⟨still, pends, stops⟩ := runFails_cases failed
  refine ⟨exec_runConditionHolds_again, fun off other => ?_, fun off empty => ⟨fun cool => ?_, fun hot service => ?_⟩,
    exec_runConditionFails_stays, fun on fails => ⟨fun idle => ?_, fun serves served => ?_, fun spins => ?_⟩,
    fun early => ?_, fun due off => ?_, fun due on => ⟨fun cool => ?_, fun hot service => ?_⟩⟩
  · rw [exec_runConditionHolds_rises off, rises, State.runHolds, if_neg other]
    rfl
  · rw [exec_runConditionHolds_rises off, rises, State.runHolds, if_pos empty, enterSpinningUp_eq, cool]
    rfl
  · rw [exec_runConditionHolds_rises off, rises, State.runHolds, if_pos empty, enterSpinningUp_eq, hot]
    exact faultsThen_of (s := up held) service (fun q => (listed q).congr rfl) .overtemp
  · rw [exec_runConditionFails_falls on fails]
    exact congrArg (fun t : State => Host.Outcome.next t.judgeAlarm) (still idle)
  · rw [exec_runConditionFails_falls on fails]
    exact congrArg (fun t : State => Host.Outcome.next t.judgeAlarm) (pends serves served)
  · rw [exec_runConditionFails_falls on fails]
    exact ⟨failed.enterSpinningDown, enterSpinningDown_spec fun q => (listed q).congr rfl,
      congrArg (fun t : State => Host.Outcome.next t.judgeAlarm) (stops spins)⟩
  · rw [exec_runDownTimeout, if_neg (mt ran.mp early)]
  · rw [exec_runDownTimeout, if_pos (ran.mpr due), enterEmpty_stays off]
  · rw [exec_runDownTimeout, if_pos (ran.mpr due), enterEmpty_spinsUp on, enterSpinningUp_eq, cool]
    rfl
  · rw [exec_runDownTimeout, if_pos (ran.mpr due), enterEmpty_spinsUp on, enterSpinningUp_eq, hot]
    exact faultsThen_of (s := up s) service (fun q => (listed q).congr rfl) .overtemp

end Sys2Proof.Machine

/-! ## RESTART DRIVE is accepted (R130, R137) -/

namespace Sys2Proof.Machine

variable {s : State} {p : Port} {k : Packet}

/-- With the over-temperature line inactive the drive enters SPINNING UP and stays there: the speed measurement begins
anew, the spin-up timer starts, and the fault reason is dropped (R130). -/
theorem enterSpinningUp_cool (cool : s.lines.overTemp = false) : s.enterSpinningUp = { s with
    pos := { s.pos with inBand := false, outRun := 0, inRun := 0, lastIndex := none, extra := false }
    drive := { s.drive with
      state := .spinningUp, spinUp := some (tickAfter s.tick 600000), attempts := 0, stopPending := false,
      fault := none, runDown := none } } :=
  (enterSpinningUp_eq s).trans (if_neg (by simp [cool]))

/-- A RESTART DRIVE passes its checks in FAULTED with the over-temperature line inactive (R137). -/
theorem restartDrive_passes (faulted : s.drive.state = .faulted) (cool : s.lines.overTemp = false) :
    restartDriveRule.own s p k = none := by
  simp [restartDriveRule, faulted, cool]

/-- Settles O30: the checks pass, and the drive, its port disarmed, enters SPINNING UP before the order is answered. -/
theorem aRestartSpinsUp : Obligations.ARestartSpinsUp := by
  intro s p tag w1 w2 k complete hk armed hu hd faulted cool u
  have spins : (s.disarm p).enterSpinningUp = u := enterSpinningUp_cool (s := s.disarm p) cool
  refine orderPacket_answered restartDriveRule [] State.judgeAlarm hk complete hu hd rfl (.inr armed)
    (restartDrive_passes faulted cool) (u := u) ?_ rfl rfl
  exact congrArg (fun t : State => (t.answerNow p .restartDrive tag []).judgeAlarm) spins

end Sys2Proof.Machine

/-! ## The test pattern's register (R150) -/

namespace Sys2Proof.Machine

/-- The bit that enters the pattern register at the low end (R150). -/
def patternBit (r : Word) : Bool := (r.getLsbD 15 ^^ r.getLsbD 13) ^^ (r.getLsbD 12 ^^ r.getLsbD 10)

theorem patternStep_eq (r : Word) : patternStep r = (r <<< 1) ||| (if patternBit r then 1 else 0) := by
  rw [patternStep, patternBit, ← Bool.xor_assoc (r.getLsbD 15 ^^ r.getLsbD 13)]

/-- The low end after a step is the bit that entered. -/
@[simp] theorem patternStep_bit_zero (r : Word) : (patternStep r).getLsbD 0 = patternBit r := by
  rw [patternStep_eq]
  cases patternBit r <;> simp

/-- Every other bit after a step stood one place below. -/
@[simp] theorem patternStep_bit_succ (r : Word) {i : Nat} (h : i < 15) :
    (patternStep r).getLsbD (i + 1) = r.getLsbD i := by
  rw [patternStep_eq]
  cases patternBit r <;> simp <;> omega

/-- The bits kept are read off one place up, and then the bit that entered gives back bit 15, the one lost. -/
theorem patternStep_injective : Function.Injective patternStep := by
  intro r r' same
  have kept (i : Nat) (h : i < 15) : r.getLsbD i = r'.getLsbD i := by
    rw [← patternStep_bit_succ r h, same, patternStep_bit_succ r' h]
  have entered : patternBit r = patternBit r' := by
    rw [← patternStep_bit_zero, same, patternStep_bit_zero]
  have lost : r.getLsbD 15 = r'.getLsbD 15 := by
    rw [patternBit, patternBit, kept 13 (by decide), kept 12 (by decide), kept 10 (by decide)] at entered
    exact Bool.xor_left_inj.mp (Bool.xor_left_inj.mp entered)
  apply BitVec.eq_of_getLsbD_eq
  intro i h
  rcases Nat.lt_succ_iff_lt_or_eq.mp h with below | rfl
  · exact kept i below
  · exact lost

theorem patternSteps_eq_iterate (n : Nat) (r : Word) : patternSteps n r = patternStep^[n] r := by
  induction n generalizing r with
  | zero => rfl
  | succ n ih => exact ih (patternStep r)

theorem patternSteps_add (m n : Nat) (r : Word) : patternSteps (m + n) r = patternSteps m (patternSteps n r) := by
  simp only [patternSteps_eq_iterate, Function.iterate_add_apply]

/-- 0 steps to 0, and no other register does, for no value is reached from two. -/
theorem patternSteps_ne_zero (n : Nat) {r : Word} (h : r ≠ 0) : patternSteps n r ≠ 0 := by
  have fixed : patternStep^[n] 0 = 0 := Function.iterate_fixed (by decide) n
  rw [patternSteps_eq_iterate, ← fixed]
  exact (patternStep_injective.iterate n).ne h

/-- Each word is 16 steps on from the one before it. -/
theorem patternWords_getElem? {n j : Nat} (h : j < n) (r : Word) :
    (patternWords n r)[j]? = some (patternSteps (16 * (j + 1)) r) := by
  induction n generalizing j r with
  | zero => omega
  | succ n ih =>
    cases j with
    | zero => rfl
    | succ j =>
      rw [patternWords, List.getElem?_cons_succ, ih (by omega), ← patternSteps_add]
      rfl

/-- The words of a sector go on from those of the sectors before it (R150). -/
theorem patternSector_getElem? (seed : Word) (s : Nat) {j : Nat} (h : j < 256) :
    (patternSector seed s)[j]? = some (patternSteps (16 * (256 * s + j + 1)) (seedUsed seed)) := by
  rw [patternSector, patternWords_getElem? h, ← patternSteps_add]
  congr 2
  omega

/-- Settles O57: a step loses no bit, and the words of a sector count their steps from the seed. -/
theorem theTestPatternIsTheStatedRegister : Obligations.TheTestPatternIsTheStatedRegister := by
  refine ⟨fun _ _ same => patternStep_injective same, patternStep_eq, fun n _ h => patternSteps_ne_zero n h,
    fun seed s _ h => patternSector_getElem? seed s h, ?_⟩
  decide

end Sys2Proof.Machine

/-! ## The command at the front of the queue (O1) -/

namespace Sys2Proof.Machine

/-- A step on a queue that is not empty is the front command, run with the rest waiting. -/
theorem step_front {s : State} {c : Instr} {rest : List Instr} (waiting : s.pending = c :: rest) :
    step s = exec c { s with pending := rest } := by
  rw [step, waiting]

/-- Settles O1: the rest put back in the queue's place leaves nothing of the longer queue. -/
theorem stepRunsTheFrontCommand : Obligations.StepRunsTheFrontCommand :=
  fun c rest s => step_front (s := { s with pending := c :: rest }) rfl

end Sys2Proof.Machine

/-! ## The opening words of the OUT exchanges, of no kind, and stray words (O16, O18) -/

namespace Sys2Proof.Machine

section
variable {s : State} {p : Port} {w : Word}

/-- A port just opened that refuses an order is closed again, with the code as the word it holds ready (R51, R155). -/
theorem refuse_portOpened (e : Option Exchange) (ready : List Word) (r : Refuse) :
    (s.portOpened p e ready).refuse p r = ((s.portOpened p none [r.code]).onPort p fun x =>
      { x with armed := false, lastWord := r.code }).count p r.counter := by
  rw [refuse_eq, State.refusedWith, State.portOpened, State.portOpened, onPort_onPort, onPort_onPort]
  rfl

theorem exec_orderOutOpening_closed (closed : (s.ports.get p).exchange = none)
    (there : (s.ports.get p).presence ≠ .lost) : exec (.orderOutOpening p w) s =
      .next (if field w 7 0 = 0 then (s.portOpened p none []).refuse p .malformed
        else s.portOpened p (some ⟨.orderOut (field w 7 0), [w]⟩) []) := by
  show execOrderOutOpening p w s = _
  rw [execOrderOutOpening, openWord_plain closed there, openExchange_portOpened]

theorem exec_dataOutOpening_closed (closed : (s.ports.get p).exchange = none)
    (there : (s.ports.get p).presence ≠ .lost) :
    exec (.dataOutOpening p w) s = .next (s.portOpened p (some ⟨.dataOut, [w]⟩) []) := by
  show execDataOutOpening p w s = _
  rw [execDataOutOpening, openWord_plain closed there, openExchange_portOpened]

theorem exec_openingWordNoKind_closed (closed : (s.ports.get p).exchange = none)
    (there : (s.ports.get p).presence ≠ .lost) :
    exec (.openingWordNoKind p w) s = .next ((s.portOpened p none []).count p .shortExchanges) := by
  show execOpeningWordNoKind p w s = _
  rw [execOpeningWordNoKind, openWord_plain closed there]

theorem exec_strayWord_closed (closed : (s.ports.get p).exchange = none) : exec (.strayWord p w) s = .next s := by
  show execStrayWord p w s = _
  rw [execStrayWord, closed]

/-- While an exchange is open a stray word is the next of its words (assumption 10). -/
theorem exec_strayWord_open {e : Exchange} (opened : (s.ports.get p).exchange = some e) : exec (.strayWord p w) s =
    .next (s.onPort p fun x => { x with exchange := some { e with moved := e.moved ++ [w] } }) := by
  show execStrayWord p w s = _
  rw [execStrayWord, opened]

end

/-- Settles O16: what the opening word leaves, and a word count of 0 as a refusal of the port just opened. -/
theorem anOutExchangeOpens : Obligations.AnOutExchangeOpens := by
  intro s p w closed there
  refine ⟨fun counted => ?_, fun empty => ?_, exec_dataOutOpening_closed closed there⟩
  · rw [exec_orderOutOpening_closed closed there, if_neg counted]
  · rw [exec_orderOutOpening_closed closed there, if_pos empty, refuse_portOpened]
    rfl

/-- Settles O18: a word of no kind leaves its port opened for nothing, a stray word goes by the exchange it finds. -/
theorem wordsThatOpenNothing : Obligations.WordsThatOpenNothing :=
  fun _ _ _ => ⟨exec_openingWordNoKind_closed, exec_strayWord_closed, fun _ _ opened => exec_strayWord_open opened⟩

end Sys2Proof.Machine

/-! ## The alarm line and its flash timer (O12)

Nothing but the judgement of the alarm line and the flash timer's expiry changes the line's manner or the timer. So a
command that changes what the manner rests on, and then judges the line, finds the timer still running while the line
flashes. -/

namespace Sys2Proof.Machine

-- Every thread of the checker reserves a whole stack: these many short proofs are checked one after another.
set_option Elab.async false

section
variable {s t : State} {p : Port} {k : Fin 8} {sl : Slot} {g : Progress} {q : Pass} {d : DataReading}

/-- While the line flashes the flash timer runs (R167). -/
def FlashRuns (s : State) : Prop := s.alarms.manner = .flashing → s.alarms.flash ≠ none

/-- An operation that leaves the manner and the flash timer. -/
theorem FlashRuns.same (h : FlashRuns s) (hm : t.alarms.manner = s.alarms.manner := by rfl)
    (hf : t.alarms.flash = s.alarms.flash := by rfl) : FlashRuns t :=
  fun e => by rw [hf]; exact h (hm ▸ e)

theorem FlashRuns.ite {c : Prop} [Decidable c] (h : c → FlashRuns s) (h' : ¬c → FlashRuns t) :
    FlashRuns (if c then s else t) := by
  split
  · next hc => exact h hc
  · next hc => exact h' hc

theorem FlashRuns.foldl {α : Type} (l : List α) (f : State → α → State) (hf : ∀ s x, FlashRuns s → FlashRuns (f s x))
    (h : FlashRuns s) : FlashRuns (l.foldl f s) := by
  induction l generalizing s with
  | nil => exact h
  | cons x l ih => exact ih (hf s x h)

theorem FlashRuns.latch {x : Source} (h : FlashRuns s) : FlashRuns (s.latch x) := h.same

theorem FlashRuns.setLabel {l : Label} (h : FlashRuns s) : FlashRuns (s.setLabel l) := h.same

theorem FlashRuns.onDrive {f : Supervisor → Supervisor} (h : FlashRuns s) : FlashRuns (s.onDrive f) := h.same

theorem FlashRuns.onPos {f : Positioner → Positioner} (h : FlashRuns s) : FlashRuns (s.onPos f) := h.same

theorem FlashRuns.onPort {f : PortIf → PortIf} (h : FlashRuns s) : FlashRuns (s.onPort p f) := h.same

theorem FlashRuns.onLines {f : Lines → Lines} (h : FlashRuns s) : FlashRuns (s.onLines f) := h.same

theorem FlashRuns.count {c : Counter} (h : FlashRuns s) : FlashRuns (s.count p c) := h.same

theorem FlashRuns.testRequests (h : FlashRuns s) : FlashRuns s.testRequests := by
  rw [testRequests_buffers]; exact h.same

/-! ### Endings -/

theorem FlashRuns.leaveActuator (h : FlashRuns s) : FlashRuns (s.leaveActuator p k) := by
  unfold State.leaveActuator
  split
  · exact h
  · dsimp only
    split <;> exact h.same

theorem FlashRuns.countEnding {e : Ending} (h : FlashRuns s) : FlashRuns (s.countEnding p e) := by
  unfold State.countEnding
  split <;> exact h.same

theorem FlashRuns.endSlot {e : Ending} {fa : Option Addr} (h : FlashRuns s) : FlashRuns (s.endSlot p k e fa) := by
  unfold State.endSlot
  split
  · exact h
  · refine .ite (fun _ => h) fun _ => .testRequests (.same (.countEnding (p := p) (e := e) ?_))
    exact .same (.ite (fun _ => h.leaveActuator) fun _ => h)

theorem FlashRuns.endDiskPhase {e : Ending} {fa : Option Addr} (h : FlashRuns s) :
    FlashRuns (s.endDiskPhase p k sl e fa) := .ite (fun _ => h.leaveActuator.same) fun _ => h.endSlot

theorem FlashRuns.freeWithdrawn (h : FlashRuns s) : FlashRuns (s.freeWithdrawn p k) :=
  .testRequests h.leaveActuator.same

theorem FlashRuns.endWhere {P : Slot → Bool} {e : Ending} (h : FlashRuns s) : FlashRuns (s.endWhere p P e) := by
  refine FlashRuns.foldl _ _ (fun s k h => ?_) h
  split
  · exact .ite (fun _ => h.endSlot) fun _ => h
  · exact h

theorem FlashRuns.recheckPort (h : FlashRuns s) : FlashRuns (s.recheckPort p) := by
  refine FlashRuns.foldl _ _ (fun s k h => ?_) h
  split
  · split
    · exact h.endSlot
    · exact h
  · exact h

theorem FlashRuns.loadMap {m : Plan} {o : Origin} (h : FlashRuns s) : FlashRuns (s.loadMap m o) :=
  (h.same (t := s.setActive m o)).recheckPort.recheckPort

theorem FlashRuns.loadMapLatched {m : Plan} {o : Origin} (h : FlashRuns s) : FlashRuns (s.loadMapLatched m o) :=
  .same (h.loadMap (m := m) (o := o))

theorem FlashRuns.autoChangeover (h : FlashRuns s) : FlashRuns s.autoChangeover :=
  .ite (fun _ => h.loadMapLatched) fun _ => h

theorem FlashRuns.endWith {r : Result} (h : FlashRuns s) : FlashRuns (s.endWith p k r).1 := by
  unfold State.endWith
  dsimp only
  split <;> split
  · exact .endDiskPhase h.same
  · exact .endDiskPhase h.same
  · exact h.same
  · exact h.same

/-! ### The positioner and the supervisor -/

theorem FlashRuns.cutPass (h : FlashRuns s) : FlashRuns s.cutPass := by
  unfold State.cutPass
  split
  · exact .ite (fun _ => h.same) fun _ => h.same
  · exact h

theorem FlashRuns.requestPositioning {x : Addr} (h : FlashRuns s) : FlashRuns (s.requestPositioning x) :=
  .ite (fun _ => h.same) fun _ => h.same

theorem FlashRuns.loseLabel {st : LabelState} (h : FlashRuns s) : FlashRuns (s.loseLabel st) :=
  .ite (fun _ => h.same) fun _ => h.same

theorem FlashRuns.enterSpinningDown (h : FlashRuns s) : FlashRuns s.enterSpinningDown :=
  .setLabel (.endWhere (.endWhere h.same))

theorem FlashRuns.faultInService (h : FlashRuns s) : FlashRuns s.faultInService := by
  have damaged : FlashRuns (if s.labelOpen then s.setLabel (.blank .damaged) else s) :=
    .ite (fun _ => h.same) fun _ => h
  unfold State.faultInService
  dsimp only
  split
  · exact damaged.cutPass.endSlot
  · exact damaged.cutPass

theorem FlashRuns.enterFaulted {why : FaultReason} (h : FlashRuns s) : FlashRuns (s.enterFaulted why) := by
  have ended : FlashRuns ((s.faultInService.endWhere .a Slot.waits .driveFault).endWhere .b Slot.waits .driveFault) :=
    h.faultInService.endWhere.endWhere
  exact .ite (fun _ => .enterSpinningDown ended.same) fun _ => ended.same

theorem FlashRuns.enterSpinningUp (h : FlashRuns s) : FlashRuns s.enterSpinningUp :=
  .ite (fun _ => .enterFaulted h.same) fun _ => h.same

theorem FlashRuns.judgeRun (h : FlashRuns s) : FlashRuns s.judgeRun := .ite (fun _ => h.enterSpinningUp) fun _ => h

theorem FlashRuns.enterLabelRead (h : FlashRuns s) : FlashRuns s.enterLabelRead := .requestPositioning h.same

theorem FlashRuns.weighReasons (h : FlashRuns s) : FlashRuns s.weighReasons :=
  .ite (fun _ => .ite (fun _ => h) fun _ => h.same) fun _ => h.same

theorem FlashRuns.finishLabelRead {l : Label} (h : FlashRuns s) : FlashRuns (s.finishLabelRead l) :=
  .ite (fun _ => .weighReasons h.same) fun _ => .latch (.weighReasons h.same)

theorem FlashRuns.setReasons {x y : Bool} (h : FlashRuns s) : FlashRuns (s.setReasons x y) :=
  .ite (fun _ => .weighReasons h.same) fun _ => h

theorem FlashRuns.seekError (h : FlashRuns s) : FlashRuns s.seekError :=
  .ite (fun _ => h.same) fun _ => .enterFaulted h.same

theorem FlashRuns.headerMismatch {x : Addr} (h : FlashRuns s) : FlashRuns (s.headerMismatch x) := .seekError h.same

theorem FlashRuns.recalibrationFailed (h : FlashRuns s) : FlashRuns s.recalibrationFailed :=
  .ite (fun _ => .ite (fun _ => h.same) fun _ => .enterFaulted h.same) fun _ => .seekError h.same

/-! ### The scheduler -/

theorem FlashRuns.goTo {x : Addr} (h : FlashRuns s) : FlashRuns (s.goTo x).1 := h.requestPositioning

theorem FlashRuns.beginData (h : FlashRuns s) : FlashRuns (s.beginData sl).1 := by
  have asked (n : Nat) (dest : Option Nat) : FlashRuns (s.setProgress n dest .data).testRequests := .testRequests h.same
  unfold State.beginData
  split
  · exact .goTo (asked _ _).same
  · exact .goTo (asked _ _)

theorem FlashRuns.beginAssign {x : Addr} (h : FlashRuns s) : FlashRuns (s.beginAssign p k x).1 := by
  unfold State.beginAssign
  split
  · exact h.endSlot
  · dsimp only
    split
    · split
      · exact .endSlot h.same
      · exact .goTo h.same
    · split
      · exact .endSlot h.same
      · exact .goTo h.same

theorem FlashRuns.handTo (h : FlashRuns s) : FlashRuns (s.handTo p k).1 := by
  unfold State.handTo
  dsimp only
  split
  · exact h.same
  · split
    · exact .goTo h.same
    · exact .goTo h.same
    · exact .goTo h.same
    · exact .beginAssign h.same
    · exact .beginData h.same

theorem FlashRuns.select (h : FlashRuns s) : FlashRuns s.select.1 := by
  unfold State.select
  split
  · dsimp only
    split
    · exact h.handTo
    · split
      · exact h.handTo
      · split
        · exact .handTo h.same
        · exact h
  · exact h

theorem FlashRuns.checkSuspension {pos : Nat} {r : State × Agenda} (h : FlashRuns s)
    (e : s.checkSuspension p k pos = some r) : FlashRuns r.1 := by
  unfold State.checkSuspension at e
  split at e
  · cases e
  · split at e
    · cases e
      exact .handTo h.same
    · cases e

/-! ### Boundaries -/

theorem FlashRuns.nextSector (h : FlashRuns s) : FlashRuns (s.nextSector sl g).1 := by
  unfold State.nextSector
  split
  · exact .goTo h.same
  · dsimp only
    split
    · exact h.same
    · exact .goTo h.same

theorem FlashRuns.dataBoundary {pos : Nat} {r : Option Result} {c : Bool} (h : FlashRuns s) :
    FlashRuns (s.dataBoundary p k pos r c).1 := by
  unfold State.dataBoundary
  split
  · split
    · exact h.freeWithdrawn
    · split
      · exact h.endWith
      · split
        · exact h.endWith
        · split
          · exact h.endWith
          · split
            · exact h.endWith
            · split
              · next e => exact h.checkSuspension e
              · split
                · exact h.nextSector
                · exact h
  · exact h

theorem FlashRuns.maintBoundary {r : Option Result} {x : State × Agenda} (h : FlashRuns s)
    (e : s.maintBoundary p k r = some x) : FlashRuns x.1 := by
  unfold State.maintBoundary at e
  split at e
  · cases e
  · split at e
    · cases e; exact h.freeWithdrawn
    · split at e
      · cases e; exact h.endWith
      · split at e
        · cases e; exact h.endWith
        · split at e
          · cases e; exact h.endWith
          · cases e

theorem FlashRuns.maintThen {pos : Nat} {r : Option Result} {go : State × Agenda} (h : FlashRuns s)
    (hgo : FlashRuns go.1) : FlashRuns (s.maintThen p k pos r go).1 := by
  unfold State.maintThen
  split
  · next e => exact h.maintBoundary e
  · split
    · next e => exact h.checkSuspension e
    · exact hgo

/-! ### Sector starts -/

theorem FlashRuns.takePass {x : PassKind} {a : Addr} {ws : List Word} {r : HeaderReading} (h : FlashRuns s) :
    FlashRuns (s.takePass p k g x a ws r).1 := by
  unfold State.takePass
  dsimp only
  split <;> split
  · exact .headerMismatch h.same
  · exact .headerMismatch h.same
  iterate 4 exact h.same

theorem FlashRuns.startData {r : HeaderReading} (h : FlashRuns s) : FlashRuns (s.startData p k sl g r).1 := by
  unfold State.startData
  dsimp only
  split
  · split
    · exact h.same
    · split
      · exact h.same
      · split
        · exact h.endWith
        · exact h.takePass
  · split
    · exact h.endWith
    · exact h.takePass
  · split
    · split
      · exact h.endWith
      · exact h.takePass
    · split
      · exact h.same
      · split
        · exact h.endWith
        · split
          · exact h.endWith
          · split
            · exact h.endWith
            · exact h.takePass
  · exact h

theorem FlashRuns.startFormat (h : FlashRuns s) : FlashRuns (s.startFormat p k sl).1 := by
  unfold State.startFormat
  dsimp only
  split
  · exact h.endWith
  · split
    · exact h.endWith
    · split
      · exact h.endWith
      · split
        · exact .same h.loseLabel
        · exact h.same

theorem FlashRuns.startFrozen {x : PassKind} {a : Addr} {ws : List Word} {r : HeaderReading} (h : FlashRuns s) :
    FlashRuns (s.startFrozen p k g x a ws r).1 := by
  unfold State.startFrozen
  split
  · exact h.endWith
  · split
    · exact h.endWith
    · exact h.takePass

theorem FlashRuns.startTest {n : Nat} {w : Bool} {r : HeaderReading} (h : FlashRuns s) :
    FlashRuns (s.startTest p k sl n w r).1 := by
  unfold State.startTest
  dsimp only
  split
  · split
    · split
      · exact h.endWith
      · exact h.same
    · exact h.same
  · exact h

theorem FlashRuns.startInService {n : Nat} {r : HeaderReading} (h : FlashRuns s) :
    FlashRuns (s.startInService p k sl g n r).1 := by
  unfold State.startInService
  split
  · split
    · exact h.startData
    · exact h
  · split
    · exact h.startFormat
    · exact h
  · exact h
  · exact h.startTest
  · exact h.startTest
  · split
    · exact h.startFrozen
    · exact h
  · split
    · exact h.startFrozen
    · exact h
  · split
    · exact h.takePass
    · exact h

theorem FlashRuns.startLabelRead {r : HeaderReading} (h : FlashRuns s) : FlashRuns (s.startLabelRead r).1 := by
  unfold State.startLabelRead
  dsimp only
  split <;> split
  · exact .headerMismatch h.same
  · exact .headerMismatch h.same
  iterate 4 exact h.same

theorem FlashRuns.sectorStart {n : Nat} {r : HeaderReading} (h : FlashRuns s) : FlashRuns (s.sectorStart n r).1 := by
  unfold State.sectorStart
  split
  · exact h
  · split
    · split
      · exact h.startLabelRead
      · exact h
    · split
      · exact h.startInService
      · exact h

/-! ### The ends of passes -/

theorem FlashRuns.sectorDone (h : FlashRuns s) : FlashRuns (s.sectorDone p k g) := h.same

theorem FlashRuns.beginVerify (h : FlashRuns s) : FlashRuns (s.beginVerify p k) := by
  unfold State.beginVerify
  split
  · exact .ite (fun _ => h.same) fun _ => h
  · exact h

theorem FlashRuns.endDataPass (h : FlashRuns s) : FlashRuns (s.endDataPass p k sl g q d).1 := by
  unfold State.endDataPass
  dsimp only
  split
  · exact h.dataBoundary
  · split
    · exact .dataBoundary (.count (.sectorDone (.ite (fun _ => h) fun _ => h.same)))
    · exact .dataBoundary h.same
  · split <;> exact .dataBoundary h.same
  · split
    · exact .dataBoundary (.beginVerify (.testRequests h.same))
    · exact .dataBoundary h.same
  · split
    · exact .dataBoundary h.same
    · exact h.dataBoundary
  · exact h

theorem FlashRuns.endFormatPass (h : FlashRuns s) : FlashRuns (s.endFormatPass p k sl q).1 :=
  .maintThen h.same h.same

theorem FlashRuns.endZeroPass (h : FlashRuns s) : FlashRuns (s.endZeroPass p k g q).1 := by
  unfold State.endZeroPass
  dsimp only
  split
  · exact .maintThen h.same (.goTo h.same)
  · exact .maintThen h.same h.same

theorem FlashRuns.endLabelWritePass (h : FlashRuns s) : FlashRuns (s.endLabelWritePass p k g q).1 := by
  unfold State.endLabelWritePass
  dsimp only
  split <;> exact .maintThen h.same h.same

theorem FlashRuns.endReadBack (h : FlashRuns s) : FlashRuns (s.endReadBack p k sl q d).1 := by
  have lost : FlashRuns ((s.toStage .labelWrite).loseLabel .damaged) := .loseLabel h.same
  unfold State.endReadBack
  dsimp only
  split
  · exact .maintThen h.same h.same
  · exact lost.maintThen lost

theorem FlashRuns.endTestWrite (h : FlashRuns s) : FlashRuns (s.endTestWrite p k q) :=
  .ite (fun _ => h.same) fun _ => h.same

theorem FlashRuns.endTestRead (h : FlashRuns s) : FlashRuns (s.endTestRead p k sl q d).1 := by
  unfold State.endTestRead
  dsimp only
  split
  · split
    · exact .maintThen h.same h.same
    · exact h.same
  · exact h.same

theorem FlashRuns.endLabelRead (h : FlashRuns s) : FlashRuns (s.endLabelRead q d).1 := by
  unfold State.endLabelRead
  split
  · exact h.finishLabelRead
  · split
    · exact h.finishLabelRead
    · exact h.same

theorem FlashRuns.passEnd (h : FlashRuns s) : FlashRuns (s.passEnd d).1 := by
  have done : FlashRuns { s with pass := none } := h.same
  unfold State.passEnd
  split
  · exact h
  · dsimp only
    split
    · exact done.endLabelRead
    · split
      · split
        · exact done.endFormatPass
        · exact done.endZeroPass
        · exact done.endLabelWritePass
        · exact done.endReadBack
        · exact done.endTestWrite
        · exact done.endTestRead
        · exact done.endDataPass
      · exact done

/-! ### Indexes, arrivals, and the end of a step -/

theorem FlashRuns.completeTestWrite (h : FlashRuns s) : FlashRuns (s.completeTestWrite p k) := by
  unfold State.completeTestWrite
  split
  · exact .ite (fun _ => .endTestWrite h.same) fun _ => h
  · exact h

theorem FlashRuns.testBoundary {st : Stage} (h : FlashRuns s) : FlashRuns (s.testBoundary p k st).1 := by
  unfold State.testBoundary
  split
  · exact h
  · exact .maintThen h.same h.same

theorem FlashRuns.testIndex (h : FlashRuns s) : FlashRuns s.testIndex.1 := by
  unfold State.testIndex
  split
  · split
    · exact h.completeTestWrite.testBoundary
    · exact h
  · exact h

theorem FlashRuns.arrivalBoundary (h : FlashRuns s) : FlashRuns s.arrivalBoundary.1 := by
  unfold State.arrivalBoundary
  split
  · exact h
  · split
    · exact h.dataBoundary
    · dsimp only
      split
      · exact .maintThen h.same h.same
      · exact h.maintThen h

theorem FlashRuns.stopOrSelect (h : FlashRuns s) : FlashRuns s.stopOrSelect.1 := by
  unfold State.stopOrSelect
  split
  · exact h.enterSpinningDown
  · exact h.select

theorem FlashRuns.settle (n : Nat) {x : Agenda} (h : FlashRuns s) : FlashRuns (settle n (s, x)) := by
  induction n generalizing s x with
  | zero => exact h
  | succ n ih =>
    cases x with
    | idle => exact h
    | select => exact ih (x := s.select.2) h.select
    | released => exact ih (x := s.stopOrSelect.2) h.stopOrSelect
    | arrived => exact ih (x := s.arrivalBoundary.2) h.arrivalBoundary

theorem FlashRuns.settled {x : State × Agenda} (h : FlashRuns x.1) : FlashRuns (State.settled x) := h.settle settleLimit

theorem FlashRuns.schedule (h : FlashRuns s) : FlashRuns s.schedule := .settled (x := (s, .select)) h

theorem FlashRuns.scheduleOnEntry {before : DriveState} (h : FlashRuns s) : FlashRuns (s.scheduleOnEntry before) :=
  .ite (fun _ => h) fun _ => h.schedule

theorem FlashRuns.verdictChanged (h : FlashRuns s) : FlashRuns s.verdictChanged :=
  .ite (fun _ => h.same) fun _ => h.setReasons.scheduleOnEntry

theorem FlashRuns.indexWatch (h : FlashRuns s) : FlashRuns s.indexWatch := by
  have counted : FlashRuns (if s.countsRevolution then s.countBoth .outOfBand else s) :=
    .ite (fun _ => h.same) fun _ => h
  have measured := counted.onPos (f := fun x => (x.measure s.tick).atIndex)
  unfold State.indexWatch
  dsimp only
  exact .ite (fun _ => .onDrive (.ite (fun _ => measured) fun _ => measured.verdictChanged)) fun _ =>
    .ite (fun _ => measured) fun _ => measured.verdictChanged

/-! ### What orders, ports and the drive's lines do -/

theorem FlashRuns.enterSlot (h : FlashRuns s) : FlashRuns (s.enterSlot p sl) := by
  unfold State.enterSlot
  split
  · exact h.same
  · exact h

theorem FlashRuns.answerNow {x : Kind} {tag : Byte} {body : List Word} (h : FlashRuns s) :
    FlashRuns (s.answerNow p x tag body) := by
  unfold State.answerNow
  split
  · exact h.same
  · exact h

theorem FlashRuns.abandon (h : FlashRuns s) : FlashRuns (s.abandon p) := by
  rcases opened : (s.ports.get p).exchange with _ | e
  · rw [abandon_none opened]; exact h
  · rw [abandon_frame opened]; exact h.same

theorem FlashRuns.clearSlots (h : FlashRuns s) : FlashRuns (s.clearSlots p) := by
  refine FlashRuns.foldl slotNumbers _ (fun s k h => ?_) h
  unfold State.clearSlot
  split
  · exact h
  · exact .ite (fun _ => h.same) fun _ => h.same

theorem FlashRuns.withdrawRequests (h : FlashRuns s) : FlashRuns (s.withdrawRequests p) :=
  .foldl slotNumbers _ (fun _ _ h => h.same) h

theorem FlashRuns.runHolds (h : FlashRuns s) : FlashRuns s.runHolds := .ite (fun _ => h.enterSpinningUp) fun _ => h.same

theorem FlashRuns.runFails (h : FlashRuns s) : FlashRuns s.runFails := by
  unfold State.runFails
  split
  iterate 2 exact h
  iterate 4 exact h.enterSpinningDown
  all_goals exact .ite (fun _ => h.enterSpinningDown) fun _ => h.same

theorem FlashRuns.reseek (h : FlashRuns s) : FlashRuns s.reseek := by
  unfold State.reseek
  split <;> exact h.same

end
end Sys2Proof.Machine

/-! ## The laws of the alarm unit (O12) -/

namespace Sys2Proof.Machine

-- Every thread of the checker reserves a whole stack: these many short proofs are checked one after another.
set_option Elab.async false

section
variable {s t : State} {p : Port} {k : Fin 8} {sl : Slot}

/-! ### A judged line -/

/-- The manner rests neither on the line nor on its timer. -/
theorem manner_judgeAlarm (s : State) : s.judgeAlarm.manner = s.manner := by
  unfold State.judgeAlarm
  dsimp only
  split
  · split <;> rfl
  · rfl

/-- A line judged to flash, which flashed before, keeps its level and its timer (R167). -/
theorem judgeAlarm_still_flashing (h : s.manner = .flashing) (hm : s.alarms.manner = .flashing) : s.judgeAlarm = s := by
  unfold State.judgeAlarm
  dsimp only
  rw [if_pos h, if_pos hm]

/-- A line judged not to flash has its timer stopped and the level of its manner at once (R167). -/
theorem judgeAlarm_not_flashing (h : s.manner ≠ .flashing) : s.judgeAlarm = { s with alarms :=
    { s.alarms with manner := s.manner, level := decide (s.manner = .steady), flash := none } } := by
  unfold State.judgeAlarm
  dsimp only
  rw [if_neg h]

/-- Judging the line makes its law hold, where a flashing line's timer was running (R167). -/
theorem FlashRuns.judged (h : FlashRuns s) : s.judgeAlarm.annunciatorLaw := by
  unfold State.annunciatorLaw
  rw [manner_judgeAlarm]
  by_cases hm : s.manner = .flashing
  · by_cases hf : s.alarms.manner = .flashing
    · rw [judgeAlarm_still_flashing hm hf]
      exact ⟨hf.trans hm.symm, fun hn => absurd hf hn, h⟩
    · rw [judgeAlarm_flashing hm hf]
      exact ⟨hm.symm, fun hn => absurd rfl hn, fun _ => Option.some_ne_none _⟩
  · rw [judgeAlarm_not_flashing hm]
    exact ⟨rfl, fun _ => ⟨rfl, rfl⟩, fun e => absurd e hm⟩

/-! ### What leaves the line as it is judged -/

theorem State.annunciatorLaw.flashRuns (h : s.annunciatorLaw) : FlashRuns s := h.2.2

/-- An operation that leaves the alarm unit and every condition keeps the law of the line. -/
theorem State.annunciatorLaw.same (h : s.annunciatorLaw) (ha : t.alarms = s.alarms := by rfl)
    (hc : t.condition = s.condition := by rfl) : t.annunciatorLaw := by
  have manner : t.manner = s.manner := by unfold State.manner; rw [ha, hc]
  unfold State.annunciatorLaw
  rw [ha, manner]
  exact h

/-- The conditions rest on no more of a port than whether it is LOST (R163). -/
theorem condition_onPort {f : PortIf → PortIf}
    (kept : (f (s.ports.get p)).presence = .lost ↔ (s.ports.get p).presence = .lost) :
    (s.onPort p f).condition = s.condition := by
  have lost (q : Port) : ((s.onPort p f).ports.get q).presence = .lost ↔ (s.ports.get q).presence = .lost := by
    rw [onPort_ports, get_modify]
    split
    · next same => rw [same]; exact kept
    · exact Iff.rfl
  funext x
  cases x with
  | portALost => exact decide_eq_decide.mpr (lost .a)
  | portBLost => exact decide_eq_decide.mpr (lost .b)
  | _ => rfl

theorem State.annunciatorLaw.onPort {f : PortIf → PortIf} (h : s.annunciatorLaw)
    (kept : (f (s.ports.get p)).presence = .lost ↔ (s.ports.get p).presence = .lost := by exact Iff.rfl) :
    (s.onPort p f).annunciatorLaw := h.same (hc := condition_onPort kept)

theorem State.annunciatorLaw.ite {c : Prop} [Decidable c] (h : c → s.annunciatorLaw) (h' : ¬c → t.annunciatorLaw) :
    (if c then s else t).annunciatorLaw := by
  split
  · next hc => exact h hc
  · next hc => exact h' hc

theorem State.annunciatorLaw.testRequests (h : s.annunciatorLaw) : s.testRequests.annunciatorLaw := by
  rw [testRequests_buffers]; exact h.same

theorem State.annunciatorLaw.close {x : State × Agenda} (h : FlashRuns x.1) : (State.close x).annunciatorLaw :=
  h.settled.judged

/-! ### Exchanges and orders -/

theorem State.annunciatorLaw.count {c : Counter} (h : s.annunciatorLaw) : (s.count p c).annunciatorLaw := h.same

theorem State.annunciatorLaw.answer {w : Word} (h : s.annunciatorLaw) : (s.answer p w).annunciatorLaw := h.onPort

theorem State.annunciatorLaw.openExchange {x : ExchangeKind} {w : Word} {r : List Word} (h : s.annunciatorLaw) :
    (s.openExchange p x w r).annunciatorLaw := h.onPort

theorem State.annunciatorLaw.closeExchange (h : s.annunciatorLaw) : (s.closeExchange p).annunciatorLaw := h.onPort

theorem State.annunciatorLaw.disarm (h : s.annunciatorLaw) : (s.disarm p).annunciatorLaw := h.onPort

theorem State.annunciatorLaw.refuse {r : Refuse} (h : s.annunciatorLaw) : (s.refuse p r).annunciatorLaw :=
  h.disarm.count.answer

theorem abandon_presence : ((s.abandon p).ports.get p).presence = (s.ports.get p).presence := by
  rcases opened : (s.ports.get p).exchange with _ | e
  · rw [abandon_none opened]
  · rw [abandon_port opened]

theorem State.annunciatorLaw.abandon (h : s.annunciatorLaw) : (s.abandon p).annunciatorLaw := by
  rcases opened : (s.ports.get p).exchange with _ | e
  · rw [abandon_none opened]; exact h
  · have short : (s.cutShort p).annunciatorLaw := .count h.onPort
    rw [abandon_frame opened]
    exact short.same

/-- An opening word changes a condition only where it ends the port's loss, and then the line is judged (R161, R163). -/
theorem State.annunciatorLaw.openWord (h : s.annunciatorLaw) : (s.openWord p).annunciatorLaw := by
  refine .ite (fun _ => (FlashRuns.testRequests h.abandon.flashRuns.same).judged) fun there => h.abandon.onPort ?_
  rw [abandon_presence]
  exact iff_of_false (fun e => by cases e) fun lost => there (decide_eq_true lost)

theorem State.annunciatorLaw.answerNow {x : Kind} {tag : Byte} {body : List Word} (h : s.annunciatorLaw) :
    (s.answerNow p x tag body).annunciatorLaw := by
  unfold State.answerNow
  split
  · exact h.same
  · exact h

theorem FlashRuns.enqueued (h : FlashRuns s) : (s.enqueue p sl).annunciatorLaw := h.enterSlot.schedule.judged

/-- A completed order packet keeps the law of the line where its kind's acceptance does. -/
theorem State.annunciatorLaw.orderPacket {o : OrderRule} {tag : Byte} {rest : List Word} (h : s.annunciatorLaw)
    (accept : ∀ x, (s.disarm p).annunciatorLaw → (o.accept (s.disarm p) p x).annunciatorLaw) :
    (s.orderPacket p o tag rest).annunciatorLaw := by
  unfold State.orderPacket
  split
  · split
    · exact h.refuse
    · split
      · exact h.refuse
      · exact (accept _ h.disarm).count.answer
  · exact h

theorem State.annunciatorLaw.deliver {b : Fin 4} (h : s.annunciatorLaw) : (s.deliver b).annunciatorLaw := by
  unfold State.deliver
  dsimp only
  split
  · exact h.same
  · split
    · split
      · split <;> exact h.same
      · exact h.same
    · exact h.same

/-- A WRITE PLAN stages a plan, or loads the active map, after which the line is judged (R20, R21). -/
theorem State.annunciatorLaw.writePlanned {x : Packet} (h : s.annunciatorLaw) :
    (writePlanRule.accept s p x).annunciatorLaw := by
  have planned (n : Nat) (m : Plan) : FlashRuns (s.writePlan n m) := by
    unfold State.writePlan
    split
    · exact h.flashRuns.loadMap
    · exact h.flashRuns.same
    · exact h.flashRuns.same
  refine .ite (fun _ => (planned _ _).answerNow.schedule.judged) fun staged => .answerNow ?_
  unfold State.writePlan
  split
  · next direct => exact absurd direct staged
  · exact h.same
  · exact h.same

theorem FlashRuns.clearPort (h : FlashRuns s) : (s.clearPort p).annunciatorLaw := by
  have cleared := (h.clearSlots (p := p)).onPort (p := p) (f := fun x => { x.reload s.tick with presence := .present })
  exact cleared.testRequests.schedule.judged

theorem FlashRuns.losePort (h : FlashRuns s) : (s.losePort p).annunciatorLaw :=
  h.abandon.onPort.withdrawRequests.endWhere.latch.autoChangeover.testRequests.schedule.judged

/-- A slot that waits or drains ends without a change of the alarm unit or of a condition (R49, R163). -/
theorem State.annunciatorLaw.endSlot_waiting {e : Ending} {fa : Option Addr} (h : s.annunciatorLaw)
    (live : s.slot p k = some sl) (unfinished : sl.state ≠ .done) (waits : sl.state ≠ .inService) :
    (s.endSlot p k e fa).annunciatorLaw := by
  rw [Machine.endSlot_waiting live unfinished waits]
  refine .testRequests ?_
  unfold State.countEnding
  split <;> exact h.same

end
end Sys2Proof.Machine

/-! ## Every step, and the table of R167 (O12) -/

namespace Sys2Proof.Machine

-- Every thread of the checker reserves a whole stack: these many short proofs are checked one after another.
set_option Elab.async false

section
variable {s t : State} {p : Port}

/-! ### Every command -/

/-- A reset judges the line of an alarm unit whose timer is stopped (R163, R167). -/
theorem resetTo_annunciatorLaw (s : State) (l : Lines) (d : Cartridge) (m : MapUnit) (g : Guard) :
    (s.resetTo l d m g).annunciatorLaw := by
  have stopped : FlashRuns (resetWith s l d m g) := fun e => by cases e
  have loaded : FlashRuns (resetWith s l d m g).resetLoad := .ite (fun _ => stopped.same) fun _ => stopped.same
  exact loaded.judgeRun.judged

/-- An expiry leaves the manner, and starts the timer again (R167). -/
theorem State.annunciatorLaw.flashed (h : s.annunciatorLaw) (flashing : s.alarms.manner = .flashing) :
    ({ s with alarms := s.alarms.flashed s.tick } : State).annunciatorLaw :=
  ⟨h.1, fun still => absurd flashing still, fun _ => Option.some_ne_none _⟩

/-- A command that changes what the manner rests on judges the line at its end; any other leaves the manner (R167). -/
theorem exec_annunciatorLaw {c : Instr} (e : exec c s = .next t) (h : s.annunciatorLaw) : t.annunciatorLaw := by
  have f := h.flashRuns
  cases c with
  | powerOn l x => cases e; exact resetTo_annunciatorLaw ..
  | panelReset => cases e; exact resetTo_annunciatorLaw ..
  | orderOutOpening p w => cases e; exact .ite (fun _ => h.openWord.refuse) fun _ => h.openWord.openExchange
  | dataOutOpening p w => cases e; exact h.openWord.openExchange
  | replyIn p w => cases e; exact h.openWord.openExchange
  | dataIn p w => cases e; exact h.openWord.openExchange
  | statusIn p w whole =>
    cases e; exact .ite (fun _ => h.openWord.openExchange.onPort) fun _ => h.openWord.openExchange
  | openingWordNoKind p w => cases e; exact h.openWord.count
  | strayWord p w =>
    cases e
    split
    · exact h
    · exact h.onPort
  | dataOut p header words =>
    cases e
    split
    · split
      · exact h.answer
      · split
        · exact .answer h.same
        · exact h.answer
    · exact h
  | replyInComplete p =>
    cases e
    split
    · exact .closeExchange h.same
    · exact h.closeExchange
    · exact h
  | dataInComplete p =>
    cases e
    split
    · exact h.deliver.testRequests.closeExchange
    · exact h.closeExchange
    · exact h
  | read p tag rest => cases e; exact h.orderPacket fun _ d => d.flashRuns.count.enqueued
  | write p tag rest => cases e; exact h.orderPacket fun _ d => d.flashRuns.count.enqueued
  | check p tag rest => cases e; exact h.orderPacket fun _ d => d.flashRuns.count.enqueued
  | formatTrack p tag rest => cases e; exact h.orderPacket fun _ d => d.flashRuns.enqueued
  | initializeLabel p tag rest => cases e; exact h.orderPacket fun _ d => d.flashRuns.enqueued
  | assignSpare p tag rest => cases e; exact h.orderPacket fun _ d => d.flashRuns.enqueued
  | testTrack p tag rest => cases e; exact h.orderPacket fun _ d => d.flashRuns.enqueued
  | readPlan p tag rest => cases e; exact h.orderPacket fun _ d => d.answerNow
  | writePlan p tag rest => cases e; exact h.orderPacket fun _ d => d.writePlanned
  | loadPlan p tag rest =>
    cases e; exact h.orderPacket fun _ d => d.flashRuns.loadMapLatched.answerNow.schedule.judged
  | setMapMode p tag rest => cases e; exact h.orderPacket fun _ d => .answerNow d.same
  | setGuard p tag rest => cases e; exact h.orderPacket fun _ d => .answerNow d.same
  | setSupervision p tag rest => cases e; exact h.orderPacket fun _ d => d.onPort.answerNow
  | setAlarmLine p tag rest =>
    cases e; exact h.orderPacket fun _ d => (FlashRuns.answerNow d.flashRuns.same).judged
  | clearAlarms p tag rest =>
    cases e
    exact h.orderPacket fun _ d =>
      (FlashRuns.answerNow (.ite (fun _ => d.flashRuns.same) fun _ => d.flashRuns.same)).judged
  | captureStatistics p tag rest => cases e; exact h.orderPacket fun _ d => .answerNow d.same
  | readStatistics p tag rest => cases e; exact h.orderPacket fun _ d => d.answerNow
  | readLabel p tag rest => cases e; exact h.orderPacket fun _ d => d.answerNow
  | restartDrive p tag rest =>
    cases e; exact h.orderPacket fun _ d => d.flashRuns.enterSpinningUp.answerNow.judged
  | arm p tag rest => cases e; exact h.orderPacket fun _ d => d.onPort
  | clearPort p tag rest => cases e; exact h.orderPacket fun _ d => d.flashRuns.clearPort
  | unknownKind p code tag rest =>
    cases e
    split
    · split <;> exact h.refuse
    · exact h
  | changeoverStrobe =>
    cases e
    exact .ite (fun _ => h) fun _ => .ite (fun _ => (FlashRuns.loadMapLatched f.same).schedule.judged) fun _ => h.same
  | planSelectLine x => cases e; exact h.same
  | fixedPlanKeyOn => cases e; exact .ite (fun _ => h) fun _ => (FlashRuns.loadMapLatched f.same).schedule.judged
  | fixedPlanKeyOff => cases e; exact h.same
  | guardKeyLine x => cases e; exact h.same
  | alarmAcknowledge => cases e; exact .ite (fun _ => h) fun _ => FlashRuns.judged f.same
  | flashTimerExpiry => cases e; exact .ite (fun due => h.flashed due.1) fun _ => h
  | presenceTimerExpiry p => cases e; exact .ite (fun _ => f.losePort) fun _ => h
  | dueTickExpiry p tag =>
    cases e
    split
    · exact .ite (fun _ => f.endSlot.schedule.judged) fun _ => h
    · exact h
  | drainLimit p tag =>
    cases e
    split
    · next found =>
      refine .ite (fun drained => ?_) fun _ => h
      exact h.endSlot_waiting (tagged_some found).1 (by rw [drained.1]; decide) (by rw [drained.1]; decide)
    · exact h
  | indexPulse x => cases e; exact .close f.indexWatch.testIndex.settled.sectorStart
  | sectorPulse x =>
    cases e
    exact .ite (fun _ => h) fun _ => .ite (fun _ => .close (FlashRuns.sectorStart f.same)) fun _ =>
      .ite (fun _ => h.same) fun _ => h.same
  | sectorPassEnd d => cases e; exact .close f.passEnd
  | seekArrival =>
    cases e
    split
    · exact .ite (fun _ => .close (FlashRuns.arrivalBoundary f.same)) fun _ => h.same
    · exact h
  | seekTimeout => cases e; exact .ite (fun _ => f.seekError.judged) fun _ => h
  | recalibrationComplete =>
    cases e
    exact .ite (fun _ => FlashRuns.judged (.schedule
      (.ite (fun _ => FlashRuns.enterLabelRead f.same) fun _ => FlashRuns.reseek f.same))) fun _ => h
  | recalibrationLimit => cases e; exact .ite (fun _ => f.recalibrationFailed.judged) fun _ => h
  | indexLoss => cases e; exact .ite (fun _ => f.enterFaulted.judged) fun _ => h
  | runConditionHolds cart =>
    cases e
    have placed : FlashRuns (s.exchange cart) := by
      cases cart with
      | none => exact f
      | some x => exact .ite (fun _ => f.same) fun _ => f
    exact .ite (fun _ => h) fun _ => (FlashRuns.runHolds placed.onLines).judged
  | runConditionFails x y z =>
    cases e; exact .ite (fun _ => (FlashRuns.runFails f.same).judged) fun _ => h.same
  | writeSupplyLost => cases e; exact (FlashRuns.setReasons f.same).scheduleOnEntry.judged
  | writeSupplyGood => cases e; exact (FlashRuns.setReasons f.same).scheduleOnEntry.judged
  | overTemperature =>
    cases e
    exact .ite (fun _ => h) fun _ => .ite (fun _ => (FlashRuns.enterFaulted f.same).judged) fun _ => h.same
  | spinUpTimeout => cases e; exact .ite (fun _ => f.enterFaulted.judged) fun _ => h
  | runDownTimeout => cases e; exact .ite (fun _ => (FlashRuns.judgeRun f.same).judged) fun _ => h
  | overTemperatureInactive => cases e; exact h.same
  | changeoverStrobeInactive => cases e; exact h.same
  | alarmAcknowledgeInactive => cases e; exact h.same

theorem step_annunciatorLaw (e : step s = .next t) (h : s.annunciatorLaw) : t.annunciatorLaw := by
  unfold step at e
  split at e
  · cases e; exact h.same
  · exact exec_annunciatorLaw e h.same

/-! ### The flags -/

/-- A latch leaves its own flag unacknowledged (R164). -/
theorem latch_alarmLaw (h : s.alarmLaw) (x : Source) : (s.latch x).alarmLaw := by
  intro y acked
  rw [latch_alarms] at acked ⊢
  by_cases e : y = x
  · rw [e, get_put_same] at acked
    cases acked
  · rw [get_put_other _ _ _ _ e] at acked ⊢
    exact h y acked

/-- What an acknowledgement adds is latched (R165). -/
theorem acknowledge_alarmLaw (h : s.alarmLaw) : ({ s with alarms := s.alarms.acknowledge } : State).alarmLaw := by
  intro x acked
  simp only [Alarms.acknowledge, get_of, Bool.or_eq_true] at acked
  exact acked.elim (h x) id

/-- A flag that is cleared is acknowledged no more (R165). -/
theorem clearFlags_alarmLaw (h : s.alarmLaw) (clear : SourceSet) : (s.clearFlags clear).alarmLaw := by
  intro x acked
  simp only [State.clearFlags, get_of, Bool.and_eq_true] at acked ⊢
  exact ⟨h x acked.1, acked.2⟩

theorem reset_alarmLaw : State.reset.alarmLaw := fun x acked => by cases x <;> cases acked

theorem step_alarmLaw (e : step s = .next t) (h : s.alarmLaw) : t.alarmLaw := by
  refine step_keeps (I := State.alarmLaw) (fun _ _ h => h) (fun _ h => h) ?_ ?_ ?_ (fun _ _ _ h => h) e h
  · intro _ _ _ _ _ _ _ _
    exact reset_alarmLaw
  · intro s t m h
    cases m with
    | latch x => exact latch_alarmLaw h x
    | alarms x kept =>
      intro y acked
      show x.latched.get y = true
      rw [kept.1]
      exact h y (kept.2 ▸ acked)
    | _ => exact h
  · intro c s t m h
    cases m with
    | acknowledge => exact acknowledge_alarmLaw h
    | clear x _ => exact clearFlags_alarmLaw h x
    | _ => exact h

/-! ### The manner (R167) -/

theorem mem_sources (x : Source) : x ∈ sources := by cases x <;> decide

/-- The flag counts toward the SUMMARY line: latched and not masked (R166, R167). -/
def Alarms.Shown (a : Alarms) (x : Source) : Prop := a.latched.get x = true ∧ a.masked.get x = false

/-- The flag makes the SUMMARY line flash: it counts toward it and is not acknowledged (R167). -/
def Alarms.Waiting (a : Alarms) (x : Source) : Prop := a.Shown x ∧ a.acked.get x = false

theorem any_shown (a : Alarms) : (sources.any fun i => a.latched.get i && !a.masked.get i) = true ↔ ∃ x, a.Shown x := by
  simp [List.any_eq_true, mem_sources, Alarms.Shown]

theorem any_waiting (a : Alarms) :
    (sources.any fun i => a.latched.get i && !a.masked.get i && !a.acked.get i) = true ↔ ∃ x, a.Waiting x := by
  simp [List.any_eq_true, mem_sources, Alarms.Waiting, Alarms.Shown]

section
variable (summary : s.alarms.follow = false)
include summary

theorem manner_flashing (h : ∃ x, s.alarms.Waiting x) : s.manner = .flashing := by
  unfold State.manner
  dsimp only
  rw [if_neg (by simp [summary]), if_pos ((any_waiting _).mpr h)]

theorem manner_steady (none : ¬∃ x, s.alarms.Waiting x) (h : ∃ x, s.alarms.Shown x) : s.manner = .steady := by
  unfold State.manner
  dsimp only
  rw [if_neg (by simp [summary]), if_neg (mt (any_waiting _).mp none), if_pos ((any_shown _).mpr h)]

theorem manner_inactive (none : ¬∃ x, s.alarms.Shown x) : s.manner = .inactive := by
  have calm : ¬∃ x, s.alarms.Waiting x := fun ⟨x, w⟩ => none ⟨x, w.1⟩
  unfold State.manner
  dsimp only
  rw [if_neg (by simp [summary]), if_neg (mt (any_waiting _).mp calm), if_neg (mt (any_shown _).mp none)]

/-- The SUMMARY line of R167's table. -/
theorem manner_summary : (s.manner = .inactive ↔ ∀ x, ¬s.alarms.Shown x)
    ∧ (s.manner = .flashing ↔ ∃ x, s.alarms.Waiting x)
    ∧ (s.manner = .steady ↔ (∃ x, s.alarms.Shown x) ∧ ∀ x, ¬s.alarms.Waiting x) := by
  rw [← not_exists, ← not_exists]
  by_cases waiting : ∃ x, s.alarms.Waiting x
  · have shown : ∃ x, s.alarms.Shown x := waiting.imp fun _ w => w.1
    simp [manner_flashing summary waiting, waiting, shown]
  · by_cases shown : ∃ x, s.alarms.Shown x
    · simp [manner_steady summary waiting shown, waiting, shown]
    · simp [manner_inactive summary shown, waiting, shown]

end

/-- What the FOLLOW line shows: the flag of an event source, the condition of any other (R167). -/
def State.followed (s : State) : Bool :=
  if s.alarms.source.isEvent then s.alarms.latched.get s.alarms.source else s.condition s.alarms.source

theorem manner_follow (follow : s.alarms.follow = true) : s.manner = if s.followed then .steady else .inactive :=
  if_pos follow

theorem manner_follow_steady (follow : s.alarms.follow = true) : s.manner = .steady ↔ s.followed = true := by
  rw [manner_follow follow]
  cases s.followed <;> simp

theorem manner_follow_not_flashing (follow : s.alarms.follow = true) : s.manner ≠ .flashing := by
  rw [manner_follow follow]
  cases s.followed <;> simp

theorem isEvent_iff (x : Source) : x.isEvent = true ↔ x = .planLoaded ∨ x = .sectorLost := by
  cases x <;> simp [Source.isEvent]

theorem condition_lostSource (p : Port) : s.condition (lostSource p) = true ↔ (s.ports.get p).presence = .lost := by
  cases p <;> exact decide_eq_true_iff

theorem condition_labelNotValid : s.condition .labelNotValid = true ↔
    (s.drive.state = .ready ∨ s.drive.state = .degraded) ∧ s.label.state ≠ .valid := by
  rw [← serving_iff]
  simp [State.condition]

end

/-- Settles O12: the flags by every move and act of a step, the line by every command's last judgement, and the manner
by the cases of R167's table. -/
theorem theAlarmUnitKeepsItsLaws : Obligations.TheAlarmUnitKeepsItsLaws := by
  refine ⟨fun s t e => ⟨step_alarmLaw e, step_annunciatorLaw e⟩, fun s => ?_⟩
  refine ⟨manner_summary, fun follow => ⟨manner_follow_not_flashing follow, fun event => ?_, fun other => ?_⟩,
    condition_lostSource, ⟨rfl, rfl⟩, decide_eq_true_iff, decide_eq_true_iff, condition_labelNotValid, rfl, rfl⟩
  · rw [manner_follow_steady follow, State.followed, if_pos ((isEvent_iff _).mpr event)]
  · rw [manner_follow_steady follow, State.followed, if_neg (mt (isEvent_iff _).mp other)]

end Sys2Proof.Machine

/-! ## The acknowledge line and the flash timer (O38) -/

namespace Sys2Proof.Machine

section
variable {s : State}

/-- The state that the acknowledge line's edge leaves to the judgement of the alarm line (R165). -/
def State.acknowledged (s : State) : State :=
  { s with lines := { s.lines with ack := true }, alarms := s.alarms.acknowledge }

theorem exec_alarmAcknowledge_active (active : s.lines.ack = true) : exec .alarmAcknowledge s = .next s := by
  show execAlarmAcknowledge s = _
  rw [execAlarmAcknowledge, if_pos active]

theorem exec_alarmAcknowledge_edge (inactive : s.lines.ack = false) :
    exec .alarmAcknowledge s = .next s.acknowledged.judgeAlarm := by
  show execAlarmAcknowledge s = _
  rw [execAlarmAcknowledge, if_neg (by simp [inactive])]
  rfl

/-- After the edge no flag is left that makes the line flash (R165, R167). -/
theorem acknowledged_none_waiting (s : State) : ¬∃ x, s.acknowledged.alarms.Waiting x := by
  rintro ⟨x, ⟨latched, -⟩, unacked⟩
  have acked : (s.alarms.acked.get x || s.alarms.latched.get x) = false := (get_of _ x).symm.trans unacked
  rw [show s.alarms.latched.get x = true from latched, Bool.or_true] at acked
  cases acked

theorem acknowledged_not_flashing (s : State) : s.acknowledged.manner ≠ .flashing := by
  cases line : s.alarms.follow with
  | true => exact manner_follow_not_flashing (s := s.acknowledged) line
  | false => exact mt (manner_summary (s := s.acknowledged) line).2.1.mp (acknowledged_none_waiting s)

theorem acknowledged_steady (summary : s.alarms.follow = false) :
    s.acknowledged.manner = .steady ↔ ∃ x, s.alarms.Shown x := by
  rw [(manner_summary (s := s.acknowledged) summary).2.2]
  exact and_iff_left (not_exists.mp (acknowledged_none_waiting s))

theorem exec_flashTimerExpiry_due {d : Tick} (running : s.alarms.flash = some d)
    (flashing : s.alarms.manner = .flashing) (due : (d - s.tick).toInt ≤ 0) :
    exec .flashTimerExpiry s = .next { s with alarms := s.alarms.flashed s.tick } := by
  show execFlashTimerExpiry s = _
  rw [execFlashTimerExpiry, if_pos]
  exact ⟨flashing, by rw [running]; exact decide_eq_true due⟩

theorem exec_flashTimerExpiry_early {d : Tick} (running : s.alarms.flash = some d)
    (early : s.alarms.manner ≠ .flashing ∨ 0 < (d - s.tick).toInt) : exec .flashTimerExpiry s = .next s := by
  show execFlashTimerExpiry s = _
  rw [execFlashTimerExpiry, if_neg]
  rintro ⟨flashing, ran⟩
  rw [running] at ran
  have due : (d - s.tick).toInt ≤ 0 := of_decide_eq_true ran
  exact early.elim (absurd flashing) (Int.not_lt.mpr due)

end

/-- Settles O38: at the edge the line is judged with no flag left unacknowledged, and an expiry acts where it is due. -/
theorem acknowledgingStopsTheFlashing : Obligations.AcknowledgingStopsTheFlashing := by
  refine fun s => ⟨exec_alarmAcknowledge_active, fun inactive => ⟨s.acknowledged.judgeAlarm.alarms, ?_⟩,
    fun d running => ⟨exec_flashTimerExpiry_due running, exec_flashTimerExpiry_early running⟩⟩
  have judged := judgeAlarm_not_flashing (acknowledged_not_flashing s)
  refine ⟨exec_alarmAcknowledge_edge inactive, ?_⟩
  rw [judged]
  exact ⟨rfl, rfl, rfl, rfl, fun i => get_of _ i, acknowledged_not_flashing s, rfl, rfl, acknowledged_steady⟩

end Sys2Proof.Machine
